-- ==== Sys2Proof/Word.lean ====
section
/-! DEFINITION. The plain words of the AK880: byte, word, dword (R5), and the arithmetic shared by every layer. -/

namespace Sys2Proof

/-- R5: a byte is 8 bits. -/
abbrev Byte := BitVec 8
/-- R5: a word is 32 bits. -/
abbrev Word := BitVec 32
/-- R5: a dword is 64 bits. -/
abbrev Dword := BitVec 64

/-- Ceiling of `a / b`. -/
def ceilDiv (a b : Nat) : Nat := (a + b - 1) / b

/-- Ceiling of the base-2 logarithm, with `log2c 1 = 0`. -/
def log2c (n : Nat) : Nat := if n ≤ 1 then 0 else Nat.log2 (n - 1) + 1

/-- The field `x[hi:lo]` of a dword as an unsigned number (R3). -/
def fld (x : Dword) (hi lo : Nat) : Nat := (x.toNat / 2 ^ lo) % 2 ^ (hi + 1 - lo)

/-- Two's-complement reading of the low `w` bits of `n` (R7). -/
def sgn (w n : Nat) : Int := if n % 2 ^ w < 2 ^ (w - 1) then (n % 2 ^ w : Nat) else ((n % 2 ^ w : Nat) : Int) - 2 ^ w

end Sys2Proof
end

