-- ==== Sys2Proof/Config.lean ====
section
/-! DEFINITION. What the spec leaves to an implementation or leaves open: free values without a body. Nothing can evaluate one of these constants or prove which value it has, so a claim is true whatever they are. -/

namespace Sys2Proof

/-- A free byte: the draw number (the state's counter) and a sub-index within the draw (DESIGN CHOICE, log 4). -/
opaque Config.freeByte : Nat → Nat → Byte

/-- A free choice between two outcomes the spec allows, such as old or new bytes under R61 (DESIGN CHOICE, log 4). -/
opaque Config.freeBool : Nat → Nat → Bool

/-- A free duration or position the spec does not fix, such as the latency of an untimed access (R188) (DESIGN CHOICE, log 4). -/
opaque Config.freeNat : Nat → Nat

/-- How many edges after a write an observer sees one of its 64-byte granules, at most to the end of its Time: the write's number, the granule, the observer (R118 to R122; DESIGN CHOICE, log 13). -/
opaque Config.freeAt : Nat → Nat → Nat → Nat

/-- The code VQNT gives an element under a NaN scale (R109 states none), by the element's bits (DESIGN CHOICE, log 16). -/
opaque Config.q4NanScale : Nat → Nat

/-- The public key in a slot of the boot ROM: modulus and exponent (R390, R391). -/
opaque Config.romKey : Nat → Nat × Nat

/-- Fused key slots that are revoked (R391, check 3). -/
opaque Config.slotRevoked : Nat → Bool

/-- The fused minimum of the security version number (R391, check 4). -/
opaque Config.minSvn : Nat

/-- The root and identity certificates of slot 0's chain (R401). -/
opaque Config.rootChain : List Byte

/-- The alias key that the loader derives from the part's secret and an image digest: modulus, public exponent, private exponent (R401). -/
opaque Config.aliasKey : List Byte → Nat × Nat × Nat

/-- The alias certificate for a public key, signed with the identity key (R401). -/
opaque Config.aliasCert : Nat × Nat → List Byte

/-- The boot ROM's bytes, measured as block 1 (R401). -/
opaque Config.bootRom : List Byte

end Sys2Proof
end

