-- ==== Sys2Proof/Syntax.lean ====
section
/-! DEFINITION. The instructions and machine events of the AK880: one constructor per row of the opcode table. An instruction carries its common head (R144) and one of the payloads of R147 to R149; an event carries what it acts on. -/

namespace Sys2Proof

/-- The four streams of a core (R25), in the order in which they are checked within a cycle. -/
inductive Strm where
  | s | a | v | m
  deriving DecidableEq, Repr

/-- An exposed compute core, numbered x + 32 y (R17). -/
abbrev CoreId := Fin 256

/-- What issues instructions: the harbour core (R331) or a compute core. -/
inductive Hart where
  | harbour
  | core (c : CoreId)
  deriving DecidableEq, Repr

/-- The common head of a word but for its OP (R144). -/
structure Head where
  idle : BitVec 15
  gnot : Bool
  grd : BitVec 4
  fn : BitVec 4
  deriving DecidableEq, Repr

/-- Payload P-R (R147). -/
structure PR where
  imm : BitVec 32
  x : BitVec 5
  b : BitVec 9
  a : BitVec 9
  d : BitVec 9
  deriving DecidableEq, Repr

/-- Payload P-V (R148). -/
structure PV where
  cnt : BitVec 16
  mode : BitVec 12
  c : BitVec 9
  b : BitVec 9
  a : BitVec 9
  d : BitVec 9
  deriving DecidableEq, Repr

/-- Payload P-M (R149). -/
structure PM where
  tk : BitVec 12
  tn : BitVec 8
  tm : BitVec 8
  kk : BitVec 4
  nn : BitVec 4
  mm : BitVec 4
  mta : BitVec 9
  acc : BitVec 7
  rb : BitVec 4
  ra : BitVec 4
  deriving DecidableEq, Repr

/-- A trap: its cause (R340), the VA and INFO of its record (R339). -/
structure TrapInfo where
  cause : Nat
  va : Nat
  info : Nat
  deriving DecidableEq, Repr

/-- The landing credit an arrival carries (R84, R286, R288): landing address, bytes, flag bits, and for a checked copy its MODE with the sender's running CRC. -/
structure Credit where
  land : Nat
  count : Nat
  flags : Nat
  crc : Option (Nat × Nat)
  /-- The copy's scope (R85, R134). -/
  scope : Nat := 0
  deriving DecidableEq, Repr

/-- Data arriving at a core's pool through the arrival port (R74): the launch and relative place addressed, the source island and its incarnation (R396), the bytes in writing order, which of them carry poison, the bytes that a checksum covers (R288), and the credit made with the last write. -/
structure Arrival where
  lid : Nat
  rx : Nat
  ry : Nat
  isl : Nat
  inc : Nat
  bytes : List (Nat × Byte)
  poison : List Nat
  sent : List Byte := []
  last : Bool
  credit : Option Credit
  /-- By which another part tells its copies apart. -/
  copy : Nat := 0
  deriving DecidableEq, Repr

/-- Where an uncorrectable error strikes (R399, R400). -/
inductive ErrSite where
  | pool (c : CoreId) (addr : Nat)
  | line (addr : Nat)
  | word (c : CoreId) (addr : Nat)
  | shadow (c : CoreId) (addr : Nat)
  | reg (c : CoreId) (file idx : Nat)
  | row (c : CoreId) (idx : Nat)
  | sort (c : CoreId) (cell : Nat)
  deriving DecidableEq, Repr

/-- The rows of the opcode table: 151 instructions, then 96 machine events. -/
inductive Instr where
  /-- NOP: Issues in any stream and delays that stream's next issue by n cycles. -/
  | nop (h : Head) (p : PR)
  /-- ILL: Opcode 0x00, or any unassigned code, raises ILLEGAL_OP at issue. -/
  | ill (h : Head) (op : Byte) (p : PR)
  /-- ADD: Writes the 64-bit sum of g[A] and the second source to g[D]. -/
  | add (h : Head) (p : PR)
  /-- SUB: Writes the 64-bit difference of g[A] and the second source to g[D]. -/
  | sub (h : Head) (p : PR)
  /-- MUL: Writes the low 64 bits of the product to g[D]. -/
  | mul (h : Head) (p : PR)
  /-- MULH: Writes the high 64 bits of the signed or unsigned product to g[D]. -/
  | mulh (h : Head) (p : PR)
  /-- DIV: Writes the signed or unsigned quotient, with fixed results for division by zero and for overflow. -/
  | div (h : Head) (p : PR)
  /-- REM: Writes the signed or unsigned remainder, with fixed results for division by zero and for overflow. -/
  | rem (h : Head) (p : PR)
  /-- AND: Writes the bitwise AND of the two sources. -/
  | and (h : Head) (p : PR)
  /-- OR: Writes the bitwise OR of the two sources. -/
  | or (h : Head) (p : PR)
  /-- XOR: Writes the bitwise XOR of the two sources. -/
  | xor (h : Head) (p : PR)
  /-- SHL: Shifts g[A] left by the low 6 bits of the second source. -/
  | shl (h : Head) (p : PR)
  /-- SHR: Shifts g[A] right logically by the low 6 bits of the second source. -/
  | shr (h : Head) (p : PR)
  /-- SAR: Shifts g[A] right arithmetically by the low 6 bits of the second source. -/
  | sar (h : Head) (p : PR)
  /-- MIN: Writes the lesser of the two sources, compared signed or unsigned. -/
  | min (h : Head) (p : PR)
  /-- MAX: Writes the greater of the two sources, compared signed or unsigned. -/
  | max (h : Head) (p : PR)
  /-- CMP: Writes a predicate from a comparison of two 64-bit values. -/
  | cmp (h : Head) (p : PR)
  /-- SEL: Chooses one of two g registers by a predicate. -/
  | sel (h : Head) (p : PR)
  /-- LI: Loads the sign-extended immediate into g[D] and clears its taint. -/
  | li (h : Head) (p : PR)
  /-- LI_Z: Loads the zero-extended immediate into g[D]. -/
  | liZ (h : Head) (p : PR)
  /-- LIH: Replaces the upper 32 bits of g[D] with the immediate. -/
  | lih (h : Head) (p : PR)
  /-- PLOG: Combines two predicates by a logical operation selected by FN. -/
  | plog (h : Head) (p : PR)
  /-- POPC: Counts the one bits of g[A]. -/
  | popc (h : Head) (p : PR)
  /-- CLZ: Counts the leading zero bits of g[A]. -/
  | clz (h : Head) (p : PR)
  /-- BR: Branches to a PC-relative target when its guard is true. -/
  | br (h : Head) (p : PR)
  /-- JMP: Jumps to g[A] plus an offset. -/
  | jmp (h : Head) (p : PR)
  /-- CALL: Branches to a PC-relative target and writes the return address to g63. -/
  | call (h : Head) (p : PR)
  /-- CALL_R: Calls a register-based target and writes the return address to g63. -/
  | callR (h : Head) (p : PR)
  /-- RET: Branches to the address held in g63. -/
  | ret (h : Head) (p : PR)
  /-- LOOP: Decrements g[D] and branches while the result is non-zero. -/
  | loop (h : Head) (p : PR)
  /-- END: Ends the stream for the rest of the launch. -/
  | endS (h : Head) (p : PR)
  /-- BRK: Raises BREAK at issue for the harbour core. -/
  | brk (h : Head) (p : PR)
  /-- TRAP: Raises SYSCALL at issue and requests a Frebry service. -/
  | trap (h : Head) (p : PR)
  /-- TALIGN: On the harbour core, schedules the realignment of the CYC counters of the masked islands. -/
  | talign (h : Head) (p : PR)
  /-- TLWAIT: Waits until a timeline counter's VAL reaches n, then acquires. -/
  | tlwait (h : Head) (p : PR)
  /-- TLREAD: Reads a timeline counter's VAL or ISS, or a checksum slot, without acquiring. -/
  | tlread (h : Head) (p : PR)
  /-- CPY: Issues a copy from a pool descriptor, with a start relative to issue. -/
  | cpy (h : Head) (p : PR)
  /-- CPY_ABS: Issues a copy with an absolute start taken from g[B]. -/
  | cpyAbs (h : Head) (p : PR)
  /-- CPYX: Issues a copy that carries a CRC-32C chain through a checksum slot, with a relative start. -/
  | cpyx (h : Head) (p : PR)
  /-- CPYX_ABS: Issues a checksummed copy with an absolute start. -/
  | cpyxAbs (h : Head) (p : PR)
  /-- ROWE_SMAX: Runs the row engine's softmax over the rows of a region. -/
  | roweSmax (h : Head) (p : PR)
  /-- ROWE_RMS: Runs the row engine's RMS normalisation over the rows of a region. -/
  | roweRms (h : Head) (p : PR)
  /-- FERRY_ARR: Arrives at a ferry barrier at level L, optionally counting copies. -/
  | ferryArr (h : Head) (p : PR)
  /-- FERRY_WAIT: Waits for the member's resumption from its latest arrival, then acquires. -/
  | ferryWait (h : Head) (p : PR)
  /-- FERRY_ARRW: Arrives and then waits, in gated code only. -/
  | ferryArrw (h : Head) (p : PR)
  /-- DOMQ: Reads a domain quantity selected by the immediate. -/
  | domq (h : Head) (p : PR)
  /-- STSET: Writes one dword of a stream register, or a repeat register. -/
  | stset (h : Head) (p : PR)
  /-- STGET: Reads a stream register dword, a repeat register, VPROG, VFLAGS or PART. -/
  | stget (h : Head) (p : PR)
  /-- STSTEP: Advances a stream register's BASE by STEP or by an immediate. -/
  | ststep (h : Head) (p : PR)
  /-- QCONF: Configures a data queue from its QCW and zeroes the cursors. -/
  | qconf (h : Head) (p : PR)
  /-- QCONF_REL: Releases a data queue. -/
  | qconfRel (h : Head) (p : PR)
  /-- RCONF: Configures or unconfigures a ring from a descriptor. -/
  | rconf (h : Head) (p : PR)
  /-- SYSR: Reads a system register on the harbour core. -/
  | sysr (h : Head) (p : PR)
  /-- SYSW: Writes a system register on the harbour core. -/
  | sysw (h : Head) (p : PR)
  /-- ERET: Returns from a harbour trap to EPCS and EPCA at the previous level. -/
  | eret (h : Head) (p : PR)
  /-- WFI: Waits until a masked HEVENT bit is set and returns the masked events. -/
  | wfi (h : Head) (p : PR)
  /-- TLBI: Invalidates walker-cache entries in the form that FN selects. -/
  | tlbi (h : Head) (p : PR)
  /-- HINVA: Revokes the matching handles of a partition's launches and counts them. -/
  | hinva (h : Head) (p : PR)
  /-- CTXSV: Saves a pre-empting launch to its save area and releases its atolls. -/
  | ctxsv (h : Head) (p : PR)
  /-- CTXLD: Restores a saved launch at an origin under a new LID and thaws it. -/
  | ctxld (h : Head) (p : PR)
  /-- XLAT: Translates a virtual address into a handle for its page and the carry page. -/
  | xlat (h : Head) (p : PR)
  /-- HINV: Clears one handle's valid bit and its taint. -/
  | hinv (h : Head) (p : PR)
  /-- HINV_ALL: Clears the valid bit and taint of every handle. -/
  | hinvAll (h : Head) (p : PR)
  /-- HQRY: Reads a handle's v or one of its page words. -/
  | hqry (h : Head) (p : PR)
  /-- LD: Loads a scalar from global memory through a handle. -/
  | ld (h : Head) (p : PR)
  /-- ST: Stores a scalar to global memory through a handle. -/
  | st (h : Head) (p : PR)
  /-- LLD: Loads a scalar from the core's own pool. -/
  | lld (h : Head) (p : PR)
  /-- LLD_S: Loads a scalar from the spill window, or from the overflow area, at an offset from g62. -/
  | lldS (h : Head) (p : PR)
  /-- LST: Stores a scalar to the core's own pool. -/
  | lst (h : Head) (p : PR)
  /-- LST_S: Stores a scalar to the spill window, or to the overflow area. -/
  | lstS (h : Head) (p : PR)
  /-- TLD: Loads a pool region, or a ring slot, from global memory. -/
  | tld (h : Head) (p : PR)
  /-- TST: Stores a pool region to global memory. -/
  | tst (h : Head) (p : PR)
  /-- GATH: Gathers global elements at indexed addresses into a pool region. -/
  | gath (h : Head) (p : PR)
  /-- SCAT: Scatters pool elements to indexed global addresses. -/
  | scat (h : Head) (p : PR)
  /-- LDSW: Joins the HBM and far-tier halves of split words into a pool region. -/
  | ldsw (h : Head) (p : PR)
  /-- LDSW_H: Loads only the HBM halves of split words, with the low half zero. -/
  | ldswH (h : Head) (p : PR)
  /-- STSW: Splits pool FP32 words into their HBM and far-tier halves. -/
  | stsw (h : Head) (p : PR)
  /-- AADD: Atomically adds to a global word and returns the old value. -/
  | aadd (h : Head) (p : PR)
  /-- AAND: Atomically ANDs into a global word. -/
  | aand (h : Head) (p : PR)
  /-- AOR: Atomically ORs into a global word. -/
  | aor (h : Head) (p : PR)
  /-- AXOR: Atomically XORs into a global word. -/
  | axor (h : Head) (p : PR)
  /-- AMIN: Atomically takes the minimum with a global word. -/
  | amin (h : Head) (p : PR)
  /-- AMAX: Atomically takes the maximum with a global word. -/
  | amax (h : Head) (p : PR)
  /-- ASWP: Atomically swaps a value into a global word. -/
  | aswp (h : Head) (p : PR)
  /-- ACAS: Atomically compares a global word with an expected value and swaps on a match. -/
  | acas (h : Head) (p : PR)
  /-- AQADD: Atomically adds a scaled FP32 value as an integer. -/
  | aqadd (h : Head) (p : PR)
  /-- FENCE: Orders the core's accesses at a scope. -/
  | fence (h : Head) (p : PR)
  /-- QPUSH: Copies k entries from the pool into a queue. -/
  | qpush (h : Head) (p : PR)
  /-- QPOP: Copies k entries out of a queue into the pool. -/
  | qpop (h : Head) (p : PR)
  /-- LARM: Arms a landing with TARGET and clears COUNT, FLAGS and CHK. -/
  | larm (h : Head) (p : PR)
  /-- LARM_G: Arms a landing with a TARGET taken from g[B]. -/
  | larmG (h : Head) (p : PR)
  /-- LPOLL: Reads a landing's GEN, FLAGS and CHK, and acquires. -/
  | lpoll (h : Head) (p : PR)
  /-- LWAIT: Waits for a landing's generation, then acquires. -/
  | lwait (h : Head) (p : PR)
  /-- PREF_X: Starts a walk into the walker cache. -/
  | prefX (h : Head) (p : PR)
  /-- PREF_M: Loads a memory-side cache line for cached CXL memory. -/
  | prefM (h : Head) (p : PR)
  /-- ECHK: Arms the early-read checker over pool granules. -/
  | echk (h : Head) (p : PR)
  /-- ECHK_OFF: Disarms the early-read checker over pool granules. -/
  | echkOff (h : Head) (p : PR)
  /-- VADD: Adds two regions elementwise. -/
  | vadd (h : Head) (p : PV)
  /-- VSUB: Subtracts two regions elementwise. -/
  | vsub (h : Head) (p : PV)
  /-- VMUL: Multiplies two regions elementwise. -/
  | vmul (h : Head) (p : PV)
  /-- VFMA: Performs a fused multiply-add or multiply-subtract with one rounding. -/
  | vfma (h : Head) (p : PV)
  /-- VMIN: Takes the elementwise minimum. -/
  | vmin (h : Head) (p : PV)
  /-- VMAX: Takes the elementwise maximum. -/
  | vmax (h : Head) (p : PV)
  /-- VABS: Takes the elementwise absolute value. -/
  | vabs (h : Head) (p : PV)
  /-- VNEG: Negates each element. -/
  | vneg (h : Head) (p : PV)
  /-- VAND: Takes the bitwise AND of two regions. -/
  | vand (h : Head) (p : PV)
  /-- VOR: Takes the bitwise OR of two regions. -/
  | vor (h : Head) (p : PV)
  /-- VXOR: Takes the bitwise XOR of two regions. -/
  | vxor (h : Head) (p : PV)
  /-- VSHL: Shifts each element left by a count. -/
  | vshl (h : Head) (p : PV)
  /-- VSHR: Shifts each element right, logically or arithmetically. -/
  | vshr (h : Head) (p : PV)
  /-- VCMP: Compares elements and writes 1 or 0. -/
  | vcmp (h : Head) (p : PV)
  /-- VSEL: Selects elements by a selector region. -/
  | vsel (h : Head) (p : PV)
  /-- VMOV: Moves elements with every bit kept. -/
  | vmov (h : Head) (p : PV)
  /-- VFILL_K: Fills lanes with a selected constant. -/
  | vfillK (h : Head) (p : PV)
  /-- VFILL_IOTA: Fills each element with its index, converted. -/
  | vfillIota (h : Head) (p : PV)
  /-- VFILL_FC: Clears the selected VFLAGS bits. -/
  | vfillFc (h : Head) (p : PV)
  /-- VCVT: Converts a region to the destination format. -/
  | vcvt (h : Head) (p : PV)
  /-- VRCP: Writes a 12-bit reciprocal approximation. -/
  | vrcp (h : Head) (p : PV)
  /-- VRSQ: Writes a 12-bit reciprocal square root approximation. -/
  | vrsq (h : Head) (p : PV)
  /-- VNR: Refines an approximation by one Newton step. -/
  | vnr (h : Head) (p : PV)
  /-- VEXP2: Computes 2^x, rounded once. -/
  | vexp2 (h : Head) (p : PV)
  /-- VLOG2: Computes log2 x, rounded once. -/
  | vlog2 (h : Head) (p : PV)
  /-- VTANH: Computes tanh x, rounded once. -/
  | vtanh (h : Head) (p : PV)
  /-- VRED: Reduces each row by sum, max or min over the fixed tree. -/
  | vred (h : Head) (p : PV)
  /-- VSCAN: Writes the inclusive running sums along each row. -/
  | vscan (h : Head) (p : PV)
  /-- VDOT: Forms the dot product of each row pair. -/
  | vdot (h : Head) (p : PV)
  /-- VTRN: Transposes a region of at most 128 by 128. -/
  | vtrn (h : Head) (p : PV)
  /-- VPERM: Gathers elements within rows by an index region. -/
  | vperm (h : Head) (p : PV)
  /-- VAMAX: Writes the absolute maximum of each row. -/
  | vamax (h : Head) (p : PV)
  /-- VQNT: Quantises to Q4N or block-scaled FP8E4, computing or reading the scales. -/
  | vqnt (h : Head) (p : PV)
  /-- VDQN: Dequantises Q4N or scaled FP8E4 into a floating-point format. -/
  | vdqn (h : Head) (p : PV)
  /-- CWADD: Adds Q of a branch into an X32 half with wrap. -/
  | cwadd (h : Head) (p : PV)
  /-- CWSUB: Subtracts Q of a branch from an X32 half with wrap. -/
  | cwsub (h : Head) (p : PV)
  /-- CWSUM: Forms a position-weighted wrapping checksum of an X32 region. -/
  | cwsum (h : Head) (p : PV)
  /-- SKEY: Writes the sort configuration register SCFG. -/
  | skey (h : Head) (p : PV)
  /-- SORT: Loads a KP64 tile into the sort array and runs phases up to PL. -/
  | sort (h : Head) (p : PV)
  /-- SORTC: Continues the resident sort state to a new phase limit. -/
  | sortc (h : Head) (p : PV)
  /-- SORTC_LD: Loads a sort dump from the pool, then continues it. -/
  | sortcLd (h : Head) (p : PV)
  /-- SORTU: Unloads the real cells of the sort array in boustrophedon order. -/
  | sortu (h : Head) (p : PV)
  /-- SORTU_DUMP: Writes the full dump of the sort array's state. -/
  | sortuDump (h : Head) (p : PV)
  /-- SMRG: Merges two KP64 runs, taking ties from A first. -/
  | smrg (h : Head) (p : PV)
  /-- MZERO: Writes +0 over an accumulator result region. -/
  | mzero (h : Head) (p : PM)
  /-- MMA: Accumulates a matrix product from two rings into accumulator tiles. -/
  | mma (h : Head) (p : PM)
  /-- MMAH: Zeroes the result region, then accumulates a matrix product. -/
  | mmah (h : Head) (p : PM)
  /-- MMAT: Accumulates the transposed matrix product. -/
  | mmat (h : Head) (p : PM)
  /-- MMA16: Accumulates a masked 16 by 16 block product. -/
  | mma16 (h : Head) (p : PM)
  /-- MMAS: Accumulates a product whose A operand has 2:4 structured sparsity. -/
  | mmas (h : Head) (p : PM)
  /-- MQ4: Accumulates an FP8E4 by Q4N product with weight scales. -/
  | mq4 (h : Head) (p : PM)
  /-- MDRN: Drains an accumulator window into a pool region, optionally turned or cleared. -/
  | mdrn (h : Head) (p : PM)
  /-- MLDA: Loads a pool region into an accumulator window. -/
  | mlda (h : Head) (p : PM)
  /-- MRPOP: Discards k filled ring slots. -/
  | mrpop (h : Head) (p : PM)
  /-- RESULT_LANDS: An instruction's Time ends: its register, pool and cursor writes land, and its bank locks end. -/
  | resultLands (x : Hart) (k : Nat)
  /-- ACCUMULATOR_WRITE_LANDS: A chained accumulator write lands after its own Time and its predecessors' Times. -/
  | accumulatorWriteLands (c : CoreId) (k : Nat)
  /-- REPETITION_END: The last word of a repeated section issues, the named stream registers take BASE plus STEP, and the next repetition begins. -/
  | repetitionEnd (x : Hart) (q : Strm)
  /-- SECTION_RETIRE: A section retires once its words have issued, their Times have elapsed and its predecessor has retired. -/
  | sectionRetire (x : Hart) (q : Strm)
  /-- SECTION_RUN_PAST: A stream reaches the cycle at which the word after its section's last word would issue, no such word exists, and ILLEGAL_OP is raised there. -/
  | sectionRunPast (x : Hart) (q : Strm)
  /-- KERNEL_COMPLETE: Every member core has completed, so the launch completes and its domain is released. -/
  | kernelComplete (lid : Nat)
  /-- COPY_START: The copy engine begins streaming a buffered copy at its interval's first cycle. -/
  | copyStart (c : CoreId) (k : Nat)
  /-- COPY_ARRIVAL: Copy data or returned data arrives through a bank's arrival port. -/
  | copyArrival (a : Arrival)
  /-- COPY_LANDING: A copy's last write is performed and its landing, ticket and buffer entry are settled. -/
  | copyLanding (c : CoreId) (k : Nat)
  /-- DELIVERY_REFUSED: A refusal reaches the sending core, which raises a trap after issue. -/
  | deliveryRefused (c : CoreId) (k : Nat)
  /-- MEMBER_ARRIVAL: A member completes its ferry arrival once its streams, accesses and counted copies are done. -/
  | memberArrival (c : CoreId) (l : Nat)
  /-- FERRY_RELEASE: A barrier releases at T_rel, or its release reaches a part. -/
  | ferryRelease (lid : Nat) (l : Nat) (inst : Nat)
  /-- MEMBER_RESUME: A member resumes at its own sailing cycle. -/
  | memberResume (c : CoreId) (l : Nat)
  /-- FREEZE_STOP_POINT: A core reaches its stop point of a freeze and issues nothing further. -/
  | freezeStopPoint (c : CoreId)
  /-- THAW: A freeze ends and SFC resumes from the smallest stop point. -/
  | thaw (lid : Nat)
  /-- FABRIC_WAIT_COUNT_DONE: The physical count owed to a frozen level-5 wait ends, and the part thaws. -/
  | fabricWaitCountDone (lid : Nat)
  /-- WALK_COMPLETE: A two-stage table walk completes, or faults. -/
  | walkComplete (x : Hart)
  /-- PULSE_SWALLOW: The power controller swallows a clock pulse on every core of a timed domain. -/
  | pulseSwallow (lid : Nat)
  /-- FREQUENCY_RETARGET: A domain's loops retarget at a common reference edge after a term of CUR changes. -/
  | frequencyRetarget (lid : Nat)
  /-- LOOP_LOCKED: Every loop of a domain reports LOCKED, and swallowing ends. -/
  | loopLocked (lid : Nat)
  /-- TALIGN_APPLY: At island 12's CYC at issue plus 2,048, the masked islands set CYC from the table. -/
  | talignApply
  /-- FAULT_RECORD_POST: A compute-core trap posts its fault record to the harbour fault queue when a slot is free. -/
  | faultRecordPost
  /-- HARBOUR_TRAP: The harbour core takes a trap, saves its PCs and vectors both streams. -/
  | harbourTrap (q : Strm) (t : TrapInfo)
  /-- DISP_RESUME: Disposes a record by re-issuing or continuing the stopped instruction. -/
  | dispResume (seq : Nat)
  /-- DISP_SKIP: Disposes a record by skipping the trapped instruction. -/
  | dispSkip (seq : Nat)
  /-- DISP_HOOK: Disposes a record by running the recovery hook. -/
  | dispHook (seq : Nat)
  /-- DISP_PREEMPT: Disposes a record by making the launch pre-empting. -/
  | dispPreempt (seq : Nat)
  /-- DISP_KILL: Disposes a record by killing the launch. -/
  | dispKill (seq : Nat)
  /-- HOOK_END: The hook streams have ended and their Times elapsed, so state is restored and the stopped instruction continues. -/
  | hookEnd (c : CoreId)
  /-- HOOK_LIMIT_EXPIRE: A hook runs beyond its CYC limit, and the launch is killed. -/
  | hookLimitExpire (c : CoreId)
  /-- FQPOP: Removes the head record of the fault queue. -/
  | fqpop
  /-- HEVENT_CLEAR: A write of 1 clears HEVENT bits whose source is no longer asserting. -/
  | heventClear (v : Dword)
  /-- CWDATA: Reads or writes a frozen core's register through the core window once the core has drained. -/
  | cwdata (w : Option Dword)
  /-- SUBMIT: Checks and queues a launch request and assigns a LID. -/
  | submit (p : Nat)
  /-- PREEMPT: Requests pre-emption of a running launch at a stop point the controller chooses. -/
  | preempt (p : Nat)
  /-- ABANDON: Removes a queued request or discards a preload. -/
  | abandon (p : Nat)
  /-- RERUN: Reloads and restarts a launch killed within the same freeze. -/
  | rerun (p : Nat)
  /-- QHOLD: Sets HOLD on a launch queue. -/
  | qhold (p : Nat)
  /-- QRUN: Clears HOLD on a launch queue. -/
  | qrun (p : Nat)
  /-- LCDPOP: Removes the head completion record. -/
  | lcdpop (p : Nat)
  /-- LAUNCH_START: The controller places the highest-ranked head and runs the launch steps up to the opening barrier. -/
  | launchStart (p : Nat)
  /-- PRELOAD: The controller preloads the next head into the shadow banks and the staging region. -/
  | preload (p : Nat)
  /-- BUDGET_EXPIRED: A launch's CYC count reaches its budget, and the controller freezes the domain. -/
  | budgetExpired (lid : Nat)
  /-- LATE_ARRIVAL: An arrival for a saved or forwarded LID is applied to the save area or to the new placement. -/
  | lateArrival (a : Arrival)
  /-- STALE_DROP: A strait endpoint drops a packet with a stale incarnation and counts it. -/
  | staleDrop (a : Arrival)
  /-- ENG_START: Starts a promotion or migration request, which waits for the range to be free. -/
  | engStart (e : Nat) (op : Nat)
  /-- ENG_CANCEL: Cancels a request that is still in its waiting phase. -/
  | engCancel (e : Nat)
  /-- ENG_COPY_BEGIN: No handle or pin maps the range any longer, so the engine starts copying. -/
  | engCopyBegin (e : Nat)
  /-- ENG_REWRITE: The copy has ended, so one indivisible store rewrites the entry and the mark is cleared. -/
  | engRewrite (e : Nat)
  /-- ENG_ABORT: A copy fault aborts the request and poisons the uncorrectable lines. -/
  | engAbort (e : Nat)
  /-- HOTREL: Releases a LID's hotness counters. -/
  | hotrel (p : Nat) (lid : Nat)
  /-- PTCFG_WRITE: Writes partition configuration, which is discarded with REJ when the rules forbid it. -/
  | ptcfgWrite (n : Nat) (v : Dword)
  /-- TDISP_LOCK: Moves the TDISP interface to CONFIG_LOCKED. -/
  | tdispLock (p : Nat)
  /-- TDISP_START: Moves the TDISP interface to RUN. -/
  | tdispStart (p : Nat)
  /-- TDISP_STOP: Returns the TDISP interface to CONFIG_UNLOCKED and kills the partition's launches. -/
  | tdispStop (p : Nat)
  /-- FUNCTION_LEVEL_RESET: An FLR of a partition function resets all of the partition's islands. -/
  | functionLevelReset (p : Nat)
  /-- BOOTDB: A host doorbell write with the image length starts VERIFY. -/
  | bootdb (len : Nat)
  /-- CORE_RESET: Resets an island's core domain, kills its launches and bumps its incarnation. -/
  | coreReset (isl : Nat)
  /-- ISLAND_RESET: Resets an island's core domain and uncore, and restarts CYC. -/
  | islandReset (isl : Nat)
  /-- FUNCTION_READY: A function finishes bring-up and sets its READY bit. -/
  | functionReady (isl : Nat) (b : Nat)
  /-- FUNCTION_FAIL: A function loses readiness in service, and its in-flight accesses are lost. -/
  | functionFail (isl : Nat) (b : Nat)
  /-- ATMAP_RETIRE: Firmware sets a RET bit, which retires a core at once. -/
  | atmapRetire (a : Nat) (m : Nat)
  /-- BIST_START: An in-field self-test starts on an idle atoll's core. -/
  | bistStart (a : Nat)
  /-- BIST_ABORT: A placement needs the atoll, so the test is aborted and the core reset. -/
  | bistAbort (a : Nat)
  /-- BIST_FAIL: A core fails its in-field test and is retired. -/
  | bistFail (a : Nat)
  /-- BIST_PASS: An in-field self-test on one physical core ends without a failure, and the atoll is no longer under test. -/
  | bistPass (a : Nat)
  /-- SOFT_ERROR: A soft error is corrected, or it poisons a granule, line or structure and is logged. -/
  | softError (e : ErrSite) (fixed : Bool)
  /-- QUIESCE: Moves an atoll from RUN to QUIESCING. -/
  | quiesce (a : Nat)
  /-- GATE: Starts saving a QUIESCED atoll's retention image. -/
  | gate (a : Nat)
  /-- ATOLL_WAKE: CMD 3 wakes a GATED atoll or returns a quiescing or QUIESCED atoll to RUN. -/
  | atollWake (a : Nat)
  /-- ATCTL_BITS: Sets or clears LAUNCH_HOLD and ARRIVAL_CLOSE in the order of R412. -/
  | atctlBits (a : Nat) (v : Dword)
  /-- WAKE: A WAKE write of 1 is latched or discarded and sets HEVENT.WAKE. -/
  | wake (a : Nat)
  /-- QUIESCED: The atoll becomes idle with no arrivals pending and enters QUIESCED. -/
  | quiesced (a : Nat)
  /-- SAVE_DONE: The retention image is written, and the atoll is gated. -/
  | saveDone (a : Nat)
  /-- SAVE_FAIL: A retention write fails, and the atoll returns to QUIESCED. -/
  | saveFail (a : Nat)
  /-- RESTORING: The regulator is good and the loop locked, so restoring begins. -/
  | restoring (a : Nat)
  /-- RESTORE_DONE: The image is read back, or an uncorrectable read poisons granules, and the atoll returns to QUIESCED. -/
  | restoreDone (a : Nat) (bad : List Nat)
  /-- RETBASE_WRITE: Writes the retention base, which is discarded with REJ while the image is held. -/
  | retbaseWrite (a : Nat) (v : Dword)
  /-- FLLCFG_WRITE: Writes an atoll's multiplier, which can retarget its domain. -/
  | fllcfgWrite (a : Nat) (v : Dword)
  /-- DROOP_BOOST: A droop connects the atoll to the boost rail, or swallows pulses once the duty is used up. -/
  | droopBoost (a : Nat)
  /-- PASSAGE_TRAIN: Starts training a passage port. -/
  | passageTrain (k : Nat)
  /-- PASSAGE_TAKE_DOWN: Takes a passage port down. -/
  | passageTakeDown (k : Nat)
  /-- TRAINING_DONE: A port trains, publishes L_p and sets READY and HEVENT.LINK. -/
  | trainingDone (k : Nat) (lanes : Nat) (lp : Nat) (peer : Nat)
  /-- FLIT_RETRY: The link resends a flit that failed its link CRC. -/
  | flitRetry (k : Nat)
  /-- TSALIGN: Schedules alignment of TSC on this part and on its peers. -/
  | tsalign (v : Dword)
  /-- HDBIN: A host doorbell write sets HEVENT.HOSTDB. -/
  | hdbin (v : Dword)
  /-- HDBOUT: A firmware write raises MSI-X vector 0 to the host. -/
  | hdbout (v : Dword)
  /-- SPDM_REQUEST: Frebry answers an SPDM request arriving through the DOE mailbox. -/
  | spdmRequest (msg : List Byte)
  /-- HOST_POSTED_WRITE: A posted write arrives through the host link or a CXL port and becomes visible in order. -/
  | hostPostedWrite (addr : Nat) (data : List Byte)
  /-- REGISTER_WRITE: Writes a system register that has no behaviour of its own. -/
  | registerWrite (n : Nat) (v : Dword)
  /-- TIMER: Island 12's CYC reaches HTCMP, and HEVENT.TIMER is set. -/
  | timer
  /-- POWER_UP: Only the boot ROM and the host link run, and the loader enters WAIT. -/
  | powerUp
  /-- MODULE_RESET: A module reset through the host link returns the module to its power-up state. -/
  | moduleReset
  /-- VERIFY_DONE: Verification passes and starts Frebry, or fails and returns to WAIT. -/
  | verifyDone
  /-- LOGPOP: Removes the head RAS log record. -/
  | logpop
  /-- TSC_ALIGN_APPLY: At the scheduled reference edge, TSC is set on every aligned part and DONE is reported. -/
  | tscAlignApply
  deriving DecidableEq, Repr

end Sys2Proof
end

