-- ==== Sys2Proof/Machine/Fields.lean ====
section
/-! DEFINITION. The tests on the fields of a word that need no state: reserved fields (check 2 of R53) and register indices and field limits (check 3, the tests made before any register is read, R415). -/

namespace Sys2Proof

/-- The opcode of an instruction's word (R159); events have none. -/
def PR.i (p : PR) : Bool := p.x.getLsbD 0
/-- ORD of an access (R125, R186). -/
def PR.ord (p : PR) : Nat := p.x.toNat % 8
/-- SCOPE of an access (R125, R186). -/
def PR.scope (p : PR) : Nat := p.imm.toNat / 2 ^ 29
/-- IMM[28:0] as a signed displacement. -/
def PR.disp29 (p : PR) : Int := sgn 29 p.imm.toNat
/-- IMM as a signed value (R147). -/
def PR.simm (p : PR) : Int := sgn 32 p.imm.toNat
/-- IMM sign-extended to 64 bits. -/
def PR.imm64 (p : PR) : Dword := p.imm.signExtend 64

def PV.rm (p : PV) : Nat := p.mode.toNat % 8
def PV.sat (p : PV) : Bool := p.mode.getLsbD 3
def PV.zero (p : PV) : Bool := p.mode.getLsbD 4
def PV.mx (p : PV) : Nat := p.mode.toNat / 32

namespace Fields

/-- The immediate form of R164: X[4:1] zero, and the unused one of B and IMM zero. -/
def imForm (p : PR) : Bool := p.x ≤ 1 && (if p.i then p.b == 0 else p.imm == 0)
/-- The immediate form whose register operand is A (R179, R184). -/
def imFormA (p : PR) : Bool := p.x ≤ 1 && p.b == 0 && (if p.i then p.a == 0 else p.imm == 0)
/-- X[4:3] zero, ORD and SCOPE not reserved (R125, R186). -/
def ordResv (p : PR) : Bool := p.x.toNat < 5 && p.scope ≤ 4
def zD (p : PR) : Bool := p.d == 0
def zA (p : PR) : Bool := p.a == 0
def zB (p : PR) : Bool := p.b == 0
def zX (p : PR) : Bool := p.x == 0
def zI (p : PR) : Bool := p.imm == 0

/-- MODE of a V instruction: RM below 5, and the parts the entry does not use zero; ZERO needs a mask (R148, R216). -/
def vMode (p : PV) (rm sat zero : Bool) : Bool :=
  p.rm ≤ 4 && (rm || p.rm == 0) && (sat || !p.sat) && ((zero && p.c != 0x1FF) || !p.zero) && p.mx == 0
/-- MODE, B, C, D and CNT as the sort array's entries fix them (R272 to R277). -/
def vSort (p : PV) (mxMax : Nat) (d a b : Bool) : Bool :=
  p.mode.toNat % 32 == 0 && p.mx ≤ mxMax && p.c == 0 && p.cnt == 0 && (d || p.d == 0) && (a || p.a == 0) && (b || p.b == 0)
def mNoBlk (p : PM) : Bool := p.mm == 0 && p.nn == 0 && p.kk == 0
def mNoRing (p : PM) : Bool := p.ra == 0 && p.rb == 0
def fnMul (h : Head) : Bool := h.fn.toNat % 8 != 7

end Fields
open Fields

/-- Check 2 of R53: every reserved field of the word is zero and its FN is one the entry defines (R151). -/
def resvOk : Instr → Bool
  | .nop h p => h.fn == 0 && h.grd == 0 && !h.gnot && zD p && zA p && zB p && zX p
  | .ill _ _ _ => true
  | .add h p | .sub h p | .mul h p | .and h p | .or h p | .xor h p | .shl h p | .shr h p | .sar h p => h.fn == 0 && imForm p
  | .mulh h p | .div h p | .rem h p | .min h p | .max h p => h.fn ≤ 1 && imForm p
  | .cmp h p => h.fn ≤ 7 && imForm p
  | .sel h p => h.fn == 0 && p.x < 16 && zI p
  | .li h p => h.fn == 0 && zA p && zB p && zX p
  | .liZ h p => h.fn == 1 && zA p && zB p && zX p
  | .lih h p => h.fn == 0 && zA p && zB p && zX p
  | .plog h p => h.fn ≤ 7 && zX p && zI p
  | .popc h p | .clz h p => h.fn == 0 && zB p && zX p && zI p
  | .br h p | .call h p | .brk h p | .trap h p => h.fn == 0 && zD p && zA p && zB p && zX p
  | .jmp h p => h.fn == 0 && zD p && zB p && zX p
  | .callR h p => h.fn == 1 && zD p && zB p && zX p
  | .ret h p | .endS h p | .eret h p => h.fn == 0 && zD p && zA p && zB p && zX p && zI p
  | .loop h p => h.fn == 0 && zA p && zB p && zX p
  | .talign h p => h.fn == 0 && zD p && zB p && zX p && p.imm.toNat < 2 ^ 14
  | .tlwait h p => h.fn == 0 && zD p && imForm p
  | .tlread h p => h.fn ≤ 2 && zB p && zX p && zI p
  | .cpy h p => h.fn == 0 && zD p && zB p && zX p
  | .cpyAbs h p => h.fn == 1 && zD p && zX p && zI p
  | .cpyx h p => h.fn ≤ 3 && zD p && zB p && p.x < 4
  | .cpyxAbs h p => h.fn.toNat / 4 == 1 && zD p && p.x < 4 && zI p
  | .roweSmax h p => h.fn == 0 && zX p && zI p
  | .roweRms h p => h.fn == 1 && zX p
  | .ferryArr h p => (h.fn == 0 || h.fn == 4) && zD p && zA p && zB p && p.x < 6 && p.imm.toNat < 2 ^ 30
  | .ferryWait h p => h.fn == 1 && zD p && zA p && zB p && p.x < 6 && zI p
  | .ferryArrw h p => (h.fn == 2 || h.fn == 6) && zD p && zA p && zB p && p.x < 6 && p.imm.toNat < 2 ^ 30
  | .domq h p => h.fn == 0 && zA p && zB p && zX p && p.imm < 16
  | .stset h p => h.fn ≤ 7 && imFormA p && (h.fn < 4 || zD p)
  | .stget h p => h.fn ≤ 10 && zB p && zX p && zI p && (h.fn < 4 || zA p)
  | .ststep h p => h.fn == 0 && zA p && zB p && imForm p
  | .qconf h p => h.fn == 0 && zB p && zX p
  | .qconfRel h p => h.fn == 1 && zA p && zB p && zX p && zI p
  | .rconf h p => h.fn == 0 && imFormA p
  | .sysr h p => h.fn == 0 && zA p && imForm p && p.imm.toNat < 2 ^ 16
  | .sysw h p => h.fn == 0 && zD p && imForm p && p.imm.toNat < 2 ^ 16
  | .wfi h p => h.fn == 0 && zA p && zB p && zX p && p.imm.toNat < 256
  | .tlbi h p => h.fn ≤ 4 && zD p && zX p && zI p && (h.fn == 1 || h.fn == 3 || zA p) && (h.fn != 0 || zB p)
  | .hinva h p => h.fn ≤ 2 && zX p && zI p && (h.fn < 2 || zA p)
  | .ctxsv h p | .ctxld h p => h.fn == 0 && zX p && zI p
  | .xlat h p => h.fn == 0 && zB p && zX p
  | .hinv h p => h.fn == 0 && zA p && zB p && zX p && zI p
  | .hinvAll h p => h.fn == 1 && zD p && zA p && zB p && zX p && zI p
  | .hqry h p => h.fn ≤ 2 && zB p && zX p && zI p
  | .ld h p => h.fn ≤ 6 && ordResv p
  | .st h p => h.fn ≤ 3 && ordResv p
  | .lld h p => h.fn ≤ 6 && zB p && zX p
  | .lldS h p => h.fn.toNat / 8 == 1 && h.fn ≤ 14 && zA p && zB p && zX p
  | .lst h p => h.fn ≤ 3 && zB p && zX p
  | .lstS h p => h.fn.toNat / 4 == 2 && zA p && zB p && zX p
  | .tld h p => h.fn < 8 && ordResv p && (!h.fn.getLsbD 1 || h.fn.getLsbD 0) && (h.fn.getLsbD 2 || p.imm.toNat / 2 ^ 25 % 16 == 0)
  | .tst h p => h.fn ≤ 1 && ordResv p && p.imm.toNat / 2 ^ 25 % 16 == 0
  | .gath h p => h.fn < 4 && ordResv p && (!h.fn.getLsbD 1 || h.fn.getLsbD 0)
  | .scat h p => h.fn ≤ 1 && ordResv p
  | .ldsw h p => h.fn == 0 && ordResv p
  | .ldswH h p => h.fn == 1 && ordResv p && zB p
  | .stsw h p => h.fn == 0 && ordResv p
  | .aadd h p | .aand h p | .aor h p | .axor h p | .aswp h p | .acas h p | .aqadd h p => (h.fn == 2 || h.fn == 3) && ordResv p
  | .amin h p | .amax h p => (h.fn == 2 || h.fn == 3 || h.fn == 6 || h.fn == 7) && ordResv p
  | .fence h p => h.fn == 0 && zD p && zA p && zB p && zX p && p.imm.toNat % 2 ^ 29 == 0 && p.scope ≤ 4
  | .qpush h p | .qpop h p => h.fn == 0 && zB p && zX p && p.imm.toNat < 2 ^ 16
  | .larm h p => h.fn == 0 && zD p && zB p && zX p
  | .larmG h p => h.fn == 1 && zD p && zX p && zI p
  | .lpoll h p => h.fn == 0 && zB p && zX p && zI p
  | .lwait h p => h.fn == 0 && zD p && zB p && zX p && p.imm.toNat < 2 ^ 16
  | .prefX h p => h.fn == 0 && zD p && zB p && zX p
  | .prefM h p => h.fn == 1 && zD p && zX p
  | .echk h p => h.fn == 0 && zD p && zB p && zX p
  | .echkOff h p => h.fn == 1 && zD p && zB p && zX p
  | .vadd h p | .vsub h p | .vmul h p => h.fn == 0 && vMode p true true true
  | .vfma h p => h.fn ≤ 1 && vMode p true true false
  | .vmin h p | .vmax h p | .vand h p | .vor h p | .vxor h p => h.fn == 0 && vMode p false false true
  | .vabs h p | .vneg h p => h.fn == 0 && vMode p false true true && p.b == 0
  | .vshl h p => h.fn == 0 && vMode p false true true
  | .vshr h p => h.fn ≤ 1 && vMode p false false true
  | .vcmp h p => h.fn ≤ 7 && vMode p false false true
  | .vsel h p => h.fn == 0 && p.mode == 0
  | .vmov h p => h.fn == 0 && vMode p false false true && p.b == 0
  | .vfillK h p => h.fn == 0 && p.a == 0 && p.b == 0 && p.rm == 0 && !p.sat && (!p.zero || p.c != 0x1FF) && p.mx < 8
  | .vfillIota h p => h.fn == 1 && p.a == 0 && p.b == 0 && vMode p true true true
  | .vfillFc h p => h.fn == 2 && p.d == 0 && p.a == 0 && p.b == 0 && p.c == 0 && p.cnt == 0 && p.mode.toNat % 32 == 0
  | .vcvt h p | .vrcp h p | .vrsq h p | .vexp2 h p | .vlog2 h p | .vtanh h p | .vdqn h p => h.fn == 0 && p.b == 0 && vMode p true true true
  | .vnr h p => h.fn ≤ 1 && vMode p true true true
  | .vred h p => h.fn ≤ 2 && p.b == 0 && vMode p (h.fn == 0) false false
  | .vscan h p => h.fn == 0 && p.b == 0 && vMode p true false false
  | .vdot h p => h.fn == 0 && vMode p true false false
  | .vtrn h p => h.fn == 0 && p.b == 0 && p.c == 0 && p.mode == 0
  | .vperm h p => h.fn == 0 && vMode p false false true
  | .vamax h p => h.fn == 0 && p.b == 0 && vMode p false false false
  | .vqnt h p => h.fn ≤ 1 && p.b == 0 && vMode p true false true
  | .cwadd h p | .cwsub h p | .cwsum h p => h.fn ≤ 1 && p.b == 0 && p.mode == 0
  | .skey h p => h.fn ≤ 4 && vSort p 7 false false false
  | .sort h p => h.fn == 0 && vSort p 15 false true false
  | .sortc h p => h.fn == 0 && vSort p 15 false false false
  | .sortcLd h p => h.fn == 1 && vSort p 15 false true false
  | .sortu h p => h.fn == 0 && vSort p 0 true false false
  | .sortuDump h p => h.fn == 1 && vSort p 0 true false false
  | .smrg h p => h.fn == 0 && vSort p 0 true true true
  | .mzero h p => (h.fn == 0 || h.fn == 8) && mNoRing p && mNoBlk p && p.tk == 0 && p.mta == 0x1FF
  | .mma h p | .mmah h p | .mmat h p => fnMul h && mNoBlk p && p.mta == 0x1FF
  | .mma16 h p => h.fn ≤ 5 && p.tk == 0 && p.mta == 0x1FF
  | .mmas h p => fnMul h && mNoBlk p
  | .mq4 h p => h.fn.toNat / 2 % 4 == 0 && mNoBlk p
  | .mdrn h p => h.fn ≤ 7 && mNoRing p && mNoBlk p && p.tk == 0
  | .mlda h p => h.fn == 0 && mNoRing p && mNoBlk p && p.tk == 0
  | .mrpop h p => h.fn == 0 && p.rb == 0 && p.acc == 0 && p.tn == 0 && p.tk == 0 && mNoBlk p && p.mta == 0x1FF
  | _ => true

namespace Fields
def gI (x : BitVec 9) : Bool := x < 64
def gW (x : BitVec 9) : Bool := 0 < x && x < 64
def pI (x : BitVec 9) : Bool := x < 16
def pW (x : BitVec 9) : Bool := 0 < x && x < 16
def hI (x : BitVec 9) : Bool := x < 32
def stI (x : BitVec 9) : Bool := x < 320
def stO (x : BitVec 9) : Bool := x < 320 || x == 0x1FF
/-- The registers of the ALU form: D written, A read, B read when I = 0. -/
def gAlu (p : PR) : Bool := gW p.d && gI p.a && (p.i || gI p.b)
/-- Sizes of a multiplying instruction: result sides 1 to 64, or in the group form rows 1 to 128 (R243, R244). -/
def mSizes (h : Head) (p : PM) (turned : Bool) : Bool :=
  let g := h.fn.getLsbD 3
  let (r, c) := if turned then (p.tn.toNat, p.tm.toNat) else (p.tm.toNat, p.tn.toNat)
  0 < r && 0 < c && c ≤ 64 && r ≤ (if g then 128 else 64)
/-- TK non-zero, and a multiple of 8 where the chunk is 128 (R242). -/
def mDepth (p : PM) (chunk128 : Bool) : Bool := 0 < p.tk && (!chunk128 || p.tk.toNat % 8 == 0)
def chunked (h : Head) : Bool := h.fn.toNat % 8 == 6
end Fields

/-- Check 3 of R53, the part made on the word alone: register indices within their files, no write to a constant register, accepted ORD codes, sizes within limits. -/
def idxOk : Instr → Bool
  | .nop _ _ | .ill _ _ _ => true
  | .add _ p | .sub _ p | .mul _ p | .mulh _ p | .div _ p | .rem _ p | .and _ p | .or _ p | .xor _ p | .shl _ p | .shr _ p
  | .sar _ p | .min _ p | .max _ p => gAlu p
  | .cmp _ p => pW p.d && gI p.a && (p.i || gI p.b)
  | .sel _ p => gW p.d && gI p.a && gI p.b
  | .li _ p | .liZ _ p | .lih _ p => gW p.d
  | .plog _ p => pW p.d && pI p.a && pI p.b
  | .popc _ p | .clz _ p => gW p.d && gI p.a
  | .br _ _ | .call _ _ | .ret _ _ | .endS _ _ | .brk _ _ | .trap _ _ | .eret _ _ => true
  | .jmp _ p | .callR _ p => gI p.a
  | .loop _ p => gW p.d
  | .talign _ p => gI p.a && p.imm != 0
  | .tlwait _ p => p.a < 8 && (p.i || gI p.b)
  | .tlread h p => gW p.d && (if h.fn == 2 then p.a < 4 else p.a < 8)
  | .cpy _ p | .cpyx _ p => gI p.a
  | .cpyAbs _ p | .cpyxAbs _ p => gI p.a && gI p.b
  | .roweSmax _ p | .roweRms _ p => stI p.d && stI p.a && stO p.b
  | .ferryArr _ p | .ferryWait _ p | .ferryArrw _ p => p.x != 0
  | .domq _ p => gW p.d && p.imm < 12
  | .stset h p => (4 ≤ h.fn || stI p.d) && (p.i || gI p.a)
  | .stget h p => gW p.d && (4 ≤ h.fn || stI p.a)
  | .ststep _ p => stI p.d
  | .qconf _ p => p.d < 16 && gI p.a
  | .qconfRel _ p => p.d < 16
  | .rconf _ p => p.d < 16 && (p.i || gI p.a)
  | .sysr _ p => gW p.d && (p.i || gI p.b)
  | .sysw _ p => gI p.a && (p.i || gI p.b)
  | .wfi _ p => gW p.d && p.imm != 0
  | .tlbi _ p => gI p.a && gI p.b
  | .hinva _ p | .ctxsv _ p | .ctxld _ p => gW p.d && gI p.a && gI p.b
  | .xlat _ p => hI p.d && gI p.a
  | .hinv _ p => hI p.d
  | .hinvAll _ _ => true
  | .hqry _ p => gW p.d && hI p.a
  | .ld _ p => gW p.d && hI p.a && gI p.b && p.ord ≤ 2
  | .st _ p => gI p.d && hI p.a && gI p.b && (p.ord == 0 || p.ord == 3)
  | .lld _ p | .lldS _ p => gW p.d && gI p.a
  | .lst _ p | .lstS _ p => gI p.d && gI p.a
  | .tld _ p => stI p.d && hI p.a && gI p.b && (p.ord == 0 || p.ord == 2)
  | .tst _ p => stI p.d && hI p.a && gI p.b && (p.ord == 0 || p.ord == 3)
  | .gath _ p => stI p.d && hI p.a && stI p.b && (p.ord == 0 || p.ord == 2)
  | .scat _ p => stI p.d && hI p.a && stI p.b && (p.ord == 0 || p.ord == 3)
  | .ldsw _ p | .ldswH _ p => stI p.d && hI p.a && hI p.b && p.ord ≤ 2
  | .stsw _ p => stI p.d && hI p.a && hI p.b && (p.ord == 0 || p.ord == 3)
  | .aadd _ p | .aand _ p | .aor _ p | .axor _ p | .amin _ p | .amax _ p | .aswp _ p | .acas _ p | .aqadd _ p =>
    gW p.d && hI p.a && gI p.b && p.ord != 1
  | .fence _ _ => true
  | .qpush _ p | .qpop _ p => p.d < 16 && gI p.a && p.imm != 0
  | .larm _ p | .lwait _ p | .prefX _ p => gI p.a
  | .larmG _ p => gI p.a && gI p.b
  | .lpoll _ p => gW p.d && gI p.a
  | .prefM _ p => hI p.a && gI p.b
  | .echk _ p | .echkOff _ p => gI p.a && p.imm != 0
  | .vadd _ p | .vsub _ p | .vmul _ p | .vmin _ p | .vmax _ p | .vand _ p | .vor _ p | .vxor _ p | .vshl _ p | .vshr _ p
  | .vcmp _ p | .vnr _ p | .vdot _ p | .vperm _ p => stI p.d && stI p.a && stI p.b && stO p.c
  | .vfma _ p | .vsel _ p => stI p.d && stI p.a && stI p.b && stI p.c
  | .vabs _ p | .vneg _ p | .vmov _ p | .vcvt _ p | .vrcp _ p | .vrsq _ p | .vexp2 _ p | .vlog2 _ p | .vtanh _ p | .vred _ p
  | .vscan _ p | .vamax _ p | .vqnt _ p | .vdqn _ p | .cwadd _ p | .cwsub _ p | .cwsum _ p => stI p.d && stI p.a && stO p.c
  | .vfillK _ p | .vfillIota _ p => stI p.d && stO p.c
  | .vfillFc _ _ | .skey _ _ | .sortc _ _ => true
  | .vtrn _ p => stI p.d && stI p.a && p.cnt == 0
  | .sort _ p | .sortcLd _ p => stI p.a
  | .sortu _ p | .sortuDump _ p => stI p.d
  | .smrg _ p => stI p.d && stI p.a && stI p.b
  | .mzero h p => mSizes h p false
  | .mma h p | .mmah h p => mSizes h p false && mDepth p (chunked h)
  | .mmat h p => mSizes h p true && mDepth p (chunked h)
  | .mma16 _ p => p.tm < 8 && p.tn < 8
  | .mmas h p => mSizes h p false && mDepth p (chunked h) && stI p.mta
  | .mq4 h p => mSizes h p false && mDepth p true && stI p.mta
  | .mdrn _ p | .mlda _ p => p.tm < 8 && p.tn < 8 && stI p.mta
  | .mrpop _ p => 0 < p.tm
  | _ => true

/-- The stream whose class the opcode belongs to (R25); NOP, ILL and END belong to every stream (R25, R27; DEDUCED, log 12). -/
def Instr.cls : Instr → Option Strm
  | .nop _ _ | .ill _ _ _ | .endS _ _ => none
  | .xlat _ _ | .hinv _ _ | .hinvAll _ _ | .hqry _ _ | .ld _ _ | .st _ _ | .lld _ _ | .lldS _ _ | .lst _ _ | .lstS _ _
  | .tld _ _ | .tst _ _ | .gath _ _ | .scat _ _ | .ldsw _ _ | .ldswH _ _ | .stsw _ _ | .aadd _ _ | .aand _ _ | .aor _ _
  | .axor _ _ | .amin _ _ | .amax _ _ | .aswp _ _ | .acas _ _ | .aqadd _ _ | .fence _ _ | .qpush _ _ | .qpop _ _
  | .larm _ _ | .larmG _ _ | .lpoll _ _ | .lwait _ _ | .prefX _ _ | .prefM _ _ | .echk _ _ | .echkOff _ _ => some .a
  | .vadd _ _ | .vsub _ _ | .vmul _ _ | .vfma _ _ | .vmin _ _ | .vmax _ _ | .vabs _ _ | .vneg _ _ | .vand _ _ | .vor _ _
  | .vxor _ _ | .vshl _ _ | .vshr _ _ | .vcmp _ _ | .vsel _ _ | .vmov _ _ | .vfillK _ _ | .vfillIota _ _ | .vfillFc _ _
  | .vcvt _ _ | .vrcp _ _ | .vrsq _ _ | .vnr _ _ | .vexp2 _ _ | .vlog2 _ _ | .vtanh _ _ | .vred _ _ | .vscan _ _ | .vdot _ _
  | .vtrn _ _ | .vperm _ _ | .vamax _ _ | .vqnt _ _ | .vdqn _ _ | .cwadd _ _ | .cwsub _ _ | .cwsum _ _ | .skey _ _
  | .sort _ _ | .sortc _ _ | .sortcLd _ _ | .sortu _ _ | .sortuDump _ _ | .smrg _ _ => some .v
  | .mzero _ _ | .mma _ _ | .mmah _ _ | .mmat _ _ | .mma16 _ _ | .mmas _ _ | .mq4 _ _ | .mdrn _ _ | .mlda _ _ | .mrpop _ _ => some .m
  | _ => some .s

end Sys2Proof
end

