-- ==== Sys2Proof/Decode.lean ====
section
/-! DEFINITION. Decoding and encoding of instruction words (R143 to R149, R159). Every 96-bit word decodes: a code that R159 leaves unassigned, 0x00 and 0xFF decode to ILL, whose meaning raises ILLEGAL_OP (R160). Rows that share an opcode are told apart by FN; an FN that no entry of the opcode defines goes to the row of FN 0, which raises RESERVED_FIELD (R151). -/

namespace Sys2Proof

/-- Bits [31:8] of a word (R144). -/
def decHead (w : BitVec 96) : Head :=
  ⟨w.extractLsb' 17 15, w.getLsbD 16, w.extractLsb' 12 4, w.extractLsb' 8 4⟩
/-- P-R (R147). -/
def decR (w : BitVec 96) : PR :=
  ⟨w.extractLsb' 64 32, w.extractLsb' 59 5, w.extractLsb' 50 9, w.extractLsb' 41 9, w.extractLsb' 32 9⟩
/-- P-V (R148). -/
def decV (w : BitVec 96) : PV :=
  ⟨w.extractLsb' 80 16, w.extractLsb' 68 12, w.extractLsb' 59 9, w.extractLsb' 50 9, w.extractLsb' 41 9, w.extractLsb' 32 9⟩
/-- P-M (R149). -/
def decM (w : BitVec 96) : PM :=
  ⟨w.extractLsb' 84 12, w.extractLsb' 76 8, w.extractLsb' 68 8, w.extractLsb' 64 4, w.extractLsb' 60 4, w.extractLsb' 56 4,
   w.extractLsb' 47 9, w.extractLsb' 40 7, w.extractLsb' 36 4, w.extractLsb' 32 4⟩

/-- The opcode map of R159. -/
def decodeOp (op : Nat) (h : Head) (r : PR) (v : PV) (m : PM) : Instr :=
  match op with
  | 0x01 => .add h r
  | 0x02 => .sub h r
  | 0x03 => .mul h r
  | 0x04 => .mulh h r
  | 0x05 => .div h r
  | 0x06 => .rem h r
  | 0x07 => .and h r
  | 0x08 => .or h r
  | 0x09 => .xor h r
  | 0x0A => .shl h r
  | 0x0B => .shr h r
  | 0x0C => .sar h r
  | 0x0D => .min h r
  | 0x0E => .max h r
  | 0x0F => .cmp h r
  | 0x10 => .sel h r
  | 0x11 => if h.fn == 1 then .liZ h r else .li h r
  | 0x12 => .lih h r
  | 0x13 => .plog h r
  | 0x14 => .popc h r
  | 0x15 => .clz h r
  | 0x16 => .br h r
  | 0x17 => .jmp h r
  | 0x18 => if h.fn == 1 then .callR h r else .call h r
  | 0x19 => .ret h r
  | 0x1A => .loop h r
  | 0x1B => .endS h r
  | 0x1C => .brk h r
  | 0x1D => .trap h r
  | 0x1E => .talign h r
  | 0x1F => .tlwait h r
  | 0x20 => .tlread h r
  | 0x21 => if h.fn == 1 then .cpyAbs h r else .cpy h r
  | 0x22 => if h.fn.toNat / 4 == 1 then .cpyxAbs h r else .cpyx h r
  | 0x23 => if h.fn == 1 then .roweRms h r else .roweSmax h r
  | 0x24 => if h.fn == 1 then .ferryWait h r else if h.fn == 2 || h.fn == 6 then .ferryArrw h r else .ferryArr h r
  | 0x25 => .domq h r
  | 0x26 => .stset h r
  | 0x27 => .stget h r
  | 0x28 => .ststep h r
  | 0x29 => if h.fn == 1 then .qconfRel h r else .qconf h r
  | 0x2A => .rconf h r
  | 0x30 => .sysr h r
  | 0x31 => .sysw h r
  | 0x32 => .eret h r
  | 0x33 => .wfi h r
  | 0x34 => .tlbi h r
  | 0x35 => .hinva h r
  | 0x36 => .ctxsv h r
  | 0x37 => .ctxld h r
  | 0x40 => .xlat h r
  | 0x41 => if h.fn == 1 then .hinvAll h r else .hinv h r
  | 0x42 => .hqry h r
  | 0x43 => .ld h r
  | 0x44 => .st h r
  | 0x45 => if h.fn.getLsbD 3 then .lldS h r else .lld h r
  | 0x46 => if h.fn.getLsbD 3 then .lstS h r else .lst h r
  | 0x47 => .tld h r
  | 0x48 => .tst h r
  | 0x49 => .gath h r
  | 0x4A => .scat h r
  | 0x4B => if h.fn == 1 then .ldswH h r else .ldsw h r
  | 0x4C => .stsw h r
  | 0x4D => .aadd h r
  | 0x4E => .aand h r
  | 0x4F => .aor h r
  | 0x50 => .axor h r
  | 0x51 => .amin h r
  | 0x52 => .amax h r
  | 0x53 => .aswp h r
  | 0x54 => .acas h r
  | 0x55 => .aqadd h r
  | 0x56 => .fence h r
  | 0x57 => .qpush h r
  | 0x58 => .qpop h r
  | 0x59 => if h.fn == 1 then .larmG h r else .larm h r
  | 0x5A => .lpoll h r
  | 0x5B => .lwait h r
  | 0x5C => if h.fn == 1 then .prefM h r else .prefX h r
  | 0x5D => if h.fn == 1 then .echkOff h r else .echk h r
  | 0x80 => .vadd h v
  | 0x81 => .vsub h v
  | 0x82 => .vmul h v
  | 0x83 => .vfma h v
  | 0x84 => .vmin h v
  | 0x85 => .vmax h v
  | 0x86 => .vabs h v
  | 0x87 => .vneg h v
  | 0x88 => .vand h v
  | 0x89 => .vor h v
  | 0x8A => .vxor h v
  | 0x8B => .vshl h v
  | 0x8C => .vshr h v
  | 0x8D => .vcmp h v
  | 0x8E => .vsel h v
  | 0x8F => .vmov h v
  | 0x90 => if h.fn == 1 then .vfillIota h v else if h.fn == 2 then .vfillFc h v else .vfillK h v
  | 0x91 => .vcvt h v
  | 0x92 => .vrcp h v
  | 0x93 => .vrsq h v
  | 0x94 => .vnr h v
  | 0x95 => .vexp2 h v
  | 0x96 => .vlog2 h v
  | 0x97 => .vtanh h v
  | 0x98 => .vred h v
  | 0x99 => .vscan h v
  | 0x9A => .vdot h v
  | 0x9B => .vtrn h v
  | 0x9C => .vperm h v
  | 0x9D => .vamax h v
  | 0x9E => .vqnt h v
  | 0x9F => .vdqn h v
  | 0xA0 => .cwadd h v
  | 0xA1 => .cwsub h v
  | 0xA2 => .cwsum h v
  | 0xA3 => .sort h v
  | 0xA4 => if h.fn == 1 then .sortcLd h v else .sortc h v
  | 0xA5 => if h.fn == 1 then .sortuDump h v else .sortu h v
  | 0xA6 => .skey h v
  | 0xA7 => .smrg h v
  | 0xC0 => .mzero h m
  | 0xC1 => .mma h m
  | 0xC2 => .mmah h m
  | 0xC3 => .mma16 h m
  | 0xC4 => .mmas h m
  | 0xC5 => .mmat h m
  | 0xC6 => .mdrn h m
  | 0xC7 => .mlda h m
  | 0xC8 => .mq4 h m
  | 0xC9 => .mrpop h m
  | 0xFE => .nop h r
  | _ => .ill h (BitVec.ofNat 8 op) r

/-- The instruction of a word. -/
def decode (w : BitVec 96) : Instr :=
  decodeOp (w.toNat % 256) (decHead w) (decR w) (decV w) (decM w)

/-- The word held by twelve bytes, lowest address first: three little-endian parcels (R143). -/
def wordOfBytes (bs : List Byte) : BitVec 96 :=
  BitVec.ofNat 96 (bs.foldr (fun b n => b.toNat + 256 * n) 0)

/-- The twelve bytes of a word, lowest address first (R143). -/
def bytesOfWord (w : BitVec 96) : List Byte :=
  (List.range 12).map fun k => BitVec.ofNat 8 (w.toNat / 256 ^ k)

/-- The instruction whose bits, numbered as the opcode table numbers them, are w; a shorter row has zeros above. -/
def decodeTableWord (nbits w : Nat) : Option Instr :=
  some (decode (wordOfBytes (bytesOfWord (BitVec.ofNat 96 (w % 2 ^ nbits)))))

/-- The low parcel of a word: the common head over its OP (R144). -/
def encHead (op : Byte) (h : Head) : BitVec 32 :=
  h.idle ++ BitVec.ofBool h.gnot ++ h.grd ++ h.fn ++ op
def encR (op : Byte) (h : Head) (p : PR) : BitVec 96 :=
  (p.imm ++ p.x ++ p.b ++ p.a ++ p.d) ++ encHead op h
def encV (op : Byte) (h : Head) (p : PV) : BitVec 96 :=
  (p.cnt ++ p.mode ++ p.c ++ p.b ++ p.a ++ p.d) ++ encHead op h
def encM (op : Byte) (h : Head) (p : PM) : BitVec 96 :=
  (p.tk ++ p.tn ++ p.tm ++ p.kk ++ p.nn ++ p.mm ++ p.mta ++ p.acc ++ p.rb ++ p.ra) ++ encHead op h

/-- The word of an instruction; an event has none and gives zeros. -/
def encode : Instr → BitVec 96
  | .nop h p => encR 0xFE h p
  | .ill h op p => encR op h p
  | .add h p => encR 0x01 h p
  | .sub h p => encR 0x02 h p
  | .mul h p => encR 0x03 h p
  | .mulh h p => encR 0x04 h p
  | .div h p => encR 0x05 h p
  | .rem h p => encR 0x06 h p
  | .and h p => encR 0x07 h p
  | .or h p => encR 0x08 h p
  | .xor h p => encR 0x09 h p
  | .shl h p => encR 0x0A h p
  | .shr h p => encR 0x0B h p
  | .sar h p => encR 0x0C h p
  | .min h p => encR 0x0D h p
  | .max h p => encR 0x0E h p
  | .cmp h p => encR 0x0F h p
  | .sel h p => encR 0x10 h p
  | .li h p => encR 0x11 h p
  | .liZ h p => encR 0x11 h p
  | .lih h p => encR 0x12 h p
  | .plog h p => encR 0x13 h p
  | .popc h p => encR 0x14 h p
  | .clz h p => encR 0x15 h p
  | .br h p => encR 0x16 h p
  | .jmp h p => encR 0x17 h p
  | .call h p => encR 0x18 h p
  | .callR h p => encR 0x18 h p
  | .ret h p => encR 0x19 h p
  | .loop h p => encR 0x1A h p
  | .endS h p => encR 0x1B h p
  | .brk h p => encR 0x1C h p
  | .trap h p => encR 0x1D h p
  | .talign h p => encR 0x1E h p
  | .tlwait h p => encR 0x1F h p
  | .tlread h p => encR 0x20 h p
  | .cpy h p => encR 0x21 h p
  | .cpyAbs h p => encR 0x21 h p
  | .cpyx h p => encR 0x22 h p
  | .cpyxAbs h p => encR 0x22 h p
  | .roweSmax h p => encR 0x23 h p
  | .roweRms h p => encR 0x23 h p
  | .ferryArr h p => encR 0x24 h p
  | .ferryWait h p => encR 0x24 h p
  | .ferryArrw h p => encR 0x24 h p
  | .domq h p => encR 0x25 h p
  | .stset h p => encR 0x26 h p
  | .stget h p => encR 0x27 h p
  | .ststep h p => encR 0x28 h p
  | .qconf h p => encR 0x29 h p
  | .qconfRel h p => encR 0x29 h p
  | .rconf h p => encR 0x2A h p
  | .sysr h p => encR 0x30 h p
  | .sysw h p => encR 0x31 h p
  | .eret h p => encR 0x32 h p
  | .wfi h p => encR 0x33 h p
  | .tlbi h p => encR 0x34 h p
  | .hinva h p => encR 0x35 h p
  | .ctxsv h p => encR 0x36 h p
  | .ctxld h p => encR 0x37 h p
  | .xlat h p => encR 0x40 h p
  | .hinv h p => encR 0x41 h p
  | .hinvAll h p => encR 0x41 h p
  | .hqry h p => encR 0x42 h p
  | .ld h p => encR 0x43 h p
  | .st h p => encR 0x44 h p
  | .lld h p => encR 0x45 h p
  | .lldS h p => encR 0x45 h p
  | .lst h p => encR 0x46 h p
  | .lstS h p => encR 0x46 h p
  | .tld h p => encR 0x47 h p
  | .tst h p => encR 0x48 h p
  | .gath h p => encR 0x49 h p
  | .scat h p => encR 0x4A h p
  | .ldsw h p => encR 0x4B h p
  | .ldswH h p => encR 0x4B h p
  | .stsw h p => encR 0x4C h p
  | .aadd h p => encR 0x4D h p
  | .aand h p => encR 0x4E h p
  | .aor h p => encR 0x4F h p
  | .axor h p => encR 0x50 h p
  | .amin h p => encR 0x51 h p
  | .amax h p => encR 0x52 h p
  | .aswp h p => encR 0x53 h p
  | .acas h p => encR 0x54 h p
  | .aqadd h p => encR 0x55 h p
  | .fence h p => encR 0x56 h p
  | .qpush h p => encR 0x57 h p
  | .qpop h p => encR 0x58 h p
  | .larm h p => encR 0x59 h p
  | .larmG h p => encR 0x59 h p
  | .lpoll h p => encR 0x5A h p
  | .lwait h p => encR 0x5B h p
  | .prefX h p => encR 0x5C h p
  | .prefM h p => encR 0x5C h p
  | .echk h p => encR 0x5D h p
  | .echkOff h p => encR 0x5D h p
  | .vadd h p => encV 0x80 h p
  | .vsub h p => encV 0x81 h p
  | .vmul h p => encV 0x82 h p
  | .vfma h p => encV 0x83 h p
  | .vmin h p => encV 0x84 h p
  | .vmax h p => encV 0x85 h p
  | .vabs h p => encV 0x86 h p
  | .vneg h p => encV 0x87 h p
  | .vand h p => encV 0x88 h p
  | .vor h p => encV 0x89 h p
  | .vxor h p => encV 0x8A h p
  | .vshl h p => encV 0x8B h p
  | .vshr h p => encV 0x8C h p
  | .vcmp h p => encV 0x8D h p
  | .vsel h p => encV 0x8E h p
  | .vmov h p => encV 0x8F h p
  | .vfillK h p => encV 0x90 h p
  | .vfillIota h p => encV 0x90 h p
  | .vfillFc h p => encV 0x90 h p
  | .vcvt h p => encV 0x91 h p
  | .vrcp h p => encV 0x92 h p
  | .vrsq h p => encV 0x93 h p
  | .vnr h p => encV 0x94 h p
  | .vexp2 h p => encV 0x95 h p
  | .vlog2 h p => encV 0x96 h p
  | .vtanh h p => encV 0x97 h p
  | .vred h p => encV 0x98 h p
  | .vscan h p => encV 0x99 h p
  | .vdot h p => encV 0x9A h p
  | .vtrn h p => encV 0x9B h p
  | .vperm h p => encV 0x9C h p
  | .vamax h p => encV 0x9D h p
  | .vqnt h p => encV 0x9E h p
  | .vdqn h p => encV 0x9F h p
  | .cwadd h p => encV 0xA0 h p
  | .cwsub h p => encV 0xA1 h p
  | .cwsum h p => encV 0xA2 h p
  | .skey h p => encV 0xA6 h p
  | .sort h p => encV 0xA3 h p
  | .sortc h p => encV 0xA4 h p
  | .sortcLd h p => encV 0xA4 h p
  | .sortu h p => encV 0xA5 h p
  | .sortuDump h p => encV 0xA5 h p
  | .smrg h p => encV 0xA7 h p
  | .mzero h p => encM 0xC0 h p
  | .mma h p => encM 0xC1 h p
  | .mmah h p => encM 0xC2 h p
  | .mmat h p => encM 0xC5 h p
  | .mma16 h p => encM 0xC3 h p
  | .mmas h p => encM 0xC4 h p
  | .mq4 h p => encM 0xC8 h p
  | .mdrn h p => encM 0xC6 h p
  | .mlda h p => encM 0xC7 h p
  | .mrpop h p => encM 0xC9 h p
  | _ => 0

/-- An instruction with a word, as against a machine event. -/
def Instr.isWord (i : Instr) : Bool := match i with | .ill _ _ _ => true | i => encode i != 0

/-- A code that R159 assigns to no instruction, 0x00 and 0xFF among them. -/
def unassigned (op : Byte) : Bool :=
  match decodeOp op.toNat ⟨0, false, 0, 0⟩ ⟨0, 0, 0, 0, 0⟩ ⟨0, 0, 0, 0, 0, 0⟩ ⟨0, 0, 0, 0, 0, 0, 0, 0, 0, 0⟩ with
  | .ill _ _ _ => true
  | _ => false

end Sys2Proof
end

