-- ==== Sys2Proof/Machine/State.lean ====
section
/-! DEFINITION. The state of the whole AK880 module, as plain data: every register, memory, queue and pending transfer the spec names, and the state right after power-up (R389). Fields that are the model's own (log 1 to log 4) are marked. -/

namespace Sys2Proof.Machine

/-- Bytes by address, strictly rising, no entry equal to 0: an unlisted byte reads 0 (R38, R394; DESIGN CHOICE, log 8). -/
abbrev Mem := List Host.Cell

/-- Reasons a step can stop. No instruction or event of this model raises one. -/
inductive Fault where
  /-- No rule of this model raises it; it is kept so that the type is not empty. Safe. -/
  | none
  deriving DecidableEq, Repr

/-- Reasons for a refusal. -/
inductive Refusal where
  /-- An instruction rejected by name: no meaning in this model. Raised by the dispatch only. Safe. -/
  | notModelled (mnemonic : String)
  deriving DecidableEq, Repr

/-- What issues: a hart and one of its streams (the model's own field, DESIGN CHOICE, log 2). -/
structure Agent where
  hart : Hart
  strm : Strm
  deriving DecidableEq, Repr

/-- One page as a handle records it (R86, R191, R355): virtual base, physical frame, log2 of its size in bytes, tier, ordering kind, permissions. -/
structure Page where
  present : Bool := false
  base : Nat := 0
  frame : Nat := 0
  lg : Nat := 16
  tier : Nat := 0
  kind : Nat := 0
  r : Bool := false
  w : Bool := false
  /-- Where the page begins in guest-physical space (R355, R361). -/
  gpa : Nat := 0
  deriving DecidableEq, Repr

/-- A handle (R86). -/
structure Handle where
  valid : Bool := false
  v : Nat := 0
  pg : Page := {}
  cy : Page := {}
  deriving DecidableEq, Repr

/-- A ring register (R78). -/
structure Ring where
  baseb : Nat := 0
  slotb : Nat := 0
  lgn : Nat := 0
  fc : Nat := 0
  head : Nat := 0
  tail : Nat := 0
  rc : Nat := 0
  deriving DecidableEq, Repr

/-- A queue register with the queue unit's copy of its control word (R80 to R82). -/
structure Queue where
  valid : Bool := false
  addr : Nat := 0
  base : Nat := 0
  lge : Nat := 0
  lgd : Nat := 0
  head : Nat := 0
  tail : Nat := 0
  qc : Nat := 0
  pc : Nat := 0
  deriving DecidableEq, Repr

/-- A timeline counter (R289): ISS, VAL and the tickets that completed ahead of order. -/
structure Timeline where
  iss : Nat := 0
  val : Nat := 0
  early : List Nat := []
  /-- The widest scope of the operations that VAL counts (R134). -/
  scope : Nat := 0
  deriving DecidableEq, Repr

/-- One cell of the sort array (R268). -/
structure Cell where
  pair : Dword := 0
  tag : Nat := 0
  sent : Bool := true
  deriving DecidableEq, Repr

/-- The resident state of the sort array (R268); the cells are listed in row-major order. -/
structure SortState where
  valid : Bool := false
  cells : List Cell := List.replicate 16384 {}
  n : Nat := 0
  p : Nat := 0
  s : Nat := 0
  pl : Nat := 1
  cfg : Nat := 0
  deriving DecidableEq, Repr

/-- An issued instruction that may stop after its issue, with what it took at issue: its word, its place in the program and the registers it names (R339, R416). -/
structure Origin where
  instr : Instr
  pc : Nat
  sec : Nat
  repn : Nat
  g : Vector Dword 64
  gt : Vector Bool 64
  h : Vector Handle 32
  ht : Vector Bool 32
  st : Vector (Vector Dword 4) 320
  queues : Vector Queue 16
  rings : Vector Ring 16
  scfg : Nat
  /-- It continues after a recovery hook (R265, R266). -/
  hooked : Bool := false
  deriving DecidableEq, Repr

/-- What an issued instruction does when its Time, or one of its beats, ends (R30). -/
inductive Eff where
  /-- g register i, its value and taint (R131). -/
  | g (i : Nat) (v : Dword) (t : Bool)
  /-- g register i stays as it was: its write stays pending to the end of the Time (R416). -/
  | keep (i : Nat)
  | p (i : Nat) (b : Bool)
  | h (i : Nat) (v : Handle) (t : Bool)
  /-- A handle's valid bit and taint cleared (R190). -/
  | hclr (i : Nat)
  /-- Dword w of stream register r (R179). -/
  | st (r w : Nat) (v : Dword)
  | rep (k : Strm) (v : Nat)
  | ring (i : Nat) (v : Ring)
  | ringTail (i k : Nat)
  | ringHead (i k : Nat)
  | queue (i : Nat) (v : Queue)
  | qTail (i k : Nat)
  | qHead (i k : Nat)
  /-- Bytes written to the pool, in order, the addresses of those that carry poison, and the granules that the instruction's bytes, these being the last of them, cover whole (R264). -/
  | pool (bs : List (Nat × Byte)) (bad : List Nat) (whole : List Nat)
  /-- Nibbles written to the pool: address, whether it is the high one, value (R108, R216). -/
  | nib (ns : List (Nat × Bool × Nat))
  /-- The write windows of this number close: every observer sees the write (R118 to R122, R193; DESIGN CHOICE, log 13). -/
  | shut (fr : Nat)
  /-- Bytes of memory written when the instruction issued, in order: an arrival may still change those whose source it meets (R197). -/
  | sent (bs : List (Nat × Byte))
  /-- Pool bytes written when the instruction issued: an arrival may still change those whose source it meets (R197). -/
  | redo (bs : List (Nat × Byte))
  /-- Accumulator elements that a matrix instruction writes, the granules that its bytes cover whole, and whether later writers chain on them, as they do but for MLDA's (R245). -/
  | acc (bs : List (Nat × Byte)) (whole : List Nat) (chain : Bool)
  | flags (f : BitVec 32)
  | clrFlags (m : BitVec 32)
  | vprog (n : Nat)
  /-- The sort array's state from which its phases run, and the first cycle of a step (R271, R278). -/
  | sort (x : SortState) (start : Nat)
  | scfg (n : Nat)
  /-- Bytes read and written outside the pool, for a buffer number (R91). -/
  | hot (buf rd wr : Nat)
  /-- An instruction that meets poison: the trap, and the element from which it continues (R218, R256, R416). -/
  | detect (t : TrapInfo) (el : Nat) (hook : Bool)
  | ck (i : Nat) (v : BitVec 32)
  /-- A restore completes: the remap table of a partition forwards an old LID, saved at an area, to the launch under its new LID, which may thaw (R384). -/
  | forward (p old area new : Nat)
  /-- Bytes that an access reads through some function of the module: pool address and physical address of each; of a result in a g register also the origin and the virtual address (R393). -/
  | via (bs : List (Nat × Nat)) (o : Option (Origin × Nat))
  deriving DecidableEq, Repr

/-- A source range that an engine reads in cycle rd, and that another write may meet to the end of cycle hi (R197, R214); one that the instruction itself writes by the accumulator path takes no other's value (R246). -/
structure Src where
  a : Nat
  n : Nat
  hi : Nat
  rd : Nat
  acc : Bool := false
  deriving DecidableEq, Repr

/-- A byte on its way to a pool, or brought there while an instruction may still read it: its address, its value, and what it shares with the bytes that are seen with it: an address, an accumulator element, or the number of the write. -/
structure Coming where
  a : Nat
  b : Byte
  key : Nat
  deriving DecidableEq, Repr

/-- An issued instruction's effects not yet landed (R30): its stream, issue cycle, landing cycle and effects. -/
structure Pend where
  strm : Strm
  issue : Nat
  land : Nat
  effs : List Eff
  /-- The pool ranges it may still be reading, their bytes as it read them, and the bytes that other writes brought there since: each of those may have been read in place of the older one (R61, R197, R214). -/
  srcs : List Src := []
  seen : List (Nat × Byte) := []
  met : List Coming := []
  /-- Destination bytes that stand as others have written them since its issue (R117, R246). -/
  newer : List Nat := []
  /-- Its draw number (DESIGN CHOICE, log 4), its origin and the element it began from. -/
  fr : Nat := 0
  origin : Option Origin := none
  el : Nat := 0
  deriving DecidableEq, Repr

/-- A walk in progress (R59, R354): the partition in whose context and the two roots with which it began (R346, R367), the handle and address of its XLAT, the address register's taint, the cycle at which the handle lands, the edge of the time base at which the walk ends (DESIGN CHOICE, log 4), whether its result may be cached (R348), and the XLAT's origin. -/
structure Walk where
  ptn : Nat
  root1 : Dword
  root2 : Dword
  d : Nat
  v : Nat
  t : Bool
  issue : Nat
  land : Nat
  due : Nat
  keep : Bool := true
  origin : Origin
  deriving DecidableEq, Repr

/-- A bank of the pool claimed over cycles lo to hi, to be read or written, locked, or held against writes (R73, R75, R197, R213). -/
inductive ClaimKind where
  | use | put | lock | hold
  deriving DecidableEq, Repr

structure Claim where
  bank : Nat
  lo : Nat
  hi : Nat
  kind : ClaimKind
  deriving DecidableEq, Repr

/-- An instruction stopped after its issue (R60, R218, R256, R416): its origin, its issue cycle, the element it continues from, whether a repeat advance followed its issue cycle, and whether it is the walk of a restored handle (R385). -/
structure Stopped where
  origin : Origin
  issue : Nat
  el : Nat
  advanced : Bool := false
  rewalk : Bool := false
  /-- Bytes of memory that its core has stored since its issue: they stand when it continues (R117). -/
  newer : List Nat := []
  deriving DecidableEq, Repr

/-- One instruction stream (R25, R26, R49, R52, R157). -/
structure Stream where
  /-- Ended (R27). -/
  ended : Bool := true
  /-- Parked, on the harbour core (R331). -/
  parked : Bool := false
  pc : Nat := 0
  /-- Address of the current section's header. -/
  sec : Nat := 0
  /-- The next word is the section's first word, entered from outside (R156). -/
  fresh : Bool := true
  /-- Repetitions still to run, the current one included, and repetitions completed (R157). -/
  left : Nat := 1
  repn : Nat := 0
  /-- The cycle from which IDLE counts (R49): the stamp is base + IDLE. -/
  base : Nat := 0
  last : Option Nat := none
  /-- The cycle at which the word last tried to issue and waited (DESIGN CHOICE, log 2). -/
  tried : Option Nat := none
  /-- The retired-section number (R52), and the sections whose words have issued with the cycle in which their last Time ends. -/
  retired : Option Nat := none
  retiring : List (Nat × Nat) := []
  doneMax : Nat := 0
  /-- The illegal target of a taken branch, raised at base (R172). -/
  bad : Option Nat := none
  /-- The stream ran past its last section (R26). -/
  past : Bool := false
  /-- The cycle at whose end a repetition's advance falls due, and its section (R157). -/
  repEnd : Option (Nat × Nat) := none
  stopped : List Stopped := []
  /-- The listed sections of the stream: main sections and hook sections (R26, R307, R308). -/
  secs : List Nat := []
  hooks : List Nat := []
  deriving DecidableEq, Repr

/-- What a walk was built on (R348, R357, R361): log2 of its stage-1 leaf's size, and each guest-physical address with log2 of the size of the stage-2 leaf that mapped it. -/
structure Used where
  lg1 : Nat := 16
  gpas : List (Nat × Nat) := []
  deriving DecidableEq, Repr

/-- A walker-cache entry (R357): partition, the page, and what it was built on. -/
structure WalkEntry where
  ptn : Nat
  page : Page
  used : Used := {}
  deriving DecidableEq, Repr

/-- What the harbour core and a compute core have in common. -/
structure Cpu where
  g : Vector Dword 64 := Vector.replicate 64 0
  gt : Vector Bool 64 := Vector.replicate 64 false
  p : BitVec 16 := 1
  h : Vector Handle 32 := Vector.replicate 32 {}
  ht : Vector Bool 32 := Vector.replicate 32 false
  imem : Mem := []
  /-- Instruction-memory words, and registers by file and index, that hold an uncorrectable error (R400). -/
  imemBad : List Nat := []
  regBad : List (Nat × Nat) := []
  strm : Vector Stream 4 := Vector.replicate 4 {}
  pend : List Pend := []
  /-- First cycles at which an access may follow the acquires, the FENCEs, and at which every access so far has ended its Time (R129, R133). -/
  acq : Nat := 0
  fence : Nat := 0
  acc : Nat := 0
  wcache : List WalkEntry := []
  walks : List Walk := []
  deriving DecidableEq, Repr

/-- A copy-buffer entry (R283): descriptor bytes, the handles it took at issue, its command's word and place (R339), its start, streaming interval, ticket and checksum mode and slot. -/
structure Copy where
  desc : List Byte
  sh : Handle
  dh : Handle
  word : BitVec 96
  pc : Nat
  sec : Nat
  repn : Nat
  issue : Nat
  t : Nat
  u : Nat
  n : Nat
  ticket : Option (Nat × Nat)
  crc : Option (Nat × Nat)
  started : Bool := false
  /-- The landing, whether it is published (R285), the cycle at whose end its last byte arrives, earlier under a freeze (R58, R61), and whether that is over and its ticket complete. -/
  land : Nat := 0
  pub : Bool := false
  due : Nat := 0
  done : Bool := false
  /-- The number of its write window (DESIGN CHOICE, log 13), the source address of each byte moved where that is in the pool, and the checksum slot's value at its start (R61, R288). -/
  fr : Nat := 0
  froms : List Nat := []
  c0 : Nat := 0
  /-- The destination address of each byte written, in the order of the elements, with its place among the bytes moved, none where it is fill (R281). -/
  dsts : List (Nat × Option Nat) := []
  /-- Bytes, by space and address, that its core has written since the copy's start T while its streaming had not begun: they stand over its own (R117, R134). -/
  newer : List (Nat × Nat) := []
  /-- Bytes moved outside the pool, read and written (R91). -/
  rd : Nat := 0
  wr : Nat := 0
  refused : Bool := false
  /-- Clipped as a whole at an edge place (R281): completes at its start. -/
  void : Bool := false
  /-- Over a passage: its landing or refusal is reported from outside (DESIGN CHOICE, log 3). -/
  remote : Bool := false
  deriving DecidableEq, Repr

/-- The barrier state of one level at one member (R296 to R299). -/
structure Ferry where
  count : Nat := 0
  /-- An arrive form issued whose wait has not issued; the arrival is that of an ARRW still waiting. -/
  open_ : Bool := false
  arrw : Bool := false
  sa : Nat := 0x3FF
  sv : Nat := 0x3FF
  sm : Nat := 0x3FF
  cp : Bool := false
  issued : Nat := 0
  bits : BitVec 4 := 0
  accs : Nat := 0
  arrived : Option Nat := none
  trel : Option Nat := none
  resumed : Bool := false
  deriving DecidableEq, Repr

/-- What the machine saves at a hook's entry (R265). -/
structure HookSave where
  g : Vector Dword 64
  gt : Vector Bool 64
  p : BitVec 16
  h : Vector Handle 32
  ht : Vector Bool 32
  rings : Vector Ring 16
  queues : Vector Queue 16
  vflags : BitVec 32
  vprog : Nat
  strm : Vector Stream 4
  acq : Nat
  fence : Nat
  acc : Nat
  occ : Vector Nat 4
  claims : List Claim
  shares : List (Nat × Nat)
  pend : List Pend
  /-- What the hook may not change of the stopped instruction's registers: register, dword or 4 for the upper half of w0, value (R267). -/
  shapes : List (Nat × Nat × Dword)
  raising : Strm
  start : Nat
  seq : Nat
  deriving DecidableEq, Repr

/-- A compute core at its logical place, with everything R29, R38 and R152 give it. -/
structure Core where
  cpu : Cpu := {}
  lid : Nat := 0
  rx : Nat := 0
  ry : Nat := 0
  st : Vector (Vector Dword 4) 320 := Vector.replicate 320 (Vector.replicate 4 0)
  rings : Vector Ring 16 := Vector.replicate 16 {}
  queues : Vector Queue 16 := Vector.replicate 16 {}
  tl : Vector Timeline 8 := Vector.replicate 8 {}
  ck : Vector (BitVec 32) 4 := Vector.replicate 4 0
  rep : Vector Nat 4 := Vector.replicate 4 1
  pace : Vector Nat 4 := Vector.replicate 4 1
  vprog : Nat := 0
  vflags : BitVec 32 := 0
  part : BitVec 32 := 0
  dom : Dword := 0
  ovfptr : Nat := 0
  ovflen : Nat := 0
  pin : List Page := []
  share : Nat := 0
  rowProg : Nat := 0
  pool : Mem := []
  /-- Granules armed by ECHK (R209). -/
  echk : List Nat := []
  /-- By a landing's address: the widest scope of the transfers that the advances of its GEN have counted, and of those credited since (R85, R134). -/
  landScope : List (Nat × Nat × Nat) := []
  poison : List Nat := []
  shadow : Mem := []
  /-- Words of the shadow bank that hold an uncorrectable error (R400). -/
  shadowBad : List Nat := []
  sort : SortState := {}
  scfg : Nat := 0
  /-- First free cycle of the vector engine, matrix engine, sort array and row engine (R212, R247, R278, R292). -/
  occ : Vector Nat 4 := Vector.replicate 4 0
  claims : List Claim := []
  shares : List (Nat × Nat) := []
  /-- The streaming intervals of its copies (R284). -/
  spans : List (Nat × Nat) := []
  copies : List Copy := []
  /-- First cycle at which each checksum slot is no longer pending (R288). -/
  ckBusy : Vector Nat 4 := Vector.replicate 4 0
  ferry : Vector Ferry 5 := Vector.replicate 5 {}
  /-- The stop point of a freeze (R59), whether it was reached, and the cycle until which a thawed core is held (R60). -/
  stop : Option Nat := none
  stopped : Bool := false
  hold : Nat := 0
  rot : Strm := .m
  hook : Option HookSave := none
  hfc : Nat := 0
  /-- Row-buffer rows and sort cells that hold an uncorrectable error (R400). -/
  rowBad : List Nat := []
  sortBad : List Nat := []
  deriving DecidableEq, Repr

/-- Why a launch stands frozen (R58, R59). -/
inductive Cause where
  | walk (c : CoreId)
  /-- A level-5 wait: its stamp and, once the release is known and the part frozen, the edge at which its count ends (R62; DESIGN CHOICE, log 4). -/
  | ferry (c : CoreId) (from_ : Nat) (due : Option Nat)
  | tlwait (c : CoreId)
  | hook (c : CoreId)
  deriving DecidableEq, Repr

inductive LState where
  | run | preempting | hookRun
  deriving DecidableEq, Repr

/-- A started launch (R36 to R38, R91, R377). -/
structure Launch where
  lid : Nat
  ptn : Nat
  job : Nat
  fbn : Nat
  fbix : Nat
  x0 : Nat
  y0 : Nat
  khdr : List Byte
  image : Nat
  imlen : Nat
  prio : Nat
  queue : Nat
  budget : Nat
  used : Nat := 0
  state : LState := .run
  sfc : Nat := 0
  frozen : Bool := false
  causes : List Cause := []
  swallow : Nat := 0
  relock : Bool := false
  cur : Nat := 52
  /-- CYC cycles of the freeze, and the buffer they go to (R63); counts per buffer: number, bytes read, bytes written, cycles (R91). -/
  frzBuf : Nat := 0
  hot : List (Nat × Nat × Nat × Nat) := []
  /-- Records to post as pre-emption or budget expiry held back until a hook ends (R266, R380). -/
  heldPre : Bool := false
  /-- The budget's record was posted (R380). -/
  expired : Bool := false
  /-- A killed launch is released at this edge (R341, R379; DESIGN CHOICE, log 4). -/
  killAt : Option Nat := none
  /-- A CTXLD that restores it has not completed (R384, R385). -/
  loading : Bool := false
  /-- The loops report LOCKED at this edge (R57; DESIGN CHOICE, log 4). -/
  lockAt : Nat := 0
  /-- Clock pulses granted and not yet taken (R48, R403). -/
  debt : Nat := 0
  deriving DecidableEq, Repr

/-- A fault record (R338, R339). -/
structure Rec where
  seq : Nat := 0
  c : CoreId
  lid : Nat
  ptn : Nat
  strm : Strm
  trap : TrapInfo
  after : Bool
  hookable : Bool
  /-- The record carries the instruction word, its address, section and repetition. -/
  word : BitVec 96
  ima : Nat
  sec : Nat
  repn : Nat
  vprog : Nat
  sfc : Nat
  cyc : Nat
  rx : Nat
  ry : Nat
  phys : Nat
  isl : Nat
  disp : Option Nat := none
  popped : Bool := false
  /-- Its freeze has ended. -/
  settled : Bool := false
  deriving DecidableEq, Repr

/-- A queued launch request (R372, R375) or a preload (R378). -/
structure Request where
  lid : Nat
  image : Nat
  imlen : Nat
  budget : Nat
  prio : Nat
  origin : Option (Nat × Nat)
  fbn : Nat
  fbix : Nat
  job : Nat
  queue : Nat
  khdr : List Byte
  /-- CYC cycles that it has waited at the head of its queue (R375). -/
  waited : Nat := 0
  place : Option (Nat × Nat) := none
  /-- The launch a preload waits on; a reload under RERUN has its own origin (R379). -/
  behind : Nat := 0
  deriving DecidableEq, Repr

/-- The registers of a partition: R367, R373, R369 to R371. -/
structure Part where
  /-- The last word written to LCCMD (R373). -/
  lccmd : Dword := 0
  cfg : Dword := 0
  hbm : Dword := 0
  far : Dword := 0
  ext : Dword := 0
  s2root : Dword := 0
  s1root : Dword := 0
  tdisp : Nat := 0
  hotsel : Dword := 0
  hotlost : Nat := 0
  hotsets : List (Nat × List (Nat × Nat × Nat × Nat)) := []
  lcarg : Dword := 0
  lcstat : Dword := 0
  lcage : Dword := 0
  lcshb : Dword := 0
  lcshs : Dword := 0
  lcremap : Dword := 0
  done : List (Nat × Nat × Nat) := []
  queues : Vector (List Request) 16 := Vector.replicate 16 []
  holds : BitVec 16 := 0
  preload : Option Request := none
  lastLid : Nat := 0
  deriving DecidableEq, Repr

/-- An island: CYC (R47), READY bits (R393), reset state (R394), incarnation and stale count (R396). -/
structure Island where
  cyc : Nat := 0
  ready : BitVec 13 := 0
  rst : Nat := 0
  inc : Nat := 0
  stale : Nat := 0
  /-- The edges at which responses to accesses of its cores before their reset reach it (R396; DESIGN CHOICE, log 4). -/
  strays : List Nat := []
  deriving DecidableEq, Repr

/-- An atoll: its power registers (R402 to R406), ATMAP (R392, R397) and self-test (R398). -/
structure Atoll where
  launchHold : Bool := false
  arrivalClose : Bool := false
  state : Nat := 0
  rej : Bool := false
  retainOk : Bool := false
  idleAll : Bool := false
  mult : Nat := 52
  cur : Nat := 52
  locked : Bool := true
  vout : Nat := 750
  en : Bool := true
  good : Bool := true
  retbase : Nat := 0
  granules : Nat := 0
  result : Nat := 0
  boost : Nat := 0
  duty : Nat := 0
  dutyUsed : Nat := 0
  wake : Bool := false
  retired : BitVec 9 := 0
  map : BitVec 32 := 0x76543210
  spare : Nat := 8
  /-- The edges at which the loop locks (R403) and at which a save or restore ends (R404; DESIGN CHOICE, log 4). -/
  lockAt : Option Nat := none
  due : Nat := 0
  /-- Window of dutyUsed, and the edge after the last connection (R406). -/
  win : Nat := 0
  lastBoost : Nat := 0
  /-- An in-field test, and the physical core under test (R398). -/
  bist : Bool := false
  bistPos : Nat := 0
  idle : Nat := 0
  deriving DecidableEq, Repr

/-- A passage port (R407, R408). -/
structure Port where
  link : Nat := 0
  lanes : Nat := 0
  lp : Nat := 0
  peer : Nat := 0
  /-- It has been trained with that peer since power-up, so that routes name it whatever its link does (R393, R407; the model's own field, DESIGN CHOICE, log 10). -/
  known : Bool := false
  inj : Dword := 0
  retry : Nat := 0
  deriving DecidableEq, Repr

/-- A promotion or migration engine (R360 to R363). -/
structure Engine where
  a : Dword := 0
  b : Dword := 0
  phase : Nat := 0
  result : Nat := 0
  tag : Nat := 0
  poisoned : Nat := 0
  la : Dword := 0
  lb : Dword := 0
  /-- The edge at which the phase of copying or rewriting ends (DESIGN CHOICE, log 4). -/
  due : Nat := 0
  deriving DecidableEq, Repr

/-- The harbour core with its own registers (R331, R336). -/
structure Harbour where
  cpu : Cpu := {}
  halted : Bool := false
  hstat : Dword := 2
  hcause : Dword := 0
  epcs : Nat := 0
  epca : Nat := 0
  hval : Dword := 0
  hinfo : Dword := 0
  vecm : Dword := 0
  vecs : Dword := 0
  hdeleg : Dword := 0
  scra : Dword := 0
  scrb : Dword := 0
  hevent : BitVec 8 := 0
  /-- Event bits that the hardware has set in this cycle (R335). -/
  evNow : BitVec 8 := 0
  /-- Other registers that it has updated in this cycle (R335). -/
  hwNow : List Nat := []
  htcmp : Dword := BitVec.allOnes 64
  dispStat : Nat := 0
  cwsel : Dword := 0
  cwidx : Dword := 0
  /-- A handler's first words wait for what had issued before the trap (R337). -/
  entered : Bool := false
  /-- The cycle until which the S stream is held by TLBI, HINVA, CTXSV, CTXLD or an ERET in its drain. -/
  hold : Nat := 0
  /-- Accesses that HINVA waits for (R358): a core's instructions issued up to a cycle, or its copy issued at a cycle. -/
  drain : List (CoreId × Nat × Bool) := []
  deriving DecidableEq, Repr

/-- An arrival on its way (R74, R285): the cycle of its addressee's SFC at whose end it is due. -/
structure Transit where
  arr : Arrival
  land : Nat
  /-- The sending core and its copy's first streaming cycle. -/
  from_ : CoreId
  u : Nat
  /-- Accepted before its atoll closed arrivals (R404). -/
  accepted : Bool := false
  deriving DecidableEq, Repr

/-- An arrival left over by a launch that has ended (R384, R404; the model's own record, DESIGN CHOICE, log 102): its core, the edge at which it is met and refused, and whether it was accepted before its atoll closed arrivals. -/
structure Orphan where
  c : CoreId
  due : Nat
  accepted : Bool := false
  deriving DecidableEq, Repr

/-- A saved launch as the launch controller keeps it beside the save area (R374, R384): area, place, the LID it was given at restore, its cores as they were saved. -/
structure Saved where
  lid : Nat
  ptn : Nat
  area : Nat
  x0 : Nat
  y0 : Nat
  w : Nat
  newlid : Option Nat := none
  cores : List Core
  /-- Copies counted in LATE (R384): sending core and first streaming cycle; of another part, 256 and its number. -/
  late : List (Nat × Nat) := []
  deriving DecidableEq, Repr

/-- What leaves the module (model's record of outputs, DESIGN CHOICE, log 3). -/
inductive Output where
  | msix (vector : Nat)
  | record (bytes : List Byte)
  | passage (part : Nat) (a : Arrival)
  /-- An alignment of TSC for the peer of a trained port (R409). -/
  | align (port : Nat) (v : Dword)
  /-- Copy data from another part was refused: its sender is to learn it (R286). -/
  | refused (a : Arrival)
  | release (level lid : Nat)
  | spdm (msg : List Byte)
  | exit (lid : Nat) (status : Nat)
  deriving DecidableEq, Repr

/-- A write of memory that is not yet visible to every observer (R116 to R122; the model's own field, DESIGN CHOICE, log 13): the writer, its number, the edge of the time base at which it was made, the ordering kind of its pages, whether a copy made it, the bytes it replaced, and the scopes to which an ordering has shown it. -/
structure Win where
  x : Hart
  fr : Nat
  at_ : Nat
  kind : Nat
  copy : Bool
  old : List (Nat × Byte)
  shown : List (Hart × Nat) := []
  /-- Its 64-byte lines that were poisoned before it (R393, R399). -/
  bad : List Nat := []
  deriving DecidableEq, Repr

/-- The module. -/
structure State where
  /-- Edges of the island time base since power-up (DESIGN CHOICE, log 1). -/
  time : Nat := 0
  /-- What issues now (DESIGN CHOICE, log 2). -/
  cur : Agent := ⟨.harbour, .s⟩
  /-- Outside events not yet taken, oldest first (DESIGN CHOICE, log 3). -/
  inputs : List Instr := []
  /-- How many free values were drawn (DESIGN CHOICE, log 4). -/
  free : Nat := 0
  cores : Vector Core 256 := Vector.replicate 256 {}
  harbour : Harbour := {}
  mem : Mem := []
  /-- Writes not yet visible to all, the newest first. -/
  wins : List Win := []
  /-- What streams that come before the current one at the arbiter claim of banks, and of queues counted from 64 (R41, R42; the model's own field, DESIGN CHOICE, log 2). -/
  rivals : List Claim := []
  /-- Poisoned 64-byte lines, as intervals of physical addresses (R394, R399). -/
  lines : List (Nat × Nat) := []
  islands : Vector Island 14 := Vector.replicate 14 {}
  atolls : Vector Atoll 32 := Vector.replicate 32 {}
  ports : Vector Port 12 := Vector.replicate 12 {}
  parts : Vector Part 8 := Vector.replicate 8 {}
  engines : Vector Engine 6 := Vector.replicate 6 {}
  launches : List Launch := []
  saved : List Saved := []
  recs : List Rec := []
  waitRecs : List Rec := []
  fq : List Nat := []
  seq : Nat := 0
  transit : List Transit := []
  orphans : List Orphan := []
  /-- Island latency table, row-major (R64; DESIGN CHOICE, log 11). -/
  hops : List Nat := []
  mscSteps : Nat := 0
  xclrng : Vector Dword 4 := Vector.replicate 4 0
  cxl : Vector Dword 4 := Vector.replicate 4 0
  /-- The link width and the rate generation of the host link, trained at power-up (R389, R410; DEDUCED, log 105). -/
  hlstat : Dword := 0x610
  hdbin : Dword := 0
  stage : Nat := 1
  attempts : Nat := 0
  err : Nat := 0
  bootLen : Nat := 0
  fwdig : Vector Dword 8 := Vector.replicate 8 0
  /-- The alias key of the last successful VERIFY: modulus, public and private exponent (R391, R401). -/
  akey : Option (Nat × Nat × Nat) := none
  log : List (Dword × Dword) := []
  logLost : Nat := 0
  bistctl : Dword := 0
  /-- An outstanding TALIGN: its mask, its table and the value of CYC12 at which it acts (R65). -/
  talign : Option (Nat × List Nat × Nat) := none
  tsc : Nat := 0
  /-- An outstanding TSC alignment: the value and the edge (R409). -/
  tsalign : Option (Nat × Nat) := none
  tsdone : Bool := false
  out : List Output := []
  deriving DecidableEq, Repr

/-- The ceiling of R64 for a pair of islands. -/
def hopCeil (i j : Nat) : Nat :=
  let kind (n : Nat) : Nat := if n < 8 then 0 else if n < 12 then 1 else 2
  let col (n : Nat) : Nat := if n < 8 then n % 4 else if n < 12 then n - 8 else if n == 12 then 0 else 3
  let dc := (col i - col j) + (col j - col i)
  let dr := (i / 4 - j / 4) + (j / 4 - i / 4)
  if i == j then 6
  else match kind i, kind j with
    | 0, 0 => 14 * (dc + dr)
    | 1, 1 => 14 * dc
    | 0, 1 | 1, 0 | 2, 1 | 1, 2 => 12 + 14 * dc
    | 2, 2 => 66
    | _, _ => 24 + 14 * dc

/-- The module at power-up (R389): the boot ROM in WAIT, island 12's uncore, the host link and the harbour core ready, nothing launched. -/
def State.reset : State :=
  { hops := (List.range 196).map fun k => hopCeil (k / 14) (k % 14)
    islands := (Vector.replicate 14 {}).set! 12 { ready := 0x1801 }
    harbour := { cpu := { strm := Vector.replicate 4 { ended := false, parked := true } } } }

end Sys2Proof.Machine
end

