-- ==== Sys2Proof/Machine/SortNet.lean ====
section
/-! DEFINITION. The sort array's order and compare-exchange network (R268 to R271). -/

namespace Sys2Proof.Machine

/-- Width of the compared key by KF (R269). -/
def keyBits (kf : Nat) : Nat := if kf ≥ 3 then 16 else 32
/-- Fraction bits of a floating-point key format; 0 for the integer ones. -/
def keyFrac (kf : Nat) : Nat := match kf with | 2 => 23 | 3 => 7 | 4 => 10 | _ => 0
/-- The position of a key among all bit patterns, lowest first, for DIR = 0 (R269). -/
def keyRank (kf k : Nat) : Nat :=
  let half := 2 ^ (keyBits kf - 1)
  match kf with
  | 0 => (k + half) % 2 ^ 32
  | 1 => k
  | _ => if k < half then k + half else 2 * half - 1 - k
def keyNan (kf k : Nat) : Bool :=
  let f := keyFrac kf
  let half := 2 ^ (keyBits kf - 1)
  f != 0 && (half / 2 ^ f - 1) * 2 ^ f < k % half
/-- The rank of a pair's key under SCFG: KF [2:0], DIR [3], NANL [4] (R268, R269). -/
def rankOf (cfg pair : Nat) : Nat :=
  let kf := cfg % 8
  let k := pair % 2 ^ keyBits kf
  let top := 2 ^ 33
  if cfg.testBit 4 && keyNan kf k then top + k % 2 ^ (keyBits kf - 1)
  else if cfg.testBit 3 then top - 1 - keyRank kf k
  else keyRank kf k

/-- The first cell stands strictly before the second (R270). -/
def Cell.before (cfg : Nat) (x y : Cell) : Bool :=
  if x.sent || y.sent then !x.sent && y.sent
  else
    let a := rankOf cfg x.pair.toNat
    let b := rankOf cfg y.pair.toNat
    a < b || (a == b && cfg.testBit 5 && x.tag < y.tag)

/-- Compare-exchange of neighbours, the first pair beginning at the head; `rev` orders right to left. -/
def exchange (cfg : Nat) (rev : Bool) : List Cell → List Cell
  | x :: y :: r =>
    let swap := if rev then x.before cfg y else y.before cfg x
    if swap then y :: x :: exchange cfg rev r else x :: y :: exchange cfg rev r
  | l => l
def exchangeFrom (cfg : Nat) (rev odd : Bool) (l : List Cell) : List Cell :=
  if odd then (match l with | x :: r => x :: exchange cfg rev r | [] => []) else exchange cfg rev l

/-- Rows of 128 cells. -/
def sortRows (l : List Cell) : List (List Cell) := (List.range 128).map fun r => (l.drop (128 * r)).take 128
/-- Compare-exchange of neighbouring rows, top to bottom. -/
def exchangeRows (cfg : Nat) : List (List Cell) → List (List Cell)
  | x :: y :: r =>
    let ps := x.zip y
    (ps.map fun p => if p.2.before cfg p.1 then p.2 else p.1) :: (ps.map fun p => if p.2.before cfg p.1 then p.1 else p.2) :: exchangeRows cfg r
  | l => l

/-- Step t of phase p (R271). -/
def sortStep (cfg p t : Nat) (l : List Cell) : List Cell :=
  let rows := sortRows l
  let odd := t % 2 == 1
  if p % 2 == 0 then (rows.zipIdx.map fun r => exchangeFrom cfg (r.2 % 2 == 1) odd r.1).flatten
  else (if odd then (match rows with | x :: r => x :: exchangeRows cfg r | [] => []) else exchangeRows cfg rows).flatten

/-- n steps from phase p, step t. -/
def sortSteps (cfg : Nat) : Nat → Nat → List Cell → List Cell
  | _, 0, l => l
  | g, n + 1, l => sortSteps cfg (g + 1) n (sortStep cfg (g / 128) (g % 128) l)

/-- A resident state run on by n steps, at most to its phase limit (R271, R278). -/
def SortState.advance (x : SortState) (n : Nat) : SortState :=
  let g := 128 * x.p + x.s
  let k := Nat.min n (128 * x.pl - g)
  { x with cells := sortSteps x.cfg g k x.cells, p := (g + k) / 128, s := (g + k) % 128 }
/-- Run to the phase limit; a state that is not valid stands. -/
def SortState.finish (x : SortState) : SortState := if x.valid then x.advance (128 * x.pl) else x

/-- The real cells in boustrophedon order (R271, R275). -/
def SortState.unload (x : SortState) : List Cell :=
  ((sortRows x.cells).zipIdx.flatMap fun r => if r.2 % 2 == 1 then r.1.reverse else r.1).filter (!·.sent)

/-- The merge of R277: the second run's head goes first only when strictly before. -/
def mergeRuns (cfg : Nat) : Nat → List Cell → List Cell → List Cell
  | 0, _, _ => []
  | _ + 1, x, [] => x
  | _ + 1, [], y => y
  | n + 1, x :: xs, y :: ys => if y.before cfg x then y :: mergeRuns cfg n (x :: xs) ys else x :: mergeRuns cfg n xs (y :: ys)

end Sys2Proof.Machine
end

