-- ==== Sys2Proof/Machine/Ops.lean ====
section
/-! DEFINITION. Named operations over memory, registers, launches and streams, the landing of results, and the taking of a trap with the return from one (R59, R337 to R339, R346). -/

namespace Sys2Proof.Machine

/-! ### Memory -/

/-- One byte; an unlisted address reads 0 (DESIGN CHOICE, log 8). -/
def Mem.read (m : Mem) (a : Nat) : Byte :=
  match m with
  | [] => 0
  | (k, b) :: r => if k == a then b else if a < k then 0 else Mem.read r a

/-- One byte written, keeping the canonical form. -/
def Mem.write (m : Mem) (a : Nat) (b : Byte) : Mem :=
  match m with
  | [] => if b == 0 then [] else [(a, b)]
  | (k, c) :: r =>
    if k == a then (if b == 0 then r else (a, b) :: r)
    else if a < k then (if b == 0 then (k, c) :: r else (a, b) :: (k, c) :: r)
    else (k, c) :: Mem.write r a b

/-- The canonical form: addresses strictly rising, no byte equal to what an unlisted address reads as. -/
def Mem.wf : Mem → Bool
  | [] => true
  | [(_, b)] => b != 0
  | (k, b) :: (l, c) :: r => b != 0 && k < l && Mem.wf ((l, c) :: r)

/-- Bytes written in order. -/
def Mem.writes (m : Mem) (bs : List (Nat × Byte)) : Mem := bs.foldl (fun m x => m.write x.1 x.2) m

def Mem.bytes (m : Mem) (a n : Nat) : List Byte := (List.range n).map fun k => m.read (a + k)

/-- Little-endian value of bytes, lowest address first (R6). -/
def ofLE (bs : List Byte) : Nat := bs.foldr (fun b n => b.toNat + 256 * n) 0
/-- The n low bytes of a value, lowest first (R6). -/
def toLE (n v : Nat) : List Byte := (List.range n).map fun k => BitVec.ofNat 8 (v / 256 ^ k)
/-- The n low bytes of a value placed from address a on. -/
def placeLE (a n v : Nat) : List (Nat × Byte) := (List.range n).map fun k => (a + k, BitVec.ofNat 8 (v / 256 ^ k))
def Mem.le (m : Mem) (a n : Nat) : Nat := ofLE (m.bytes a n)

/-! ### Vectors by number -/

def vget {α : Type} {n : Nat} (v : Vector α n) (i : Nat) (d : α) : α := if h : i < n then v[i] else d
def vset {α : Type} {n : Nat} (v : Vector α n) (i : Nat) (x : α) : Vector α n := if h : i < n then v.set i x else v
def vmod {α : Type} {n : Nat} (v : Vector α n) (i : Nat) (f : α → α) : Vector α n := if h : i < n then v.set i (f v[i]) else v

/-! ### Harts -/


end Sys2Proof.Machine

namespace Sys2Proof

/-- Position in the order S, A, V, M. -/
def Strm.idx (q : Strm) : Nat := match q with | .s => 0 | .a => 1 | .v => 2 | .m => 3

namespace Machine

def strmOf (n : Nat) : Strm := match n with | 0 => .s | 1 => .a | 2 => .v | _ => .m

def State.core (s : State) (c : CoreId) : Core := s.cores[c.val]
def State.modCore (s : State) (c : CoreId) (f : Core → Core) : State :=
  { s with cores := s.cores.set c.val (f s.cores[c.val]) }

def State.cpu (s : State) (x : Hart) : Cpu :=
  match x with
  | .harbour => s.harbour.cpu
  | .core c => (s.core c).cpu
def State.modCpu (s : State) (x : Hart) (f : Cpu → Cpu) : State :=
  match x with
  | .harbour => { s with harbour := { s.harbour with cpu := f s.harbour.cpu } }
  | .core c => s.modCore c fun k => { k with cpu := f k.cpu }

def Cpu.stream (u : Cpu) (q : Strm) : Stream := vget u.strm q.idx {}
def Cpu.modStream (u : Cpu) (q : Strm) (f : Stream → Stream) : Cpu := { u with strm := vmod u.strm q.idx f }
def State.modStream (s : State) (x : Hart) (q : Strm) (f : Stream → Stream) : State := s.modCpu x (·.modStream q f)
def State.stream (s : State) (x : Hart) (q : Strm) : Stream := (s.cpu x).stream q

def State.launch (s : State) (lid : Nat) : Option Launch := s.launches.find? (·.lid == lid)
def State.modLaunch (s : State) (lid : Nat) (f : Launch → Launch) : State :=
  { s with launches := s.launches.map fun l => if l.lid == lid then f l else l }
def State.part (s : State) (p : Nat) : Part := vget s.parts p {}
def State.modPart (s : State) (p : Nat) (f : Part → Part) : State := { s with parts := vmod s.parts p f }
def State.island (s : State) (i : Nat) : Island := vget s.islands i {}
def State.modIsland (s : State) (i : Nat) (f : Island → Island) : State := { s with islands := vmod s.islands i f }
def State.atoll (s : State) (a : Nat) : Atoll := vget s.atolls a {}
def State.modAtoll (s : State) (a : Nat) (f : Atoll → Atoll) : State := { s with atolls := vmod s.atolls a f }
def State.draw (s : State) : State := { s with free := s.free + 1 }

/-- Column and row of a core (R17). -/
def coreX (c : CoreId) : Nat := c.val % 32
def coreY (c : CoreId) : Nat := c.val / 32
/-- R17: island and atoll of a place. -/
def islandAt (x y : Nat) : Nat := x / 8 + 4 * (y / 4)
def atollAt (x y : Nat) : Nat := 4 * islandAt x y + y % 4
def islandOf (c : CoreId) : Nat := islandAt (coreX c) (coreY c)
def atollOf (c : CoreId) : Nat := atollAt (coreX c) (coreY c)
def coreAt (x y : Nat) : CoreId := ⟨(x % 32 + 32 * y) % 256, Nat.mod_lt _ (by decide)⟩

/-- Fields of the kernel header (R303). -/
def Launch.hdr (l : Launch) (off n : Nat) : Nat := ofLE ((l.khdr.drop off).take n)
def Launch.w (l : Launch) : Nat := l.hdr 28 1
def Launch.hh (l : Launch) : Nat := l.hdr 29 1
def Launch.det (l : Launch) : Bool := l.hdr 2 2 % 2 == 1
def Launch.members (l : Launch) : List CoreId :=
  (List.range (l.w * l.hh)).map fun p => coreAt (l.x0 + p % l.w) (l.y0 + p / l.w)
/-- The core of a launch at a relative place. -/
def Launch.coreOf (l : Launch) (rx ry : Nat) : CoreId := coreAt (l.x0 + rx) (l.y0 + ry)
/-- The atolls of the timed domain (R36). -/
def Launch.atolls (l : Launch) : List Nat := (l.members.map atollOf).eraseDups
def Launch.originIsland (l : Launch) : Nat := islandAt l.x0 l.y0
/-- The relative number of an island (R304). -/
def Launch.rel (l : Launch) (i : Nat) : Nat := 4 * (i / 4 - l.originIsland / 4) + (i % 4 - l.originIsland % 4)
/-- hop_N of a core's relative island (R66, R303). -/
def Launch.hopN (l : Launch) (c : CoreId) : Nat := l.hdr (776 + l.rel (islandOf c)) 1
/-- The recorded hop between two cores (R37), 255 when the pair is not recorded. -/
def Launch.hop (l : Launch) (c d : CoreId) : Nat := l.hdr (712 + 8 * l.rel (islandOf c) + l.rel (islandOf d)) 1

def State.launchOf (s : State) (c : CoreId) : Option Launch := s.launch (s.core c).lid

/-- The cycle a hart counts in: SFC of its launch (R48), HFC in a hook (R266), the time base on the harbour core (R331). (DEDUCED, log 40) -/
def State.now (s : State) (x : Hart) : Nat :=
  match x with
  | .harbour => s.time
  | .core c =>
    let k := s.core c
    if k.hook.isSome then k.hfc else match s.launchOf c with | some l => l.sfc | none => 0

/-- HSTAT.PL (R336): 1 S, 2 M. -/
def Harbour.pl (h : Harbour) : Nat := fld h.hstat 1 0
/-- HSTAT.PTN (R336). -/
def Harbour.ptn (h : Harbour) : Nat := fld h.hstat 10 8
def Harbour.exl (h : Harbour) : Bool := fld h.hstat 4 4 == 1

/-! ### Sections -/

/-- A stream's section header at an address (R156). -/
def Cpu.header (u : Cpu) (a : Nat) : Nat := u.imem.le a 8
def hdrField (h hi lo : Nat) : Nat := h / 2 ^ lo % 2 ^ (hi + 1 - lo)
def hdrLen (h : Nat) : Nat := hdrField h 21 10
def hdrSec (h : Nat) : Nat := hdrField h 9 0
def hdrLock (h : Nat) : Bool := hdrField h 62 62 == 1
def hdrRpt (h : Nat) : Bool := hdrField h 63 63 == 1
/-- DEPS, DEPA, DEPV, DEPM by stream position. -/
def hdrDep (h k : Nat) : Nat := hdrField h (31 + 10 * k) (22 + 10 * k)
/-- The list of sections that a section belongs with: main with main, hook with hook (R308). -/
def Stream.peers (t : Stream) (a : Nat) : List Nat := if t.hooks.contains a then t.hooks else t.secs
/-- The next section of the stream: the listed one of lowest address above (R155). -/
def Stream.nextSec (t : Stream) (a : Nat) : Option Nat :=
  ((t.peers a).filter (a < ·)).foldl (fun m x => match m with | none => some x | some y => some (Nat.min x y)) none
def Cpu.lastWord (u : Cpu) (sec : Nat) : Nat := sec + 8 + 12 * (hdrLen (u.header sec) - 1)
def Cpu.wordAt (u : Cpu) (a : Nat) : BitVec 96 := wordOfBytes (u.imem.bytes a 12)
/-- Sections run as gated on the harbour core (R331). -/
def State.locked (s : State) (x : Hart) (q : Strm) : Bool :=
  match x with
  | .harbour => false
  | .core c => hdrLock ((s.core c).cpu.header (s.stream x q).sec)

/-! ### Time of an island and identity in records -/

def State.cyc (s : State) (i : Nat) : Nat := (s.island i).cyc
/-- Physical core number in the island (R339, R392). -/
def State.physCore (s : State) (c : CoreId) : Nat :=
  let a := atollOf c
  9 * (a % 4) + ((s.atoll a).map.toNat / 16 ^ (coreX c % 8)) % 16

/-- The 64-byte granules or lines that a list of bytes covers whole (R264, R399). -/
def wholeGranules (bs : List (Nat × Byte)) : List Nat :=
  ((bs.map fun b => b.1 / 64 * 64).eraseDups).filter fun g => (List.range 64).all fun k => bs.any fun b => b.1 == g + k

/-- Pool bytes of a core written by one instruction or arrival (R264). -/
def Core.poolWrite (k : Core) (bs : List (Nat × Byte)) (bad whole : List Nat) : Core :=
  let marks := (bad.map fun a => a / 64 * 64).eraseDups
  { k with
    pool := k.pool.writes bs
    poison := marks ++ k.poison.filter fun g => !(whole.contains g || marks.contains g) }

/-- Removes one line from a list of poisoned intervals of addresses. -/
def cutLine (ls : List (Nat × Nat)) (a : Nat) : List (Nat × Nat) :=
  ls.flatMap fun r =>
    if r.1 ≤ a && a < r.2 then
      (if r.1 < a then [(r.1, a)] else []) ++ (if a + 64 < r.2 then [(a + 64, r.2)] else [])
    else [r]
def State.linePoisoned (s : State) (a : Nat) : Bool := s.lines.any fun r => r.1 ≤ a && a < r.2

/-- Bytes of physical memory written by one write (R399). -/
def State.memPut (s : State) (bs : List (Nat × Byte)) (bad : List Nat) : State :=
  let marks := (bad.map fun a => a / 64 * 64).eraseDups
  let cut := (wholeGranules bs ++ marks).foldl cutLine s.lines
  { s with mem := s.mem.writes bs, lines := (marks.map fun a => (a, a + 64)) ++ cut }

/-! ### Writes on their way to the observers (R116 to R123, R126 to R128; DESIGN CHOICE, log 13) -/

/-- An observer lies in the instance of a hart at a scope (R126). -/
def inScope (h : Hart) (sc : Nat) (o : Hart) : Bool :=
  h == o || match h, o with
    | .core c, .core d => (sc == 1 && atollOf c == atollOf d) || (sc == 2 && islandOf c == islandOf d) || 3 ≤ sc
    | _, _ => 3 ≤ sc

/-- A number for each observer. -/
def hartNum : Hart → Nat | .harbour => 256 | .core c => c.val

/-- An observer has been shown a byte of a write, or its free time for the byte's granule has come; all of an SO write is seen by all at one instant (R120). -/
def Win.reached (w : Win) (time : Nat) (o : Hart) (a : Nat) : Bool :=
  w.shown.any (fun p => inScope p.1 p.2 o) || w.at_ + Config.freeAt w.fr (a / 64) (if w.kind == 0 then 0 else 1 + hartNum o) ≤ time
/-- A core sees its own writes at once, but for a copy's and for those of UO pages (R118, R122). -/
def Win.own (w : Win) (o : Hart) : Bool := w.x == o && !w.copy && w.kind != 2
/-- Whether a read by an observer sees the write of a byte; on a UO page one read may see it and a later one not (R122). -/
def Win.seen (w : Win) (time draw : Nat) (o : Hart) (a : Nat) : Bool :=
  w.own o || (w.reached time o a && (w.kind != 2 || w.shown.any (fun p => inScope p.1 p.2 o) || Config.freeBool draw (a / 64)))

/-- The byte at an address as an observer sees it: from the newest write to the oldest, the first it sees (R118). -/
def seeByte (time draw : Nat) (o : Hart) (a : Nat) : List Win → Byte → Byte
  | [], b => b
  | w :: ws, b =>
    match w.old.find? (·.1 == a) with
    | none => seeByte time draw o a ws b
    | some p => if w.seen time draw o a then b else seeByte time draw o a ws p.2

/-- Physical bytes as a hart reads them now (R116 to R122). (DEDUCED, log 41) -/
def State.memBytesOf (s : State) (o : Hart) (as : List Nat) : List Byte :=
  as.map fun a => seeByte s.time s.free o a s.wins (s.mem.read a)

/-- Windows without some addresses; those left empty go. -/
def stripWins (ws : List Win) (as : List Nat) : List Win :=
  (ws.map fun w => { w with old := w.old.filter fun b => !as.contains b.1 }).filter (!·.old.isEmpty)
/-- A write becomes visible to every observer: it and every older write of its bytes (R118). -/
def shutWins (fr : Nat) (gone : List Nat) : List Win → List Win
  | [] => []
  | w :: ws =>
    if w.fr == fr then shutWins fr (w.old.map (·.1) ++ gone) ws
    else
      let old := w.old.filter fun b => !gone.contains b.1
      if old.isEmpty then shutWins fr gone ws else { w with old := old } :: shutWins fr gone ws
def State.shut (s : State) (fr : Nat) : State := { s with wins := shutWins fr [] s.wins }
/-- Every write of a hart is visible. -/
def State.shutOf (s : State) (h : Hart) : State := ((s.wins.filter (·.x == h)).map (·.fr)).foldl State.shut s

/-- A write visible to every observer at once. -/
def State.memWrite (s : State) (bs : List (Nat × Byte)) (bad : List Nat) : State :=
  ({ s with wins := stripWins s.wins (bs.map (·.1)) } : State).memPut bs bad

/-- What a hart has written or read of a write is shown to its instance at a scope (R127, R128, R133); a write of an SO page to every observer, at one instant (R120). -/
def Win.show (time : Nat) (h : Hart) (sc : Nat) (w : Win) : List Win :=
  let sc := if w.kind == 0 then 4 else sc
  let (yes, no) := if w.x == h && !w.copy then (w.old, []) else w.old.partition fun (b : Nat × Byte) => w.reached time h b.1
  [{ w with old := yes, shown := (h, sc) :: w.shown }, { w with old := no }].filter (!·.old.isEmpty)
/-- The part of a release or FENCE of a hart that concerns writes (R127, R128, R133). -/
def State.settle (s : State) (h : Hart) (sc : Nat) : State := { s with wins := s.wins.flatMap (Win.show s.time h sc) }
/-- An SO access follows its core's SO writes: they are visible to all (R119, R120). -/
def State.closeSo (s : State) (h : Hart) : State :=
  { s with wins := s.wins.map fun w => if w.x == h && w.kind == 0 && !w.copy then { w with shown := (h, 4) :: w.shown } else w }

/-- A core's copy reads bytes of the core's own SO writes: those become visible to every observer with it (R118, R120). -/
def State.closeRead (s : State) (h : Hart) (as : List Nat) : State :=
  { s with wins := s.wins.map fun w => if w.x == h && w.kind == 0 && !w.copy && w.old.any (as.contains ·.1) then { w with shown := (h, 4) :: w.shown } else w }

/-- Bytes that a hart writes under a number, of pages of the given kinds, with the windows in which other observers may still read those replaced (R123). -/
def State.openWins (s : State) (h : Hart) (fr : Nat) (copy : Bool) (bs : List (Nat × Byte)) (ks : List Nat) : State :=
  let olds := bs.zip ks
  let bad := if s.lines.isEmpty then [] else ((bs.map fun b => b.1 / 64 * 64).eraseDups).filter s.linePoisoned
  let of (k : Nat) : Win := { x := h, fr := fr, at_ := s.time, kind := k, copy := copy, old := (olds.filter fun b => b.2 == k).map fun (b : (Nat × Byte) × Nat) => (b.1.1, s.mem.read b.1.1), bad := bad }
  { s with wins := ((List.range 4).map of).filter (!·.old.isEmpty) ++ s.wins }

/-- The newest write of a byte still on its way is that of a number. -/
def State.newest (s : State) (fr a : Nat) : Bool := ((s.wins.find? fun w => w.old.any (·.1 == a)).map (·.fr)) == some fr
/-- Bytes of a write that take another value before it is visible to all, where no newer write stands. -/
def State.amend (s : State) (fr : Nat) (bs : List (Nat × Byte)) : State := { s with mem := s.mem.writes (bs.filter fun b => s.newest fr b.1) }

/-! ### Results landing (R30) -/

def updCount (hot : List (Nat × Nat × Nat × Nat)) (buf rd wr cy : Nat) : List (Nat × Nat × Nat × Nat) :=
  match hot with
  | [] => [(buf, rd, wr, cy)]
  | (b, r, w, c) :: t => if b == buf then (b, r + rd, w + wr, c + cy) :: t else (b, r, w, c) :: updCount t buf rd wr cy

def Cpu.setG (u : Cpu) (i : Nat) (v : Dword) (t : Bool) : Cpu :=
  if i == 0 then u else { u with g := vset u.g i v, gt := vset u.gt i t, regBad := u.regBad.filter (· != (0, i)) }
def Cpu.setP (u : Cpu) (i : Nat) (b : Bool) : Cpu :=
  if i == 0 then u else
    { u with p := (u.p &&& ~~~(BitVec.twoPow 16 i)) ||| (if b then BitVec.twoPow 16 i else 0), regBad := u.regBad.filter (· != (1, i)) }
def Cpu.getP (u : Cpu) (i : Nat) : Bool := i == 0 || u.p.getLsbD i
def Cpu.getG (u : Cpu) (i : Nat) : Dword := if i == 0 then 0 else vget u.g i 0
def Cpu.getT (u : Cpu) (i : Nat) : Bool := i != 0 && vget u.gt i false
def Cpu.setH (u : Cpu) (i : Nat) (v : Handle) (t : Bool) : Cpu :=
  { u with h := vset u.h i v, ht := vset u.ht i t, regBad := u.regBad.filter (· != (2, i)) }
def Cpu.getH (u : Cpu) (i : Nat) : Handle := vget u.h i {}
def Core.stw (k : Core) (r w : Nat) : Dword := vget (vget k.st r (Vector.replicate 4 0)) w 0
/-- A register that is written holds no error any more (R400). -/
def Core.mend (k : Core) (f i : Nat) : Core := { k with cpu := { k.cpu with regBad := k.cpu.regBad.filter (· != (f, i)) } }
def Core.setSt (k : Core) (r w : Nat) (v : Dword) : Core := ({ k with st := vmod k.st r fun x => vset x w v } : Core).mend 3 (4 * r + w)

/-- The QCW's cursor bytes as the queue unit holds them (R82). -/
def Queue.cursorBytes (q : Queue) : List (Nat × Byte) :=
  placeLE (q.addr + 8) 2 q.head ++ placeLE (q.addr + 10) 2 q.tail ++ placeLE (q.addr + 12) 2 q.qc ++ placeLE (q.addr + 14) 2 q.pc
/-- A cursor change with its write-back in the same cycle (R82). -/
def Core.setQueue (k : Core) (i : Nat) (q : Queue) : Core :=
  { k with queues := vset k.queues i q, pool := if q.valid then k.pool.writes q.cursorBytes else k.pool }

/-- A dword of free bytes. -/
def freeDword (fr k : Nat) : Dword := BitVec.ofNat 64 (ofLE ((List.range 8).map fun j => Config.freeByte fr (k + j)))

/-! ### Writes of the pool that meet what is being read (R61, R197, R214, R240, R246) -/

def crcBits : Nat → Nat → Nat
  | 0, c => c
  | n + 1, c => crcBits n (if c % 2 == 1 then (c / 2) ^^^ 0x82F63B78 else c / 2)
/-- crc32c of R288: continues a finished value over further bytes. -/
def crc32c (c : Nat) (bs : List Byte) : Nat := (bs.foldl (fun c b => crcBits 8 (c ^^^ b.toNat)) (c ^^^ 0xFFFFFFFF)) ^^^ 0xFFFFFFFF

/-- The instruction that writes: its stream, its issue cycle and the cycle of the write; none for an arrival or a write made at issue. -/
abbrev Writer := Option (Strm × Nat × Nat)

/-- A destination byte stands as another write of a cycle leaves it (R197); of an accumulator element it is open, for all that are chained on it alike, whether that write or the last result stands (R246; DESIGN CHOICE, log 4). -/
def Eff.yields (fr now a : Nat) : Eff → Bool
  | .redo bs => bs.any (·.1 == a)
  | .acc bs _ _ => bs.any (·.1 == a) && Config.freeBool fr (2 ^ 31 + a / 4 + 2 ^ 52 * now)
  | _ => false

/-- The number of the next write that a pending instruction meets. -/
def Pend.hit (e : Pend) : Nat := (e.met.map (·.key)).foldl Nat.max 0 + 1
/-- A write at a cycle meets what a pending instruction reads: another's to the end of the range's time, its own only before its reading. -/
def Pend.meet (fr now : Nat) (by_ : Writer) (bs : List (Nat × Byte)) (e : Pend) : Pend :=
  let own := by_.any fun w => w.1 == e.strm && w.2.1 == e.issue
  let hits := bs.filter fun b => e.srcs.any fun r =>
    r.a ≤ b.1 && b.1 < r.a + r.n && !r.acc && (if own then by_.any (·.2.2 < r.rd) else decide (now ≤ r.hi))
  { e with
    met := e.met ++ hits.map fun b => ⟨b.1, b.2, e.hit⟩
    newer := if own then e.newer else ((bs.map (·.1)).filter fun a => e.effs.any (·.yields fr now a)) ++ e.newer }
def Core.meet (k : Core) (fr now : Nat) (by_ : Writer) (skipM : Bool) (bs : List (Nat × Byte)) : Core :=
  { k with cpu := { k.cpu with pend := k.cpu.pend.map fun e => if skipM && e.strm == .m then e else e.meet fr now by_ bs } }

/-- The place, among the bytes moved, of the one that stands at a destination address: of several elements' the last; none where that is fill (R281). -/
def Copy.lastFrom (e : Copy) (a : Nat) : Option Nat := ((e.dsts.filter (·.1 == a)).getLast?).bind (·.2)

/-- What a copy's data become when a write meets bytes that it still reads: each moved byte old or new, by free choice, and the checksum over what was sent (R61, R288; DESIGN CHOICE, log 4). -/
def State.remeet1 (s : State) (c : CoreId) (bs : List (Nat × Byte)) (e : Copy) : State :=
  let news := e.froms.zipIdx.filterMap fun f =>
    ((bs.find? (·.1 == f.1)).map fun b => (f.2, b.2)).filter fun _ => Config.freeBool s.free f.2
  let put (l : List Byte) : List Byte := news.foldl (fun l n => l.set n.1 n.2) l
  let arr (a : Arrival) : Arrival :=
    let sent := put a.sent
    { a with
      sent := sent
      bytes := a.bytes.map fun b => match e.lastFrom b.1 with | some d => (b.1, sent.getD d b.2) | none => b
      credit := a.credit.map fun cr => { cr with crc := cr.crc.map fun m => (m.1, crc32c e.c0 sent) } }
  let sent := ((s.transit.find? fun t => t.from_ == c && t.u == e.u).map fun t => put t.arr.sent).getD []
  let ck (f : Eff) : Eff := match f with | .ck i _ => .ck i (BitVec.ofNat 32 (crc32c e.c0 sent)) | f => f
  let s := (s.amend e.fr ((e.dsts.map (·.1)).eraseDups.filterMap fun a => ((e.lastFrom a).bind fun d => news.find? (·.1 == d)).map fun n => (a, n.2))).draw
  let s : State := { s with transit := s.transit.map fun t => if t.from_ == c && t.u == e.u then { t with arr := arr t.arr } else t }
  if e.crc.isNone || news.isEmpty || sent.isEmpty then s
  else s.modCpu (.core c) fun u => { u with pend := u.pend.map fun p =>
    if p.issue == e.issue && p.land + 1 == e.u + e.n then { p with effs := p.effs.map ck } else p }
/-- Copies of the core that still read some of the bytes. -/
def State.remeet (s : State) (c : CoreId) (bs : List (Nat × Byte)) : State :=
  let n := s.now (.core c)
  ((s.core c).copies.filter fun e => e.started && n < e.u + e.n && e.froms.any fun a => bs.any (·.1 == a)).foldl (fun s e => s.remeet1 c bs e) s

/-- Bytes of one instruction or arrival reach a core's pool. -/
def State.poolStore (s : State) (c : CoreId) (by_ : Writer) (bs : List (Nat × Byte)) (bad whole : List Nat) : State :=
  (s.remeet c bs).modCore c fun k => (k.meet s.free (s.now (.core c)) by_ false bs).poolWrite bs bad whole
/-- A result of the accumulator path: what chains on it has read it already (R245, R246). -/
def State.accStore (s : State) (c : CoreId) (by_ : Writer) (bs : List (Nat × Byte)) (whole : List Nat) : State :=
  (s.remeet c bs).modCore c fun k => (k.meet s.free (s.now (.core c)) by_ true bs).poolWrite bs [] whole

/-- A nibble put into a byte (R108). -/
def putNibble (old : Byte) (high : Bool) (v : Nat) : Byte :=
  BitVec.ofNat 8 (if high then old.toNat % 16 + 16 * (v % 16) else old.toNat / 16 * 16 + v % 16)
/-- Nibbles placed into the bytes that hold them. -/
def placeNibbles (m : Mem) (ns : List (Nat × Bool × Nat)) : List (Nat × Byte) :=
  ((ns.map (·.1)).eraseDups).map fun a => (a, (ns.filter (·.1 == a)).foldl (fun b n => putNibble b n.2.1 n.2.2) (m.read a))

/-- Bytes on their way to a core's pool, the latest last: results of its own instructions and arrivals addressed to it (R61, R246). -/
def State.inflightPool (s : State) (c : CoreId) : List Coming :=
  let k := s.core c
  (k.cpu.pend.flatMap fun e => e.effs.flatMap fun f => match f with
    | .pool bs _ _ => bs.map fun b => ⟨b.1, b.2, b.1⟩
    | .nib ns => (placeNibbles k.pool ns).map fun b => ⟨b.1, b.2, b.1⟩
    | .acc bs _ _ => bs.map fun b => ⟨b.1, b.2, 2 ^ 23 + b.1 / 4⟩
    | _ => [])
  ++ (s.transit.filter fun t => t.arr.lid == k.lid && t.arr.rx == k.rx && t.arr.ry == k.ry).flatMap fun t => t.arr.bytes.map fun b => ⟨b.1, b.2, b.1⟩

/-- A byte that may be read old or new (R61): the old one, or one of those on their way, by free choice (DESIGN CHOICE, log 4). -/
def openByte (fr a : Nat) (old : Byte) (fl : List Coming) : Byte :=
  ((fl.filter (·.a == a)).zipIdx).foldl (fun o b => if Config.freeBool fr (b.1.key + 2 ^ 24 * b.2) then b.1.b else o) old

/-- n bytes of a core's pool as its engines read them now. -/
def State.poolRead (s : State) (c : CoreId) (a n : Nat) : List Byte :=
  let fl := s.inflightPool c
  let base := (s.core c).pool.bytes a n
  if fl.isEmpty then base else (List.range n).map fun k => openByte s.free (a + k) (base.getD k 0) fl

/-- A byte as the accumulator path reads it: that of its latest pending writer on that path, else the pool's (R245). -/
def State.accByte (s : State) (c : CoreId) : Nat → Byte :=
  let k := s.core c
  let ps := (k.cpu.pend.flatMap fun e => e.effs.flatMap fun f => match f with | .acc bs _ _ => bs | _ => []).reverse
  let fl := (s.inflightPool c).filter (·.key < 2 ^ 23)
  fun a => match ps.find? (·.1 == a) with | some b => b.2 | none => openByte s.free a (k.pool.read a) fl

/-- What the hart's new pending entries take with them: their number, their origin, and the source bytes as they were read. -/
def Pend.attach (s : State) (x : Hart) (o : Origin) (el : Nat) (e : Pend) : Pend :=
  if e.srcs.isEmpty && e.origin.isNone then { e with fr := s.free }
  else
    let rd : Nat → Byte := match x with
      | .harbour => fun _ => 0
      | .core c =>
        let fl := s.inflightPool c
        if e.strm == .m then s.accByte c else fun a => openByte s.free a ((s.core c).pool.read a) fl
    { e with fr := s.free, origin := some o, el := el, seen := e.srcs.flatMap fun r => (List.range r.n).map fun j => (r.a + j, rd (r.a + j)) }
/-- s after an instruction's effects on s0, its new entries completed. -/
def State.attach (s s0 : State) (x : Hart) (o : Origin) (el : Nat) : State :=
  let n := (s0.cpu x).pend.length
  s.modCpu x fun u => { u with pend := u.pend.take n ++ (u.pend.drop n).map (Pend.attach s0 x o el) }

/-- Writes a LID's entry of a partition's remap table, which lies in HBM (R373, R384). -/
def State.remapWrite (s : State) (p lid st area newlid : Nat) : State :=
  let b := fld (s.part p).lcremap 47 20 * 2 ^ 20
  if b < 0x10000000000 then s
  else s.memWrite (placeLE (b + 16 * lid) 8 st ++ placeLE (b + 16 * lid + 8) 6 area ++ placeLE (b + 16 * lid + 14) 2 newlid) []

/-- A restore completes: arrivals for the old LID go to the new placement from now on, and the launch may thaw (R384, R385). -/
def State.forward (s : State) (p old area new : Nat) : State :=
  let s := if s.saved.any fun e => e.lid == old && e.newlid == some new then s.remapWrite p old 3 area new else s
  s.modLaunch new fun l => { l with loading := false }

/-- One effect on a hart. Effects that only a compute core has change nothing on the harbour core. -/
def State.land1 (s : State) (x : Hart) (by_ : Writer) (e : Eff) : State :=
  match e with
  | .g i v t => s.modCpu x (·.setG i v t)
  | .p i b => s.modCpu x (·.setP i b)
  | .h i v t => s.modCpu x (·.setH i v t)
  | .hclr i => s.modCpu x fun u => u.setH i { u.getH i with valid := false } false
  | .shut fr => s.shut fr
  | .forward p old area new => s.forward p old area new
  | .keep _ => s
  | e =>
    match x with
    | .harbour => s
    | .core c =>
      match e with
      | .st r w v => s.modCore c (·.setSt r w v)
      | .rep q v => s.modCore c fun k => ({ k with rep := vset k.rep q.idx v } : Core).mend 9 q.idx
      | .ring i v => s.modCore c fun k => ({ k with rings := vset k.rings i v } : Core).mend 8 i
      | .ringTail i n => s.modCore c fun k => { k with rings := vmod k.rings i fun r => { r with tail := (r.tail + n) % 256 } }
      | .ringHead i n => s.modCore c fun k => { k with rings := vmod k.rings i fun r => { r with head := (r.head + n) % 256 } }
      | .queue i v => s.modCore c fun k => (k.setQueue i v).mend 7 i
      | .qTail i n => s.modCore c fun k => let q := vget k.queues i {}; k.setQueue i { q with tail := (q.tail + n) % 65536 }
      | .qHead i n => s.modCore c fun k => let q := vget k.queues i {}; k.setQueue i { q with head := (q.head + n) % 65536 }
      | .pool bs bad w => s.poolStore c by_ bs bad w
      | .nib ns => s.poolStore c by_ (placeNibbles (s.core c).pool ns) [] []
      | .acc bs whole _ => s.accStore c by_ bs whole
      | .flags f => s.modCore c fun k => { k with vflags := k.vflags ||| f }
      | .clrFlags m => s.modCore c fun k => { k with vflags := k.vflags &&& ~~~m }
      | .vprog n => s.modCore c fun k => { k with vprog := n }
      | .sort v _ => s.modCore c fun k => { k with sort := v.finish }
      | .scfg n => s.modCore c fun k => { k with scfg := n }
      | .hot b rd wr => s.modLaunch (s.core c).lid fun l => { l with hot := updCount l.hot b rd wr 0 }
      | .ck i v => s.modCore c fun k => ({ k with ck := vset k.ck i v } : Core).mend 6 i
      | _ => s

/-- An accumulator result gives way to a write of another stream that met its element while it was pending, or not, by free choice (R246; DESIGN CHOICE, log 4). -/
def Eff.giveWay (e : Pend) : Eff → Eff
  | .acc bs w ch => .acc (bs.filter fun b => !e.newer.contains b.1) w ch
  | f => f
/-- All effects of one pending entry, in order. -/
def State.landEffs (s : State) (x : Hart) (e : Pend) : State :=
  (if e.newer.isEmpty then e.effs else e.effs.map (Eff.giveWay e)).foldl (fun s f => s.land1 x (some (e.strm, e.issue, e.land)) f) s

def Eff.isDetect : Eff → Bool | .detect _ _ _ => true | _ => false
def Pend.isDetect (e : Pend) : Bool := e.effs.any Eff.isDetect
def Eff.isAcc : Eff → Bool | .acc _ _ _ => true | _ => false
def Pend.isAcc (e : Pend) : Bool := e.effs.any Eff.isAcc

/-- Removes the pending entry at a position. -/
def State.dropPend (s : State) (x : Hart) (k : Nat) : State := s.modCpu x fun u => { u with pend := u.pend.eraseIdx k }

/-! ### Traps -/

/-- Causes of R340. -/
def cIllegalOp : Nat := 0x01
def cReservedField : Nat := 0x02
def cWrongStream : Nat := 0x03
def cIllegalOperand : Nat := 0x04
def cPrivilege : Nat := 0x05
def cScheduleMiss : Nat := 0x06
def cPaceViolation : Nat := 0x07
def cHandleInvalid : Nat := 0x08
def cTranslation : Nat := 0x09
def cTranslationS2 : Nat := 0x0A
def cAlign : Nat := 0x0B
def cUntimedAccess : Nat := 0x0C
def cEarlyRead : Nat := 0x0D
def cDataPoison : Nat := 0x0E
def cOrderFault : Nat := 0x0F
def cQueueFault : Nat := 0x10
def cRingFault : Nat := 0x11
def cLandingFault : Nat := 0x12
def cDeliveryRefused : Nat := 0x13
def cSpillOverflow : Nat := 0x14
def cBreak : Nat := 0x15
def cSyscall : Nat := 0x16
def cBudgetExpired : Nat := 0x17
def cPreempt : Nat := 0x18
def cNotReady : Nat := 0x19
def cSortState : Nat := 0x1A

def optMin (o : Option Nat) (n : Nat) : Option Nat := match o with | none => some n | some m => some (Nat.min m n)

/-- Stop points of a freeze whose event falls at t on core c: t0 there, t1 on every other core of the domain; the earlier value stands (R59). A core already stopped keeps its stop point. -/
def State.freeze (s : State) (l : Launch) (c : CoreId) (t0 t1 : Nat) : State :=
  l.members.foldl (fun s d => s.modCore d fun k =>
    if k.stopped then k else { k with stop := optMin k.stop (if d == c then t0 else t1) }) s

/-- The record of a trap of a stream of a core (R339), not yet posted. -/
def State.mkRec (s : State) (c : CoreId) (q : Strm) (t : TrapInfo) (after hookable : Bool) (cycle : Nat) (word : BitVec 96) (ima sec repn : Nat) : Rec :=
  let k := s.core c
  let l := s.launchOf c
  { c := c, lid := k.lid, ptn := (l.map (·.ptn)).getD 0, strm := q, trap := t, after := after, hookable := hookable, word := word, ima := ima,
    sec := sec, repn := repn, vprog := k.vprog, sfc := cycle, cyc := s.cyc (islandOf c), rx := k.rx, ry := k.ry,
    phys := s.physCore c, isl := islandOf c }

/-- A core leaves its launch. -/
def Core.release (k : Core) : Core :=
  { k with lid := 0, stop := none, stopped := false, hold := 0, hook := none, pin := [], copies := [],
           cpu := { k.cpu with pend := [], walks := [],
                               strm := k.cpu.strm.map fun t => { t with ended := true, stopped := [] } } }

def Part.complete (p : Part) (lid outcome status : Nat) : Part :=
  { p with done := ((p.done ++ [(lid, outcome, status)]).drop (p.done.length + 1 - 256)) }

/-- A launch's hotness set kept for readout; the oldest goes when 32 are held (R370). -/
def Part.keepHot (p : Part) (lid : Nat) (hot : List (Nat × Nat × Nat × Nat)) : Part :=
  let sets := p.hotsets ++ [(lid, hot)]
  if sets.length > 32 then { p with hotsets := sets.drop 1, hotlost := p.hotlost + 1 } else { p with hotsets := sets }

/-- The LIDs that have come to stand for some: forwarded to them, directly or through others (R384). -/
def lidsOf (es : List Saved) : Nat → List Nat → List Nat
  | 0, ns => ns
  | f + 1, ns => lidsOf es f (ns ++ (es.filter fun e => !ns.contains e.lid && e.newlid.any ns.contains).map (·.lid))
/-- A remap-table entry returns to none (R384): that of a launch that ends, and those that forward to it. -/
def State.clearRemap (s : State) (lid : Nat) : State :=
  let ns := lidsOf s.saved s.saved.length [lid]
  (s.saved.filter fun e => ns.contains e.lid).foldl (fun s e => s.remapWrite e.ptn e.lid 0 0 0) { s with saved := s.saved.filter fun e => !ns.contains e.lid }

/-- What a launch that ends leaves on its way to its cores: it is met, and refused, at open edges (R384, R404; DESIGN CHOICE, log 102). -/
def State.leave (s : State) (l : Launch) : State :=
  let ts := s.transit.filter (·.arr.lid == l.lid)
  { s with
    transit := s.transit.filter (·.arr.lid != l.lid)
    orphans := s.orphans ++ ts.zipIdx.map fun t =>
      { c := l.coreOf t.1.arr.rx t.1.arr.ry, accepted := t.1.accepted
        due := s.time + Config.freeNat (s.free + 2 ^ 40 * (t.2 + 1) + 2 ^ 60 * l.lid) } }

/-- Records whose freeze has ended, dropped once popped (R341). -/
def dropRecs (rs : List Rec) : List Rec := rs.filter fun r => !(r.settled && r.popped)

/-- A launch ends: its cores, records and arrivals are released, its counters kept, a completion record appended (R341, R370, R377, R384). -/
def State.endLaunch (s : State) (lid outcome status : Nat) : State :=
  match s.launch lid with
  | none => s
  | some l =>
    let s := l.members.foldl (fun s c => (s.shutOf (.core c)).modCore c Core.release) s
    let s := { s with
      launches := s.launches.filter (·.lid != lid)
      waitRecs := s.waitRecs.filter (·.lid != lid)
      recs := dropRecs (s.recs.map fun (r : Rec) => if r.lid == lid then { r with disp := some (r.disp.getD 4), settled := true } else r) }
    ((s.leave l).clearRemap lid).modPart l.ptn fun p => (p.keepHot lid l.hot).complete lid outcome status

/-- The kill that a hook brings on its launch, with its record, of which nothing is left to dispose (R266, R338). (DEDUCED, log 70) -/
def State.hookKill (s : State) (r : Rec) : State :=
  let s := s.endLaunch r.lid 2 0
  { s with waitRecs := s.waitRecs ++ [{ r with disp := some 4, settled := true }] }

/-- A trap of a core at a cycle: the domain freezes and a record waits to be posted (R59, R338). -/
def State.trapAt (s : State) (c : CoreId) (q : Strm) (t : TrapInfo) (after hookable : Bool) (at_ : Nat) (word : BitVec 96) (ima sec repn : Nat) : State :=
  match s.launchOf c with
  | none => s
  | some l =>
    let r := s.mkRec c q t after hookable at_ word ima sec repn
    let s := s.freeze l c at_ (at_ + 16)
    { s with waitRecs := s.waitRecs ++ [r] }
/-- A trap on a compute core at issue or after it (R338). Inside a hook it kills the launch (R266). -/
def State.coreTrap (s : State) (c : CoreId) (q : Strm) (t : TrapInfo) (after hookable : Bool) (word : BitVec 96) (ima sec repn : Nat) : State :=
  match s.launchOf c with
  | none => s
  | some l =>
    if (s.core c).hook.isSome then s.hookKill (s.mkRec c q t after false l.sfc word ima sec repn)
    else
      let n := s.now (.core c)
      s.trapAt c q t after hookable (match (s.core c).stop with | some x => Nat.min x n | none => n) word ima sec repn

/-- Something that the harbour core has issued is outstanding: a result, a walk, or a TLBI, HINVA, CTXSV or CTXLD in progress (R337, R348 to R350, R358). -/
def Harbour.busy (h : Harbour) (now : Nat) : Bool := !(h.cpu.pend.isEmpty && h.cpu.walks.isEmpty && h.drain.isEmpty) || now < h.hold
/-- A trap of the harbour core (R337): the level it is taken at, the saved PCs, the cause, and both streams at the vectors once issued instructions have drained, a walk still in progress included. A second trap under EXL halts the core. -/
def State.takeHarbourTrap (s : State) (q : Strm) (t : TrapInfo) : State :=
  let h := s.harbour
  if h.exl then { s with harbour := { h with halted := true } }
  else
    let l := h.pl
    let lvl : Nat := if l == 1 && t.cause != cTranslationS2 && h.hdeleg.getLsbD t.cause then 1 else 2
    let vec := if lvl == 1 then h.vecs else h.vecm
    let d := (h.cpu.pend.map (·.land) ++ h.cpu.strm.toList.map (·.doneMax)).foldl Nat.max s.time
    let go (pc : Nat) (u : Stream) : Stream :=
      { u with pc := pc, parked := false, ended := false, base := d + 2, tried := none, bad := none, past := false }
    { s with harbour := { h with
        hstat := BitVec.ofNat 64 (h.ptn * 256 + 16 + l * 4 + lvl)
        hcause := BitVec.ofNat 64 (q.idx * 256 + t.cause), entered := h.busy s.time
        hval := BitVec.ofNat 64 t.va, hinfo := BitVec.ofNat 64 t.info
        epcs := (h.cpu.stream .s).pc % 2 ^ 19, epca := (h.cpu.stream .a).pc % 2 ^ 19
        cpu := (h.cpu.modStream .s (go (fld vec 18 0 / 4 * 4))).modStream .a (go (fld vec 50 32 / 4 * 4)) } }

/-- A trap at issue of the current agent's word. -/
def State.raise (s : State) (t : TrapInfo) (w : BitVec 96) : State :=
  match s.cur.hart with
  | .harbour => s.takeHarbourTrap s.cur.strm t
  | .core c =>
    let u := (s.core c).cpu
    let st := u.stream s.cur.strm
    s.coreTrap c s.cur.strm t false false w st.pc (hdrSec (u.header st.sec)) st.repn

/-- Return from a harbour trap (R346): level and PCs restored, EXL cleared, the A stream unparked. -/
def State.eret (s : State) : State :=
  let h := s.harbour
  let go (pc : Nat) (u : Stream) : Stream :=
    { u with pc := pc, parked := false, ended := false, base := s.time + 2, tried := none, bad := none, past := false }
  { s with harbour := { h with
      hstat := BitVec.ofNat 64 (h.ptn * 256 + fld h.hstat 3 2 * 4 + fld h.hstat 3 2)
      cpu := (h.cpu.modStream .s (go h.epcs)).modStream .a (go h.epca) } }

end Machine
end Sys2Proof
end

