-- ==== Sys2Proof/Machine/Float.lean ====
section
/-! DEFINITION. Number formats, rounding and the functions of R93 to R110, R229 to R231, R293. Finite values are exact multiples of 2^-149; functions that are irrational are carried to 640 fraction bits with a sticky bit below, then rounded once. -/

namespace Sys2Proof.Machine

/-- VFLAGS bits (R101). -/
def fINV : Nat := 1
def fDZ : Nat := 2
def fOF : Nat := 4
def fUF : Nat := 8
def fNX : Nat := 16
def fSAT : Nat := 32
def fWRAP : Nat := 64

/-- A floating-point format (R95): width, significand bits, exponent bits, bias; FP8E4 has no infinity. -/
structure FFmt where
  w : Nat
  m : Nat
  e : Nat
  bias : Nat
  noInf : Bool := false
  deriving DecidableEq, Repr

def fp8e4 : FFmt := ⟨8, 3, 4, 7, true⟩
def fp8e5 : FFmt := ⟨8, 2, 5, 15, false⟩
def fp16 : FFmt := ⟨16, 10, 5, 15, false⟩
def bf16 : FFmt := ⟨16, 7, 8, 127, false⟩
def fp32 : FFmt := ⟨32, 23, 8, 127, false⟩

/-- A value read from a format: a finite value is num × 2^-149, a zero keeps its sign. -/
inductive FV where
  | nan (signalling : Bool)
  | inf (neg : Bool)
  | fin (neg : Bool) (k : Nat)
  deriving DecidableEq, Repr

def FFmt.emax (f : FFmt) : Nat := 2 ^ f.e - 1
def FFmt.canon (f : FFmt) : Nat := if f.noInf then 0x7F else f.emax * 2 ^ f.m + 2 ^ (f.m - 1)
def FFmt.infBits (f : FFmt) : Nat := f.emax * 2 ^ f.m
/-- Bits of the largest finite magnitude (R95). -/
def FFmt.maxBits (f : FFmt) : Nat := if f.noInf then 0x7E else f.emax * 2 ^ f.m - 1
def FFmt.sign (f : FFmt) (neg : Bool) (b : Nat) : Nat := if neg then b + 2 ^ (f.w - 1) else b

/-- Reads the low bits of a number in a format (R95). -/
def FFmt.read (f : FFmt) (x : Nat) : FV :=
  let b := x % 2 ^ f.w
  let neg := b / 2 ^ (f.w - 1) == 1
  let ex := b / 2 ^ f.m % 2 ^ f.e
  let fr := b % 2 ^ f.m
  if f.noInf then
    if ex == f.emax && fr == 7 then .nan false
    else .fin neg (if ex == 0 then fr * 2 ^ (150 - f.bias - f.m) else (2 ^ f.m + fr) * 2 ^ (ex + 149 - f.bias - f.m))
  else if ex == f.emax then
    if fr == 0 then .inf neg else .nan (fr < 2 ^ (f.m - 1))
  else .fin neg (if ex == 0 then fr * 2 ^ (150 - f.bias - f.m) else (2 ^ f.m + fr) * 2 ^ (ex + 149 - f.bias - f.m))

/-- Rounds n / d (d > 0) to an integer by a mode (R98), for a value of the given sign. -/
def roundDiv (rm : Nat) (neg : Bool) (n d : Nat) : Nat :=
  let q := n / d
  let r := n % d
  if r == 0 then q
  else match rm with
    | 0 => if 2 * r > d || (2 * r == d && q % 2 == 1) then q + 1 else q
    | 1 => if 2 * r ≥ d then q + 1 else q
    | 2 => q
    | 3 => if neg then q + 1 else q
    | _ => if neg then q else q + 1

/-- floor(log2(n / d)) for n, d > 0. -/
def logQ (n d : Nat) : Int :=
  let g : Int := (Nat.log2 n : Int) - (Nat.log2 d : Int)
  -- 2^(g-1) < n/d < 2^(g+1)
  if g ≥ 0 then (if n < d * 2 ^ g.toNat then g - 1 else g) else (if n * 2 ^ (-g).toNat < d then g - 1 else g)

/-- Overflow of R99: magnitude bits and flags; SAT where the SAT bit gives another result than the mode alone would. -/
def FFmt.overflow (f : FFmt) (rm : Nat) (sat neg : Bool) : Nat × Nat :=
  let inf := match rm with | 0 | 1 => true | 2 => false | 3 => neg | _ => !neg
  if inf && sat then (f.sign neg f.maxBits, fNX + fOF + fSAT)
  else if inf then (if f.noInf then (f.canon, fINV + fOF + fNX) else (f.sign neg f.infBits, fNX + fOF))
  else (f.sign neg f.maxBits, fNX + fOF)

/-- Rounds the value (-1)^neg × n / d to a format (R99): bits and flags. A zero keeps the sign given. -/
def FFmt.roundQ (f : FFmt) (rm : Nat) (sat neg : Bool) (n d : Nat) : Nat × Nat :=
  if n == 0 then (f.sign neg 0, 0)
  else
    let e := logQ n d
    let emin : Int := 1 - (f.bias : Int)
    let q : Int := (if e < emin then emin else e) - (f.m : Int)
    let (n', d') := if q ≥ 0 then (n, d * 2 ^ q.toNat) else (n * 2 ^ (-q).toNat, d)
    let k := roundDiv rm neg n' d'
    let inexact := n' % d' != 0
    -- k counts quanta of 2^q; magnitude bits follow from k and q
    let mag : Nat := if e < emin then k else (q + (f.m : Int) + (f.bias : Int) - 1).toNat * 2 ^ f.m + k
    if mag > f.maxBits then f.overflow rm sat neg
    else
      let fl := (if inexact then fNX else 0) + (if inexact && e < emin then fUF else 0)
      (f.sign neg mag, fl)

/-- The scale of finite values: k stands for k / 2^149. -/
def one149 : Nat := 2 ^ 149

/-- Rounds an exact multiple of 2^-149 × 2^-sh, the sign of an exact zero given by the mode (R99). -/
def FFmt.roundI (f : FFmt) (rm : Nat) (sat : Bool) (v : Int) (den : Nat) : Nat × Nat :=
  if v == 0 then (f.sign (rm == 3) 0, 0) else f.roundQ rm sat (v < 0) v.natAbs den

/-- A finite value as an integer multiple of 2^-149. -/
def FV.int : FV → Int
  | .fin neg k => if neg then -(k : Int) else k
  | _ => 0
def FV.isNan : FV → Bool | .nan _ => true | _ => false
def FV.isSnan : FV → Bool | .nan s => s | _ => false
def FV.neg : FV → Bool | .fin n _ => n | .inf n => n | .nan _ => false
def FV.isZero : FV → Bool | .fin _ k => k == 0 | _ => false
def FV.flip : FV → FV | .fin n k => .fin (!n) k | .inf n => .inf (!n) | x => x
def FV.inv (xs : List FV) : Nat := if xs.any FV.isSnan then fINV else 0

/-- A value converted to a format (R96, R99), NaN canonical. -/
def FFmt.conv (f : FFmt) (rm : Nat) (sat : Bool) (x : FV) : Nat × Nat :=
  match x with
  | .nan s => (f.canon, if s then fINV else 0)
  | .inf n => if f.noInf then (if sat then (f.sign n f.maxBits, fSAT) else (f.canon, fINV)) else (f.sign n f.infBits, 0)
  | .fin n k => f.roundQ rm sat n k one149

/-- Sum of two values rounded once (R99, R221). -/
def FFmt.add (f : FFmt) (rm : Nat) (sat : Bool) (x y : FV) : Nat × Nat :=
  match x, y with
  | .nan _, _ | _, .nan _ => (f.canon, FV.inv [x, y])
  | .inf a, .inf b => if a == b then f.conv rm sat x else (f.canon, fINV)
  | .inf _, _ => f.conv rm sat x
  | _, .inf _ => f.conv rm sat y
  | .fin a j, .fin b k =>
    if j == 0 && k == 0 && a == b then (f.sign a 0, 0) else f.roundI rm sat (x.int + y.int) one149

/-- Product of two values, then a sum with a third or none, rounded once (R221). -/
def FFmt.fma (f : FFmt) (rm : Nat) (sat : Bool) (x y : FV) (z : Option FV) : Nat × Nat :=
  let xs := [x, y] ++ z.toList
  let sg := x.neg != y.neg
  let badMul := match x, y with | .inf _, .fin _ 0 | .fin _ 0, .inf _ => true | _, _ => false
  if xs.any FV.isNan then (f.canon, if badMul then fINV else FV.inv xs)
  else if badMul then (f.canon, fINV)
  else
    match x, y, z with
    | .fin _ j, .fin _ k, none => f.roundQ rm sat sg (j * k) (one149 * one149)
    | .fin _ j, .fin _ k, some (.fin c l) =>
      if j * k == 0 && l == 0 && sg == c then (f.sign sg 0, 0)
      else f.roundI rm sat (x.int * y.int + FV.int (.fin c l) * one149) (one149 * one149)
    | .fin _ _, .fin _ _, some w => f.conv rm sat w
    | _, _, some (.inf c) => if c == sg then f.conv rm sat (.inf sg) else (f.canon, fINV)
    | _, _, _ => f.conv rm sat (.inf sg)

/-! ### Irrational functions to 640 fraction bits -/

def P640 : Nat := 2 ^ 640

/-- exp(x) for 0 ≤ x < 1 in units of 2^-640: the series, term by term. -/
def expSeries (x : Nat) : Nat → Nat → Nat → Nat
  | 0, _, _ => 0
  | fuel + 1, k, term => term + expSeries x fuel (k + 1) (term * x / (P640 * (k + 1)))
/-- DESIGN CHOICE, log 51. -/
def expUnit (x : Nat) : Nat := expSeries x 160 0 P640

/-- atanh(z) for 0 ≤ z ≤ 1/3 in units of 2^-640. -/
def atanhSeries (z2 : Nat) : Nat → Nat → Nat → Nat
  | 0, _, _ => 0
  | fuel + 1, k, pow => pow / (2 * k + 1) + atanhSeries z2 fuel (k + 1) (pow * z2 / P640)
def atanhUnit (z : Nat) : Nat := atanhSeries (z * z / P640) 220 0 z
def ln2U : Nat := 2 * atanhUnit (P640 / 3)

/-- exp of a non-negative multiple of 2^-640 as mantissa in [1, 2) units and a power of two. -/
def expPos (x : Nat) : Nat × Nat := (expUnit (x % ln2U), x / ln2U)

/-- A value with a sticky half unit below: the numerator over 2^641. (DESIGN CHOICE, log 51) -/
def sticky (n : Nat) : Nat := 2 * n + 1

/-- 2^x for x = v × 2^-149, as numerator and denominator; inexact cases carry a sticky bit. -/
def exp2Q (v : Int) : Nat × Nat :=
  let i := v / (one149 : Int)
  let fr := (v % (one149 : Int)).toNat
  let i := if i > 1100 then 1100 else if i < -1100 then -1100 else i
  let (n, d) := if fr == 0 then (1, 1) else (sticky (expUnit (fr * 2 ^ 491 * ln2U / P640)), 2 * P640)
  if i ≥ 0 then (n * 2 ^ i.toNat, d) else (n, d * 2 ^ (-i).toNat)

/-- log2 of k × 2^-149 for k > 0: sign, numerator, denominator. -/
def log2Q (k : Nat) : Bool × Nat × Nat :=
  let e := Nat.log2 k
  let i : Int := (e : Int) - 149
  if k == 2 ^ e then (i < 0, i.natAbs, 1)
  else
    -- ln y for y = k / 2^e in (1, 2), through z = (y - 1) / (y + 1)
    let fr := 2 * atanhUnit ((k - 2 ^ e) * P640 / (k + 2 ^ e)) * P640 / ln2U
    let n : Int := i * (2 * P640 : Nat) + (sticky fr : Nat)
    (n < 0, n.natAbs, 2 * P640)

/-- tanh of k × 2^-149 for k > 0, as numerator and denominator. -/
def tanhQ (k : Nat) : Nat × Nat :=
  if k ≥ 200 * one149 then (2 ^ 400 - 1, 2 ^ 400)
  else
    let (m, p) := expPos (2 * k * 2 ^ 491)
    let e := m * 2 ^ p
    (2 * (e - P640) * P640 / (e + P640) + 1, 2 * P640)

/-- exp of -k × 2^-149 for k > 0. -/
def expNegQ (k : Nat) : Nat × Nat :=
  if k ≥ 300 * one149 then (1, 2 ^ 400)
  else
    let (m, p) := expPos (k * 2 ^ 491)
    (sticky (P640 * P640 / (m * 2 ^ p)), 2 * P640)

/-- 1 / sqrt(k × 2^-149) for k > 0. -/
def rsqrtQ (k : Nat) : Nat × Nat :=
  let t := 2 ^ (149 + 1280)
  let r := Nat.sqrt (t / k)
  if r * r * k == t then (r, P640) else (sticky r, 2 * P640)

/-- n / d rounded by RNE to 12 significant bits, exponent unbounded (R229). -/
def sig12 (n d : Nat) : Nat × Nat :=
  let q : Int := logQ n d - 11
  if q ≥ 0 then (roundDiv 0 false n (d * 2 ^ q.toNat) * 2 ^ q.toNat, 1) else (roundDiv 0 false (n * 2 ^ (-q).toNat) d, 2 ^ (-q).toNat)

/-! ### Element formats (R93) -/

/-- Element size in bits; 0 for none and reserved codes. -/
def fmtBits (c : Nat) : Nat :=
  match c with
  | 1 | 2 | 8 | 9 => 8
  | 3 | 4 | 10 | 11 => 16
  | 5 | 6 | 12 | 13 | 16 => 32
  | 7 | 15 => 64
  | 14 => 4
  | _ => 0
/-- Element size in bytes, 1 for Q4N. -/
def fmtBytes (c : Nat) : Nat := Nat.max 1 (fmtBits c / 8)
def fmtF (c : Nat) : Option FFmt :=
  match c with
  | 8 => some fp8e4
  | 9 => some fp8e5
  | 10 => some fp16
  | 11 => some bf16
  | 12 | 16 => some fp32
  | _ => none
def isF (c : Nat) : Bool := c == 10 || c == 11 || c == 12 || c == 16
def isE8 (c : Nat) : Bool := c == 8 || c == 9
def isZ (c : Nat) : Bool := 1 ≤ c && c ≤ 7
def isX (c : Nat) : Bool := c == 13
def isQ4 (c : Nat) : Bool := c == 14
def isKP (c : Nat) : Bool := c == 15
/-- I formats and X32 are signed, N formats unsigned. -/
def isSigned (c : Nat) : Bool := c % 2 == 1
def known (c : Nat) : Bool := 1 ≤ c && c ≤ 16
/-- SW32 counts as FP32 (R111). -/
def sameFmt (a b : Nat) : Bool := (if a == 16 then 12 else a) == (if b == 16 then 12 else b)

/-- The integer an element of a Z or X format stands for. -/
def zRead (c x : Nat) : Int := if isSigned c then sgn (fmtBits c) x else (x % 2 ^ fmtBits c : Nat)
def zMin (c : Nat) : Int := if isSigned c then -(2 ^ (fmtBits c - 1) : Nat) else 0
def zMax (c : Nat) : Int := if isSigned c then (2 ^ (fmtBits c - 1) : Nat) - 1 else (2 ^ fmtBits c : Nat) - 1
def zBits (c : Nat) (v : Int) : Nat := (v % (2 ^ fmtBits c : Nat)).toNat
/-- An integer brought into a format's range: saturated or wrapped, with its flag (R100, R221). -/
def zPut (c : Nat) (sat : Bool) (v : Int) : Nat × Nat :=
  if zMin c ≤ v && v ≤ zMax c then (zBits c v, 0)
  else if sat then (zBits c (if v < 0 then zMin c else zMax c), fSAT)
  else (zBits c v, fWRAP)

/-- (-1)^neg × n / d rounded to an integer, with NX (R98). -/
def roundInt (rm : Nat) (v : Int) (d : Nat) : Int × Nat :=
  let k : Int := roundDiv rm (v < 0) v.natAbs d
  (if v < 0 then -k else k, if v.natAbs % d != 0 then fNX else 0)

/-- A float converted to an integer format or X32 (R100): scaled by 2^frac, rounded, always saturated. -/
def floatToZ (c frac rm : Nat) (x : FV) : Nat × Nat :=
  match x with
  | .nan _ => (0, fINV)
  | .inf n => (zBits c (if n then zMin c else zMax c), fSAT)
  | .fin _ _ =>
    let (k, nx) := roundInt rm (x.int * (2 ^ frac : Nat)) one149
    let (b, f) := zPut c true k
    (b, if f == 0 then nx else nx ||| f)

/-- Q of R106. -/
def causewayQ (frac : Nat) (x : FV) : Int × Nat :=
  let (b, f) := floatToZ 13 frac 1 x
  (sgn 32 b, f)

/-- The Q4N grid in 64ths (R108). -/
def gridQ4 (i : Nat) : Nat := match i with | 0 => 0 | 1 => 5 | 2 => 11 | 3 => 17 | 4 => 25 | 5 => 33 | 6 => 45 | _ => 64

/-- A code of R109 for x under scale s and a rounding mode on the grid. In RNE a tie goes to the even index, for a grid value has no significand of its own (DESIGN CHOICE, log 81). -/
def encQ4 (rm : Nat) (x s : FV) : Nat × Nat :=
  match x, s with
  | .nan _, _ => (0, fINV)
  | _, .fin _ 0 => (0, 0)
  | .inf n, .inf m => (if n != m then 15 else 7, 0)
  | .inf n, .fin m _ => (if n != m then 15 else 7, fSAT)
  | .inf _, .nan _ => (0, fINV)
  | .fin _ _, .inf _ => (0, 0)
  | .fin _ _, .nan _ => (0, fINV)
  | .fin a j, .fin b k =>
    let neg := a != b
    -- |r| = j / k against the grid in 64ths
    if j > k then ((if neg then 15 else 7), fSAT)
    else
      let i := (List.range 7).foldl (fun m t => if gridQ4 (t + 1) * k ≤ 64 * j then t + 1 else m) 0
      let exact := gridQ4 i * k == 64 * j
      let up := if exact || i ≥ 7 then false
        else
          let lo := gridQ4 i
          let hi := gridQ4 (i + 1)
          let twice := 2 * 64 * j
          let mid := (lo + hi) * k
          match rm with
          | 0 => twice > mid || (twice == mid && i % 2 == 1)
          | 1 => twice ≥ mid
          | 2 => false
          | 3 => neg
          | _ => !neg
      let c := if up then i + 1 else i
      (if c == 0 then 0 else if neg then 8 + c else c, if exact then 0 else fNX)

/-- The value G × (-1)^c[3] of a Q4N code, exact (R108). -/
def q4Val (c : Nat) : FV := .fin (c / 8 == 1 && c % 8 != 0) (gridQ4 (c % 8) * 2 ^ 143)

end Sys2Proof.Machine
end

