-- ==== Sys2Proof/WellFormed.lean ====
section
/-! DEFINITION. Well-formed instructions: what an assembler may emit and what checks 1 to 3 of R53 accept on the word alone; for an event, parameters that name something the module has. -/

namespace Sys2Proof

/-- Parameters of an event within the ranges the spec gives: islands 0 to 13 (R16), atolls 0 to 31 (R17), partitions 0 to 7 (R365), passage ports 0 to 11 (R22), engines 0 to 5 (R363), LIDs 1 to 65,535 (R374). -/
def Instr.paramsOk : Instr → Bool
  | .ill _ op _ => unassigned op
  | .kernelComplete l | .thaw l | .pulseSwallow l | .frequencyRetarget l | .loopLocked l | .budgetExpired l | .fabricWaitCountDone l => 0 < l && l < 65536
  | .memberArrival _ l | .memberResume _ l | .ferryRelease _ l _ => 1 ≤ l && l ≤ 5
  | .coreReset i | .islandReset i | .functionReady i _ | .functionFail i _ => i < 14
  | .submit p | .preempt p | .abandon p | .rerun p | .qhold p | .qrun p | .lcdpop p | .launchStart p | .preload p | .hotrel p _
  | .tdispLock p | .tdispStart p | .tdispStop p | .functionLevelReset p => p < 8
  | .atmapRetire a _ | .bistStart a | .bistAbort a | .bistFail a | .bistPass a | .quiesce a | .gate a | .atollWake a | .atctlBits a _
  | .wake a | .quiesced a | .saveDone a | .saveFail a | .restoring a | .restoreDone a _ | .retbaseWrite a _ | .fllcfgWrite a _ | .droopBoost a => a < 32
  | .passageTrain k | .passageTakeDown k | .trainingDone k _ _ _ | .flitRetry k => k < 12
  | .engStart e _ | .engCancel e | .engCopyBegin e | .engRewrite e | .engAbort e => e < 6
  | .dispResume q | .dispSkip q | .dispHook q | .dispPreempt q | .dispKill q => q < 65536
  | _ => true

/-- A well-formed instruction. -/
def WellFormed (i : Instr) : Bool := resvOk i && idxOk i && i.paramsOk

end Sys2Proof
end

