-- ==== Sys2Proof/Machine/Issue.lean ====
section
/-! DEFINITION. The issue of one word: the checks of R53 in their order (R415), waiting and trapping, and the movement of the stream (R49, R52, R156 to R158, R172). An instruction's meaning gives a Plan; issue carries it out. -/

namespace Sys2Proof.Machine

/-- The outcome of a test at issue: passed, a cause with its VA and INFO, or a condition of SCHEDULE_MISS with its index (R340), which a gated word waits out. -/
inductive Res where
  | ok
  | trap (t : TrapInfo)
  | miss (cond idx : Nat)
  /-- A wait that freezes the domain in locked code: TLWAIT, or a level-5 FERRY wait (R54, R59, R290). -/
  | freeze (tl : Bool)
  deriving DecidableEq, Repr

def Res.and (x y : Res) : Res := match x with | .ok => y | r => r
/-- The first test that does not pass. -/
def Res.all : List Res → Res
  | [] => .ok
  | r :: rs => r.and (Res.all rs)
/-- A cause with VA and INFO zero, when a condition fails. -/
def Res.need (ok : Bool) (cause : Nat) : Res := if ok then .ok else .trap ⟨cause, 0, 0⟩
def Res.needW (ok : Bool) (cause va info : Nat) : Res := if ok then .ok else .trap ⟨cause, va, info⟩
def Res.ready (ok : Bool) (cond idx : Nat) : Res := if ok then .ok else .miss cond idx
def Res.isOk (r : Res) : Bool := r == .ok

/-- A register as R30 tracks it. -/
inductive Reg where
  | g (i : Nat)
  | p (i : Nat)
  | h (i : Nat)
  | st (i : Nat)
  | rep (q : Strm)
  | ring (i : Nat)
  | queue (i : Nat)
  | ck (i : Nat)
  /-- VPROG (0) and VFLAGS (1), and timeline counters, whose writes are never pending (R180, R289). -/
  | misc (i : Nat)
  | tl (i : Nat)
  /-- A pacing register (R55) and a quantity written at launch (R182): nothing writes them while a core runs. -/
  | pace (q : Strm)
  | dom (i : Nat)
  deriving DecidableEq, Repr

def Reg.idx : Reg → Nat
  | .g i | .p i | .h i | .st i | .ring i | .queue i | .ck i | .misc i | .tl i | .dom i => i
  | .rep q | .pace q => q.idx
/-- The file and index of a register as R400 reports them: files 0 to 4 as the core window numbers them (R343), which gives the others none (DESIGN CHOICE, log 74). -/
def Reg.win : Reg → Nat × Nat
  | .g i => (0, i)
  | .p i => (1, i)
  | .h i => (2, i)
  | .st i => (3, 4 * i)
  | .misc i => (4, i)
  | .tl i => (5, i)
  | .ck i => (6, i)
  | .queue i => (7, i)
  | .ring i => (8, i)
  | .rep q => (9, q.idx)
  | .dom i => (10, i)
  | .pace q => (11, q.idx)

/-- The registers an effect writes. -/
def Eff.writes (e : Eff) (r : Reg) : Bool :=
  match e, r with
  | .g i _ _, .g j | .keep i, .g j | .p i _, .p j | .h i _ _, .h j | .hclr i, .h j | .st i _ _, .st j
  | .ring i _, .ring j | .queue i _, .queue j | .ck i _, .ck j => i == j
  | .rep y _, .rep z => y == z
  | _, _ => false

/-- The st registers that a word names in a field describing a region or a pool structure (R157). -/
def regionRegs : Instr → List Nat
  | .tld _ p | .tst _ p | .ldsw _ p | .ldswH _ p | .stsw _ p => [p.d.toNat]
  | .gath _ p | .scat _ p => [p.d.toNat, p.b.toNat]
  | .roweSmax _ p | .roweRms _ p => [p.d.toNat, p.a.toNat, p.b.toNat]
  | .vadd _ p | .vsub _ p | .vmul _ p | .vfma _ p | .vmin _ p | .vmax _ p | .vand _ p | .vor _ p | .vxor _ p | .vshl _ p
  | .vshr _ p | .vcmp _ p | .vsel _ p | .vnr _ p | .vdot _ p | .vperm _ p => [p.d.toNat, p.a.toNat, p.b.toNat, p.c.toNat]
  | .vabs _ p | .vneg _ p | .vmov _ p | .vcvt _ p | .vrcp _ p | .vrsq _ p | .vexp2 _ p | .vlog2 _ p | .vtanh _ p | .vred _ p
  | .vscan _ p | .vamax _ p | .vqnt _ p | .vdqn _ p | .cwadd _ p | .cwsub _ p | .cwsum _ p => [p.d.toNat, p.a.toNat, p.c.toNat]
  | .vfillK _ p | .vfillIota _ p => [p.d.toNat, p.c.toNat]
  | .vtrn _ p => [p.d.toNat, p.a.toNat]
  | .sort _ p | .sortcLd _ p => [p.a.toNat]
  | .sortu _ p | .sortuDump _ p => [p.d.toNat]
  | .smrg _ p => [p.d.toNat, p.a.toNat, p.b.toNat]
  | .mmas _ p | .mq4 _ p | .mdrn _ p | .mlda _ p => [p.mta.toNat]
  | _ => []

/-- The registers that a section's repeat advance moves (R157): the set its words fix, each once. -/
def Cpu.advanceSet (u : Cpu) (sec : Nat) : List Nat :=
  (((List.range (hdrLen (u.header sec))).flatMap fun k => regionRegs (decode (u.wordAt (sec + 8 + 12 * k)))).filter (· < 320)).eraseDups

/-- Streams whose repeat advance falls at the end of this cycle hold their registers pending (R157, R158). -/
def Cpu.advancing (u : Cpu) (r : Nat) (now : Nat) : Bool :=
  u.strm.toList.any fun t => match t.repEnd with | some (b, a) => b == now && (u.advanceSet a).contains r | none => false

/-- A write of the register is pending (R30, R158, R288). -/
def State.pending (s : State) (x : Hart) (r : Reg) : Bool :=
  let u := s.cpu x
  u.pend.any (fun e => e.effs.any (·.writes r))
  || (match r with | .h i => u.walks.any (·.d == i) | _ => false)
  || (match r, x with
      | .st i, .core _ => u.advancing i (s.now x)
      | .ck i, .core c => s.now x < vget (s.core c).ckBusy i 0
      | _, _ => false)

/-- A write of latency lat would not land later than one pending (R30). A gated word whose write would not have landed later waits until the pending one has landed: its own landing counts from its stamp, or from the issue of that write. Where a write of a checksum slot would land hangs on the placing of its copy: copyWait of a CPYX tests that. -/
def State.clash (s : State) (x : Hart) (r : Reg) (lat idle : Nat) : Bool :=
  let u := s.cpu x
  let n := s.now x
  let stamp := Nat.min n ((s.stream x s.cur.strm).base + idle)
  let own (issue : Nat) : Nat := lat + if s.locked x s.cur.strm then n else Nat.max stamp issue
  u.pend.any (fun e => own e.issue ≤ e.land && e.effs.any (·.writes r))
  || (match r with | .h i => u.walks.any fun w => w.d == i && own w.issue ≤ w.land | _ => false)
  || (match r, x with
      | .st i, _ => u.advancing i n && lat == 0
      | _, _ => false)

/-- The bank of a local address (R73). -/
def bankOf (a : Nat) : Nat := a / 512 % 64
/-- The banks of a range of n bytes. -/
def banksOf (a n : Nat) : List Nat :=
  if n == 0 then [] else ((List.range (Nat.min 64 ((a + n - 1) / 512 - a / 512 + 1))).map fun k => (a / 512 + k) % 64).eraseDups

/-- One claim of the local port in a cycle. -/
structure Use where
  bank : Nat
  cyc : Nat
  wr : Bool
  deriving DecidableEq, Repr

/-- The claim meets a grant or reservation of its cycle, a tile lock, or, for a write, a hold (R54, R75, R197, R213). -/
def Core.busy (k : Core) (u : Use) : Bool :=
  k.claims.any fun c => c.bank == u.bank && c.lo ≤ u.cyc && u.cyc ≤ c.hi && (u.wr || c.kind != .hold)

/-- Holds of a source meet a lock or a write reserved in their interval (R197, R213; DESIGN CHOICE, log 75). -/
def Core.unheld (k : Core) (h : Claim) : Bool :=
  !k.claims.any fun c => c.bank == h.bank && c.lo ≤ h.hi && h.lo ≤ c.hi && (c.kind == .lock || c.kind == .put)

/-- How the stream goes on after the word (R49, R174). -/
inductive Ctl where
  | next
  | nop (n : Nat)
  | jump (target : Nat)
  | stop
  | stay
  deriving DecidableEq, Repr

/-- What an instruction tests and does. Tests of check 3 that need no read stand in pre, the others in c3, on sources rd3 and pool structures that must be readable first, in bank3 claimed and in look3 not (R415); readiness in rd, wr, c5, use, holds, c5b; guard-false readiness in c5F; check 6 in c6 with the pool ranges read (R209). -/
structure Plan where
  pre : Res := .ok
  rd3 : List Reg := []
  bank3 : List Use := []
  look3 : List Use := []
  c3 : Res := .ok
  rd : List Reg := []
  wr : List (Reg × Nat) := []
  c5 : Res := .ok
  use : List Use := []
  queues : List Nat := []
  c5b : Res := .ok
  c5F : Res := .ok
  c6 : Res := .ok
  reads : List (Nat × Nat) := []
  take : List Claim := []
  holds : List Claim := []
  /-- An access of the core (R116), an acquire, a release, a fence (R129, R133). -/
  acc : Bool := false
  acq : Bool := false
  rel : Bool := false
  fence : Bool := false
  time : Nat := 0
  /-- The Time of a guard-false instance where it is not `time` (R52, R145). -/
  timeF : Option Nat := none
  eff : State → State := id
  effF : State → State := id
  ctl : Ctl := .next
  /-- The buffer number the instruction carries (R63, R91). -/
  buf : Nat := 0

/-- p[GRD], inverted by GNOT (R145). -/
def State.guard (s : State) (h : Head) : Bool := ((s.cpu s.cur.hart).getP h.grd.toNat) != h.gnot

def headOf : Instr → Head
  | .nop h _ | .ill h _ _ | .add h _ | .sub h _ | .mul h _ | .mulh h _ | .div h _ | .rem h _ | .and h _ | .or h _ | .xor h _ | .shl h _
  | .shr h _ | .sar h _ | .min h _ | .max h _ | .cmp h _ | .sel h _ | .li h _ | .liZ h _ | .lih h _ | .plog h _ | .popc h _ | .clz h _
  | .br h _ | .jmp h _ | .call h _ | .callR h _ | .ret h _ | .loop h _ | .endS h _ | .brk h _ | .trap h _ | .talign h _ | .tlwait h _
  | .tlread h _ | .cpy h _ | .cpyAbs h _ | .cpyx h _ | .cpyxAbs h _ | .roweSmax h _ | .roweRms h _ | .ferryArr h _ | .ferryWait h _
  | .ferryArrw h _ | .domq h _ | .stset h _ | .stget h _ | .ststep h _ | .qconf h _ | .qconfRel h _ | .rconf h _ | .sysr h _ | .sysw h _
  | .eret h _ | .wfi h _ | .tlbi h _ | .hinva h _ | .ctxsv h _ | .ctxld h _ | .xlat h _ | .hinv h _ | .hinvAll h _ | .hqry h _ | .ld h _
  | .st h _ | .lld h _ | .lldS h _ | .lst h _ | .lstS h _ | .tld h _ | .tst h _ | .gath h _ | .scat h _ | .ldsw h _ | .ldswH h _
  | .stsw h _ | .aadd h _ | .aand h _ | .aor h _ | .axor h _ | .amin h _ | .amax h _ | .aswp h _ | .acas h _ | .aqadd h _ | .fence h _
  | .qpush h _ | .qpop h _ | .larm h _ | .larmG h _ | .lpoll h _ | .lwait h _ | .prefX h _ | .prefM h _ | .echk h _ | .echkOff h _
  | .vadd h _ | .vsub h _ | .vmul h _ | .vfma h _ | .vmin h _ | .vmax h _ | .vabs h _ | .vneg h _ | .vand h _ | .vor h _ | .vxor h _
  | .vshl h _ | .vshr h _ | .vcmp h _ | .vsel h _ | .vmov h _ | .vfillK h _ | .vfillIota h _ | .vfillFc h _ | .vcvt h _ | .vrcp h _
  | .vrsq h _ | .vnr h _ | .vexp2 h _ | .vlog2 h _ | .vtanh h _ | .vred h _ | .vscan h _ | .vdot h _ | .vtrn h _ | .vperm h _
  | .vamax h _ | .vqnt h _ | .vdqn h _ | .cwadd h _ | .cwsub h _ | .cwsum h _ | .skey h _ | .sort h _ | .sortc h _ | .sortcLd h _
  | .sortu h _ | .sortuDump h _ | .smrg h _ | .mzero h _ | .mma h _ | .mmah h _ | .mmat h _ | .mma16 h _ | .mmas h _ | .mq4 h _
  | .mdrn h _ | .mlda h _ | .mrpop h _ => h
  | _ => ⟨0, false, 0, 0⟩

/-- 0x30 to 0x37 and TALIGN, which need a level above U (R160). -/
def privileged : Instr → Bool
  | .sysr _ _ | .sysw _ _ | .eret _ _ | .wfi _ _ | .tlbi _ _ | .hinva _ _ | .ctxsv _ _ | .ctxld _ _ | .talign _ _ => true
  | _ => false
/-- The instructions that the harbour core lacks the state for, ILLEGAL_OPERAND there (R185, R210, R332). -/
def coreOnly : Instr → Bool
  | .stset _ _ | .stget _ _ | .ststep _ _ | .qconf _ _ | .qconfRel _ _ | .rconf _ _ | .domq _ _ | .tlwait _ _ | .tlread _ _ | .cpy _ _
  | .cpyAbs _ _ | .cpyx _ _ | .cpyxAbs _ _ | .roweSmax _ _ | .roweRms _ _ | .ferryArr _ _ | .ferryWait _ _ | .ferryArrw _ _
  | .lld _ _ | .lldS _ _ | .lst _ _ | .lstS _ _ | .tld _ _ | .tst _ _ | .gath _ _ | .scat _ _ | .ldsw _ _ | .ldswH _ _ | .stsw _ _
  | .qpush _ _ | .qpop _ _ | .larm _ _ | .larmG _ _ | .lpoll _ _ | .lwait _ _ | .echk _ _ | .echkOff _ _ => true
  | _ => false
/-- ILLEGAL_OPERAND inside a recovery hook (R266). -/
def noHook : Instr → Bool
  | .talign _ _ | .cpy _ _ | .cpyAbs _ _ | .cpyx _ _ | .cpyxAbs _ _ | .roweSmax _ _ | .roweRms _ _ | .ferryArr _ _ | .ferryWait _ _ | .ferryArrw _ _ => true
  | _ => false

/-- Checks 1 and 2 of R53, with the header tests of R52. -/
def State.check12 (s : State) (i : Instr) : Res :=
  let x := s.cur.hart
  let u := s.cpu x
  let t := u.stream s.cur.strm
  let hdr := u.header t.sec
  Res.all [
    Res.needW (!u.imemBad.any fun b => t.pc ≤ b && b < t.pc + 12) cDataPoison t.pc (2 ^ 21 + 31 * 2 ^ 16),
    (match i with | .ill _ _ _ => .trap ⟨cIllegalOp, 0, 0⟩ | _ => .ok),
    Res.need (i.cls.isNone || i.cls == some s.cur.strm) cWrongStream,
    Res.need (resvOk i) cReservedField,
    (if x == .harbour || !t.fresh then .ok
     else Res.need (hdrSec hdr != 0x3FF && hdrDep hdr s.cur.strm.idx == 0x3FF) cReservedField)]

/-- Check 3 on the word and the place it runs (R53, R65, R160, R185, R266). -/
def State.check3 (s : State) (i : Instr) : Res :=
  match s.cur.hart with
  | .harbour => Res.all [
      (match i with | .talign _ _ => Res.need (s.harbour.pl == 2) cPrivilege | _ => .ok),
      Res.need (idxOk i && !(coreOnly i)) cIllegalOperand]
  | .core c => Res.all [
      Res.need (!((s.core c).hook.isSome && noHook i)) cIllegalOperand,
      Res.need (!(privileged i)) cPrivilege,
      Res.need (idxOk i) cIllegalOperand]

/-- A dependence field is satisfied (R52). -/
def depOk (d : Nat) (retired : Option Nat) : Bool :=
  d == 0x3FF || match retired with | none => false | some e => (e + 1023 - d) % 1023 ≤ 511

/-- The section's dependences, at its first word entered from outside (R52, R156). (DEDUCED, log 48) -/
def State.depsOk (s : State) : Bool :=
  match s.cur.hart with
  | .harbour => true
  | .core c =>
    let u := (s.core c).cpu
    let t := u.stream s.cur.strm
    !t.fresh || [Strm.s, .a, .v, .m].all fun q => q == s.cur.strm || depOk (hdrDep (u.header t.sec) q.idx) (u.stream q).retired

def State.pace (s : State) : Nat :=
  match s.cur.hart with | .harbour => 1 | .core c => vget (s.core c).pace s.cur.strm.idx 1

/-- A read of a register that holds an uncorrectable error (R400). -/
def State.regErr (s : State) (r : Reg) : Res :=
  let (f, j) := r.win
  match (s.cpu s.cur.hart).regBad.find? fun b => b.1 == f && (b.2 == j || (f == 3 && b.2 / 4 == j / 4)) with
  | some b => .trap ⟨cDataPoison, 0, 2 ^ 22 + 31 * 2 ^ 16 + b.1 * 2 ^ 12 + b.2⟩
  | none => .ok
/-- A register is readable, and what it holds is sound (R30, R400, R415). -/
def State.readable (s : State) (r : Reg) : Res := (Res.ready (!s.pending s.cur.hart r) 1 r.idx).and (s.regErr r)

/-- Check 4 (R55): a locked word whose gap is below PACE raises; a gated one is held. The pacing register is sound first (R400). -/
def State.check4 (s : State) : Res :=
  match (s.stream s.cur.hart s.cur.strm).last with
  | none => .ok
  | some l =>
    let gap := s.now s.cur.hart - l
    (s.regErr (.pace s.cur.strm)).and
      (if gap ≥ s.pace then .ok
       else if s.locked s.cur.hart s.cur.strm then .trap ⟨cPaceViolation, 0, gap⟩ else .miss 0 0)

/-- Condition 1: operand registers readable, and own writes landing after those pending (R30). -/
def State.regsOk (s : State) (rd : List Reg) (wr : List (Reg × Nat)) (idle : Nat) : Res :=
  Res.all (rd.map s.readable ++ wr.map fun r => Res.ready (!s.clash s.cur.hart r.1 r.2 idle) 1 r.1.idx)

/-- A queue as the arbiter grants it: counted from 64, beyond the banks (R41; the model's own number, DESIGN CHOICE, log 2). -/
def queueUnit (i : Nat) : Nat := 64 + i
/-- The core with the claims that come before a gated word at the arbiter (R41, R42). -/
def State.contested (s : State) (c : CoreId) : Core :=
  let k := s.core c
  if s.locked (.core c) s.cur.strm then k else { k with claims := k.claims ++ s.rivals }
/-- Condition 5: what is granted, reserved, locked or held, and for a gated word what others take that come before it (R41, R42, R54, R75, R213). -/
def State.banksFree (s : State) (us : List Use) (qs : List Nat) (hs : List Claim) : Res :=
  match s.cur.hart with
  | .harbour => .ok
  | .core c =>
    let k := s.contested c
    Res.all ((us.map fun u => Res.ready (!k.busy u) 5 u.bank)
      ++ (hs.map fun h => Res.ready (k.unheld h) 5 h.bank)
      ++ qs.map fun i => Res.ready (!k.busy ⟨queueUnit i, s.now (.core c), true⟩) 3 i)

/-- Condition 11: an access after an acquire or a FENCE whose Time has not elapsed, a release or FENCE after an access whose Time has not, and a copy's start inside a new acquire's or FENCE's Time (R129, R133). -/
def State.ordered (s : State) (p : Plan) : Res :=
  let x := s.cur.hart
  let u := s.cpu x
  let n := s.now x
  let starts := match x with
    | .core c => (s.core c).copies.any fun e => n ≤ e.t && e.t ≤ n + p.time
    | .harbour => false
  Res.all [
    Res.ready (!p.acc || (u.acq ≤ n && u.fence ≤ n)) 11 0,
    Res.ready (!(p.rel || p.fence) || u.acc ≤ n) 11 0,
    Res.ready (!(p.acq || p.fence) || !starts) 11 0]

/-- Whether the word after follows without a transfer of control. -/
def Ctl.falls : Ctl → Bool | .next | .nop _ => true | _ => false

/-- The last word of a repeated section waits for pending writes of the registers its advance moves, where an advance follows (R157, R158). A write of one by that word itself is not among them: the advance comes at the end of the issue's cycle, the write a cycle later (DESIGN CHOICE, log 94). -/
def State.advanceOk (s : State) (c : Ctl) : Res :=
  match s.cur.hart with
  | .harbour => .ok
  | .core d =>
    let u := (s.core d).cpu
    let t := u.stream s.cur.strm
    if c.falls && hdrRpt (u.header t.sec) && t.pc == u.lastWord t.sec then
      Res.all ((u.advanceSet t.sec).map fun r => Res.ready (!s.pending (.core d) (.st r)) 1 r)
    else .ok

/-- REP is read at the first word entered of a section with RPT (R157). -/
def State.repOk (s : State) : Res :=
  match s.cur.hart with
  | .harbour => .ok
  | .core c =>
    let u := (s.core c).cpu
    let t := u.stream s.cur.strm
    if t.fresh && hdrRpt (u.header t.sec) then s.readable (.rep s.cur.strm) else .ok

/-- A local read claim on a granule armed by ECHK (R209). -/
def State.earlyRead (s : State) (rs : List (Nat × Nat)) : Res :=
  match s.cur.hart with
  | .harbour => .ok
  | .core c =>
    match (s.core c).echk.filter fun g => rs.any fun r => g < r.1 + r.2 && r.1 < g + 64 with
    | [] => .ok
    | g :: gs => .trap ⟨cEarlyRead, gs.foldl Nat.min g, 0⟩

/-- PREF raises causes of checks 1 to 3 only, and HANDLE_INVALID (R208): in locked code neither PACE_VIOLATION nor SCHEDULE_MISS of a section dependence. (DEDUCED, log 95) -/
def isPref : Instr → Bool
  | .prefX _ _ | .prefM _ _ => true
  | _ => false
/-- The first check that fails, in the order of R53 and R415. Of the sources that check 3 reads, each is first readable and sound before the next is asked; their contents are tested after all of them (DESIGN CHOICE, log 76). In check 6 EARLY_READ comes before the causes of a global access's resolution (DESIGN CHOICE, log 91). (DEDUCED, log 48) -/
def State.verdict (s : State) (i : Instr) (p : Plan) : Res :=
  let h := (headOf i)
  let gated := !s.locked s.cur.hart s.cur.strm
  let late := gated || !isPref i
  let dep := if late then Res.ready s.depsOk 2 0 else .ok
  Res.all [
    s.check12 i,
    (if gated then dep else .ok),
    s.check3 i,
    p.pre,
    Res.all (p.rd3.map s.readable),
    s.banksFree (p.bank3 ++ p.look3) [] [],
    p.c3,
    (if late then s.check4 else .ok),
    s.readable (.p h.grd.toNat),
    dep,
    s.repOk,
    (if s.guard h then
      Res.all [s.regsOk p.rd p.wr h.idle.toNat, p.c5, s.banksFree p.use p.queues p.holds, p.c5b, s.ordered p]
     else p.c5F),
    s.advanceOk (if s.guard h then p.ctl else .next),
    (if s.guard h then (s.earlyRead p.reads).and p.c6 else .ok)]

/-- Words of a stream leave the section: it retires once their Times have elapsed (R52, R156). -/
def Stream.leave (t : Stream) (hdr : Nat) : Stream :=
  { t with retiring := t.retiring ++ [(hdrSec hdr, t.doneMax)], doneMax := 0, left := 1, repn := 0, fresh := true }

/-- The start of a word of a section (R155, R172). -/
def wordStart (sec len target : Nat) : Bool :=
  sec + 8 ≤ target && target < sec + 8 + 12 * len && (target - sec - 8) % 12 == 0

/-- A transfer to an address of another section leaves the current one, as any transfer from its last word does (R52, R156). -/
def Stream.leavesTo (t : Stream) (u : Cpu) (target : Nat) : Bool :=
  t.pc == u.lastWord t.sec || (t.secs ++ t.hooks).any fun a => a != t.sec && a + 8 ≤ target && target < u.lastWord a + 12
/-- A taken branch (R156, R172). To an illegal target it leaves its section as another would; section and repetition stay for the record (R339; DEDUCED, log 103). -/
def Stream.jump (t : Stream) (u : Cpu) (b target : Nat) : Stream :=
  let hdr := u.header t.sec
  if wordStart t.sec (hdrLen hdr) target then { t with pc := target, base := b + 2, fresh := false }
  else if target ≥ 8 && (t.peers t.sec).contains (target - 8) then
    { t.leave hdr with pc := target, sec := target - 8, base := b + 2 }
  else
    let t := { t with bad := some target, base := b + 2 }
    if t.leavesTo u target then { t.leave hdr with repn := t.repn } else t

/-- The word after one that transferred no control (R49, R157). -/
def Stream.step (t : Stream) (u : Cpu) (b n : Nat) : Stream :=
  let hdr := u.header t.sec
  let t := { t with base := b + 1 + n }
  if t.pc != u.lastWord t.sec then { t with pc := t.pc + 12, fresh := false }
  else
    let t := if hdrRpt hdr then { t with repEnd := some (b, t.sec) } else t
    if hdrRpt hdr && t.left > 1 then { t with left := t.left - 1, repn := t.repn + 1, pc := t.sec + 8, fresh := false }
    else
      match t.nextSec t.sec with
      | some a => { t.leave hdr with pc := a + 8, sec := a }
      | none => { t.leave hdr with pc := t.pc + 12, past := true, repn := (if hdrRpt hdr then t.repn + 1 else t.repn) }

/-- The word after one of the harbour core, whose words follow one another to the end of the instruction memory (R26, R331; DEDUCED, log 14). -/
def Stream.onward (t : Stream) (b n : Nat) : Stream := { t with pc := t.pc + 12, base := b + 1 + n, fresh := false, past := 0x7FFFC < t.pc + 12 }
/-- The stream after its word issued at cycle b. -/
def Stream.move (t : Stream) (x : Hart) (u : Cpu) (rep b time : Nat) (c : Ctl) : Stream :=
  let hdr := u.header t.sec
  let t := { t with last := some b, tried := none, doneMax := Nat.max t.doneMax (b + time),
                    left := (if t.fresh && hdrRpt hdr then Nat.max 1 rep else t.left) }
  match x with
  | .harbour =>
    (match c with
     | .next => t.onward b 0
     | .nop n => t.onward b n
     | .jump a => if a % 4 == 0 && a ≤ 0x7FFFC then { t with pc := a, base := b + 2, fresh := false } else { t with bad := some a, base := b + 2 }
     | .stop => { t with parked := true }
     | .stay => t)
  | .core _ =>
    (match c with
     | .next => t.step u b 0
     | .nop n => t.step u b n
     | .jump a => t.jump u b a
     | .stop => { t.leave hdr with ended := true }
     | .stay => t)

/-- Ordering ends after an issue (R129, R133). (DEDUCED, log 49) -/
def Cpu.order (u : Cpu) (p : Plan) (now : Nat) : Cpu :=
  { u with
    acc := if p.acc then Nat.max u.acc (now + p.time + 1) else u.acc
    acq := if p.acq then Nat.max u.acq (now + p.time + 1) else u.acq
    fence := if p.fence then Nat.max u.fence (now + p.time + 1) else u.fence }

/-- What a plan claims of the banks (R54, R75, R197, R213). -/
def Plan.claims (p : Plan) : List Claim :=
  ((p.bank3 ++ p.use).map fun u => ⟨u.bank, u.cyc, u.cyc, if u.wr then .put else .use⟩) ++ p.take ++ p.holds
/-- What a plan takes at the arbiter in a cycle: banks and queues (R41). -/
def Plan.takes (p : Plan) (now : Nat) : List Claim := p.claims ++ p.queues.map fun i => ⟨queueUnit i, now, now, .use⟩
/-- A guard-false word as it issues: of the banks it claims what check 3 reads (R145, R415). -/
def Plan.off (p : Plan) : Plan :=
  { p with use := [], take := [], holds := [], queues := [], acc := false, acq := false, rel := false, fence := false }
def Plan.when (p : Plan) (on : Bool) : Plan := if on then p else p.off

/-- The cycle before which no interval of a transfer can meet one still to be placed: a waiting CPYX is placed from its stamp on, after the last issue of its stream (R30, R284). -/
def Core.floor (k : Core) (now : Nat) : Nat :=
  let t := k.cpu.stream .s
  if t.ended then now else t.last.getD 0
/-- Claims made by an issue; those of past cycles are dropped. A gated word's grant moves the rotation (R41). -/
def Core.claim (k : Core) (p : Plan) (now : Nat) (q : Strm) (gated : Bool) : Core :=
  { k with
    claims := (k.claims.filter fun c => now ≤ c.hi) ++ p.claims
    shares := k.shares.filter fun r => k.floor now < r.2
    spans := k.spans.filter fun r => k.floor now < r.2
    rot := if gated && !(p.takes now).isEmpty then q else k.rot }

/-- A change of the core that a hart is; the harbour core has none of a core's units. -/
def State.modOwn (s : State) (x : Hart) (f : Core → Core) : State :=
  match x with
  | .core c => s.modCore c f
  | .harbour => s

/-- What an instruction takes with it that may stop after its issue. -/
def State.origin (s : State) (i : Instr) : Origin :=
  let u := s.cpu s.cur.hart
  let t := u.stream s.cur.strm
  let k : Core := match s.cur.hart with | .core c => s.core c | .harbour => {}
  { instr := i, pc := t.pc, sec := hdrSec (u.header t.sec), repn := t.repn, g := u.g, gt := u.gt, h := u.h, ht := u.ht,
    st := k.st, queues := k.queues, rings := k.rings, scfg := k.scfg }

/-- The word issues: its claims, its effect, and its stream's movement. -/
def State.commit (s : State) (i : Instr) (p : Plan) : State :=
  let x := s.cur.hart
  let q := s.cur.strm
  let now := s.now x
  let on := s.guard (headOf i)
  let rep := match x with | .core c => vget (s.core c).rep q.idx 1 | .harbour => 1
  let gated := !s.locked x q
  let p' := p.when on
  let s1 := (((if on then p.eff else p.effF) s.draw).attach s.draw x (s.origin i) 0).draw
  let s2 := s1.modOwn x (·.claim p' now q gated)
  let s3 := s2.modCpu x (·.order p' now)
  s3.modStream x q fun t => t.move x (s.cpu x) rep now (if on then p.time else p.timeF.getD p.time) (if on then p.ctl else .next)

/-- A gated word waits and tries again in the next cycle (R41). -/
def State.wait (s : State) : State := s.modStream s.cur.hart s.cur.strm fun t => { t with tried := some (s.now s.cur.hart) }

/-- A locked wait that freezes the domain, the waiting core at its stamp and the others 16 cycles on (R59). -/
def State.waitFreeze (s : State) (tl : Bool) : State :=
  match s.cur.hart with
  | .harbour => s
  | .core c =>
    match s.launchOf c with
    | none => s
    | some l =>
      let n := s.now (.core c)
      (s.freeze l c n (n + 16)).modLaunch l.lid fun l => { l with causes := l.causes ++ [if tl then .tlwait c else .ferry c n none] }

/-- The buffer to which the cycles of a freeze go: that of the instruction whose event causes it, 0 where it carries none (R63). -/
def State.freezeOf (s : State) (c : CoreId) (b : Nat) : State :=
  s.modLaunch (s.core c).lid fun l => if l.members.any fun d => (s.core d).stop.isSome then l else { l with frzBuf := b }
/-- That of the current word. -/
def State.freezeBuf (s : State) (b : Nat) : State := match s.cur.hart with | .harbour => s | .core c => s.freezeOf c b

/-- One word at its stamp. -/
def issue (i : Instr) (p : Plan) (s : State) : State :=
  match s.verdict i p with
  | .ok => s.commit i p
  | .trap t => (s.freezeBuf p.buf).raise t (encode i)
  | .miss c n =>
    if s.locked s.cur.hart s.cur.strm then (s.freezeBuf p.buf).raise ⟨cScheduleMiss, 0, c + n * 2 ^ 16⟩ (encode i)
    else s.wait
  | .freeze tl => if s.locked s.cur.hart s.cur.strm then s.waitFreeze tl else s.wait

/-- Adds a pending entry of the current word, with its origin where it may stop without having read the pool. -/
def State.post (s : State) (time : Nat) (effs : List Eff) (srcs : List Src := []) (o : Option Origin := none) : State :=
  let x := s.cur.hart
  let n := s.now x
  if effs.isEmpty then s
  else s.modCpu x fun u => { u with pend := u.pend ++ [{ strm := s.cur.strm, issue := n, land := n + time, effs := effs, srcs := srcs, origin := o }] }

/-- The instruction of an entry may still write memory. -/
def Pend.resumes (e : Pend) : Bool := e.effs.any fun f => match f with | .detect _ _ _ | .sent _ => true | _ => false
/-- What the core stores, later in core order, stands over what an earlier instruction still has to write (R117). -/
def Cpu.overtake (u : Cpu) (as : List Nat) : Cpu :=
  { u with
    pend := u.pend.map fun e => if e.resumes then { e with newer := as ++ e.newer } else e
    strm := u.strm.map fun t => { t with stopped := t.stopped.map fun e => { e with newer := as ++ e.newer } } }
/-- What a core writes in a space after the start of a copy whose streaming has not begun stands over what that copy will write (R117, R134, R284). -/
def Core.overtake (k : Core) (space start issue : Nat) (as : List Nat) : Core :=
  { k with copies := k.copies.map fun e =>
      if !e.started && (e.t < start || (e.t == start && e.issue < issue)) then { e with newer := as.map (space, ·) ++ e.newer } else e }

/-- Bytes written to memory by the current word, of pages of the given kinds: they reach memory at once, in core order, and others may read those replaced to the end of its Time (R118, R193; DESIGN CHOICE, log 13). -/
def State.store (s : State) (time : Nat) (bs : List (Nat × Byte)) (ks : List Nat) (bad : List Nat) (effs : List Eff) (srcs : List Src := []) : State :=
  let x := s.cur.hart
  let as := bs.map (·.1)
  (((s.modCpu x (·.overtake as)).modOwn x (·.overtake 0 (s.now x) 0 as)).openWins x s.free false bs ks |>.memPut bs bad).post time
    (.shut s.free :: (if srcs.isEmpty then [] else [.sent bs]) ++ effs) srcs

/-- What an access does to its core's writes before it: a release shows them and what the core has read, an SO access closes its SO writes (R120, R127, R128). -/
def State.before (s : State) (so rel : Bool) (scope : Nat) : State :=
  if rel then s.settle s.cur.hart (if so then 4 else scope) else if so then s.closeSo s.cur.hart else s

/-- What an access to a register reads, should its function fail (R393). -/
def State.via (s : State) (i : Instr) (va : Nat) (pas : List Nat) : Eff := .via (pas.map fun a => (0, a)) (some (s.origin i, va))

/-- Adds a pending entry at whose cycle the current word raises (R218, R256, R416); the effects beside it keep registers pending until then. (DESIGN CHOICE, log 69) -/
def State.postDetect (s : State) (i : Instr) (time : Nat) (t : TrapInfo) (el : Nat) (hook : Bool) (keeps : List Eff := []) : State :=
  let x := s.cur.hart
  let n := s.now x
  let o := s.origin i
  s.modCpu x fun u => { u with pend := u.pend ++
    [{ strm := s.cur.strm, issue := n, land := n + time, effs := .detect t el hook :: keeps, origin := some o }] }

end Sys2Proof.Machine
end

