-- ==== Sys2Proof/Machine/Operands.lean ====
section
/-! DEFINITION. Operand forms: reads of g, p and h registers of the issuing hart, the second source of R164, local ranges of the pool read with R61's open bytes, and stream-register fields (R103, R153). -/

namespace Sys2Proof.Machine

/-- The issuing hart's registers. -/
def State.me (s : State) : Cpu := s.cpu s.cur.hart
def State.g (s : State) (i : BitVec 9) : Dword := s.me.getG i.toNat
def State.tn (s : State) (i : BitVec 9) : Bool := s.me.getT i.toNat
def State.hd (s : State) (i : BitVec 9) : Handle := s.me.getH i.toNat
def State.htn (s : State) (i : BitVec 9) : Bool := vget s.me.ht i.toNat false
def State.t0 (s : State) : Nat := s.now s.cur.hart

/-- The second source (R164): sext64(IMM) or g[B]. -/
def State.src2 (s : State) (p : PR) : Dword := if p.i then p.imm64 else s.g p.b
def State.src2T (s : State) (p : PR) : Bool := !p.i && s.tn p.b
/-- The source of STSET and RCONF: sext64(IMM) or g[A]. -/
def State.srcA (s : State) (p : PR) : Dword := if p.i then p.imm64 else s.g p.a

/-- The issuing compute core, when there is one. -/
def State.kid (s : State) : Option CoreId := match s.cur.hart with | .core c => some c | .harbour => none
def State.kc (s : State) : Core := match s.cur.hart with | .core c => s.core c | .harbour => {}
def State.modK (s : State) (f : Core → Core) : State := match s.cur.hart with | .core c => s.modCore c f | .harbour => s
def State.myLaunch (s : State) : Option Launch := s.kid.bind s.launchOf

def State.poolLE (s : State) (c : CoreId) (a n : Nat) : Nat := ofLE (s.poolRead c a n)

/-- A reader of the pool as poolRead gives it. -/
def State.reader (s : State) (c : CoreId) : Nat → Nat → Nat :=
  let fl := s.inflightPool c
  let m := (s.core c).pool
  fun a n => if fl.isEmpty then m.le a n else ofLE ((List.range n).map fun k => openByte s.free (a + k) (m.read (a + k)) fl)
def State.read (s : State) : Nat → Nat → Nat := match s.cur.hart with | .core c => s.reader c | .harbour => fun _ _ => 0

/-- The first poisoned granule that a range meets (R264). -/
def Core.poisonIn (k : Core) (a n : Nat) : Option Nat :=
  (k.poison.filter fun g => g < a + n && a < g + 64).foldl (fun m g => optMin m g) none

/-- Claims of one range in one cycle (R73). -/
def usesOf (a n cyc : Nat) (wr : Bool) : List Use := (banksOf a n).map fun b => ⟨b, cyc, wr⟩
/-- Tile locks and source holds of a list of ranges (R75, R197). -/
def claimsOf (rs : List (Nat × Nat)) (lo hi : Nat) (kind : ClaimKind) : List Claim :=
  ((rs.flatMap fun r => banksOf r.1 r.2).eraseDups).map fun b => ⟨b, lo, hi, kind⟩

/-! ### Stream-register fields (R103, R153) -/

structure Region where
  rows : Nat
  cnt : Nat
  fmt : Nat
  base : Nat
  qb : Nat
  frac : Nat
  rstr : Int
  estr : Int
  buf : Nat
  sstr : Nat
  blkr : Nat
  blkc : Nat
  sen : Bool
  sbase : Nat
  deriving DecidableEq, Repr

/-- The contents of a stream register. -/
def regionOf (w0 w1 w2 : Dword) : Region :=
  { rows := Nat.max 1 (fld w0 63 48), cnt := fld w0 47 32, fmt := fld w0 27 23, base := fld w0 22 0,
    qb := fld w1 57 53, frac := fld w1 52 48, rstr := sgn 24 (fld w1 47 24), estr := sgn 24 (fld w1 23 0),
    buf := fld w2 63 56, sstr := fld w2 54 32, blkr := fld w2 31 28, blkc := fld w2 27 24, sen := fld w2 23 23 == 1, sbase := fld w2 22 0 }
def Core.region (k : Core) (r : Nat) : Region := regionOf (k.stw r 0) (k.stw r 1) (k.stw r 2)
def Core.stepOf (k : Core) (r : Nat) : Nat := fld (k.stw r 3) 23 0

/-- Writable bits of the dwords of a stream register; the others read zero (R8, R103, R153). -/
def stMask (w : Nat) : Dword :=
  match w with
  | 0 => 0xFFFFFFFF0FFFFFFF
  | 1 => 0x03FFFFFFFFFFFFFF
  | 2 => 0xFF7FFFFFFFFFFFFF
  | _ => 0x0000000000FFFFFF

/-- w0 with its BASE replaced. -/
def setBase (w0 : Dword) (b : Nat) : Dword := BitVec.ofNat 64 (w0.toNat / 2 ^ 23 * 2 ^ 23 + b % 2 ^ 23)

/-- Address of element (i, j) before a range test (R154). -/
def Region.addr (r : Region) (i j : Nat) : Int :=
  (r.base : Int) + i * r.rstr + (if isQ4 r.fmt then ((j / 2 : Nat) : Int) else (j : Int) * r.estr * (fmtBytes r.fmt : Int))

/-- Bytes of an element; a Q4N byte holds two (R108). -/
def Region.eb (r : Region) : Nat := fmtBytes r.fmt
/-- Elements of a row counted in units of eb bytes. -/
def Region.units (r : Region) (cnt : Nat) : Nat := if isQ4 r.fmt then (cnt + 1) / 2 else cnt
def Region.bytes (r : Region) (rows cnt : Nat) : Nat := rows * r.units cnt * r.eb
/-- Every byte of every element lies in the pool (R154). The address is linear in row and element, so the corners decide. -/
def Region.inPool (r : Region) (rows cnt : Nat) : Bool :=
  cnt == 0 || ([0, rows - 1] : List Nat).all fun (i : Nat) => ([0, cnt - 1] : List Nat).all fun (j : Nat) =>
    decide ((0 : Int) ≤ r.addr i j ∧ r.addr i j + (r.eb : Int) ≤ 2 ^ 23)
/-- BASE and RSTR multiples of the element size (R154). -/
def Region.aligned (r : Region) : Bool := r.base % r.eb == 0 && r.rstr % (r.eb : Int) == 0
/-- The tests of R154 on a region in the pool, for a given count. -/
def Region.tests (r : Region) (rows cnt : Nat) : Res :=
  Res.all [Res.need (r.inPool rows cnt) cIllegalOperand, Res.needW r.aligned cAlign r.base 0]
/-- Addresses of the units of a region, row-major. -/
def Region.unitAddrs (r : Region) (rows cnt : Nat) : List Nat :=
  (List.range rows).flatMap fun (i : Nat) => (List.range (r.units cnt)).map fun (j : Nat) =>
    (if isQ4 r.fmt then (r.base : Int) + i * r.rstr + j else r.addr i j).toNat
/-- The byte ranges of a region: whole rows where elements are adjacent. -/
def Region.ranges (r : Region) (rows cnt : Nat) : List (Nat × Nat) :=
  if cnt == 0 then []
  else if isQ4 r.fmt || r.estr == 1 then (List.range rows).map fun i => ((r.addr i 0).toNat, r.units cnt * r.eb)
  else (r.unitAddrs rows cnt).map fun a => (a, r.eb)

/-- The scale address of element (i, j) (R103). -/
def Region.scaleAddr (r : Region) (i j : Nat) : Nat := r.sbase + (i / 2 ^ r.blkr) * r.sstr + 4 * (j / 2 ^ r.blkc)

/-- Common shape of a g-register result: sources read, D written at the end of the Time. -/
def planG (d : BitVec 9) (rd : List (BitVec 9)) (time : Nat) (v : Dword) (t : Bool) : Plan :=
  { rd := rd.map fun r => .g r.toNat, wr := [(.g d.toNat, time)], time := time,
    eff := fun s' => s'.post time [.g d.toNat v t] }

end Sys2Proof.Machine
end

