-- ==== Sys2Proof/Machine/Scalar.lean ====
section
/-! DEFINITION. NOP, ILL and the S-stream arithmetic, logic, comparison and constant instructions (R50, R164 to R171). -/

namespace Sys2Proof.Machine

abbrev Out := Host.Outcome State Fault Refusal

/-- NOP (R50): nothing beyond its delay. -/
def execNop (h : Head) (p : PR) (s : State) : Out := .next (issue (.nop h p) { ctl := .nop p.imm.toNat } s)

/-- ILL (R160): an unassigned code raises ILLEGAL_OP at issue. -/
def execIll (h : Head) (op : Byte) (p : PR) (s : State) : Out := .next (issue (.ill h op p) {} s)

/-- The shape of R165: g[D] := f(g[A], second source), taint the OR of the sources' taints (R166). -/
def aluPlan (p : PR) (time : Nat) (f : Dword → Dword → Dword) (s : State) : Plan :=
  planG p.d (if p.i then [p.a] else [p.a, p.b]) time (f (s.g p.a) (s.src2 p)) (s.tn p.a || s.src2T p)

/-- High half of the product (R166). -/
def mulHigh (uns : Bool) (x y : Dword) : Dword :=
  if uns then BitVec.ofNat 64 (x.toNat * y.toNat / 2 ^ 64) else BitVec.ofInt 64 (x.toInt * y.toInt / 2 ^ 64)
/-- Quotient with the fixed results for division by zero and overflow (R166). -/
def divide (uns : Bool) (x y : Dword) : Dword :=
  if y == 0 then BitVec.allOnes 64
  else if uns then BitVec.ofNat 64 (x.toNat / y.toNat) else BitVec.ofInt 64 (x.toInt.tdiv y.toInt)
/-- Remainder, of the dividend's sign (R166). -/
def remain (uns : Bool) (x y : Dword) : Dword :=
  if y == 0 then BitVec.allOnes 64
  else if uns then BitVec.ofNat 64 (x.toNat % y.toNat) else BitVec.ofInt 64 (x.toInt.tmod y.toInt)
def lessThan (uns : Bool) (x y : Dword) : Bool := if uns then x.toNat < y.toNat else x.toInt < y.toInt
/-- The shift count b[5:0] (R166). -/
def shc (y : Dword) : Nat := y.toNat % 64
def uns (h : Head) : Bool := h.fn == 1

def execAdd (h : Head) (p : PR) (s : State) : Out := .next (issue (.add h p) (aluPlan p 1 (· + ·) s) s)
def execSub (h : Head) (p : PR) (s : State) : Out := .next (issue (.sub h p) (aluPlan p 1 (· - ·) s) s)
def execMul (h : Head) (p : PR) (s : State) : Out := .next (issue (.mul h p) (aluPlan p 3 (· * ·) s) s)
def execMulh (h : Head) (p : PR) (s : State) : Out := .next (issue (.mulh h p) (aluPlan p 3 (mulHigh (uns h)) s) s)
def execDiv (h : Head) (p : PR) (s : State) : Out := .next (issue (.div h p) (aluPlan p 20 (divide (uns h)) s) s)
def execRem (h : Head) (p : PR) (s : State) : Out := .next (issue (.rem h p) (aluPlan p 20 (remain (uns h)) s) s)
def execAnd (h : Head) (p : PR) (s : State) : Out := .next (issue (.and h p) (aluPlan p 1 (· &&& ·) s) s)
def execOr (h : Head) (p : PR) (s : State) : Out := .next (issue (.or h p) (aluPlan p 1 (· ||| ·) s) s)
def execXor (h : Head) (p : PR) (s : State) : Out := .next (issue (.xor h p) (aluPlan p 1 (· ^^^ ·) s) s)
def execShl (h : Head) (p : PR) (s : State) : Out := .next (issue (.shl h p) (aluPlan p 1 (fun x y => x <<< shc y) s) s)
def execShr (h : Head) (p : PR) (s : State) : Out := .next (issue (.shr h p) (aluPlan p 1 (fun x y => x >>> shc y) s) s)
def execSar (h : Head) (p : PR) (s : State) : Out := .next (issue (.sar h p) (aluPlan p 1 (fun x y => x.sshiftRight (shc y)) s) s)
def execMin (h : Head) (p : PR) (s : State) : Out :=
  .next (issue (.min h p) (aluPlan p 1 (fun x y => if lessThan (uns h) y x then y else x) s) s)
def execMax (h : Head) (p : PR) (s : State) : Out :=
  .next (issue (.max h p) (aluPlan p 1 (fun x y => if lessThan (uns h) x y then y else x) s) s)

/-- The condition of CMP (R168). -/
def cmpCond (fn : Nat) (x y : Dword) : Bool :=
  match fn with
  | 0 => x == y
  | 1 => x != y
  | 2 => x.toInt < y.toInt
  | 3 => y.toInt ≤ x.toInt
  | 4 => x.toNat < y.toNat
  | 5 => y.toNat ≤ x.toNat
  | 6 => x &&& y != 0
  | _ => x &&& y == 0

def planCmp (h : Head) (p : PR) (s : State) : Plan :=
  let v := cmpCond h.fn.toNat (s.g p.a) (s.src2 p)
  { rd := (if p.i then [.g p.a.toNat] else [.g p.a.toNat, .g p.b.toNat]), wr := [(.p p.d.toNat, 1)], time := 1,
    eff := fun s => s.post 1 [.p p.d.toNat v] }
def execCmp (h : Head) (p : PR) (s : State) : Out := .next (issue (.cmp h p) (planCmp h p s) s)

def planSel (p : PR) (s : State) : Plan :=
  let k := p.x.toNat % 16
  let v := if s.me.getP k then s.g p.a else s.g p.b
  let pl := planG p.d [p.a, p.b] 1 v (s.tn p.a || s.tn p.b)
  { pl with rd := pl.rd ++ [.p k] }
def execSel (h : Head) (p : PR) (s : State) : Out := .next (issue (.sel h p) (planSel p s) s)

/-- The operations of PLOG (R170). -/
def plogOp (fn : Nat) (x y : Bool) : Bool :=
  match fn with
  | 0 => x && y
  | 1 => x || y
  | 2 => x != y
  | 3 => x && !y
  | 4 => x || !y
  | 5 => !(x && y)
  | 6 => !(x || y)
  | _ => x == y

/-- PLOG (R170). A predicate still pending makes it wait or miss, that of a CMP one cycle earlier too (R30; DEDUCED, log 83). -/
def planPlog (h : Head) (p : PR) (s : State) : Plan :=
  let v := plogOp h.fn.toNat (s.me.getP p.a.toNat) (s.me.getP p.b.toNat)
  { rd := [.p p.a.toNat, .p p.b.toNat], wr := [(.p p.d.toNat, 1)], time := 1, eff := fun s => s.post 1 [.p p.d.toNat v] }
def execPlog (h : Head) (p : PR) (s : State) : Out := .next (issue (.plog h p) (planPlog h p s) s)

def execLi (h : Head) (p : PR) (s : State) : Out := .next (issue (.li h p) (planG p.d [] 1 p.imm64 false) s)
def execLiZ (h : Head) (p : PR) (s : State) : Out := .next (issue (.liZ h p) (planG p.d [] 1 (p.imm.zeroExtend 64) false) s)
def execLih (h : Head) (p : PR) (s : State) : Out :=
  .next (issue (.lih h p) (planG p.d [p.d] 1 (p.imm ++ (s.g p.d).extractLsb' 0 32) (s.tn p.d)) s)

/-- One bits of a dword. -/
def popCount (x : Dword) : Nat := (List.range 64).foldl (fun n k => if x.getLsbD k then n + 1 else n) 0
/-- Zero bits above the highest one bit; 64 for zero (R171). -/
def leadZeros (x : Dword) : Nat := if x == 0 then 64 else 63 - Nat.log2 x.toNat

def execPopc (h : Head) (p : PR) (s : State) : Out :=
  .next (issue (.popc h p) (planG p.d [p.a] 1 (BitVec.ofNat 64 (popCount (s.g p.a))) (s.tn p.a)) s)
def execClz (h : Head) (p : PR) (s : State) : Out :=
  .next (issue (.clz h p) (planG p.d [p.a] 1 (BitVec.ofNat 64 (leadZeros (s.g p.a))) (s.tn p.a)) s)

end Sys2Proof.Machine
end

