-- ==== Sys2Proof/Machine/Control.lean ====
section
/-! DEFINITION. S-stream control transfer, END, BRK, TRAP, TALIGN, timeline waits and reads, domain queries, and the configuration of stream, repeat, queue and ring registers (R172 to R185, R290, R291). -/

namespace Sys2Proof.Machine

/-- The address of the current word. -/
def State.pc (s : State) : Nat := (s.stream s.cur.hart s.cur.strm).pc
/-- c + sext64(IMM), modulo 2^64 (R174). -/
def relTarget (s : State) (p : PR) : Nat := (BitVec.ofNat 64 s.pc + p.imm64).toNat
def absTarget (s : State) (p : PR) : Nat := (s.g p.a + p.imm64).toNat

/-- The return address of a CALL (R173); on the harbour core, whose words are consecutive, the next word (DEDUCED, log 14). -/
def returnAddr (s : State) : Nat :=
  match s.cur.hart with
  | .harbour => s.pc + 12
  | .core c =>
    let u := (s.core c).cpu
    let t := u.stream s.cur.strm
    if t.pc != u.lastWord t.sec then t.pc + 12
    else match t.nextSec t.sec with | some n => n + 8 | none => 0x80000

def execBr (h : Head) (p : PR) (s : State) : Out := .next (issue (.br h p) { time := 1, ctl := .jump (relTarget s p) } s)
def execJmp (h : Head) (p : PR) (s : State) : Out :=
  .next (issue (.jmp h p) { rd := [.g p.a.toNat], time := 1, ctl := .jump (absTarget s p) } s)

/-- g63 := the return address with its taint cleared, and the transfer (R174). -/
def callPlan (rd : List Reg) (target : Nat) (s : State) : Plan :=
  { rd := rd, wr := [(.g 63, 1)], time := 1, ctl := .jump target,
    eff := fun s' => s'.post 1 [.g 63 (BitVec.ofNat 64 (returnAddr s)) false] }
def execCall (h : Head) (p : PR) (s : State) : Out := .next (issue (.call h p) (callPlan [] (relTarget s p) s) s)
def execCallR (h : Head) (p : PR) (s : State) : Out := .next (issue (.callR h p) (callPlan [.g p.a.toNat] (absTarget s p) s) s)
def execRet (h : Head) (p : PR) (s : State) : Out :=
  .next (issue (.ret h p) { rd := [.g 63], time := 1, ctl := .jump (s.me.getG 63).toNat } s)
def planLoop (p : PR) (s : State) : Plan :=
  let n := s.g p.d - 1
  { rd := [.g p.d.toNat], wr := [(.g p.d.toNat, 1)], time := 1,
    eff := fun s => s.post 1 [.g p.d.toNat n false], ctl := if n != 0 then .jump (relTarget s p) else .next }
def execLoop (h : Head) (p : PR) (s : State) : Out := .next (issue (.loop h p) (planLoop p s) s)

/-- END (R175): ends the stream; on the harbour core it parks it (R331). -/
def execEndS (h : Head) (p : PR) (s : State) : Out := .next (issue (.endS h p) { ctl := .stop } s)

def execBrk (h : Head) (p : PR) (s : State) : Out := .next (issue (.brk h p) { c6 := .trap ⟨cBreak, 0, p.imm64.toNat⟩ } s)
def execTrap (h : Head) (p : PR) (s : State) : Out := .next (issue (.trap h p) { c6 := .trap ⟨cSyscall, 0, p.imm64.toNat⟩ } s)

/-- UNCORE is bit 0 of READY (R392). -/
def State.uncore (s : State) (i : Nat) : Bool := (s.island i).ready.getLsbD 0

/-- TALIGN (R65, R177): the masked islands set CYC from the table 2,048 CYC cycles of island 12 later. The table's bytes are read as the harbour core sees them, whatever lies at the address (DESIGN CHOICE, log 77). NOT_READY reports kind 0, unit 0 and the lowest unready island (DESIGN CHOICE, log 88). -/
def planTalign (p : PR) (s : State) : Plan :=
  let mask := p.imm.toNat
  let a := (s.g p.a).toNat
  let table := (List.range 14).map fun j => ofLE (s.memBytesOf .harbour ((List.range 8).map fun k => a + 8 * j + k))
  let lame := (List.range 14).find? fun j => mask.testBit j && !s.uncore j
  { pre := Res.need s.talign.isNone cIllegalOperand, rd3 := [.g p.a.toNat], time := 1, c3 := Res.needW (a % 8 == 0) cAlign a 0,
    c6 := match lame with | some j => .trap ⟨cNotReady, 0, j⟩ | none => .ok,
    eff := fun s => { s with talign := some (mask, table, s.cyc 12 + 2048) } }
def execTalign (h : Head) (p : PR) (s : State) : Out := .next (issue (.talign h p) (planTalign p s) s)

/-- CTL, SYNC and the fields DK and SCOPE of a copy's descriptor (R280). -/
def Copy.ctl (e : Copy) : Nat := ofLE ((e.desc.drop 16).take 8)
def Copy.sync (e : Copy) : Nat := ofLE ((e.desc.drop 24).take 8)
def Copy.dk (e : Copy) : Nat := e.ctl / 2 ^ 14 % 4
def Copy.scope (e : Copy) : Nat := e.ctl / 2 ^ 35 % 8

/-- A ticket completes; VAL advances in ticket order only (R289). -/
def advanceVal : Nat → Timeline → Timeline
  | 0, t => t
  | n + 1, t => if t.early.contains (t.val + 1) then advanceVal n { t with val := t.val + 1, early := t.early.filter (· != t.val + 1) } else t
def Timeline.complete (t : Timeline) (k sc : Nat) : Timeline :=
  advanceVal (t.early.length + 1) { t with early := k :: t.early, scope := Nat.max t.scope sc }
def Core.ticket (k : Core) (e : Copy) : Core :=
  match e.ticket with | some (i, n) => { k with tl := vmod k.tl i (·.complete n e.scope) } | none => k

/-- A counter after the completions of a cycle (R290): copies whose landing falls in it, and copies clipped whole that start in it (R281). (DEDUCED, log 50) -/
def Core.tlNow (k : Core) (i now : Nat) : Timeline :=
  (k.copies.filter fun e => (e.started && !e.refused && !e.remote && !e.done && e.due ≤ now) || (e.void && e.u ≤ now)).foldl (fun (t : Timeline) e =>
    match e.ticket with | some (j, n) => if j == i then t.complete n e.scope else t | none => t) (vget k.tl i {})

/-- TLWAIT (R290): satisfied when VAL has reached n; an unsatisfied locked wait freezes the domain. It acquires, and contains a FENCE at the scope of what it waited for (R134). (DEDUCED, log 49) -/
def planTlwait (p : PR) (s : State) : Plan :=
  let n := if p.i then p.imm.toNat else (s.g p.b).toNat
  let t := s.kc.tlNow p.a.toNat s.t0
  { rd3 := .tl p.a.toNat :: (if p.i then [] else [.g p.b.toNat]), c3 := Res.need (n ≤ t.iss) cIllegalOperand,
    c5b := if n ≤ t.val then .ok else .freeze true, acq := true, fence := true, time := 4,
    eff := fun s => s.settle s.cur.hart t.scope }
def execTlwait (h : Head) (p : PR) (s : State) : Out := .next (issue (.tlwait h p) (planTlwait p s) s)

/-- TLREAD (R291): VAL, ISS or a checksum slot. (DEDUCED, log 50) -/
def planTlread (h : Head) (p : PR) (s : State) : Plan :=
  let k := s.kc
  let t := vget k.tl p.a.toNat {}
  let v : Dword := match h.fn.toNat with
    | 0 => BitVec.ofNat 64 t.val
    | 1 => BitVec.ofNat 64 t.iss
    | _ => (vget k.ck p.a.toNat 0).zeroExtend 64
  let pl := planG p.d [] 1 v false
  { pl with rd := if h.fn == 2 then [.ck p.a.toNat] else [.tl p.a.toNat] }
def execTlread (h : Head) (p : PR) (s : State) : Out := .next (issue (.tlread h p) (planTlread h p s) s)

/-- The quantities of R46. -/
def domQuantity (k : Core) (l : Launch) (sel : Nat) : Nat :=
  match sel with
  | 0 => k.dom.toNat
  | 1 => k.rx
  | 2 => k.ry
  | 3 => l.w
  | 4 => l.hh
  | 5 => if l.det then l.hdr 32 4 else l.w * l.hh * (l.fbn + 1)
  | 6 => l.fbix
  | 7 => l.fbn + 1
  | n => Nat.max 1 (l.hdr (36 + 4 * (n - 8)) 4)

def planDomq (p : PR) (s : State) : Plan :=
  { planG p.d [] 1 (BitVec.ofNat 64 (match s.myLaunch with | some l => domQuantity s.kc l p.imm.toNat | none => 0)) false with rd := [.dom p.imm.toNat] }
def execDomq (h : Head) (p : PR) (s : State) : Out := .next (issue (.domq h p) (planDomq p s) s)

/-- STSET (R179). -/
def planStset (h : Head) (p : PR) (s : State) : Plan :=
  let v := s.srcA p
  let n := h.fn.toNat
  let q := strmOf (n - 4)
  let rd := if p.i then [] else [Reg.g p.a.toNat]
  if n < 4 then
    { rd := rd, wr := [(.st p.d.toNat, 1)], time := 1, eff := fun s => s.post 1 [.st p.d.toNat n (v &&& stMask n)] }
  else
    { rd := rd, wr := [(.rep q, 1)], time := 1, eff := fun s => s.post 1 [.rep q (v.toNat % 65536)] }
def execStset (h : Head) (p : PR) (s : State) : Out := .next (issue (.stset h p) (planStset h p s) s)

/-- STGET (R180). -/
def planStget (h : Head) (p : PR) (s : State) : Plan :=
  let k := s.kc
  let n := h.fn.toNat
  let v : Dword :=
    if n < 4 then k.stw p.a.toNat n
    else if n < 8 then BitVec.ofNat 64 (vget k.rep (n - 4) 1)
    else if n == 8 then BitVec.ofNat 64 k.vprog
    else if n == 9 then k.vflags.zeroExtend 64
    else k.part.zeroExtend 64
  let pl := planG p.d [] 1 v false
  { pl with rd := if n < 4 then [.st p.a.toNat] else if n < 8 then [.rep (strmOf (n - 4))] else if n < 10 then [.misc (n - 8)] else [.misc 6] }
def execStget (h : Head) (p : PR) (s : State) : Out := .next (issue (.stget h p) (planStget h p s) s)

/-- STSTEP (R181). -/
def planStstep (p : PR) (s : State) : Plan :=
  let w0 := s.kc.stw p.d.toNat 0
  let inc := if p.i then p.imm64.toNat else (s.kc.stepOf p.d.toNat)
  let v := setBase w0 (fld w0 22 0 + inc)
  { rd := [.st p.d.toNat], wr := [(.st p.d.toNat, 1)], time := 1, eff := fun s => s.post 1 [.st p.d.toNat 0 v] }
def execStstep (h : Head) (p : PR) (s : State) : Out := .next (issue (.ststep h p) (planStstep p s) s)

/-- A pool structure in a poisoned granule raises DATA_POISON at issue in place of its tests (R280, R415). -/
def State.structPoison (s : State) (a n : Nat) : Res :=
  match s.kc.poisonIn a n with
  | some g => .trap ⟨cDataPoison, g, 31 * 2 ^ 16⟩
  | none => .ok

/-- Structures that a region register names (R415): of the metadata of MMAS and of META's scales a poisoned word raises at issue (DEDUCED, log 100). -/
def State.metaPoison (s : State) (rs : List (Nat × Nat)) : Res := Res.all (rs.map fun r => s.structPoison r.1 r.2)

def Queue.idle (q : Queue) : Bool := !q.valid || (q.qc == q.head && q.pc == q.tail)

/-- The queue a control word describes, or none where R183 refuses it. -/
def queueOf (addr : Nat) (w : List Byte) : Option Queue :=
  let base := ofLE (w.take 4)
  let lge := ofLE ((w.drop 6).take 1)
  let lgd := ofLE ((w.drop 7).take 1)
  if ofLE ((w.drop 4).take 2) == 0 && base < 2 ^ 23 && lge ≤ 9 && lgd ≤ 15 && base % 2 ^ lge == 0 && base + 2 ^ (lgd + lge) ≤ 2 ^ 23 then
    some { valid := true, addr := addr, base := base, lge := lge, lgd := lgd }
  else none

/-- QCONF (R81, R183). (DEDUCED, log 73) -/
def planQconf (p : PR) (s : State) : Plan :=
  let i := p.d.toNat
  let q := vget s.kc.queues i {}
  let addr := (s.g p.a + p.imm64).toNat
  let inPool := addr % 16 == 0 && addr ≤ 0x7FFFF0
  let w := match s.kid with | some c => s.poolRead c addr 16 | none => []
  let nq := queueOf addr w
  let bad := Res.needW false cQueueFault 0 i
  { rd3 := [.g p.a.toNat, .queue i], bank3 := if q.idle && inPool then usesOf addr 16 s.t0 false else [],
    c3 := Res.all [if q.idle && inPool then .ok else bad, s.structPoison addr 16, if nq.isSome then .ok else bad],
    wr := [(.queue i, 4)], use := usesOf (addr + 8) 8 (s.t0 + 4) true, reads := [(addr, 16)], acc := true, time := 4,
    eff := fun s => s.post 4 [.queue i (nq.getD {})] }
def execQconf (h : Head) (p : PR) (s : State) : Out := .next (issue (.qconf h p) (planQconf p s) s)
def planQconfRel (p : PR) (s : State) : Plan :=
  let i := p.d.toNat
  let q := vget s.kc.queues i {}
  { rd3 := [.queue i], c3 := Res.needW q.idle cQueueFault 0 i, wr := [(.queue i, 1)], time := 1,
    eff := fun s => s.post 1 [.queue i { q with valid := false }] }
def execQconfRel (h : Head) (p : PR) (s : State) : Out := .next (issue (.qconfRel h p) (planQconfRel p s) s)

/-- A ring descriptor within its limits (R78, R184). -/
def Ring.placed (r : Ring) : Bool := (r.slotb != 0 || r.lgn == 0) && (r.slotb == 0 || 512 * (r.baseb + r.slotb * 2 ^ r.lgn) ≤ 2 ^ 23)
/-- RCONF (R78, R184). A descriptor in the word is tested before the ring is read (R415). -/
def planRconf (p : PR) (s : State) : Plan :=
  let i := p.d.toNat
  let r := vget s.kc.rings i {}
  let d := if p.i then p.imm.toNat else (s.g p.a).toNat % 2 ^ 32
  let nr : Ring := { lgn := d / 2 ^ 29, slotb := d / 2 ^ 14 % 2 ^ 15, baseb := d % 2 ^ 14 }
  let idle := r.slotb == 0 || (r.rc == r.head && r.fc == r.tail)
  { pre := if p.i then Res.needW nr.placed cRingFault 0 i else .ok, rd3 := (if p.i then [.ring i] else [.g p.a.toNat, .ring i]),
    c3 := Res.needW (idle && nr.placed) cRingFault 0 i, wr := [(.ring i, 1)], time := 1,
    eff := fun s => s.post 1 [.ring i nr] }
def execRconf (h : Head) (p : PR) (s : State) : Out := .next (issue (.rconf h p) (planRconf p s) s)

end Sys2Proof.Machine
end

