-- ==== Sys2Proof/Machine/Translate.lean ====
section
/-! DEFINITION. The physical map (R351), readiness of a route (R187, R393), the two-stage walk (R352 to R357), the resolution of a global access through a handle (R86, R187), and the values that global reads return. -/

namespace Sys2Proof.Machine

def gib : Nat := 2 ^ 30
def hbmBase : Nat := 0x10000000000
def hbmEnd : Nat := hbmBase + 576 * gib
def farBase : Nat := 0x20000000000
def farEnd : Nat := 0x30000000000
def cxlBase : Nat := 0x100000000000
def cxlSize : Nat := 0x40000000000
def hostBase : Nat := 0x400000000000
def peerBase : Nat := 0x800000000000
def peerSize : Nat := 0x20000000000
def physEnd : Nat := 0x1000000000000

/-- The tier of a physical byte, none where no memory exists (R351, R364). -/
def State.tierOf (s : State) (a : Nat) : Option Nat :=
  if a < 0x200000 then some 6
  else if hbmBase ≤ a && a < hbmEnd - s.mscSteps * (16 * gib) then some 0
  else if farBase ≤ a && a < farEnd then some 1
  else if cxlBase ≤ a && a < cxlBase + 4 * cxlSize then
    let p := (a - cxlBase) / cxlSize
    let r := vget s.xclrng p 0
    let off := (a - cxlBase) % cxlSize
    if 0 < s.mscSteps && fld r 31 0 * gib ≤ off && off < (fld r 31 0 + fld r 63 32) * gib then some 3 else some 2
  else if hostBase ≤ a && a < peerBase then some 4
  else if peerBase ≤ a && a < physEnd then some 5
  else none

/-- The island whose registers speak for a READY bit, and the bit's number (R392). -/
def State.readyBit (s : State) (i b : Nat) : Bool := (s.island i).ready.getLsbD b

/-- A port towards part q: the first trained one, else the first that has been trained with it (R393, R407; DESIGN CHOICE, log 10). -/
def State.route (s : State) (q : Nat) : Option Nat :=
  let named := (List.range 12).filter fun k => (vget s.ports k {}).peer / 256 % 64 == q && (vget s.ports k {}).known
  match named.find? fun k => (vget s.ports k {}).link == 2 with
  | some k => some k
  | none => named.head?

/-- INFO of NOT_READY (R340) for a passage port. -/
def portInfo (k : Nat) : Nat := k * 256 + 2 * 16 + (8 + k / 3)
def State.portReady (s : State) (k : Nat) : Bool := s.readyBit (8 + k / 3) (5 + k % 3)

/-- INFO of NOT_READY when the route to a physical byte is not ready (R187, R340, R393). -/
def State.unready (s : State) (a : Nat) : Option Nat :=
  match s.tierOf a with
  | some 0 =>
    let k := (a - hbmBase) / (48 * gib)
    if s.readyBit (8 + k / 3) (2 + k % 3) then none else some (k * 256 + 16 + (8 + k / 3))
  | some 1 =>
    let i := if a < 0x28000000000 then 12 else 13
    if s.readyBit i 8 then none else some (3 * 16 + i)
  | some 2 | some 3 =>
    let p := (a - cxlBase) / cxlSize
    if s.readyBit (12 + p / 2) (9 + p % 2) then none else some (p * 256 + 4 * 16 + (12 + p / 2))
  | some 4 => if s.readyBit 12 11 then none else some (5 * 16 + 12)
  | some 5 =>
    match s.route ((a - peerBase) / peerSize) with
    | some k => if s.portReady k then none else some (portInfo k)
    | none => some (portInfo 0)
  | _ => none

/-! ### Table walks -/

/-- A range of n bytes lies within what partition p reaches (R366), in memory that exists (R353). -/
def State.inRanges (s : State) (p a n : Nat) : Bool :=
  let q := s.part p
  let within (lo hi : Nat) : Bool := lo ≤ a && a + n ≤ hi
  let hb := hbmBase + fld q.hbm 15 0 * gib
  let fb := farBase + fld q.far 15 0 * gib
  (within hb (hb + fld q.hbm 31 16 * gib) && a + n ≤ hbmEnd - s.mscSteps * (16 * gib))
  || (within fb (fb + fld q.far 31 16 * gib) && a + n ≤ farEnd)
  || ([0, 1, 2, 3].any fun k => q.ext.getLsbD k && within (cxlBase + k * cxlSize) (cxlBase + (k + 1) * cxlSize))
  || (q.ext.getLsbD 4 && within hostBase peerBase)
  || (q.ext.getLsbD 5 && within peerBase physEnd)

/-- The dword of a table entry; one outside HBM and the far tier reads as invalid (R354). -/
def State.tableEntry (s : State) (ea : Nat) : Nat :=
  match s.tierOf ea with
  | some 0 | some 1 => s.mem.le ea 8
  | _ => 0

def ebit (e k : Nat) : Bool := e / 2 ^ k % 2 == 1
def eaddr (e : Nat) : Nat := e / 2 ^ 16 % 2 ^ 32
def ekind (e : Nat) : Nat := e / 16 % 4
/-- Malformed entries (R353). -/
def malformed (n e : Nat) : Bool :=
  let leaf := ebit e 1
  e / 2 ^ 48 != 0 || e / 64 % 4 != 0
  || (leaf && n == 3) || (!leaf && n == 0)
  || (!leaf && (ebit e 2 || ebit e 3 || ekind e != 0 || ebit e 11))
  || (leaf && e / 256 % 8 != 0)
  || (leaf && eaddr e % 2 ^ (10 * n) != 0)

/-- A leaf reached: frame, log2 of its size, R, W, KIND. -/
structure Leaf where
  frame : Nat
  lg : Nat
  r : Bool
  w : Bool
  kind : Nat
  deriving DecidableEq, Repr

def leafOf (n e : Nat) : Leaf := ⟨eaddr e * 2 ^ 16, 16 + 10 * n, ebit e 2, ebit e 3, ekind e⟩
def nodeOf (e : Nat) : Nat := eaddr e * 2 ^ 16 + e / 256 % 8 * 2 ^ 13
def indexAt (x n : Nat) : Nat := x / 2 ^ (10 * n + 16) % 1024

/-- Stage 2 from level n − 1 down (R354). -/
def State.walk2 (s : State) (g : Nat) : Nat → Nat → Option Leaf
  | 0, _ => none
  | n + 1, node =>
    let e := s.tableEntry (node + 8 * indexAt g n)
    if !ebit e 0 || malformed n e then none
    else if ebit e 1 then (if ekind e == 3 then none else some (leafOf n e))
    else s.walk2 g n (nodeOf e)

/-- xlate2 of R354 from a root: the stage-2 leaf of a guest-physical address, when it grants what is needed and maps within the partition. -/
def State.xlate2 (s : State) (root2 : Dword) (p g : Nat) (needR : Bool) : Option Leaf :=
  match s.walk2 g 4 (fld root2 47 13 * 2 ^ 13) with
  | none => none
  | some l => if (needR && !l.r) || !(s.inRanges p l.frame (2 ^ l.lg)) then none else some l

inductive W1 where
  | ok (l : Leaf) (gpas : List (Nat × Nat))
  | fault (kind3 : Bool) (gpas : List (Nat × Nat))
  | fault2 (ea : Nat) (gpas : List (Nat × Nat))

/-- Stage 1 from level n − 1 down, its table reads translated by stage 2. -/
def State.walk1 (s : State) (root2 : Dword) (p v : Nat) : Nat → Nat → List (Nat × Nat) → W1
  | 0, _, gs => .fault false gs
  | n + 1, node, gs =>
    let ea := node + 8 * indexAt v n
    match s.xlate2 root2 p ea true with
    | none => .fault2 ea gs
    | some l =>
      let e := s.tableEntry (l.frame + ea % 2 ^ l.lg)
      if !ebit e 0 || malformed n e then .fault false ((ea, l.lg) :: gs)
      else if ebit e 1 then (if ekind e == 3 then .fault true ((ea, l.lg) :: gs) else .ok (leafOf n e) ((ea, l.lg) :: gs))
      else s.walk1 root2 p v n (nodeOf e) ((ea, l.lg) :: gs)

inductive Xl where
  | ok (pg : Page) (used : Used)
  | trap (t : TrapInfo)

/-- The two stages combined (R355, R356), from the two roots with which the walk began (R367): the page that holds v. -/
def State.translateFrom (s : State) (root1 root2 : Dword) (p v : Nat) : Xl :=
  match s.walk1 root2 p v 4 (fld root1 47 13 * 2 ^ 13) [] with
  | .fault k3 _ => .trap ⟨cTranslation, v, 8 + (if k3 then 4 else 0)⟩
  | .fault2 ea _ => .trap ⟨cTranslationS2, v, 2 ^ 63 + ea⟩
  | .ok l1 gs =>
    let g := l1.frame + v % 2 ^ l1.lg
    match s.xlate2 root2 p g false with
    | none => .trap ⟨cTranslationS2, v, g⟩
    | some l2 =>
      let lg := Nat.min l1.lg l2.lg
      let pa := l2.frame + g % 2 ^ l2.lg
      .ok { present := true, base := v / 2 ^ lg * 2 ^ lg, frame := pa / 2 ^ lg * 2 ^ lg, lg := lg,
            tier := (s.tierOf pa).getD 7, kind := Nat.min l1.kind l2.kind, r := l1.r && l2.r, w := l1.w && l2.w,
            gpa := g / 2 ^ lg * 2 ^ lg } { lg1 := l1.lg, gpas := (g, l2.lg) :: gs }
/-- A walk that begins now. -/
def State.translate (s : State) (p v : Nat) : Xl := s.translateFrom (s.part p).s1root (s.part p).s2root p v

/-- A page looked up in a walker cache (R357). -/
def cached (u : Cpu) (p v : Nat) : Option Page :=
  (u.wcache.find? fun e => e.ptn == p && e.page.base ≤ v && v < e.page.base + 2 ^ e.page.lg).map (·.page)

/-- An absent carry page, at the address where it would begin. (DEDUCED, log 47) -/
def absentPage (b : Nat) : Page := { base := b }

/-- The carry page of a page: from the cache or by a walk; absent where it is not mapped (R86, R189). With it what a walk used. -/
def State.carryOf (s : State) (root1 root2 : Dword) (u : Cpu) (p : Nat) (pg : Page) : Page × Used :=
  let b := pg.base + 2 ^ pg.lg
  if b ≥ 2 ^ 56 then (absentPage b, {})
  else match cached u p b with
    | some q => (q, {})
    | none => match s.translateFrom root1 root2 p b with | .ok q us => (q, us) | .trap _ => (absentPage b, {})
def State.carry (s : State) (u : Cpu) (p : Nat) (pg : Page) : Page := (s.carryOf (s.part p).s1root (s.part p).s2root u p pg).1

/-- A physical page as the harbour core's handles hold it at M (R332). -/
def State.pageM (s : State) (v : Nat) : Page :=
  let b := v / 2 ^ 16 * 2 ^ 16
  match s.tierOf b with
  | some t => { present := true, base := b, frame := b, lg := 16, tier := t, kind := 0, r := true, w := true }
  | none => absentPage b

/-- The partition in whose context a hart translates; none where translation is off. -/
def State.ctx (s : State) (x : Hart) : Option Nat :=
  match x with
  | .harbour => if s.harbour.pl == 2 then none else some s.harbour.ptn
  | .core c => some (((s.launchOf c).map (·.ptn)).getD 0)

/-- The guest-physical addresses that a walk meets, to its end or its fault (R354, R361). -/
def State.metBy (s : State) (root1 root2 : Dword) (p v : Nat) : List Nat :=
  match s.walk1 root2 p v 4 (fld root1 47 13 * 2 ^ 13) [] with
  | .fault _ gs => gs.map (·.1)
  | .fault2 ea gs => ea :: gs.map (·.1)
  | .ok l gs => (l.frame + v % 2 ^ l.lg) :: gs.map (·.1)
/-- A guest-physical address in a range that an engine has marked (R361). -/
def State.marked (s : State) (p : Nat) (gs : List Nat) : Bool :=
  s.engines.toList.any fun e =>
    let base := fld e.la 47 16 * 2 ^ 16
    let size := if fld e.la 1 0 == 0 then 2 ^ 16 else 2 ^ 26
    e.phase != 0 && fld e.la 50 48 == p && gs.any fun g => base ≤ g && g < base + size

/-- The walk for a page's carry page meets a marked range. -/
def State.carryBarred (s : State) (root1 root2 : Dword) (u : Cpu) (p : Nat) (pg : Page) : Bool :=
  let b := pg.base + 2 ^ pg.lg
  decide (b < 2 ^ 56) && (cached u p b).isNone && s.marked p (s.metBy root1 root2 p b)
/-- A walk for v, or one for its carry page, meets a range that an engine has marked, whether it ends in a page or a fault: it waits (R361). -/
def State.barred (s : State) (root1 root2 : Dword) (u : Cpu) (p v : Nat) : Bool :=
  s.marked p (s.metBy root1 root2 p v) || match s.translateFrom root1 root2 p v with
  | .ok pg _ => s.carryBarred root1 root2 u p pg
  | .trap _ => false

/-! ### Global accesses (R187) -/

/-- The page of a handle that holds a virtual address (R86). -/
def Handle.pageOf (h : Handle) (b : Int) : Option Page :=
  let holds (q : Page) : Bool := q.present && (q.base : Int) ≤ b && b < (q.base : Int) + 2 ^ q.lg
  if holds h.pg then some h.pg else if holds h.cy then some h.cy else none

def Page.phys (q : Page) (b : Int) : Nat := q.frame + (b - q.base).toNat
/-- A virtual address as a fault record holds it. -/
def vaOf (b : Int) : Nat := (b % 2 ^ 64).toNat

/-- One element of an access: its bytes' pages and physical addresses, or the first failing address with INFO and whether it is out of reach. -/
inductive Hit where
  | ok (bs : List (Page × Nat))
  | bad (reach : Bool) (va info : Nat)
  deriving DecidableEq, Repr

def Handle.hit (h : Handle) (needR needW : Bool) (a : Int) : Nat → Hit
  | 0 => .ok []
  | n + 1 =>
    match h.pageOf a with
    | none =>
      .bad true (vaOf a) (if !h.cy.present && (h.cy.base : Int) ≤ a && a < (h.cy.base : Int) + 2 ^ h.cy.lg then 2 else 0)
    | some q =>
      if (needR && !q.r) || (needW && !q.w) then .bad false (vaOf a) 1
      else match Handle.hit h needR needW (a + 1) n with
        | .ok bs => .ok ((q, q.phys a) :: bs)
        | b => b

/-- What an access needs and accepts. -/
structure Need where
  r : Bool := false
  w : Bool := false
  ord : Nat := 0
  atomic : Bool := false
  clip : Bool := false
  /-- A copy command may name untimed memory from locked code (R68). -/
  copy : Bool := false
  /-- Alignment of every element's address. -/
  al : Nat := 1
  /-- Ordering kinds of the other half of a split-word transfer (R123). -/
  others : List Nat := []

/-- A resolved access: the cause found, and the elements with their bytes; a clipped one has none. -/
structure Access where
  res : Res := .ok
  els : List (Int × List (Page × Nat)) := []

def Access.bytes (a : Access) : List (Page × Nat) := a.els.flatMap (·.2)
def Access.timed (a : Access) : Bool := a.bytes.all (·.1.tier == 0)
def Access.kinds (a : Access) : List Nat := a.bytes.map (·.1.kind)
def Access.so (a : Access) : Bool := a.bytes.any (·.1.kind == 0)

/-- resolve() of R187 over the elements of an access, given by address and size. -/
def State.resolve (s : State) (h : Handle) (hi : Nat) (els : List (Int × Nat)) (nd : Need) : Access :=
  let hits := els.map fun e => (e.1, h.hit nd.r nd.w e.1 e.2)
  let fails := hits.filterMap fun e => match e.2 with
    | .bad reach va info => if reach && nd.clip then none else some (va, info)
    | .ok _ => none
  let low := fails.foldl (fun m f => match m with | none => some f | some g => some (if f.1 < g.1 then f else g)) none
  let ok := hits.map fun e => match e.2 with | .ok bs => (e.1, bs) | .bad _ _ _ => (e.1, [])
  let bs := ok.flatMap (·.2)
  let first := vaOf (((ok.filter (!·.2.isEmpty)).map (·.1)).foldl (fun m a => if a < m then a else m) (((ok.filter (!·.2.isEmpty)).map (·.1)).headD 0))
  let slow := ok.filterMap fun e => (e.2.findIdx? fun b => b.1.tier != 0).map fun k => vaOf (e.1 + k)
  let locked := s.locked s.cur.hart s.cur.strm
  { els := ok
    res := Res.all [
      Res.needW h.valid cHandleInvalid h.v hi,
      (match els.filter fun e => e.1 % (nd.al : Int) != 0 with
       | e :: es => .trap ⟨cAlign, (es.map fun x => vaOf x.1).foldl Nat.min (vaOf e.1), 0⟩
       | [] => .ok),
      (match low with | some f => .trap ⟨cTranslation, f.1, f.2⟩ | none => .ok),
      (if !bs.isEmpty && ((nd.atomic && bs.any (·.1.kind == 2)) || (nd.ord != 0 && bs.all (·.1.kind == 2) && nd.others.all (· == 2))) then
        .trap ⟨cOrderFault, first, 0⟩ else .ok),
      (match slow with
       | v :: vs =>
         if nd.copy then .ok else if s.kc.hook.isSome then .trap ⟨cIllegalOperand, 0, 0⟩
         else if locked then .trap ⟨cUntimedAccess, vs.foldl Nat.min v, 0⟩ else .ok
       | [] => .ok),
      (match bs.findSome? fun b => s.unready b.2 with | some i => .trap ⟨cNotReady, 0, i⟩ | none => .ok)] }

/-- Physical bytes as the issuing hart reads them now. -/
def State.memBytes (s : State) (as : List Nat) : List Byte := s.memBytesOf s.cur.hart as

/-- The latency of an access of the current hart: 340 + hop_N, with c cycles of the share added where they count, when every byte is timed; otherwise open (R188; DESIGN CHOICE, log 4). -/
def State.hopN (s : State) : Nat := match s.kid, s.myLaunch with | some c, some l => l.hopN c | _, _ => 0
/-- DESIGN CHOICE, log 42. -/
def State.globalTime (s : State) (timed : Bool) (c : Nat) : Nat :=
  if timed && s.cur.hart != .harbour then 340 + s.hopN + c else Config.freeNat s.free

/-- The share is free over c cycles from now (R69). -/
def State.shareFree (s : State) (timed : Bool) (c : Nat) : Res :=
  let n := s.t0
  Res.ready (!timed || !(s.kc.shares.any fun r => r.1 < n + c && n < r.2)) 9 0
def State.takeShare (s : State) (timed : Bool) (c : Nat) : State :=
  if timed then s.modK fun k => { k with shares := k.shares ++ [(s.t0, s.t0 + c)] } else s

end Sys2Proof.Machine
end

