-- ==== Sys2Proof/Machine/Access.lean ====
section
/-! DEFINITION. A-stream translation, handle queries, and scalar loads and stores of global memory, the pool and the spill window (R76, R77, R186 to R194, R416). -/

namespace Sys2Proof.Machine

/-- The handle for an address (R189), or a walk begun and the domain frozen for the miss (R59). A carry page in a range that an engine has marked makes a walk of it too (R361). -/
def xlatPost (i : Instr) (d v : Nat) (t : Bool) (s : State) : State :=
  let x := s.cur.hart
  match s.ctx x with
  | none => s.post 24 [.h d { valid := true, v := v, pg := s.pageM v, cy := s.pageM (v + 2 ^ 16) } t]
  | some p =>
    let r1 := (s.part p).s1root
    let r2 := (s.part p).s2root
    let hit := (cached (s.cpu x) p v).filter fun pg => !s.carryBarred r1 r2 (s.cpu x) p pg
    match hit with
    | some pg => s.post 24 [.h d { valid := true, v := v, pg := pg, cy := s.carry (s.cpu x) p pg } t]
    | none =>
      let n := s.t0
      let w : Walk := { ptn := p, root1 := r1, root2 := r2, d := d, v := v, t := t, issue := n, land := n + 24,
                        due := s.time + Config.freeNat s.free, origin := s.origin i }
      let s := s.modCpu x fun u => { u with walks := u.walks ++ [w] }
      match x with
      | .harbour => s
      | .core c =>
        match s.launchOf c with
        | none => s
        | some l =>
          if (s.core c).hook.isSome then s
          else (s.freeze l c (n + 16) (n + 16)).modLaunch l.lid fun l => { l with causes := l.causes ++ [.walk c] }

/-- XLAT (R189). At M a page that does not exist raises at once (R332). -/
def planXlat (h : Head) (p : PR) (s : State) : Plan :=
  let v := (s.g p.a + p.imm64).toNat
  let t := s.tn p.a
  let bad := 2 ^ 56 ≤ v || (s.ctx s.cur.hart == none && !(s.pageM v).present)
  { rd := [.g p.a.toNat], wr := [(.h p.d.toNat, 24)], time := 24, c6 := Res.needW (!bad) cTranslation v 0,
    eff := xlatPost (.xlat h p) p.d.toNat v t }
def execXlat (h : Head) (p : PR) (s : State) : Out := .next (issue (.xlat h p) (planXlat h p s) s)

/-- HINV (R190). -/
def execHinv (h : Head) (p : PR) (s : State) : Out :=
  .next (issue (.hinv h p) { wr := [(.h p.d.toNat, 1)], time := 1, eff := fun s => s.post 1 [.hclr p.d.toNat] } s)
def execHinvAll (h : Head) (p : PR) (s : State) : Out :=
  .next (issue (.hinvAll h p)
    { wr := (List.range 32).map fun i => (.h i, 1), time := 1, eff := fun s => s.post 1 ((List.range 32).map Eff.hclr) } s)

/-- The page word of R191; an absent page reads as zero. -/
def Page.word (q : Page) : Nat :=
  if !q.present then 0
  else 1024 + (if q.w then 512 else 0) + (if q.r then 256 else 0) + q.tier % 8 * 32 + q.kind % 4 * 8
    + (if q.lg == 16 then 0 else if q.lg == 26 then 2 else 4) + (if q.tier == 0 then 1 else 0)

/-- HQRY (R191). -/
def planHqry (h : Head) (p : PR) (s : State) : Plan :=
  let hd := s.hd p.a
  let v : Nat := match h.fn.toNat with | 0 => hd.v | 1 => hd.pg.word | _ => hd.cy.word
  let pl := planG p.d [] 1 (BitVec.ofNat 64 v) false
  { pl with rd := [.h p.a.toNat], c6 := Res.needW hd.valid cHandleInvalid hd.v p.a.toNat }
def execHqry (h : Head) (p : PR) (s : State) : Out := .next (issue (.hqry h p) (planHqry h p s) s)

/-! ### Scalar forms -/

/-- Bytes of a scalar access by its size suffix (R186). -/
def sizeOf (fn : Nat) : Nat := 2 ^ (fn % 4)
/-- A loaded value extended as its suffix says (R186). -/
def extend (fn v : Nat) : Dword :=
  let n := 8 * sizeOf fn
  if fn < 4 then BitVec.ofInt 64 (sgn n v) else BitVec.ofNat 64 v
/-- IMM[28:0], signed (R192). -/
def disp (p : PR) : Int := sgn 29 p.imm.toNat
def s64 (x : Dword) : Int := x.toInt

/-- The record of DATA_POISON under R416: INFO[20:16] is 31. -/
def poisonAt (va : Nat) : TrapInfo := ⟨cDataPoison, va, 31 * 2 ^ 16⟩

/-- SO loads acquire and SO stores release (R120). -/
def acquires (a : Access) (ord : Nat) : Bool := ord == 2 || ord == 4 || a.so
def releases (a : Access) (ord : Nat) : Bool := ord == 3 || ord == 4 || a.so

/-- The resolved scalar access of LD and ST (R193). -/
def scalarAcc (p : PR) (n : Nat) (nd : Need) (s : State) : Access :=
  let hd := s.hd p.a
  s.resolve hd p.a.toNat [((hd.v : Int) + s64 (s.g p.b) + disp p, n)] { nd with al := n }

/-- The pieces common to global accesses: registers, timing, share, resolution and ordering. -/
def accPlan (a : Access) (hi : Nat) (rd : List Reg) (c : Nat) (s : State) : Plan :=
  let timed := a.timed
  { rd := .h hi :: rd, c5b := s.shareFree timed c, c6 := a.res, acc := true,
    time := s.globalTime timed 0, timeF := some (340 + s.hopN) }

/-- The value of LD at the end of its Time, or the poison it meets (R193, R416). (DEDUCED, log 41) -/
def ldPost (i : Instr) (h : Head) (p : PR) (t : Nat) (s : State) : State :=
  let fn := h.fn.toNat
  let a := scalarAcc p (sizeOf fn) { r := true, ord := p.ord } s
  let s := s.before a.so false 0
  let pas := a.bytes.map (·.2)
  let va := vaOf ((a.els.map (·.1)).headD 0)
  if pas.any s.linePoisoned then s.postDetect i t (poisonAt va) 0 false [.keep p.d.toNat]
  else s.post t [.g p.d.toNat (extend fn (ofLE (s.memBytes pas))) (p.ord == 1), .hot 0 (sizeOf fn) 0, s.via i va pas]

def planLd (h : Head) (p : PR) (s : State) : Plan :=
  let a := scalarAcc p (sizeOf h.fn.toNat) { r := true, ord := p.ord } s
  let pl := accPlan a p.a.toNat [.g p.b.toNat] 1 s
  { pl with wr := [(.g p.d.toNat, pl.time)], acq := acquires a p.ord,
            eff := fun s => (ldPost (.ld h p) h p pl.time s).takeShare a.timed 1 }
def execLd (h : Head) (p : PR) (s : State) : Out := .next (issue (.ld h p) (planLd h p s) s)

def planSt (h : Head) (p : PR) (s : State) : Plan :=
  let n := sizeOf h.fn.toNat
  let a := scalarAcc p n { w := true, ord := p.ord } s
  let pl := accPlan a p.a.toNat [.g p.d.toNat, .g p.b.toNat] 1 s
  let bs := (a.bytes.map (·.2)).zip (toLE n (s.g p.d).toNat)
  { pl with rel := releases a p.ord,
            eff := fun s => ((s.before a.so (releases a p.ord) p.scope).store pl.time bs a.kinds [] [.hot 0 0 n]).takeShare a.timed 1 }
def execSt (h : Head) (p : PR) (s : State) : Out := .next (issue (.st h p) (planSt h p s) s)

/-! ### Local and spill forms (R76, R194) -/

/-- Where a local scalar reaches: the pool, or physical memory of the pinned overflow area with the page. -/
inductive Place where
  | pool (a : Nat)
  | far (va : Nat) (bs : List (Page × Nat))
  deriving DecidableEq, Repr

/-- The pool form: the address and its tests (R194). -/
def poolPlace (p : PR) (n : Nat) (s : State) : Res × Place :=
  let a := (s.g p.a + p.imm64).toNat
  (Res.all [Res.need (a + n ≤ 2 ^ 23) cIllegalOperand, Res.needW (a % n == 0) cAlign a 0], .pool a)

def Core.spillBytes (k : Core) : Nat := fld (k.part.zeroExtend 64) 15 8 * 2 ^ 16
def Core.spillBase (k : Core) : Nat := (128 - fld (k.part.zeroExtend 64) 7 0 - fld (k.part.zeroExtend 64) 15 8) * 2 ^ 16

/-- The spill form: offset, alignment, then the reach of R76 through the frames pinned at launch (R77). -/
def spillPlace (p : PR) (n : Nat) (s : State) : Res × Place :=
  let k := s.kc
  let o := s64 (s.me.getG 62) + p.imm64.toInt
  let info := vaOf o
  let sb := k.spillBytes
  let off := o.toNat
  let va := k.ovfptr + (off - sb)
  let page (b : Nat) : Page := (k.pin.find? fun q => q.base ≤ b && b < q.base + 2 ^ q.lg).getD {}
  let bs := (List.range n).map fun j => (page (va + j), (page (va + j)).phys (va + j))
  let local_ := off + n ≤ sb
  let beyond := sb ≤ off && off + n ≤ sb + k.ovflen * 2 ^ 16
  (Res.all [
    Res.needW (0 ≤ o) cSpillOverflow 0 info,
    Res.needW (off % n == 0) cAlign (if off < sb then k.spillBase + off else va) 0,
    Res.needW (local_ || beyond) cSpillOverflow 0 info],
   if local_ then .pool (k.spillBase + off) else .far va bs)

/-- The overflow area as an access: timed, of its pages' kind (R77, R194). -/
def Place.acc (pl : Place) (s : State) : Access :=
  match pl with
  | .pool _ => {}
  | .far va bs => { els := [((va : Int), bs)], res := match bs.findSome? fun b => s.unready b.2 with | some i => .trap ⟨cNotReady, 0, i⟩ | none => .ok }

/-- What LLD brings to g[D] (R194, R416). -/
def lldPost (i : Instr) (fn d : Nat) (pl : Place) (s : State) : State :=
  let n := sizeOf fn
  match pl with
  | .pool a =>
    (match s.kc.poisonIn a n with
     | some g => s.postDetect i 4 (poisonAt g) 0 false [.keep d]
     | none =>
       let v := match s.kid with | some c => s.poolLE c a n | none => 0
       s.post 4 [.g d (extend fn v) false])
  | .far va bs =>
    let pas := bs.map (·.2)
    let t := s.globalTime true 0
    let s := s.before (bs.any (·.1.kind == 0)) false 0
    if pas.any s.linePoisoned then s.postDetect i t (poisonAt va) 0 false [.keep d]
    else s.post t [.g d (extend fn (ofLE (s.memBytes pas))) false, .hot 0 n 0, s.via i va pas]

/-- The plan of a local load from a place. -/
def lldPlan (i : Instr) (fn d : Nat) (rd : Reg) (c3 : Res) (pl : Place) (s : State) : Plan :=
  let n := sizeOf fn
  match pl with
  | .pool a =>
    { rd3 := [rd], c3 := c3, wr := [(.g d, 4)], use := usesOf a n s.t0 false, reads := [(a, n)], acc := true, time := 4,
      eff := fun s => lldPost i fn d pl s }
  | .far _ _ =>
    let a := pl.acc s
    let t := s.globalTime true 0
    { rd3 := [rd], c3 := c3, wr := [(.g d, t)], c5b := s.shareFree true 1, c6 := a.res, acc := true, acq := a.so, time := t,
      eff := fun s => (lldPost i fn d pl s).takeShare true 1 }

/-- The plan of a local store to a place. A pool store is seen by every later access of the core (R118, R124). (DEDUCED, log 46) -/
def lstPlan (fn : Nat) (d : BitVec 9) (rd : Reg) (c3 : Res) (pl : Place) (s : State) : Plan :=
  let n := sizeOf fn
  let v := toLE n (s.g d).toNat
  match pl with
  | .pool a =>
    { rd3 := [rd], c3 := c3, rd := [.g d.toNat], use := usesOf a n s.t0 true, acc := true, time := 4,
      eff := fun s => s.land1 s.cur.hart none (.pool (((List.range n).map (a + ·)).zip v) [] []) }
  | .far _ bs =>
    let a := pl.acc s
    let t := s.globalTime true 0
    { rd3 := [rd], c3 := c3, rd := [.g d.toNat], c5b := s.shareFree true 1, c6 := a.res, acc := true, rel := a.so, time := t,
      eff := fun s => ((s.before a.so a.so 4).store t ((bs.map (·.2)).zip v) a.kinds [] [.hot 0 0 n]).takeShare true 1 }

def execLld (h : Head) (p : PR) (s : State) : Out :=
  let q := poolPlace p (sizeOf h.fn.toNat) s
  .next (issue (.lld h p) (lldPlan (.lld h p) h.fn.toNat p.d.toNat (.g p.a.toNat) q.1 q.2 s) s)
def execLldS (h : Head) (p : PR) (s : State) : Out :=
  let fn := h.fn.toNat % 8
  let q := spillPlace p (sizeOf fn) s
  .next (issue (.lldS h p) (lldPlan (.lldS h p) fn p.d.toNat (.g 62) q.1 q.2 s) s)
def execLst (h : Head) (p : PR) (s : State) : Out :=
  let q := poolPlace p (sizeOf h.fn.toNat) s
  .next (issue (.lst h p) (lstPlan h.fn.toNat p.d (.g p.a.toNat) q.1 q.2 s) s)
def execLstS (h : Head) (p : PR) (s : State) : Out :=
  let fn := h.fn.toNat % 8
  let q := spillPlace p (sizeOf fn) s
  .next (issue (.lstS h p) (lstPlan fn p.d (.g 62) q.1 q.2 s) s)

end Sys2Proof.Machine
end

