-- ==== Sys2Proof/Machine/Tile.lean ====
section
/-! DEFINITION. Tile transfers, gather and scatter, and split words (R195 to R199), with their holds, locks, poison and clipping (R75, R197, R416). -/

namespace Sys2Proof.Machine

/-- A pool-side unit and the global bytes it pairs with; none when clipped. -/
structure Pair where
  a : Nat
  bs : List (Page × Nat)
  deriving DecidableEq, Repr

/-- What a transfer into the pool writes: a clipped unit is zero, or unchanged under FILL (R196, R198). -/
def loadBytes (s : State) (eb : Nat) (fill : Bool) (ps : List Pair) : List (Nat × Byte) :=
  ps.flatMap fun q =>
    if q.bs.isEmpty then (if fill then [] else (List.range eb).map fun k => (q.a + k, 0))
    else ((List.range eb).map (q.a + ·)).zip (s.memBytes (q.bs.map (·.2)))
/-- Destination bytes whose source line is poisoned (R416). -/
def loadBad (s : State) (eb : Nat) (ps : List Pair) : List Nat :=
  ps.flatMap fun q => if q.bs.any (s.linePoisoned ·.2) then (List.range eb).map (q.a + ·) else []
/-- What a transfer to memory writes, in row-major order, and the ordering kinds of the pages. -/
def storeBytes (s : State) (c : CoreId) (eb : Nat) (ps : List Pair) : List (Nat × Byte) :=
  ps.flatMap fun q => if q.bs.isEmpty then [] else (q.bs.map (·.2)).zip (s.poolRead c q.a eb)
def storeKinds (ps : List Pair) : List Nat := ps.flatMap fun q => q.bs.map (·.1.kind)
def storeBad (k : Core) (eb : Nat) (ps : List Pair) : List Nat :=
  ps.flatMap fun q => if (k.poisonIn q.a eb).isSome then q.bs.map (·.2) else []
def moved (eb : Nat) (ps : List Pair) : Nat := (ps.filter (!·.bs.isEmpty)).length * eb

/-- Bytes in the order they are written, the low nibble alone of the last one of a Q4N row of odd count (R196): whole bytes, and nibbles of bytes whose other half no earlier byte of the transfer gives. -/
def splitOdd (odd : List Nat) (bs : List (Nat × Byte)) : List (Nat × Byte) × List (Nat × Bool × Nat) :=
  if odd.isEmpty then (bs, [])
  else bs.zipIdx.foldl (fun (acc : List (Nat × Byte) × List (Nat × Bool × Nat)) b =>
    let (a, v) := b.1
    if !odd.contains b.2 then (acc.1 ++ [(a, v)], acc.2.filter (·.1 != a))
    else match acc.1.reverse.find? (fun (w : Nat × Byte) => w.1 == a) with
      | some w => (acc.1 ++ [(a, putNibble w.2 false v.toNat)], acc.2)
      | none => (acc.1, acc.2 ++ [(a, false, v.toNat)])) ([], [])

def srcsOf (rs : List (Nat × Nat)) (t0 hi : Nat) : List Src := rs.map fun r => ⟨r.1, r.2, hi, t0, false⟩
/-- The banks that a transfer into the pool locks: those of the bytes it writes, which a clipped unit under FILL has none of (R75, R196). -/
def lockRanges (rs : List (Nat × Nat)) (eb : Nat) (fill : Bool) (ps : List Pair) : List (Nat × Nat) :=
  if fill && ps.any (·.bs.isEmpty) then (ps.filter (!·.bs.isEmpty)).map fun q => (q.a, eb) else rs

/-- Checks of a pool-side register that every transfer makes (R195, R198, R199). -/
def xferTests (r : Region) (fmtOk dst : Bool) : Res :=
  Res.all [Res.need (fmtOk && !r.sen && r.qb == 31 && !(dst && r.estr == 0)) cIllegalOperand]

/-! ### TLD and TST -/

/-- GSTR, IMM[24:0], signed (R195). -/
def gstr (p : PR) : Int := sgn 25 p.imm.toNat

/-- The pool side, with the slot of the ring form in place of BASE (R196). -/
def tileRegion (h : Head) (p : PR) (s : State) : Region × Ring × Nat :=
  let k := s.kc
  let r := k.region p.d.toNat
  let i := p.imm.toNat / 2 ^ 25 % 16
  let q := vget k.rings i {}
  if h.fn.getLsbD 2 then ({ r with base := 512 * (q.baseb + q.slotb * (q.fc % 2 ^ q.lgn)) }, q, i) else (r, q, i)

/-- The global addresses of a tile, one per unit (R196). -/
def tileAddrs (p : PR) (r : Region) (rows cnt : Nat) (s : State) : List Int :=
  let base := ((s.hd p.a).v : Int) + s64 (s.g p.b)
  (List.range rows).flatMap fun (i : Nat) => (List.range (r.units cnt)).map fun (j : Nat) => base + i * gstr p + j * r.eb

def pairUp (as : List Nat) (a : Access) : List Pair := (as.zip a.els).map fun e => ⟨e.1, e.2.2⟩

/-- What a transfer into the pool reads, should its function fail (R393). -/
def viaOf (ps : List Pair) : Eff := .via (ps.flatMap fun q => q.bs.zipIdx.map fun b => (q.a + b.2, b.1.2)) none

/-- A region placed at a ring slot lies within the slot's bytes (R196). -/
def Region.inSlot (r : Region) (rows cnt slot : Nat) : Bool :=
  (r.ranges rows cnt).all fun q => r.base ≤ q.1 && q.1 + q.2 ≤ r.base + slot
/-- The positions, among a Q4N region's units, of the last ones of rows of odd count. -/
def Region.oddEnds (r : Region) (rows cnt : Nat) : List Nat :=
  if isQ4 r.fmt && cnt % 2 == 1 then (List.range rows).map fun i => i * r.units cnt + r.units cnt - 1 else []

/-- Alignment of the global side of a tile (R187, R195, R196): the record holds the lowest address of a row that is not aligned; of a single row, whose stride reaches none, the address one stride on (DESIGN CHOICE, log 78). -/
def tileAlign (p : PR) (r : Region) (s : State) : Res :=
  let hd := s.hd p.a
  let base := (hd.v : Int) + s64 (s.g p.b)
  let off : List Int := ((List.range r.rows).map fun (i : Nat) => base + i * gstr p).filter fun (a : Int) => a % (r.eb : Int) != 0
  Res.all [Res.needW hd.valid cHandleInvalid hd.v p.a.toNat,
           Res.needW (base % r.eb == 0 && gstr p % r.eb == 0) cAlign (vaOf (match off with | a :: as => as.foldl min a | [] => base + gstr p)) 0]

/-- c of R188: at least 1. -/
def State.cycles (s : State) (n : Nat) : Nat := Nat.max 1 (ceilDiv n s.kc.share)

def planTld (h : Head) (p : PR) (s : State) : Plan :=
  let (r, q, ri) := tileRegion h p s
  let ring := h.fn.getLsbD 2
  let rows := r.rows
  let cnt := r.cnt
  let n := r.bytes rows cnt
  let a := s.resolve (s.hd p.a) p.a.toNat ((tileAddrs p r rows cnt s).map fun x => (x, r.eb)) { r := true, ord := p.ord, clip := h.fn.getLsbD 0 }
  let ps := pairUp (r.unitAddrs rows cnt) a
  let c := s.cycles n
  let t := s.globalTime a.timed c
  let rf := fun ok => Res.needW ok cRingFault 0 ri
  { rd3 := .st p.d.toNat :: (if ring then [.ring ri] else []),
    c3 := Res.all [xferTests r (known r.fmt && (!isQ4 r.fmt || r.estr == 1)) true, r.tests rows cnt,
                   (if ring then rf (q.slotb != 0 && r.inSlot rows cnt (512 * q.slotb)) else .ok)],
    rd := [.h p.a.toNat, .g p.b.toNat],
    c5 := Res.ready (!ring || 1 ≤ (q.head + 2 ^ q.lgn + 256 - q.fc) % 256) 4 ri,
    c5b := s.shareFree a.timed c,
    c6 := (tileAlign p r s).and a.res,
    take := claimsOf (lockRanges (r.ranges rows cnt) r.eb (h.fn.getLsbD 1) ps) s.t0 (s.t0 + t) .lock, acc := true, acq := acquires a p.ord, time := t,
    timeF := some (340 + s.hopN + c),
    eff := fun s' =>
      let s' := s'.before a.so false 0
      let odd := (r.oddEnds rows cnt).filter fun k => !(h.fn.getLsbD 1 && (ps[k]?).any (·.bs.isEmpty))
      let gone (k : Nat) : Nat := if h.fn.getLsbD 1 then ((ps.take k).filter (·.bs.isEmpty)).length else 0
      let (bs, ns) := splitOdd (odd.map fun k => k - gone k) (loadBytes s' r.eb (h.fn.getLsbD 1) ps)
      let s' := if ring then s'.modK fun k => { k with rings := vmod k.rings ri fun x => { x with fc := (x.fc + 1) % 256 } } else s'
      (s'.post t ([.pool bs (loadBad s' r.eb ps) (wholeGranules bs), .nib ns, .hot r.buf (moved r.eb ps) 0, viaOf ps] ++ (if ring then [.ringTail ri 1] else []))).takeShare a.timed c,
    buf := r.buf }
def execTld (h : Head) (p : PR) (s : State) : Out := .next (issue (.tld h p) (planTld h p s) s)

/-- The bytes that TST stores, in row-major order (R196). -/
def tstBytes (r : Region) (rows cnt : Nat) (ps : List Pair) (s : State) : List (Nat × Byte) :=
  let bs := match s.kid with | some c => storeBytes s c r.eb ps | none => []
  let gone (k : Nat) : Nat := ((ps.take k).filter (·.bs.isEmpty)).length
  let odd := ((r.oddEnds rows cnt).filter fun k => (ps[k]?).any (!·.bs.isEmpty)).map fun k => k - gone k
  if odd.isEmpty then bs
  else (bs.zipIdx.foldl (fun (acc : Mem × List (Nat × Byte)) b =>
    let v := if odd.contains b.2 then putNibble (acc.1.read b.1.1) false b.1.2.toNat else b.1.2
    (acc.1.write b.1.1 v, acc.2 ++ [(b.1.1, v)])) (s.mem, [])).2

def tstAcc (h : Head) (p : PR) (r : Region) (s : State) : Access :=
  s.resolve (s.hd p.a) p.a.toNat ((tileAddrs p r r.rows r.cnt s).map fun x => (x, r.eb)) { w := true, ord := p.ord, clip := h.fn.getLsbD 0 }
/-- What TST writes (R196, R197). -/
def tstPost (h : Head) (p : PR) (t : Nat) (s : State) : State :=
  let r := s.kc.region p.d.toNat
  let a := tstAcc h p r s
  let ps := pairUp (r.unitAddrs r.rows r.cnt) a
  let hi := s.t0 + ceilDiv (r.bytes r.rows r.cnt) 512
  (s.before a.so (releases a p.ord) p.scope).store t (tstBytes r r.rows r.cnt ps s) (storeKinds ps) (storeBad s.kc r.eb ps)
    [.hot r.buf 0 (moved r.eb ps)] (srcsOf (r.ranges r.rows r.cnt) s.t0 hi)

def planTst (h : Head) (p : PR) (s : State) : Plan :=
  let r := s.kc.region p.d.toNat
  let rows := r.rows
  let cnt := r.cnt
  let n := r.bytes rows cnt
  let a := tstAcc h p r s
  let c := s.cycles n
  let t := s.globalTime a.timed c
  let rs := r.ranges rows cnt
  { rd3 := [.st p.d.toNat],
    c3 := (xferTests r (known r.fmt && (!isQ4 r.fmt || r.estr == 1)) false).and (r.tests rows cnt),
    rd := [.h p.a.toNat, .g p.b.toNat], holds := claimsOf rs s.t0 (s.t0 + ceilDiv n 512) .hold,
    c5b := s.shareFree a.timed c, c6 := (tileAlign p r s).and a.res, reads := rs,
    acc := true, rel := releases a p.ord, time := t, timeF := some (340 + s.hopN + c),
    eff := fun s' => (tstPost h p t s').takeShare a.timed c, buf := r.buf }
def execTst (h : Head) (p : PR) (s : State) : Out := .next (issue (.tst h p) (planTst h p s) s)

/-! ### GATH and SCAT (R198) -/

def indexFmt (f : Nat) : Bool := f == 5 || f == 6 || f == 7

/-- The shape of a gather or scatter: regions, element addresses in the pool, indices, and the position of the first poisoned index. -/
structure GS where
  r : Region
  x : Region
  m : Nat
  els : List Nat
  idx : List Int
  stop : Option (Nat × Nat)

def gsOf (p : PR) (s : State) : GS :=
  let k := s.kc
  let r := k.region p.d.toNat
  let x := k.region p.b.toNat
  let ia := x.unitAddrs r.rows r.cnt
  { r := r, x := x, m := r.rows * r.cnt, els := r.unitAddrs r.rows r.cnt,
    idx := match s.kid with | some c => ia.map fun a => zRead x.fmt (s.poolLE c a x.eb) | none => [],
    stop := (ia.findIdx? fun a => (k.poisonIn a x.eb).isSome).map fun j => (j, (k.poisonIn (ia.getD j 0) x.eb).getD 0) }

def gsTests (q : GS) (dst : Bool) : Res :=
  Res.all [
    Res.need (known q.r.fmt && !isQ4 q.r.fmt && !q.r.sen && !q.x.sen && q.r.qb == 31 && q.x.qb == 31 && indexFmt q.x.fmt
      && q.x.cnt == q.r.cnt && q.x.rows == q.r.rows && !(dst && q.r.estr == 0)) cIllegalOperand,
    q.r.tests q.r.rows q.r.cnt, q.x.tests q.r.rows q.r.cnt]

/-- The elements whose indices are sound, resolved (R187, R198): from a poisoned index on none is, sound ones after it included (DESIGN CHOICE, log 79). -/
def gsAcc (h : Head) (p : PR) (q : GS) (w : Bool) (s : State) : Access :=
  let hd := s.hd p.a
  let good := match q.stop with | some j => q.idx.take j.1 | none => q.idx
  s.resolve hd p.a.toNat (good.map fun i => ((hd.v : Int) + disp p + i * q.r.eb, q.r.eb))
    { r := !w, w := w, ord := p.ord, clip := h.fn.getLsbD 0, al := q.r.eb }

/-- Elements before a poisoned index that may or may not have moved when it stops the transfer (R416; DESIGN CHOICE, log 4). -/
def mayMove (fr : Nat) (ps : List Pair) : List Pair := (ps.zipIdx.filter fun q => Config.freeBool fr q.2).map (·.1)

/-- What GATH brings, or the poisoned index it meets: index k is read in cycle issue + (k × index size) div 512 (R416; DESIGN CHOICE, log 79). -/
def gathPost (i : Instr) (h : Head) (p : PR) (t : Nat) (s : State) : State :=
  let q := gsOf p s
  let a := gsAcc h p q false s
  let s := s.before a.so false 0
  let ps := pairUp q.els a
  let fill := h.fn.getLsbD 1
  match q.stop with
  | none =>
    let bs := loadBytes s q.r.eb fill ps
    s.post t [.pool bs (loadBad s q.r.eb ps) (wholeGranules bs), .hot q.r.buf (moved q.r.eb ps) 0, viaOf ps]
      (srcsOf (q.x.ranges q.r.rows q.r.cnt) s.t0 (s.t0 + ceilDiv (q.x.bytes q.r.rows q.r.cnt) 512))
  | some (j, g) =>
    let d := j * q.x.eb / 512
    let ps := mayMove s.free ps
    (s.post d [.pool (loadBytes s q.r.eb fill ps) (loadBad s q.r.eb ps) [], viaOf ps]).postDetect i d (poisonAt g) 0 false

def scatPost (i : Instr) (h : Head) (p : PR) (t : Nat) (s : State) : State :=
  let q := gsOf p s
  let a := gsAcc h p q true s
  let s := s.before a.so (releases a p.ord) p.scope
  let ps := pairUp q.els a
  let put (t : Nat) (ps : List Pair) (effs : List Eff) (srcs : List Src) : State :=
    let bs := match s.kid with | some c => storeBytes s c q.r.eb ps | none => []
    s.store t bs (storeKinds ps) (storeBad s.kc q.r.eb ps) effs srcs
  match q.stop with
  | none => put t ps [.hot q.r.buf 0 (moved q.r.eb ps)]
      (srcsOf (q.x.ranges q.r.rows q.r.cnt) s.t0 (s.t0 + ceilDiv (q.x.bytes q.r.rows q.r.cnt) 512)
        ++ srcsOf (q.r.ranges q.r.rows q.r.cnt) s.t0 (s.t0 + ceilDiv (q.r.bytes q.r.rows q.r.cnt) 512))
  | some (j, g) =>
    let d := j * q.x.eb / 512
    (put d (mayMove s.free ps) [] []).postDetect i d (poisonAt g) 0 false

/-- The indices are tested as the transfer reads them. -/
def gsPlan (h : Head) (p : PR) (w : Bool) (s : State) : Plan × Access × Nat :=
  let q := gsOf p s.draw
  let a := gsAcc h p q w s
  let n := q.r.bytes q.r.rows q.r.cnt
  let c := Nat.max (Nat.max 1 q.m) (ceilDiv n s.kc.share)
  let t := s.globalTime a.timed c
  let xr := q.x.ranges q.r.rows q.r.cnt
  let dr := q.r.ranges q.r.rows q.r.cnt
  let hold (rs : List (Nat × Nat)) (n : Nat) := claimsOf rs s.t0 (s.t0 + ceilDiv n 512) .hold
  ({ rd3 := [.st p.d.toNat, .st p.b.toNat], c3 := gsTests q (!w), rd := [.h p.a.toNat], reads := xr ++ (if w then dr else []),
     holds := hold xr (q.x.bytes q.r.rows q.r.cnt) ++ (if w then hold dr n else []),
     c5b := s.shareFree a.timed c, c6 := a.res,
     take := if w then [] else claimsOf (lockRanges dr q.r.eb (h.fn.getLsbD 1) (pairUp q.els a)) s.t0 (s.t0 + t) .lock,
     acc := true, acq := !w && acquires a p.ord, rel := w && releases a p.ord, time := t, timeF := some (340 + s.hopN + c),
     buf := q.r.buf }, a, c)

def planGath (h : Head) (p : PR) (s : State) : Plan :=
  let (pl, a, c) := gsPlan h p false s
  { pl with eff := fun s' => (gathPost (.gath h p) h p pl.time s').takeShare a.timed c }
def execGath (h : Head) (p : PR) (s : State) : Out := .next (issue (.gath h p) (planGath h p s) s)
def planScat (h : Head) (p : PR) (s : State) : Plan :=
  let (pl, a, c) := gsPlan h p true s
  { pl with eff := fun s' => (scatPost (.scat h p) h p pl.time s').takeShare a.timed c }
def execScat (h : Head) (p : PR) (s : State) : Out := .next (issue (.scat h p) (planScat h p s) s)

/-! ### Split words (R90, R199) -/

/-- e0 + i × CNT + j over the region, row-major. -/
def splitAddrs (v m e0 : Nat) : List (Int × Nat) := (List.range m).map fun (e : Nat) => ((v : Int) + 2 * (e0 + e), 2)

/-- A split-word transfer: the regions and the accesses of the upper and, but for the .h form, lower halves. Every cause of the upper half comes before any of the lower one (DESIGN CHOICE, log 80); ORDER_FAULT asks for both halves to lie on UO (R123). -/
structure SW where
  r : Region
  m : Nat
  up : Access
  lo : Access

def swOf (p : PR) (half w : Bool) (s : State) : SW :=
  let r := s.kc.region p.d.toNat
  let m := r.rows * r.cnt
  let e0 := p.imm.toNat % 2 ^ 29
  let nd : Need := { r := !w, w := w, ord := p.ord, al := 2 }
  let h1 := s.hd p.a
  let h2 := s.hd p.b
  let els (v : Nat) := if m == 0 then [((v : Int), 0)] else splitAddrs v m e0
  let kinds (h : Handle) (i : Nat) : List Nat := (s.resolve h i (els h.v) nd).kinds
  { r := r, m := m, up := s.resolve h1 p.a.toNat (els h1.v) { nd with others := if half then [] else kinds h2 p.b.toNat },
    lo := if half then {} else s.resolve h2 p.b.toNat (els h2.v) { nd with others := kinds h1 p.a.toNat } }
def SW.so (q : SW) : Bool := q.up.so || q.lo.so

def SW.tests (q : SW) (dst : Bool) : Res :=
  (xferTests q.r (q.r.fmt == 12 || q.r.fmt == 16) dst).and (q.r.tests q.r.rows q.r.cnt)

/-- LDSW and LDSW.h, with the lower half zero. -/
def ldswPlan (p : PR) (half : Bool) (s : State) : Plan :=
  let q := swOf p half false s
  let timed := q.up.timed && q.lo.timed
  let c := s.cycles (2 * q.m)
  let t := s.globalTime timed c
  let els := q.r.unitAddrs q.r.rows q.r.cnt
  let ups := pairUp els q.up
  let los := pairUp els q.lo
  { rd3 := [.st p.d.toNat], c3 := q.tests true, rd := .h p.a.toNat :: (if half then [] else [.h p.b.toNat]),
    c5b := s.shareFree timed c, c6 := q.up.res.and q.lo.res,
    take := claimsOf (q.r.ranges q.r.rows q.r.cnt) s.t0 (s.t0 + t) .lock, acc := true, acq := acquires q.up p.ord || q.so,
    time := t, timeF := some (340 + s.hopN + c), buf := q.r.buf,
    eff := fun s' =>
      let s' := s'.before q.so false 0
      let hi := loadBytes s' 2 false (ups.map fun x => { x with a := x.a + 2 })
      let lo := if half then els.flatMap fun a => [(a, (0 : Byte)), (a + 1, 0)] else loadBytes s' 2 false los
      let bs := ((List.range q.m).flatMap fun k => (lo.drop (2 * k)).take 2 ++ (hi.drop (2 * k)).take 2)
      let bad := loadBad s' 4 ups ++ loadBad s' 4 los
      (s'.post t [.pool bs bad (wholeGranules bs), .hot q.r.buf (2 * q.m * (if half then 1 else 2)) 0, viaOf (ups ++ los)]).takeShare timed c }

def execLdsw (h : Head) (p : PR) (s : State) : Out := .next (issue (.ldsw h p) (ldswPlan p false s) s)
def execLdswH (h : Head) (p : PR) (s : State) : Out := .next (issue (.ldswH h p) (ldswPlan p true s) s)

/-- What STSW writes, element by element, the upper half of each first (R199). -/
def stswPost (p : PR) (t : Nat) (s : State) : State :=
  let q := swOf p false true s
  let els := q.r.unitAddrs q.r.rows q.r.cnt
  let ps := ((pairUp els q.up).zip (pairUp els q.lo)).flatMap fun x => [{ x.1 with a := x.1.a + 2 }, x.2]
  let hi := s.t0 + ceilDiv (q.r.bytes q.r.rows q.r.cnt) 512
  let bs := match s.kid with | some c => storeBytes s c 2 ps | none => []
  (s.before q.so (releases q.up p.ord || q.so) p.scope).store t bs (storeKinds ps) (storeBad s.kc 2 ps) [.hot q.r.buf 0 (4 * q.m)]
    (srcsOf (q.r.ranges q.r.rows q.r.cnt) s.t0 hi)

def planStsw (p : PR) (s : State) : Plan :=
  let q := swOf p false true s
  let timed := q.up.timed && q.lo.timed
  let c := s.cycles (2 * q.m)
  let t := s.globalTime timed c
  let rs := q.r.ranges q.r.rows q.r.cnt
  { rd3 := [.st p.d.toNat], c3 := q.tests false, rd := [.h p.a.toNat, .h p.b.toNat], reads := rs,
    holds := claimsOf rs s.t0 (s.t0 + ceilDiv (q.r.bytes q.r.rows q.r.cnt) 512) .hold,
    c5b := s.shareFree timed c, c6 := q.up.res.and q.lo.res,
    acc := true, rel := releases q.up p.ord || q.so, time := t, timeF := some (340 + s.hopN + c), buf := q.r.buf,
    eff := fun s' => (stswPost p t s').takeShare timed c }
def execStsw (h : Head) (p : PR) (s : State) : Out := .next (issue (.stsw h p) (planStsw p s) s)

end Sys2Proof.Machine
end

