-- ==== Sys2Proof/Machine/Atomics.lean ====
section
/-! DEFINITION. The atomics (R200 to R202) and FENCE (R133, R203). -/

namespace Sys2Proof.Machine

inductive AOp where
  | add | and | or | xor | min | max | swp | cas | qadd
  deriving DecidableEq, Repr

/-- d of R201: ACAS and AQADD take no offset register. -/
def aOffset (op : AOp) (p : PR) (s : State) : Int :=
  match op with
  | .cas | .qadd => disp p
  | _ => s64 (s.g p.b) + disp p

/-- k of R202 for a word of w bits. -/
def aqK (w : Nat) (x b : Dword) : Int :=
  let se := sgn 8 b.toNat
  let lim : Int := 2 ^ (w - 1)
  match fp32.read (x.toNat % 2 ^ 32) with
  | .nan _ => 0
  | .inf true => -lim
  | .inf false => lim - 1
  | y => max (-lim) (min (lim - 1) (roundInt 0 (y.int * 2 ^ (se + 128).toNat) (2 ^ 277)).1)

/-- The word an atomic leaves, none when it writes nothing (R201). -/
def aNew (op : AOp) (fn old x : Nat) (b : Dword) (k : Int) : Option Nat :=
  let w := 8 * sizeOf fn
  let lessS (u v : Nat) : Bool := if fn < 4 then sgn w u < sgn w v else u < v
  match op with
  | .add => some ((old + x) % 2 ^ w)
  | .and => some (old &&& x)
  | .or => some (old ||| x)
  | .xor => some (old ^^^ x)
  | .min => some (if lessS x old then x else old)
  | .max => some (if lessS old x then x else old)
  | .swp => some x
  | .cas => if old == x then some (b.toNat % 2 ^ w) else none
  | .qadd => some (((old : Int) + k) % 2 ^ w).toNat

def atomicAcc (op : AOp) (h : Head) (p : PR) (s : State) : Access :=
  let hd := s.hd p.a
  let n := sizeOf h.fn.toNat
  s.resolve hd p.a.toNat [((hd.v : Int) + aOffset op p s, n)] { r := true, w := true, ord := p.ord, atomic := true, al := n }

/-- The indivisible change, or the poison it meets (R201, R416). An ACAS that fails writes nothing; what it has read its core reads from then on (R118). -/
def atomicPost (i : Instr) (op : AOp) (h : Head) (p : PR) (t : Nat) (s : State) : State :=
  let fn := h.fn.toNat
  let n := sizeOf fn
  let a := atomicAcc op h p s
  let s := s.before a.so (releases a p.ord) p.scope
  let pas := a.bytes.map (·.2)
  if pas.any s.linePoisoned then s.postDetect i t (poisonAt (vaOf ((a.els.map (·.1)).headD 0))) 0 false [.keep p.d.toNat]
  else
    let old := ofLE (pas.map s.mem.read)
    let x := (s.g p.d).toNat % 2 ^ (8 * n)
    let res (w : Nat) : List Eff := [.g p.d.toNat (extend fn old) false, .hot 0 n w, s.via i (vaOf ((a.els.map (·.1)).headD 0)) pas]
    match aNew op fn old x (s.g p.b) (aqK (8 * n) (s.g p.d) (s.g p.b)) with
    | some m => s.store t (pas.zip (toLE n m)) a.kinds [] (res n)
    | none => (s.openWins s.cur.hart s.free false (pas.zip (pas.map s.mem.read)) a.kinds).post t (.shut s.free :: res 0)

def atomicPlan (i : Instr) (op : AOp) (h : Head) (p : PR) (s : State) : Plan :=
  let a := atomicAcc op h p s
  let pl := accPlan a p.a.toNat [.g p.d.toNat, .g p.b.toNat] 1 s
  { pl with wr := [(.g p.d.toNat, pl.time)], acq := acquires a p.ord, rel := releases a p.ord,
            eff := fun s => (atomicPost i op h p pl.time s).takeShare a.timed 1 }

def execAadd (h : Head) (p : PR) (s : State) : Out := .next (issue (.aadd h p) (atomicPlan (.aadd h p) .add h p s) s)
def execAand (h : Head) (p : PR) (s : State) : Out := .next (issue (.aand h p) (atomicPlan (.aand h p) .and h p s) s)
def execAor (h : Head) (p : PR) (s : State) : Out := .next (issue (.aor h p) (atomicPlan (.aor h p) .or h p s) s)
def execAxor (h : Head) (p : PR) (s : State) : Out := .next (issue (.axor h p) (atomicPlan (.axor h p) .xor h p s) s)
def execAmin (h : Head) (p : PR) (s : State) : Out := .next (issue (.amin h p) (atomicPlan (.amin h p) .min h p s) s)
def execAmax (h : Head) (p : PR) (s : State) : Out := .next (issue (.amax h p) (atomicPlan (.amax h p) .max h p s) s)
def execAswp (h : Head) (p : PR) (s : State) : Out := .next (issue (.aswp h p) (atomicPlan (.aswp h p) .swp h p s) s)
def execAcas (h : Head) (p : PR) (s : State) : Out := .next (issue (.acas h p) (atomicPlan (.acas h p) .cas h p s) s)
def execAqadd (h : Head) (p : PR) (s : State) : Out := .next (issue (.aqadd h p) (atomicPlan (.aqadd h p) .qadd h p s) s)

/-- Time of FENCE by scope (R203). -/
def fenceTime (scope : Nat) : Nat := match scope with | 0 => 1 | 1 => 18 | 2 => 40 | 3 => 96 | _ => 1024

/-- FENCE (R133, R203): in gated code one of system scope lasts until the core's untimed writes are acknowledged, those of copies whose start comes before it included, streaming already or not. -/
def planFence (p : PR) (s : State) : Plan :=
  let waits := !s.locked s.cur.hart s.cur.strm && p.scope == 4
  let acks := if waits then (s.kc.copies.filter fun e => e.t < s.t0 && !e.pub && e.dk == 2).map fun e => e.due - s.t0 else []
  { fence := true, time := acks.foldl Nat.max (fenceTime p.scope), eff := fun s => s.settle s.cur.hart p.scope }
def execFence (h : Head) (p : PR) (s : State) : Out := .next (issue (.fence h p) (planFence p s) s)

end Sys2Proof.Machine
end

