-- ==== Sys2Proof/Machine/Flags.lean ====
section
/-! DEFINITION. Element arithmetic of the vector engine and the flags each element sets (R101, R102, R105 to R114, R220 to R238): a function from the bits of the sources to the bits of the result and its flags, or none where the formats are not accepted. -/

namespace Sys2Proof.Machine

/-- Flags of two operations, ORed (R102). -/
def orF (x y : Nat) : Nat := x ||| y

/-- An element function: the element's row-major index and its source bits, to result bits and flags. -/
abbrev ElFn := Nat → List Nat → Nat × Nat

/-- FMT and FRAC of an operand. -/
structure Fm where
  c : Nat
  frac : Nat := 0
  deriving DecidableEq, Repr

inductive Arith where
  | add | sub | mul | fma | fms
  deriving DecidableEq, Repr

/-- VADD, VSUB, VMUL, VFMA on one element of formats all equal (R221). -/
def arith (op : Arith) (f : Fm) (rm : Nat) (sat : Bool) : Option ElFn :=
  match fmtF f.c with
  | some ff =>
    if !isF f.c then none
    else some fun _ xs =>
      let a := ff.read (xs.getD 0 0)
      let b := ff.read (xs.getD 1 0)
      let c := ff.read (xs.getD 2 0)
      match op with
      | .add => ff.add rm sat a b
      | .sub => ff.add rm sat a b.flip
      | .mul => ff.fma rm sat a b none
      | .fma => ff.fma rm sat a b (some c)
      | .fms => ff.fma rm sat a b (some c.flip)
  | none =>
    if !(isZ f.c || isX f.c) then none
    else some fun _ xs =>
      let a := zRead f.c (xs.getD 0 0)
      let b := zRead f.c (xs.getD 1 0)
      let c := zRead f.c (xs.getD 2 0)
      let q : Int := 2 ^ f.frac
      let (v, nx) : Int × Nat := match op with
        | .add => (a + b, 0)
        | .sub => (a - b, 0)
        | .mul => if isX f.c then roundInt rm (a * b) (2 ^ f.frac) else (a * b, 0)
        | .fma => if isX f.c then roundInt rm (a * b + c * q) (2 ^ f.frac) else (a * b + c, 0)
        | .fms => if isX f.c then roundInt rm (a * b - c * q) (2 ^ f.frac) else (a * b - c, 0)
      let (r, g) := zPut f.c sat v
      (r, orF g nx)

/-- x orders below y, with −0 below +0, neither a NaN (R222). -/
def fBelow (x y : FV) : Bool :=
  match x, y with
  | .inf true, .inf true => false
  | .inf true, _ => true
  | _, .inf true => false
  | .inf false, _ => false
  | _, .inf false => true
  | _, _ => x.int < y.int || (x.isZero && y.isZero && x.neg && !y.neg)

/-- VMIN and VMAX on one element (R222). -/
def pick (isMax : Bool) (c : Nat) : Option ElFn :=
  match fmtF c with
  | some ff =>
    if !isF c then none
    else some fun _ xs =>
      let p := xs.getD 0 0
      let q := xs.getD 1 0
      let a := ff.read p
      let b := ff.read q
      let inv := FV.inv [a, b]
      if a.isNan && b.isNan then (ff.canon, inv)
      else if a.isNan then (q, inv)
      else if b.isNan then (p, inv)
      else if isMax then (if fBelow a b then q else p, inv) else (if fBelow b a then q else p, inv)
  | none =>
    if !(isZ c || isX c) then none
    else some fun _ xs =>
      let p := xs.getD 0 0
      let q := xs.getD 1 0
      let a := zRead c p
      let b := zRead c q
      (if isMax then (if a < b then q else p) else (if b < a then q else p), 0)

/-- VABS and VNEG on one element (R223). -/
def absNeg (neg : Bool) (c : Nat) (sat : Bool) : Option ElFn :=
  match fmtF c with
  | some ff =>
    if !isF c then none
    else
      let top := 2 ^ (ff.w - 1)
      some fun _ xs => (if neg then (xs.getD 0 0 + top) % (2 * top) else xs.getD 0 0 % top, 0)
  | none =>
    if !(isZ c || isX c) then none
    else some fun _ xs =>
      let a := zRead c (xs.getD 0 0)
      zPut c sat (if neg then -a else (a.natAbs : Int))

/-- VSHL and VSHR on one element of a Z or X format (R224). -/
def shiftL (c : Nat) (sat : Bool) : Option ElFn :=
  if isZ c || isX c then some fun _ xs => zPut c sat (zRead c (xs.getD 0 0) * 2 ^ (xs.getD 1 0 % 64)) else none
def shiftR (ar : Bool) (c : Nat) : Option ElFn :=
  if isZ c || isX c then some fun _ xs =>
    let w := fmtBits c
    let n := xs.getD 1 0 % 64
    if ar then (((sgn w (xs.getD 0 0)) / 2 ^ n % 2 ^ w).toNat, 0) else (xs.getD 0 0 / 2 ^ n, 0)
  else none

/-- VCMP on one element (R225). -/
def compare (fn c : Nat) : Option ElFn :=
  let out (b : Bool) : Nat := if b then 1 else 0
  let cond (lt eq un : Bool) : Bool := match fn with
    | 0 => eq && !un
    | 1 => !eq || un
    | 2 => lt && !un
    | 3 => (lt || eq) && !un
    | 4 => !lt && !eq && !un
    | 5 => !lt && !un
    | 6 => un
    | _ => !un
  match fmtF c with
  | some ff =>
    if !isF c then none
    else some fun _ xs =>
      let a := ff.read (xs.getD 0 0)
      let b := ff.read (xs.getD 1 0)
      let eq := match a, b with | .inf m, .inf n => m == n | .fin _ _, .fin _ _ => a.int == b.int | _, _ => false
      (out (cond (fBelow a b && !eq) eq (a.isNan || b.isNan)), FV.inv [a, b])
  | none =>
    if !(isZ c || isX c) then none
    else some fun _ xs =>
      let a := zRead c (xs.getD 0 0)
      let b := zRead c (xs.getD 1 0)
      (out (cond (a < b) (a == b) false), 0)

/-- The constants of VFILL.k (R227), none where the format has no such value. -/
def fillConst (f : Fm) (k : Nat) : Option (Nat × Nat) :=
  match fmtF f.c with
  | some ff =>
    let one := (ff.roundQ 0 false false 1 1).1
    match k with
    | 0 => some (0, 0)
    | 1 => some (one, 0)
    | 2 => some (ff.sign true one, 0)
    | 3 => some (if ff.noInf then ff.maxBits else ff.infBits, 0)
    | 4 => some (ff.sign true (if ff.noInf then ff.maxBits else ff.infBits), 0)
    | 5 => some (ff.canon, 0)
    | 6 => some (ff.maxBits, 0)
    | _ => some (ff.sign true ff.maxBits, 0)
  | none =>
    if !(isZ f.c || isX f.c) then none
    else
      let one : Int := if isX f.c then 2 ^ f.frac else 1
      let un := !isSigned f.c
      match k with
      | 0 => some (0, 0)
      | 1 => some (zPut f.c true one)
      | 2 => if un then none else some (zPut f.c true (-one))
      | 3 => some (zBits f.c (zMax f.c), 0)
      | 4 => some (zBits f.c (zMin f.c), 0)
      | 5 => none
      | 6 => some (zBits f.c (zMax f.c), 0)
      | _ => if un then none else some (zBits f.c (-(zMax f.c)), 0)

/-- VFILL.iota on element e (R227). -/
def fillIota (f : Fm) (rm : Nat) (sat : Bool) : Option ElFn :=
  match fmtF f.c with
  | some ff => if isF f.c then some fun e _ => ff.roundQ rm sat false e 1 else none
  | none => if isZ f.c || isX f.c then some fun e _ => zPut f.c sat (if isX f.c then (e : Int) * 2 ^ f.frac else e) else none

/-- VCVT on one element (R99, R100, R228). -/
def convert (a d : Fm) (rm : Nat) (sat : Bool) : Option ElFn :=
  match fmtF a.c, fmtF d.c with
  | some fa, some fd => some fun _ xs => fd.conv rm sat (fa.read (xs.getD 0 0))
  | some fa, none =>
    if isZ d.c || isX d.c then some fun _ xs => floatToZ d.c (if isX d.c then d.frac else 0) rm (fa.read (xs.getD 0 0)) else none
  | none, some fd =>
    if isZ a.c || isX a.c then some fun _ xs =>
      let v := zRead a.c (xs.getD 0 0)
      if v == 0 then (0, 0) else fd.roundQ rm sat (v < 0) v.natAbs (if isX a.c then 2 ^ a.frac else 1)
    else none
  | none, none =>
    if (isZ a.c || isX a.c) && (isZ d.c || isX d.c) then some fun _ xs =>
      let v := zRead a.c (xs.getD 0 0)
      let fa := if isX a.c then a.frac else 0
      let fd := if isX d.c then d.frac else 0
      let (k, nx) := roundInt rm (v * 2 ^ fd) (2 ^ fa)
      let (b, g) := zPut d.c sat k
      (b, orF g nx)
    else none

/-- A subnormal of a format, read by VRCP and VRSQ as a zero of its sign (R97, R229). -/
def FFmt.flush (f : FFmt) (x : FV) : FV :=
  match x with
  | .fin n k => if k < 2 ^ (150 - f.bias) then .fin n 0 else x
  | y => y

/-- f rounded to 12 significant bits and then to the format (R229): NX when the result differs from f. (DESIGN CHOICE, log 51) -/
def approx (fd : FFmt) (rm : Nat) (sat neg : Bool) (n d : Nat) : Nat × Nat :=
  let y := sig12 n d
  let r := fd.roundQ rm sat neg y.1 y.2
  (r.1, if y.1 * d == n * y.2 then r.2 else orF r.2 fNX)

def recip (a d : Nat) (rm : Nat) (sat : Bool) : Option ElFn :=
  match fmtF a, fmtF d with
  | some fa, some fd => if isF a && isF d then some fun _ xs =>
      match fa.flush (fa.read (xs.getD 0 0)) with
      | .nan s => (fd.canon, if s then fINV else 0)
      | .inf n => (fd.sign n 0, 0)
      | .fin n 0 => (fd.sign n fd.infBits, fDZ)
      | .fin n k => approx fd rm sat n one149 k
    else none
  | _, _ => none

def rsqrt (a d : Nat) (rm : Nat) (sat : Bool) : Option ElFn :=
  match fmtF a, fmtF d with
  | some fa, some fd => if isF a && isF d then some fun _ xs =>
      match fa.flush (fa.read (xs.getD 0 0)) with
      | .nan s => (fd.canon, if s then fINV else 0)
      | .fin n 0 => (fd.sign n fd.infBits, fDZ)
      | .inf true | .fin true _ => (fd.canon, fINV)
      | .inf false => (0, 0)
      | .fin false k => approx fd rm sat false (rsqrtQ k).1 (rsqrtQ k).2
    else none
  | _, _ => none

/-- One Newton step (R230). (DEDUCED, log 45) -/
def newton (rsq : Bool) (rm : Nat) (sat : Bool) : ElFn := fun _ xs =>
  let yb := xs.getD 1 0
  match fp32.read (xs.getD 0 0), fp32.read yb with
  | _, .nan _ | _, .inf _ | _, .fin _ 0 => (yb, 0)
  | .nan s, _ => (fp32.canon, if s then fINV else 0)
  | .inf n, .fin m _ => (fp32.sign (if rsq then n == m else !n) fp32.infBits, 0)
  | x, y =>
    if rsq then fp32.roundI rm sat (y.int * (3 * 2 ^ 447 - x.int * y.int * y.int)) (2 ^ 597)
    else fp32.roundI rm sat (y.int * (2 ^ 299 - x.int * y.int)) (2 ^ 447)

inductive Special where
  | exp2 | log2 | tanh
  deriving DecidableEq, Repr

/-- VEXP2, VLOG2 and VTANH on one element (R231). (DEDUCED, log 45) -/
def special (op : Special) (a d : Nat) (rm : Nat) (sat : Bool) : Option ElFn :=
  match fmtF a, fmtF d with
  | some fa, some fd => if isF a && isF d then some fun _ xs =>
      match fa.read (xs.getD 0 0) with
      | .nan s => (fd.canon, if s then fINV else 0)
      | x =>
        match op with
        | .exp2 =>
          (match x with
           | .inf true => (0, 0)
           | .inf false => (fd.infBits, 0)
           | y => fd.roundQ rm sat false (exp2Q y.int).1 (exp2Q y.int).2)
        | .log2 =>
          (match x with
           | .fin _ 0 => (fd.sign true fd.infBits, fDZ)
           | .inf true | .fin true _ => (fd.canon, fINV)
           | .fin false k => fd.roundQ rm sat (log2Q k).1 (log2Q k).2.1 (log2Q k).2.2
           | _ => (fd.infBits, 0))
        | .tanh =>
          (match x with
           | .inf n => fd.roundQ rm sat n 1 1
           | .fin n 0 => (fd.sign n 0, 0)
           | .fin n k => fd.roundQ rm sat n (tanhQ k).1 (tanhQ k).2
           | _ => (0, 0))
    else none
  | _, _ => none

/-- VDQN of one code with its scale (R110, R238). (DEDUCED, log 45) -/
def dequant (a d : Nat) (rm : Nat) (sat : Bool) (code : Nat) (s : FV) : Nat × Nat :=
  match fmtF d with
  | none => (0, 0)
  | some fd =>
    if isQ4 a then
      if code % 8 == 0 then (0, 0)
      else match s with
        | .nan _ => (fd.canon, fINV)
        | _ => fd.fma rm sat (q4Val code) s none
    else if (fp8e4.read code).isNan then (fd.canon, 0)
    else fd.fma rm sat (fp8e4.read code) s none

/-- VQNT of one element with its block's scale (R109, R237). The code under a NaN scale is not stated and stays open (DESIGN CHOICE, log 16); it sets INV under a signalling one only (DESIGN CHOICE, log 97). FP8E4 takes the flags of R99, and SAT on every clamp. -/
def quant (d : Nat) (rm : Nat) (xb : Nat) (x s : FV) : Nat × Nat :=
  if isQ4 d then
    match x, s with
    | .nan _, _ => (0, fINV)
    | _, .nan t => (let c := Config.q4NanScale xb % 16; if c == 8 then 0 else c, if t then fINV else 0)
    | _, _ => encQ4 rm x s
  else match x, s with
    | .nan _, _ => (0x7F, fINV)
    | _, .fin _ 0 => (0, 0)
    | _, .nan t => (0x7F, if t then fINV else 0)
    | .fin a _, .inf b => (fp8e4.sign (a != b) 0, 0)
    | .inf a, .inf b => (fp8e4.sign (a != b) 0x7E, 0)
    | .inf a, .fin b _ => (fp8e4.sign (a != b) 0x7E, fSAT)
    | .fin a j, .fin b k =>
      let r := fp8e4.roundQ rm true (a != b) j k
      if r.2 &&& fOF != 0 then (r.1, r.2 ||| fSAT) else r

/-- The fixed pairwise tree of R113: one level. -/
def treeLevel (f : Nat → Nat → Nat × Nat) : List (Option Nat) → List (Option Nat) × Nat
  | [] => ([], 0)
  | [x] => ([x], 0)
  | x :: y :: r =>
    let (t, g) := treeLevel f r
    match x, y with
    | some a, some b => let (v, h) := f a b; (some v :: t, orF g h)
    | some a, none => (some a :: t, g)
    | none, y => (y :: t, g)
/-- The tree over 2^k leaves or fewer. -/
def tree (f : Nat → Nat → Nat × Nat) : Nat → List (Option Nat) → Option Nat × Nat
  | 0, xs => (xs.headD none, 0)
  | k + 1, xs =>
    let (ys, g) := treeLevel f xs
    let (r, h) := tree f k ys
    (r, orF g h)

end Sys2Proof.Machine
end

