-- ==== Sys2Proof/Machine/Landing.lean ====
section
/-! DEFINITION. Queue pushes and pops, landings, prefetches and the early-read checker (R79 to R85, R204 to R209). -/

namespace Sys2Proof.Machine

/-! ### Queues (R80 to R82, R204) -/

/-- Local address of entry c (R80). -/
def Queue.entry (q : Queue) (c : Nat) : Nat := q.base + 2 ^ q.lge * (c % 2 ^ q.lgd)
def Queue.entries (q : Queue) (c k : Nat) : List Nat := (List.range k).map fun j => q.entry (c + j)
def Queue.room (q : Queue) (k : Nat) : Bool := k ≤ (q.head + 2 ^ q.lgd + 65536 - q.pc) % 65536
def Queue.filled (q : Queue) (k : Nat) : Bool := k ≤ (q.tail + 65536 - q.qc) % 65536

/-- The byte of position m within k entries from cursor c. -/
def Queue.byteAt (q : Queue) (c m : Nat) : Nat := q.entry (c + m / 2 ^ q.lge) + m % 2 ^ q.lge
/-- The banks of the beats, 512 bytes each, of a push or pop: of its entries, and of what a pop writes; the source of a push is held instead (R197; DESIGN CHOICE, log 75). -/
def qBeats (q : Queue) (c a nb t0 : Nat) (push : Bool) : List Use :=
  (List.range (ceilDiv nb 512)).flatMap fun j =>
    let n := Nat.min 512 (nb - 512 * j)
    let es := (((List.range n).map fun m => bankOf (q.byteAt c (512 * j + m))).eraseDups).map fun b => (⟨b, t0 + j, push⟩ : Use)
    (if push then [] else usesOf (a + 512 * j) n (t0 + j) true) ++ es

/-- The tests of R204 in check 3. -/
def qTests (i k : Nat) (q : Queue) (a : Nat) : Res :=
  let nb := k * 2 ^ q.lge
  Res.all [Res.need (a + nb ≤ 2 ^ 23) cIllegalOperand, Res.needW (a % 2 ^ q.lge == 0) cAlign a 0,
           Res.needW (q.valid && k ≤ 2 ^ q.lgd) cQueueFault 0 i]

/-- Destination bytes of a byte-by-byte copy within the pool whose source granule is poisoned (R416). -/
def poolBad (k : Core) (ps : List (Nat × Nat)) : List Nat := (ps.filter fun q => (k.poisonIn q.1 1).isSome).map (·.2)

/-- What QPUSH writes into the entries from cursor PC on; an arrival may still change the bytes whose source it meets (R197, R204). (DEDUCED, log 46) -/
def qpushPost (p : PR) (s : State) : State :=
  let i := p.d.toNat
  let k := p.imm.toNat
  let q := vget s.kc.queues i {}
  let a := (s.g p.a).toNat
  let nb := k * 2 ^ q.lge
  let dst := (List.range nb).map (q.byteAt q.pc)
  let bs := dst.zip (match s.kid with | some c => s.poolRead c a nb | none => [])
  let bad := poolBad s.kc (((List.range nb).map (a + ·)).zip dst)
  ((s.land1 s.cur.hart none (.pool bs bad (wholeGranules bs))).modK fun k' => k'.setQueue i { q with pc := (q.pc + k) % 65536 }).post
    (4 + ceilDiv nb 512) [.qTail i k, .redo bs] (srcsOf [(a, nb)] s.t0 (s.t0 + ceilDiv nb 512))
def planQpush (p : PR) (s : State) : Plan :=
  let i := p.d.toNat
  let k := p.imm.toNat
  let q := vget s.kc.queues i {}
  let a := (s.g p.a).toNat
  let nb := k * 2 ^ q.lge
  { rd3 := [.g p.a.toNat, .queue i], c3 := qTests i k q a, c5 := Res.ready (q.room k) 3 i,
    use := qBeats q q.pc a nb s.t0 true, queues := [i], reads := [(a, nb)],
    holds := claimsOf [(a, nb)] s.t0 (s.t0 + ceilDiv nb 512) .hold, acc := true, time := 4 + ceilDiv nb 512, eff := qpushPost p }
def execQpush (h : Head) (p : PR) (s : State) : Out := .next (issue (.qpush h p) (planQpush p s) s)

def planQpop (p : PR) (s : State) : Plan :=
  let i := p.d.toNat
  let k := p.imm.toNat
  let q := vget s.kc.queues i {}
  let a := (s.g p.a).toNat
  let nb := k * 2 ^ q.lge
  let t := 4 + ceilDiv nb 512
  let src := (List.range nb).map (q.byteAt q.qc)
  { rd3 := [.g p.a.toNat, .queue i], c3 := qTests i k q a, c5 := Res.ready (q.filled k) 3 i,
    use := qBeats q q.qc a nb s.t0 false, queues := [i], reads := src.map (·, 1),
    take := claimsOf [(a, nb)] s.t0 (s.t0 + t) .lock, acc := true, time := t,
    eff := fun s' =>
      let dst := (List.range nb).map (a + ·)
      let bs := dst.zip (match s.kid with | some c => src.map fun b => (s.poolRead c b 1).headD 0 | none => [])
      let bad := poolBad s.kc (src.zip dst)
      (s'.modK fun k' => k'.setQueue i { q with qc := (q.qc + k) % 65536 }).post t [.pool bs bad (wholeGranules bs), .qHead i k] }
def execQpop (h : Head) (p : PR) (s : State) : Out := .next (issue (.qpop h p) (planQpop p s) s)

/-! ### Landings (R83 to R85, R205 to R207) -/

/-- A credit of c bytes to the landing at an address (R84). -/
def creditMem (m : Mem) (a c flags : Nat) (chk : Option Nat) : Mem :=
  let target := m.le a 4
  let sum := m.le (a + 4) 4 + c
  let ovf := sum > 0xFFFFFFFF
  let sum := if ovf then 0xFFFFFFFF else sum
  let (count, adv) := if target > 0 then (sum % target, sum / target) else (sum, 0)
  let fl := m.le (a + 10) 2 ||| (if ovf then 4 else 0) ||| flags
  m.writes (placeLE (a + 4) 4 count ++ placeLE (a + 8) 2 (m.le (a + 8) 2 + adv) ++ placeLE (a + 10) 2 fl
    ++ (match chk with | some v => placeLE (a + 12) 4 v | none => []))

def flagMismatch : Nat := 1
def flagClipped : Nat := 2
def flagRefused : Nat := 8

/-- The credit of an arrival, its checksum continued from the landing's (R288). -/
def applyCredit (m : Mem) (cr : Credit) (sent : List Byte) : Mem :=
  match cr.crc with
  | none => creditMem m cr.land cr.count cr.flags none
  | some (mode, c) =>
    let r := crc32c (if mode == 0 || mode == 3 then 0 else m.le (cr.land + 12) 4) sent
    creditMem m cr.land cr.count (cr.flags ||| (if mode ≥ 2 && r != c then flagMismatch else 0)) (some r)

/-- An arrival meets a closed atoll, a core in reset, or no launch (R286). -/
def State.refuses (s : State) (a : Arrival) : Bool :=
  match s.launch a.lid with
  | none => true
  | some l =>
    let c := l.coreOf a.rx a.ry
    ((s.atoll (atollOf c)).arrivalClose && !((s.transit.find? (·.arr == a)).map (·.accepted)).getD false) || (s.island (islandOf c)).rst != 0

/-- Arrivals of one cycle come by source island, then by source member (R74); under a freeze the earlier landing comes first. -/
def State.transitKey (s : State) (t : Transit) : Nat := (t.land * 16 + t.arr.isl) * 2 ^ 16 + (s.core t.from_).ry * 256 + (s.core t.from_).rx
def insertBy (key : Transit → Nat) (t : Transit) : List Transit → List Transit
  | [] => [t]
  | x :: xs => if key x ≤ key t then x :: insertBy key t xs else t :: x :: xs
def State.inOrder (s : State) (ts : List Transit) : List Transit := ts.foldl (fun l t => insertBy s.transitKey t l) []
/-- Two arrivals go to one core. -/
def Transit.mates (t u : Transit) : Bool := t.arr.lid == u.arr.lid && t.arr.rx == u.arr.rx && t.arr.ry == u.arr.ry
/-- Cycles for transits in order, from the last back: each its own, no later than its landing. -/
def portSlots : List Transit → List (Transit × Nat)
  | [] => []
  | t :: ts => let rest := portSlots ts; (t, match rest with | (_, n) :: _ => Nat.min t.land (n - 1) | [] => t.land) :: rest
/-- The cycle in which an arrival passes its core's port: of those that carry a credit one a cycle, in the order of R74, each as late as its landing allows (R84, R285; DESIGN CHOICE, log 86). -/
def State.portCycle (s : State) (t : Transit) : Nat :=
  if t.arr.credit.isNone then t.land
  else ((portSlots (s.inOrder (s.transit.filter fun u => u.mates t && u.arr.credit.isSome))).find? (·.1 == t)).elim t.land (·.2)
/-- Credits to the landing at an address that the port has let through by the end of this cycle: LPOLL and LWAIT find them applied (R206, R207). -/
def State.creditsDue (s : State) (c : CoreId) (a : Nat) : List (Credit × Transit) :=
  let k := s.core c
  (s.inOrder (s.transit.filter fun t => t.arr.lid == k.lid && t.arr.rx == k.rx && t.arr.ry == k.ry && t.arr.last && s.portCycle t ≤ s.now (.core c))).filterMap fun t =>
    (t.arr.credit.filter (·.land == a)).map fun cr => (cr, t)
/-- The scopes of a landing after a credit: an advance of GEN counts what has been credited since the one before; a rest in COUNT is of the last credit (R84, R85). -/
def countScope (m : Mem) (cr : Credit) (sc : Nat × Nat) : Nat × Nat :=
  let target := m.le cr.land 4
  let sum := m.le (cr.land + 4) 4 + cr.count
  let since := Nat.max sc.2 cr.scope
  if 0 < target && target ≤ sum then (Nat.max sc.1 since, if Nat.min sum 0xFFFFFFFF % target == 0 then 0 else cr.scope) else (sc.1, since)
/-- The scopes kept for a landing. -/
def Core.scopes (k : Core) (a : Nat) : Nat × Nat := ((k.landScope.find? (·.1 == a)).map (·.2)).getD (0, 0)
def Core.setScopes (k : Core) (a : Nat) (sc : Nat × Nat) : Core := { k with landScope := (a, sc) :: k.landScope.filter (·.1 != a) }
/-- The landing at an address as LPOLL and LWAIT read it, and the widest scope that the advances of its GEN have counted (R134, R206). -/
def State.landingAt (s : State) (c : CoreId) (a : Nat) : Mem × Nat × Nat :=
  let m := Mem.writes [] ((s.poolRead c a 16).zipIdx.map fun b => (a + b.2, b.1))
  (s.creditsDue c a).foldl (fun (x : Mem × Nat × Nat) t =>
    if s.refuses t.2.arr then (creditMem x.1 a 0 flagRefused none, x.2) else (applyCredit x.1 t.1 t.2.arr.sent, countScope x.1 t.1 x.2)) (m, (s.core c).scopes a)
def State.landingNow (s : State) (c : CoreId) (a : Nat) : Nat := (s.landingAt c a).1.le a 16
def State.landingScope (s : State) (c : CoreId) (a : Nat) : Nat := (s.landingAt c a).2.1

def landingOk (a : Nat) : Res := Res.needW (a % 16 == 0 && a ≤ 0x7FFFF0) cLandingFault a 0

/-- TARGET written, COUNT, FLAGS and CHK cleared, GEN unchanged (R205). -/
def armBytes (a target : Nat) : List (Nat × Byte) := placeLE a 4 target ++ placeLE (a + 4) 4 0 ++ placeLE (a + 10) 2 0 ++ placeLE (a + 12) 4 0

/-- DEDUCED, log 46. -/
def larmPlan (a : Nat) (rd : List Reg) (rd3 : Reg) (target : Nat) (s : State) : Plan :=
  { rd3 := [rd3], c3 := landingOk a, rd := rd, use := usesOf a 16 s.t0 true, acc := true, time := 1,
    eff := fun s => (s.land1 s.cur.hart none (.pool (armBytes a target) [] [])).modK fun k => k.setScopes a ((k.scopes a).1, 0) }

def execLarm (h : Head) (p : PR) (s : State) : Out :=
  .next (issue (.larm h p) (larmPlan (s.g p.a).toNat [] (.g p.a.toNat) p.imm.toNat s) s)
def execLarmG (h : Head) (p : PR) (s : State) : Out :=
  .next (issue (.larmG h p) (larmPlan (s.g p.a).toNat [.g p.b.toNat] (.g p.a.toNat) ((s.g p.b).toNat % 2 ^ 32) s) s)

/-- The shape of a landing read: it is a pool structure (R415), it acquires over its Time, and it contains a FENCE at the copy's scope (R129, R134, R206). -/
def landingPlan (a : Nat) (rd3 : Reg) (s : State) : Plan :=
  let ok := landingOk a == .ok
  { rd3 := [rd3], bank3 := if ok then usesOf a 16 s.t0 false else [],
    c3 := (landingOk a).and (s.structPoison a 16), reads := [(a, 16)], acc := true, acq := true, fence := true, time := 4,
    eff := fun s => match s.kid with | some c => s.settle s.cur.hart (s.landingScope c a) | none => s }

/-- DEDUCED, log 49. -/
def planLpoll (p : PR) (s : State) : Plan :=
  let a := (s.g p.a).toNat
  let v := match s.kid with | some c => s.landingNow c a / 2 ^ 64 | none => 0
  let pl := landingPlan a (.g p.a.toNat) s
  { pl with wr := [(.g p.d.toNat, 4)], eff := fun s => (pl.eff s).post 4 [.g p.d.toNat (BitVec.ofNat 64 v) false] }
def execLpoll (h : Head) (p : PR) (s : State) : Out := .next (issue (.lpoll h p) (planLpoll p s) s)

/-- LWAIT (R207): satisfied when (GEN − g) mod 65,536 < 32,768. (DEDUCED, log 49) -/
def planLwait (p : PR) (s : State) : Plan :=
  let a := (s.g p.a).toNat
  let gen := match s.kid with | some c => s.landingNow c a / 2 ^ 64 % 2 ^ 16 | none => 0
  { landingPlan a (.g p.a.toNat) s with
    c5b := Res.ready ((gen + 65536 - p.imm.toNat % 65536) % 65536 < 32768) 10 0 }
def execLwait (h : Head) (p : PR) (s : State) : Out := .next (issue (.lwait h p) (planLwait p s) s)

/-! ### Prefetch (R208) and the early-read checker (R209) -/

/-- A completed walk kept in a walker cache (R357). (DEDUCED, log 46) -/
def Cpu.install (u : Cpu) (p : Nat) (pg : Page) (us : Used) : Cpu := { u with wcache := u.wcache ++ [⟨p, pg, us⟩] }

def planPrefX (p : PR) (s : State) : Plan :=
  let v := (s.g p.a + p.imm64).toNat
  { rd := [.g p.a.toNat], time := 1,
    eff := fun s =>
      match s.ctx s.cur.hart with
      | none => s
      | some q =>
        if 2 ^ 56 ≤ v || (cached s.me q v).isSome then s
        else match s.translate q v with
          | .ok pg us => if s.marked q (us.gpas.map (·.1)) then s else s.modCpu s.cur.hart (·.install q pg us)
          | .trap _ => s }
def execPrefX (h : Head) (p : PR) (s : State) : Out := .next (issue (.prefX h p) (planPrefX p s) s)

/-- PREF.m changes elapsed time only (R89, R208). -/
def planPrefM (p : PR) (s : State) : Plan :=
  let hd := s.hd p.a
  { rd := [.h p.a.toNat, .g p.b.toNat], time := 1, c6 := Res.needW hd.valid cHandleInvalid hd.v p.a.toNat }
def execPrefM (h : Head) (p : PR) (s : State) : Out := .next (issue (.prefM h p) (planPrefM p s) s)

/-- DEDUCED, log 46. -/
def echkPlan (a n : Nat) (rd : Reg) (f : List Nat → List Nat → List Nat) : Plan :=
  let gs := (List.range (n / 64)).map fun k => a + 64 * k
  { pre := Res.needW (n % 64 == 0) cAlign a 0, rd3 := [rd],
    c3 := Res.all [Res.need (a + n ≤ 2 ^ 23) cIllegalOperand, Res.needW (a % 64 == 0) cAlign a 0],
    time := 1, eff := fun s => s.modK fun k => { k with echk := f gs k.echk } }

/-- Granules marked, and granules no longer marked (R209). -/
def unmarked (gs old : List Nat) : List Nat := old.filter fun g => !gs.contains g
def marked (gs old : List Nat) : List Nat := gs ++ unmarked gs old

def execEchk (h : Head) (p : PR) (s : State) : Out :=
  .next (issue (.echk h p) (echkPlan (s.g p.a).toNat p.imm.toNat (.g p.a.toNat) marked) s)
def execEchkOff (h : Head) (p : PR) (s : State) : Out :=
  .next (issue (.echkOff h p) (echkPlan (s.g p.a).toNat p.imm.toNat (.g p.a.toNat) unmarked) s)

end Sys2Proof.Machine
end

