-- ==== Sys2Proof/Machine/Beats.lean ====
section
/-! DEFINITION. The vector engine's common conduct: operands and their shapes, beats, occupancy and reservations, queue-bound operands, stops on poison and what a resumed instruction continues with (R211 to R219, R264, R265). -/

namespace Sys2Proof.Machine

/-- An operand: its register, count, rows, and for a bound queue its number, contents and first entry (R211, R215). -/
structure Opnd where
  reg : Nat
  r : Region
  n : Nat
  rows : Nat
  q : Option (Nat × Queue × Nat) := none

/-- The local address of element e; a Q4N pair shares a byte. -/
def Opnd.loc (o : Opnd) (e : Nat) : Nat :=
  match o.q with
  | some (_, q, c) => q.entry (c + e)
  | none => (o.r.addr (e / o.n) (e % o.n)).toNat
/-- The element is the high nibble of its byte (R108). -/
def Opnd.high (o : Opnd) (e : Nat) : Bool := isQ4 o.r.fmt && e % o.n % 2 == 1
def Opnd.bits (rd : Nat → Nat → Nat) (o : Opnd) (e : Nat) : Nat :=
  if isQ4 o.r.fmt then (if o.high e then rd (o.loc e) 1 / 16 else rd (o.loc e) 1 % 16) else rd (o.loc e) o.r.eb
def Opnd.m (o : Opnd) : Nat := o.n * o.rows
def Opnd.fm (o : Opnd) : Fm := ⟨o.r.fmt, o.r.frac⟩

/-- An operand as the P-V word names it (R211). -/
def opndOf (k : Core) (reg cnt : Nat) : Opnd :=
  let r := k.region reg
  { reg := reg, r := r, n := if cnt != 0 then cnt else r.cnt, rows := r.rows }

/-- Queues given to bound operands in order: each takes m entries from where the earlier ones end (R215). -/
def bindAll (k : Core) (pop : Bool) : List Opnd → List (Nat × Nat) → List Opnd
  | [], _ => []
  | o :: os, used =>
    if o.r.qb < 16 then
      let q := vget k.queues o.r.qb {}
      let before := ((used.filter (·.1 == o.r.qb)).map (·.2)).sum
      { o with q := some (o.r.qb, q, (if pop then q.qc else q.pc) + before) } :: bindAll k pop os ((o.r.qb, o.m) :: used)
    else o :: bindAll k pop os used

/-- A source element that the engine reads: cycle after issue, address, bytes, operand register, element. -/
structure SrcEl where
  off : Nat
  a : Nat
  n : Nat
  reg : Nat
  el : Nat
  deriving DecidableEq, Repr

/-- What one result beat writes: cycle after issue, bytes, lone nibbles, and the sources they come from. -/
structure OutBeat where
  off : Nat
  bs : List (Nat × Byte)
  srcs : List SrcEl
  ns : List (Nat × Bool × Nat) := []
  deriving DecidableEq, Repr

/-- A vector instruction resolved on the registers as they stand. -/
structure VR where
  c3 : Res := .ok
  regs : List Nat := []
  qs : List Nat := []
  time : Nat := 0
  occ : Nat := 0
  srcs : List SrcEl := []
  dst : List (Nat × Nat × Nat) := []
  pops : List (Nat × Nat) := []
  pushes : List (Nat × Nat) := []
  /-- Result beats and flags of the elements from one number up to another. -/
  outs : Nat → Nat → List OutBeat × Nat := fun _ _ => ([], 0)
  m : Nat := 0
  /-- Whether a stop keeps the elements before it (R218), and the VPROG of an element. -/
  resumes : Bool := true
  vprog : Nat → Nat := id

/-- Beats of a shape (R212): 64 lanes when an operand has 8-byte elements. -/
def lanes (os : List Opnd) : Nat := if os.any (fmtBits ·.r.fmt == 64) then 64 else 128
def beatsOf (l n rows : Nat) : Nat := rows * ceilDiv n l
def beatOf (l n e : Nat) : Nat := e / n * ceilDiv n l + e % n / l
/-- The elements of beat b. -/
def beatEls (l n b : Nat) : List Nat :=
  let per := ceilDiv n l
  let j := b % per * l
  (List.range (Nat.min l (n - j))).map fun t => b / per * n + j + t

/-! ### Issue-time tests (R154, R211, R215, R219) -/

/-- An operand that may not be bound to a queue, or is bound to none that exists. -/
def Opnd.bindOk (o : Opnd) (may : Bool) : Bool := o.r.qb == 31 || (may && o.r.qb < 16)
/-- Pool bytes of a region operand within range; a Q4N region has ESTR 1 (R108, R154). -/
def Opnd.placed (o : Opnd) : Bool := o.q.isSome || (o.r.inPool o.rows o.n && (!isQ4 o.r.fmt || o.r.estr == 1))
/-- What R211 asks of a destination. -/
def Opnd.dstOk (o : Opnd) : Bool := o.q.isSome || (o.r.estr != 0 && (o.r.rstr != 0 || o.rows ≤ 1))
def Opnd.align (o : Opnd) : Res := Res.needW (o.q.isSome || o.r.aligned) cAlign o.r.base 0
/-- QUEUE_FAULT of R215; a Q4N element has no whole-byte size. -/
def Opnd.queueOk (o : Opnd) : Res :=
  match o.q with
  | some (i, q, _) => Res.needW (q.valid && !isQ4 o.r.fmt && 2 ^ q.lge == o.r.eb && o.m ≤ 2 ^ q.lgd) cQueueFault 0 i
  | none => .ok
/-- X32 operands have one FRAC (R105). -/
def fracOk (os : List Opnd) : Bool :=
  match os.filter (isX ·.r.fmt) with
  | [] => true
  | o :: rest => rest.all (·.r.frac == o.r.frac)
/-- Two operands share no byte. -/
def apart (x y : Opnd) : Bool :=
  let rx := x.r.ranges x.rows x.n
  let ry := y.r.ranges y.rows y.n
  !(rx.any fun a => ry.any fun b => a.1 < b.1 + b.2 && b.1 < a.1 + a.2)

/-! ### Elementwise evaluation -/

/-- An elementwise instruction: destination, data sources, mask, treatment of off lanes, and element function. -/
structure EW where
  d : Opnd
  ops : List Opnd
  mask : Option Opnd := none
  zero : Bool := false
  f : ElFn
  /-- Scale bytes that an element reads beside its sources (R103). -/
  extra : Nat → List (Nat × Nat × Nat) := fun _ => []

def EW.all (x : EW) : List Opnd := x.d :: (x.ops ++ x.mask.toList)
def EW.lane (rd : Nat → Nat → Nat) (x : EW) (e : Nat) : Bool := match x.mask with | some o => o.bits rd e != 0 | none => true

/-- Nibbles of one beat as whole bytes where both halves of a byte are among them, and the lone ones (R108, R216). -/
def pairNibbles (ns : List (Nat × Bool × Nat)) : List (Nat × Byte) × List (Nat × Bool × Nat) :=
  let half (a : Nat) (h : Bool) : Option Nat := ((ns.filter fun n => n.1 == a && n.2.1 == h).getLast?).map (·.2.2)
  let both := ((ns.map (·.1)).eraseDups).filter fun a => (half a false).isSome && (half a true).isSome
  (both.map fun a => (a, BitVec.ofNat 8 ((half a false).getD 0 % 16 + 16 * ((half a true).getD 0 % 16))), ns.filter fun n => !both.contains n.1)
/-- The bytes and lone nibbles that give elements of a destination their values. -/
def putEls (d : Opnd) (vs : List (Nat × Nat)) : List (Nat × Byte) × List (Nat × Bool × Nat) :=
  if isQ4 d.r.fmt then pairNibbles (vs.map fun v => (d.loc v.1, d.high v.1, v.2))
  else (vs.flatMap fun v => placeLE (d.loc v.1) d.r.eb v.2, [])

/-- Source bytes read for element e in its cycle. -/
def EW.reads (rd : Nat → Nat → Nat) (x : EW) (off e : Nat) : List SrcEl :=
  (match x.mask with | some o => [⟨off, o.loc e, o.r.eb, o.reg, e⟩] | none => [])
  ++ (if x.lane rd e then (x.ops.map fun o => ⟨off, o.loc e, o.r.eb, o.reg, e⟩)
        ++ (x.extra e).map fun y => ⟨off, y.1, y.2.1, y.2.2, e⟩ else [])

/-- The value of element e: bits and flags, or none where the element stays as it was (R216). -/
def EW.value (rd : Nat → Nat → Nat) (x : EW) (e : Nat) : Option (Nat × Nat) :=
  if x.lane rd e then some (x.f e (x.ops.map fun o => o.bits rd e))
  else if x.zero then some (0, 0) else none

/-- Results of elements lo to hi − 1, in beats ending at the Time. -/
def EW.outs (rd : Nat → Nat → Nat) (x : EW) (l time lo hi : Nat) : List OutBeat × Nat :=
  let n := x.d.n
  let beats := beatsOf l n x.d.rows
  (List.range beats).foldl (fun acc b =>
    let es := (beatEls l n b).filter fun e => lo ≤ e && e < hi
    if es.isEmpty then acc
    else
      let vs := es.filterMap fun e => (x.value rd e).map (e, ·)
      let (bs, ns) := putEls x.d (vs.map fun v => (v.1, v.2.1))
      (acc.1 ++ [⟨time - (beats - 1 - b), bs, es.flatMap (x.reads rd b), ns⟩],
       vs.foldl (fun g v => orF g v.2.2) acc.2)) ([], 0)

/-- The elementwise shape (R211 to R216): formats accepted or not, Time and occupancy from the beats. -/
def ewVR (k : Core) (rd : Nat → Nat → Nat) (d : Opnd) (srcs : List Opnd) (mask : Option Opnd) (zero : Bool) (f : Option ElFn)
    (fracs mayBind : Bool) (base : Nat) (extra : Nat → List (Nat × Nat × Nat) := fun _ => []) (lan : Option Nat := none) : VR :=
  let src := bindAll k true (srcs ++ mask.toList) []
  let ops := src.take srcs.length
  let mk := if mask.isSome then src.getLast? else none
  let d := (bindAll k false [d] []).headD d
  let x : EW := { d := d, ops := ops, mask := mk, zero := zero, f := f.getD fun _ _ => (0, 0), extra := extra }
  let l := lan.getD (lanes x.all)
  let n := d.n
  let beats := beatsOf l n d.rows
  let time := base + beats
  let okFmt := f.isSome && x.all.all (fun o => known o.r.fmt) && (mk.all fun o => isZ o.r.fmt) && (!fracs || fracOk x.all)
  let shape := x.all.all (fun o => o.n == n && o.rows == d.rows && o.bindOk mayBind && o.placed) && d.dstOk && d.m ≤ 65536
  let m := d.m
  { c3 := Res.all ([Res.need (okFmt && shape) cIllegalOperand] ++ x.all.map Opnd.align ++ x.all.map Opnd.queueOk),
    regs := x.all.map (·.reg), qs := x.all.filterMap fun o => o.q.map (·.1),
    time := time, occ := beats,
    srcs := (List.range m).flatMap fun e => x.reads rd (beatOf l n e) e,
    dst := (List.range beats).flatMap fun b => (beatEls l n b).map fun e => (time - (beats - 1 - b), d.loc e, d.r.eb),
    pops := src.filterMap fun o => o.q.map fun q => (q.1, m), pushes := (d.q.map fun q => (q.1, m)).toList,
    outs := EW.outs rd x l time, m := m }

/-! ### Issue and completion -/

/-- The recomputable range that holds a granule, 31 when none (R264). -/
def State.rangeOf (s : State) (g : Nat) : Nat :=
  match s.myLaunch with
  | none => 31
  | some l => ((List.range (Nat.min 16 (l.hdr 64 1))).find? fun j =>
      l.hdr (72 + 8 * j) 4 ≤ g && g + 64 ≤ l.hdr (72 + 8 * j) 4 + l.hdr (76 + 8 * j) 4).getD 31
/-- The launch's record names hook code (R265). -/
def Launch.hookCode (l : Launch) : Bool := [0, 1, 2, 3].any fun k => l.hdr (52 + 2 * k) 2 != 0x3FF

/-- The trap of a poisoned source byte (R265, R340): the operand as g3 gives it, the range, and whether the hook may run. -/
def State.srcPoison (s : State) (g opnd : Nat) : TrapInfo × Bool :=
  let r := s.rangeOf g
  (⟨cDataPoison, g, opnd % 2048 + r * 2 ^ 16⟩, r != 31 && (s.myLaunch.map Launch.hookCode).getD false)

/-- A source element as other writes may meet it, to the end of the Time (R214). -/
def SrcEl.toSrc (t0 time : Nat) (e : SrcEl) : Src := ⟨e.a, e.n, t0 + time, t0 + e.off, false⟩

/-- Posts the results of a vector instruction from element lo on, up to the first that meets poison (R213, R218). -/
def vFinish (i : Instr) (v : VR) (lo : Nat) (s : State) : State :=
  let k := s.kc
  let stop := (v.srcs.filter (lo ≤ ·.el)).find? fun e => (k.poisonIn e.a e.n).isSome
  let hi := match stop with | some e => (if v.resumes then e.el else lo) | none => v.m
  let (bs, fl) := if v.resumes || stop.isNone then v.outs lo hi else ([], 0)
  let whole := wholeGranules ((if lo == 0 then bs else (v.outs 0 hi).1).flatMap (·.bs))
  let last := bs.length - 1
  let s := (bs.zipIdx).foldl (fun s b =>
    s.post b.1.off (.pool b.1.bs [] (if b.2 == last then whole else []) :: (if b.1.ns.isEmpty then [] else [.nib b.1.ns]))
      (b.1.srcs.map (SrcEl.toSrc s.t0 v.time))) s
  match stop with
  | none => s.post v.time ([.flags (BitVec.ofNat 32 fl), .vprog 0] ++ v.pops.map (fun q => .qHead q.1 q.2) ++ v.pushes.map fun q => .qTail q.1 q.2)
      ((v.srcs.filter (lo ≤ ·.el)).map (SrcEl.toSrc s.t0 v.time))
  | some e =>
    let (t, hook) := s.srcPoison ((k.poisonIn e.a e.n).getD 0) e.reg
    let el := if v.resumes then e.el else 0
    s.postDetect i e.off t el hook [.flags (BitVec.ofNat 32 fl), .vprog (if v.resumes then v.vprog el else 0)]

/-- QC and PC advanced at issue (R215). -/
def claimQueues (v : VR) (s : State) : State :=
  let s := v.pops.foldl (fun s q => s.modK fun k => let x := vget k.queues q.1 {}; k.setQueue q.1 { x with qc := (x.qc + q.2) % 65536 }) s
  v.pushes.foldl (fun s q => s.modK fun k => let x := vget k.queues q.1 {}; k.setQueue q.1 { x with pc := (x.pc + q.2) % 65536 }) s

/-- The engine occupied through issue + occ − 1 (R212). -/
def State.occupy (s : State) (e n : Nat) : State := s.modK fun k => { k with occ := vset k.occ e (Nat.max (vget k.occ e 0) (s.t0 + n)) }

/-- Queue entries present or free (R79, R215). -/
def VR.queuesReady (v : VR) (k : Core) : Res :=
  let total (l : List (Nat × Nat)) (i : Nat) : Nat := ((l.filter (·.1 == i)).map (·.2)).sum
  Res.all ((v.pops.map fun q => Res.ready ((vget k.queues q.1 {}).filled (total v.pops q.1)) 3 q.1)
    ++ v.pushes.map fun q => Res.ready ((vget k.queues q.1 {}).room (total v.pushes q.1)) 3 q.1)

/-- Uses of a list of ranges by cycle, one per bank and cycle. -/
def usesAt (t0 : Nat) (wr : Bool) (rs : List (Nat × Nat × Nat)) : List Use :=
  (rs.flatMap fun r => usesOf r.2.1 r.2.2 (t0 + r.1) wr).eraseDups

/-- The plan of an instruction of the vector engine; a guard-false one occupies the engine and moves its queues only (R217). -/
def vPlan (i : Instr) (f : State → VR) (s : State) : Plan :=
  let v := f s
  let t0 := s.t0
  let ready := v.queuesReady s.kc
  let free := Res.ready (vget s.kc.occ 0 0 ≤ t0) 7 0
  { rd3 := v.regs.map .st ++ v.qs.map .queue, c3 := v.c3, c5 := ready,
    use := usesAt t0 false (v.srcs.map fun e => (e.off, e.a, e.n)) ++ usesAt t0 true v.dst, queues := v.qs,
    c5b := free, c5F := ready.and free, reads := v.srcs.map fun e => (e.a, e.n), acc := true, time := v.time,
    eff := fun s => let v := f s; vFinish i v 0 (claimQueues v (s.occupy 0 v.occ)),
    effF := fun s => (claimQueues v (s.occupy 0 v.occ)).post v.time (v.pops.map (fun q => .qHead q.1 q.2) ++ v.pushes.map fun q => .qTail q.1 q.2) }

end Sys2Proof.Machine
end

