-- ==== Sys2Proof/Machine/Vector.lean ====
section
/-! DEFINITION. The vector instructions (R220 to R238). -/

namespace Sys2Proof.Machine

def State.opnd (s : State) (r : BitVec 9) (p : PV) : Opnd := opndOf s.kc r.toNat p.cnt.toNat
def State.maskOf (s : State) (p : PV) : Option Opnd := if p.c == 0x1FF then none else some (s.opnd p.c p)

/-- An elementwise instruction with data sources in B (and C) and an element function chosen by the formats (R220). -/
def ewOf (p : PV) (srcs : List (BitVec 9)) (masked : Bool) (base : Nat) (fracs : Bool) (f : Fm → List Fm → Option ElFn) (s : State) : VR :=
  let d := s.opnd p.d p
  let os := srcs.map fun r => s.opnd r p
  let noSen := !(d.r.sen || os.any (·.r.sen) || (masked && ((s.maskOf p).any (·.r.sen))))
  let g := if noSen then f d.fm (os.map Opnd.fm) else none
  ewVR s.kc s.read d os (if masked then s.maskOf p else none) p.zero g fracs true base

def allSame (d : Fm) (os : List Fm) : Bool := os.all fun o => sameFmt d.c o.c
def sameSize (d : Fm) (os : List Fm) : Bool := os.all fun o => fmtBits d.c == fmtBits o.c

/-- VADD, VSUB, VMUL (two sources and a mask) and VFMA (three sources). -/
def arithVR (op : Arith) (p : PV) (s : State) : VR :=
  ewOf p [p.a, p.b] true 6 true (fun d os => if allSame d os then arith op d p.rm p.sat else none) s
def fmaVR (h : Head) (p : PV) (s : State) : VR :=
  ewOf p [p.a, p.b, p.c] false 6 true (fun d os => if allSame d os then arith (if h.fn == 1 then .fms else .fma) d p.rm p.sat else none) s
def pickVR (mx : Bool) (p : PV) (s : State) : VR :=
  ewOf p [p.a, p.b] true 6 true (fun d os => if allSame d os then pick mx d.c else none) s
def absNegVR (neg : Bool) (p : PV) (s : State) : VR :=
  ewOf p [p.a] true 6 true (fun d os => if allSame d os then absNeg neg d.c p.sat else none) s
/-- VAND, VOR, VXOR: any formats of one element size (R224). -/
def bitVR (f : Nat → Nat → Nat) (p : PV) (s : State) : VR :=
  ewOf p [p.a, p.b] true 6 true (fun d os => if sameSize d os then some fun _ xs => (f (xs.getD 0 0) (xs.getD 1 0), 0) else none) s
def shiftVR (f : Nat → Option ElFn) (p : PV) (s : State) : VR :=
  ewOf p [p.a, p.b] true 6 true (fun d os => if d.c == (os.headD d).c && isZ (os.getD 1 d).c then f d.c else none) s
def cmpVR (h : Head) (p : PV) (s : State) : VR :=
  ewOf p [p.a, p.b] true 6 true (fun d os =>
    if (d.c == 1 || d.c == 2) && sameFmt (os.headD d).c (os.getD 1 d).c then compare h.fn.toNat (os.headD d).c else none) s
def selVR (p : PV) (s : State) : VR :=
  ewOf p [p.a, p.b, p.c] false 6 true (fun d os =>
    if sameSize d (os.take 2) && !isQ4 d.c && isZ (os.getD 2 d).c then
      some fun _ xs => (if xs.getD 2 0 != 0 then xs.getD 0 0 else xs.getD 1 0, 0) else none) s
def movVR (p : PV) (s : State) : VR :=
  ewOf p [p.a] true 6 true (fun d os => if sameSize d os then some fun _ xs => (xs.getD 0 0, 0) else none) s
def fillKVR (p : PV) (s : State) : VR :=
  ewOf p [] true 6 true (fun d _ =>
    if isF d.c || isZ d.c || isX d.c || isE8 d.c then (fillConst d (p.mx % 8)).map fun v => fun _ _ => v else none) s
def iotaVR (p : PV) (s : State) : VR := ewOf p [] true 6 true (fun d _ => fillIota d p.rm p.sat) s
def cvtVR (p : PV) (s : State) : VR := ewOf p [p.a] true 6 false (fun d os => convert (os.headD d) d p.rm p.sat) s
def unaryVR (f : Nat → Nat → Option ElFn) (p : PV) (s : State) : VR := ewOf p [p.a] true 12 true (fun d os => f (os.headD d).c d.c) s
def nrVR (h : Head) (p : PV) (s : State) : VR :=
  ewOf p [p.a, p.b] true 6 true (fun d os => if sameFmt d.c 12 && allSame d os then some (newton (h.fn == 1) p.rm p.sat) else none) s

def runV (i : Instr) (f : State → VR) (s : State) : Out := .next (issue i (vPlan i f s) s)

def execVadd (h : Head) (p : PV) (s : State) : Out := runV (.vadd h p) (arithVR .add p) s
def execVsub (h : Head) (p : PV) (s : State) : Out := runV (.vsub h p) (arithVR .sub p) s
def execVmul (h : Head) (p : PV) (s : State) : Out := runV (.vmul h p) (arithVR .mul p) s
def execVfma (h : Head) (p : PV) (s : State) : Out := runV (.vfma h p) (fmaVR h p) s
def execVmin (h : Head) (p : PV) (s : State) : Out := runV (.vmin h p) (pickVR false p) s
def execVmax (h : Head) (p : PV) (s : State) : Out := runV (.vmax h p) (pickVR true p) s
def execVabs (h : Head) (p : PV) (s : State) : Out := runV (.vabs h p) (absNegVR false p) s
def execVneg (h : Head) (p : PV) (s : State) : Out := runV (.vneg h p) (absNegVR true p) s
def execVand (h : Head) (p : PV) (s : State) : Out := runV (.vand h p) (bitVR (· &&& ·) p) s
def execVor (h : Head) (p : PV) (s : State) : Out := runV (.vor h p) (bitVR (· ||| ·) p) s
def execVxor (h : Head) (p : PV) (s : State) : Out := runV (.vxor h p) (bitVR (· ^^^ ·) p) s
def execVshl (h : Head) (p : PV) (s : State) : Out := runV (.vshl h p) (shiftVR (fun c => shiftL c p.sat) p) s
def execVshr (h : Head) (p : PV) (s : State) : Out := runV (.vshr h p) (shiftVR (shiftR (h.fn == 1)) p) s
def execVcmp (h : Head) (p : PV) (s : State) : Out := runV (.vcmp h p) (cmpVR h p) s
def execVsel (h : Head) (p : PV) (s : State) : Out := runV (.vsel h p) (selVR p) s
def execVmov (h : Head) (p : PV) (s : State) : Out := runV (.vmov h p) (movVR p) s
def execVfillK (h : Head) (p : PV) (s : State) : Out := runV (.vfillK h p) (fillKVR p) s
def execVfillIota (h : Head) (p : PV) (s : State) : Out := runV (.vfillIota h p) (iotaVR p) s
/-- VFILL.fc (R218, R227): drives neither the engine nor a bank. -/
def execVfillFc (h : Head) (p : PV) (s : State) : Out :=
  .next (issue (.vfillFc h p) { time := 1, eff := fun s => s.post 1 [.clrFlags (BitVec.ofNat 32 p.mx), .vprog 0] } s)
def execVcvt (h : Head) (p : PV) (s : State) : Out := runV (.vcvt h p) (cvtVR p) s
def execVrcp (h : Head) (p : PV) (s : State) : Out := runV (.vrcp h p) (unaryVR (fun a d => recip a d p.rm p.sat) p) s
def execVrsq (h : Head) (p : PV) (s : State) : Out := runV (.vrsq h p) (unaryVR (fun a d => rsqrt a d p.rm p.sat) p) s
def execVnr (h : Head) (p : PV) (s : State) : Out := runV (.vnr h p) (nrVR h p) s
def execVexp2 (h : Head) (p : PV) (s : State) : Out := runV (.vexp2 h p) (unaryVR (fun a d => special .exp2 a d p.rm p.sat) p) s
def execVlog2 (h : Head) (p : PV) (s : State) : Out := runV (.vlog2 h p) (unaryVR (fun a d => special .log2 a d p.rm p.sat) p) s
def execVtanh (h : Head) (p : PV) (s : State) : Out := runV (.vtanh h p) (unaryVR (fun a d => special .tanh a d p.rm p.sat) p) s

/-! ### Reductions (R113, R232, R233) -/

/-- Leaves of row i: the bits of the lanes that are on, in order, absent where off. -/
def leaves (rd : Nat → Nat → Nat) (srcs : List Opnd) (mask : Option Opnd) (n i : Nat) : List (Option (List Nat)) :=
  (List.range n).map fun j =>
    let e := i * n + j
    if (match mask with | some o => o.bits rd e != 0 | none => true) then some (srcs.map fun o => o.bits rd e) else none

def mapLeaves (f : List Nat → Nat × Nat) (ls : List (Option (List Nat))) : List (Option Nat) × Nat :=
  ls.foldr (fun x acc => match x with
    | some xs => let (v, g) := f xs; (some v :: acc.1, orF g acc.2)
    | none => (none :: acc.1, acc.2)) ([], 0)

def fadd (rm : Nat) (x y : Nat) : Nat × Nat := fp32.add rm false (fp32.read x) (fp32.read y)
def treeSum (rm : Nat) (ls : List (Option Nat)) : Nat × Nat :=
  let (r, g) := tree (fadd rm) (log2c ls.length) ls
  (r.getD 0, g)
/-- An exact integer sum wrapped to a format (R113). -/
def intSum (c : Nat) (vs : List Int) : Nat × Nat := zPut c false vs.sum

inductive Red where
  | sum | max | min | dot | amax
  deriving DecidableEq, Repr

/-- One row's result (R233), none where the formats are not accepted. -/
def redFn (op : Red) (d : Fm) (os : List Fm) (rm : Nat) : Option (List (Option (List Nat)) → Nat × Nat) :=
  let a := os.headD d
  let b := os.getD 1 a
  let f32 := sameFmt d.c 12
  let ints (c : Nat) (ls : List (Option (List Nat))) : List Int := ls.filterMap fun x => x.map fun xs => zRead c (xs.getD 0 0)
  match op with
  | .sum =>
    match fmtF a.c with
    | some fa => if isF a.c && f32 then some fun ls =>
        let (vs, g) := mapLeaves (fun xs => fp32.conv 0 false (fa.read (xs.getD 0 0))) ls
        let (r, h) := treeSum rm vs
        (r, orF g h) else none
    | none => if (isZ a.c && isZ d.c) || (isX a.c && isX d.c) then some fun ls => intSum d.c (ints a.c ls) else none
  | .max | .min =>
    match pick (op == .max) a.c with
    | some f => if sameFmt a.c d.c then some fun ls =>
        let xs := ls.filterMap fun x => x.map (·.headD 0)
        let snan := match fmtF a.c with | some fa => if xs.any fun v => (fa.read v).isSnan then fINV else 0 | none => 0
        match xs with
        | [] => (0, 0)
        | x :: rest =>
          let r := rest.foldl (fun m v => (f 0 [m, v]).1) x
          (match fmtF a.c with | some fa => if (fa.read r).isNan then fa.canon else r | none => r, snan) else none
    | none => none
  | .dot =>
    match fmtF a.c with
    | some fa => if isF a.c && sameFmt a.c b.c && f32 then some fun ls =>
        let (vs, g) := mapLeaves (fun xs => fp32.fma rm false (fa.read (xs.getD 0 0)) (fa.read (xs.getD 1 0)) none) ls
        let (r, h) := treeSum rm vs
        (r, orF g h) else none
    | none => if isZ a.c && a.c == b.c && isZ d.c then some fun ls =>
        intSum d.c (ls.filterMap fun x => x.map fun xs => zRead a.c (xs.getD 0 0) * zRead b.c (xs.getD 1 0)) else none
  | .amax =>
    match fmtF a.c with
    | some fa => if isF a.c && f32 then some fun ls =>
        let vs := ls.filterMap fun x => x.map fun xs => fa.read (xs.headD 0)
        let g := FV.inv vs
        let mag := vs.filter (!·.isNan)
        (if mag.any fun v => match v with | .inf _ => true | _ => false then fp32.infBits
         else (fp32.roundQ 0 false false ((mag.map fun v => v.int.natAbs).foldl Nat.max 0) one149).1, g) else none
    | none => none

/-- VRED, VDOT, VAMAX: one element a row, from the counts of the sources (R232). -/
def redVR (op : Red) (p : PV) (srcs : List (BitVec 9)) (s : State) : VR :=
  let rd := s.read
  let d0 := s.opnd p.d p
  let d : Opnd := { d0 with n := 1 }
  let os := srcs.map fun r => s.opnd r p
  let mk := s.maskOf p
  let a := os.headD d
  let n := a.n
  let rows := a.rows
  let all := d :: (os ++ mk.toList)
  let l := lanes (os ++ mk.toList ++ [d])
  let beats := beatsOf l n rows
  let f := redFn op d.fm (os.map Opnd.fm) p.rm
  let time := 8 + beats + log2c n
  let x : EW := { d := { d with n := n, rows := rows }, ops := os, mask := mk, f := fun _ _ => (0, 0) }
  let okFmt := f.isSome && all.all (fun o => known o.r.fmt && !o.r.sen) && (mk.all fun o => isZ o.r.fmt) && fracOk all
  let shape := (os ++ mk.toList).all (fun o => o.n == n && o.rows == rows) && d.rows == rows
    && all.all (fun o => o.bindOk false && o.placed) && d.dstOk && n * rows ≤ 65536
  let elA (i : Nat) : Nat := (d.r.addr i 0).toNat
  let rowEls (i : Nat) := (List.range n).flatMap fun j => x.reads rd (beatOf l n (i * n + j)) (i * n + j)
  { c3 := Res.all ([Res.need (okFmt && shape) cIllegalOperand] ++ all.map Opnd.align), regs := all.map (·.reg),
    time := time, occ := beats, srcs := (List.range rows).flatMap rowEls,
    dst := if n == 0 then [] else (List.range rows).map fun i => (time - (rows - 1 - i), elA i, d.r.eb),
    outs := fun _ _ =>
      if n == 0 then ([], 0)
      else (List.range rows).foldl (fun acc i =>
        let (v, g) := (f.getD fun _ => (0, 0)) (leaves rd os mk n i)
        (acc.1 ++ [⟨time - (rows - 1 - i), placeLE (elA i) d.r.eb v, rowEls i, []⟩], orF acc.2 g)) ([], 0),
    m := n * rows, resumes := false }

def execVred (h : Head) (p : PV) (s : State) : Out :=
  runV (.vred h p) (redVR (match h.fn.toNat with | 0 => .sum | 1 => .max | _ => .min) p [p.a]) s
def execVdot (h : Head) (p : PV) (s : State) : Out := runV (.vdot h p) (redVR .dot p [p.a, p.b]) s
def execVamax (h : Head) (p : PV) (s : State) : Out := runV (.vamax h p) (redVR .amax p [p.a]) s

/-! ### VSCAN (R114, R234): column by column, up to 128 rows at once -/

/-- Running value after one leaf (R114). -/
def scanStep (d a : Fm) (rm : Nat) (prev : Option Nat) (leaf : Option Nat) : Option Nat × Nat :=
  match leaf with
  | none => (prev, 0)
  | some v =>
    match fmtF a.c with
    | some fa =>
      let (x, g) := fp32.conv 0 false (fa.read v)
      (match prev with
       | none => (some x, g)
       | some q => let (r, h) := fadd rm q x; (some r, orF g h))
    | none =>
      let (r, g) := zPut d.c false ((match prev with | some q => zRead d.c q | none => 0) + zRead a.c v)
      (some r, g)

/-- Values of row i for columns j0 to j1 − 1, the running sum carried from column j0 − 1. An absent leaf 0 gives +0. -/
def scanRow (d a : Fm) (rm : Nat) (leaf : Nat → Option Nat) (start : Option Nat) : Nat → Nat → List (Nat × Nat) × Nat
  | _, 0 => ([], 0)
  | j, n + 1 =>
    let (q, g) := scanStep d a rm start (leaf j)
    let q := some (q.getD 0)
    let (r, h) := scanRow d a rm leaf q (j + 1) n
    ((j, q.getD 0) :: r, orF g h)

/-- DEDUCED, log 43. -/
def scanVR (p : PV) (s : State) : VR :=
  let rd := s.read
  let d := s.opnd p.d p
  let a := s.opnd p.a p
  let mk := s.maskOf p
  let n := d.n
  let rows := d.rows
  let all := d :: a :: mk.toList
  let groups := ceilDiv rows 128
  let time := 6 + n * groups
  let okClass := (isF a.r.fmt && sameFmt d.r.fmt 12) || (isZ a.r.fmt && isZ d.r.fmt) || (isX a.r.fmt && isX d.r.fmt)
  let ok := okClass && all.all (fun o => !o.r.sen && o.n == n && o.rows == rows && o.bindOk false && o.placed) && (mk.all fun o => isZ o.r.fmt)
    && fracOk all && d.dstOk && n * rows ≤ 65536
  let lane (e : Nat) : Bool := match mk with | some o => o.bits rd e != 0 | none => true
  let rowsOf (g : Nat) : List Nat := (List.range (Nat.min 128 (rows - 128 * g))).map (128 * g + ·)
  -- step t = g × n + j reads column j of row group g
  let steps := n * groups
  let readsAt (t : Nat) : List SrcEl := (rowsOf (t / n)).flatMap fun i =>
    let e := i * n + t % n
    (match mk with | some o => [(⟨t, o.loc e, o.r.eb, o.reg, t⟩ : SrcEl)] | none => [])
    ++ (if lane e then [(⟨t, a.loc e, a.r.eb, a.reg, t⟩ : SrcEl)] else [])
  { c3 := Res.all ([Res.need ok cIllegalOperand] ++ all.map Opnd.align), regs := all.map (·.reg), time := time, occ := steps,
    srcs := (List.range steps).flatMap readsAt,
    dst := (List.range steps).flatMap fun t => (rowsOf (t / n)).map fun i => (t + 6, d.loc (i * n + t % n), d.r.eb),
    outs := fun lo hi =>
      let rowsHere := (List.range rows).map fun i =>
        let g := i / 128
        let j0 := Nat.min n (lo - g * n)
        let j1 := Nat.min n (hi - g * n)
        let start := if j0 == 0 then none else some (rd (d.loc (i * n + j0 - 1)) d.r.eb)
        let leaf (j : Nat) : Option Nat := if lane (i * n + j) then some (a.bits rd (i * n + j)) else none
        (i, scanRow d.fm a.fm p.rm leaf start j0 (j1 - j0))
      let fl := rowsHere.foldl (fun g r => orF g r.2.2) 0
      -- a beat rests on its row's columns so far, and on the column before a resumption
      let restsOn (t : Nat) : List SrcEl :=
        (((List.range (t + 1)).filter fun u => t / n * n ≤ u && lo ≤ u).flatMap readsAt)
        ++ (if t / n * n < lo then (rowsOf (t / n)).map fun i => ⟨t, d.loc (i * n + lo % n - 1), d.r.eb, d.reg, t⟩ else [])
      (((List.range steps).filter fun t => lo ≤ t && t < hi).map fun t =>
        ⟨t + 6, rowsHere.flatMap fun r => if r.1 / 128 == t / n then
            (r.2.1.filter (·.1 == t % n)).flatMap fun v => placeLE (d.loc (r.1 * n + v.1)) d.r.eb v.2 else [], restsOn t, []⟩, fl),
    m := steps, vprog := fun t => t % n }

def execVscan (h : Head) (p : PV) (s : State) : Out := runV (.vscan h p) (scanVR p) s

/-! ### Rearrangement (R235, R236) -/

/-- VTRN: A's beats read, then as many writes, D's elements in row-major order spread evenly over them (DEDUCED, log 17). -/
def trnVR (p : PV) (s : State) : VR :=
  let rd := s.read
  let k := s.kc
  let d := opndOf k p.d.toNat 0
  let a := opndOf k p.a.toNat 0
  let r := a.rows
  let n := a.n
  let l := lanes [a, d]
  let beats := beatsOf l n r
  let time := 6 + 2 * beats
  let ok := known a.r.fmt && known d.r.fmt && fmtBits a.r.fmt == fmtBits d.r.fmt && !isQ4 a.r.fmt && !a.r.sen && !d.r.sen && fracOk [a, d]
    && r ≤ 128 && n ≤ 128 && d.rows == Nat.max 1 n && d.n == r && d.bindOk false && a.bindOk false && a.placed && d.placed && d.dstOk && apart a d
  let m := n * r
  let w := Nat.max 1 (ceilDiv m beats)
  let srcEl (e : Nat) : SrcEl := ⟨beatOf l n e, a.loc e, a.r.eb, a.reg, e⟩
  let slot (e : Nat) : Nat := time - (beats - 1 - e / w)
  { c3 := Res.all [Res.need ok cIllegalOperand, a.align, d.align], regs := [d.reg, a.reg], time := time, occ := 2 * beats, srcs := (List.range m).map srcEl,
    dst := (List.range m).map fun e => (slot e, d.loc e, d.r.eb),
    outs := fun _ _ => ((List.range beats).map fun b =>
      let es := ((List.range w).map (b * w + ·)).filter (· < m)
      let from_ (e : Nat) : Nat := e % r * n + e / r
      ⟨time - (beats - 1 - b), es.flatMap fun e => placeLE (d.loc e) d.r.eb (a.bits rd (from_ e)), es.map fun e => srcEl (from_ e), []⟩, 0),
    m := m, resumes := false }

/-- VPERM: indices in the first beats cycles, the elements they name in the next (DEDUCED, log 17). -/
def permVR (p : PV) (s : State) : VR :=
  let rd := s.read
  let d := s.opnd p.d p
  let a := s.opnd p.a p
  let b := s.opnd p.b p
  let mk := s.maskOf p
  let n := d.n
  let rows := d.rows
  let all := d :: a :: b :: mk.toList
  let l := lanes all
  let beats := beatsOf l n rows
  let time := 6 + 2 * beats
  let m := n * rows
  let lane (e : Nat) : Bool := match mk with | some o => o.bits rd e != 0 | none => true
  let index (e : Nat) : Int := zRead b.r.fmt (b.bits rd e)
  let inside (e : Nat) : Bool := 0 ≤ index e && index e < a.n
  let from_ (e : Nat) : Nat := e / n * a.n + (index e).toNat
  let ok := all.all (fun o => known o.r.fmt && !o.r.sen && o.bindOk false && o.placed && o.rows == rows) && isZ b.r.fmt
    && fmtBits a.r.fmt == fmtBits d.r.fmt && !isQ4 a.r.fmt && b.n == n && (mk.all fun o => isZ o.r.fmt && o.n == n) && fracOk all
    && d.dstOk && m ≤ 65536 && apart d a && apart d b
  let srcsOf (e : Nat) : List SrcEl :=
    let t := beatOf l n e
    (match mk with | some o => [(⟨t, o.loc e, o.r.eb, o.reg, e⟩ : SrcEl)] | none => [])
    ++ (if lane e then (⟨t, b.loc e, b.r.eb, b.reg, e⟩ : SrcEl) :: (if inside e then [⟨beats + t, a.loc (from_ e), a.r.eb, a.reg, e⟩] else []) else [])
  { c3 := Res.all ([Res.need ok cIllegalOperand] ++ all.map Opnd.align), regs := all.map (·.reg), time := time, occ := 2 * beats, srcs := (List.range m).flatMap srcsOf,
    dst := (List.range m).map fun e => (time - (beats - 1 - beatOf l n e), d.loc e, d.r.eb),
    outs := fun _ _ => ((List.range beats).map fun t =>
      ⟨time - (beats - 1 - t), (beatEls l n t).flatMap fun e =>
        if lane e then placeLE (d.loc e) d.r.eb (if inside e then a.bits rd (from_ e) else 0)
        else if p.zero then placeLE (d.loc e) d.r.eb 0 else [], (beatEls l n t).flatMap srcsOf, []⟩, 0),
    m := m, resumes := false }

def execVtrn (h : Head) (p : PV) (s : State) : Out := runV (.vtrn h p) (trnVR p) s
def execVperm (h : Head) (p : PV) (s : State) : Out := runV (.vperm h p) (permVR p) s

/-! ### Quantisation (R103, R109, R110, R237, R238) -/

/-- The scales of a region lie in the pool on multiples of 4 (R103). (DEDUCED, log 44) -/
def scalesOk (o : Opnd) : Bool := o.m == 0 || o.r.scaleAddr (o.rows - 1) (o.n - 1) + 4 ≤ 2 ^ 23
def scalesAligned (o : Opnd) : Res := Res.needW (o.r.sbase % 4 == 0 && o.r.sstr % 4 == 0) cAlign o.r.sbase 0
def Opnd.scaleOf (o : Opnd) (e : Nat) : Nat := o.r.scaleAddr (e / o.n) (e % o.n)
def scaled (o : Opnd) : Bool := (isQ4 o.r.fmt || o.r.fmt == 8) && o.r.sen

/-- VDQN (R103, R238). Among the tests of check 3 the ALIGN of the scales comes after QUEUE_FAULT (DESIGN CHOICE, log 96). -/
def dqnVR (p : PV) (s : State) : VR :=
  let rd := s.read
  let d := s.opnd p.d p
  let a := s.opnd p.a p
  let mk := s.maskOf p
  let ok := scaled a && isF d.r.fmt && !d.r.sen && !(mk.any (·.r.sen)) && scalesOk a
  let f : ElFn := fun e xs => dequant a.r.fmt d.r.fmt p.rm p.sat (xs.getD 0 0) (fp32.read (rd (a.scaleOf e) 4))
  let v := ewVR s.kc rd d [a] mk p.zero (if ok then some f else none) true true 6 (fun e => [(a.scaleOf e, 4, a.reg)])
  { v with c3 := v.c3.and (scalesAligned a) }

/-- The scale block of element e (R103). -/
def Opnd.block (o : Opnd) (e : Nat) : Nat × Nat := (e / o.n / 2 ^ o.r.blkr, e % o.n / 2 ^ o.r.blkc)
def Opnd.blockScaleAddr (o : Opnd) (b : Nat × Nat) : Nat := o.r.sbase + b.1 * o.r.sstr + 4 * b.2

/-- The scale VQNT.auto gives a block: the largest magnitude of its lanes, over 448 for FP8E4 (R237). Its rounding sets no flag (DESIGN CHOICE, log 81). -/
def blockScale (rd : Nat → Nat → Nat) (d a : Opnd) (mk : Option Opnd) (b : Nat × Nat) : FV :=
  let lane (e : Nat) : Bool := match mk with | some o => o.bits rd e != 0 | none => true
  let fa := (fmtF a.r.fmt).getD fp32
  let vs := (((List.range d.m).filter fun e => d.block e == b && lane e).map fun e => fa.read (a.bits rd e)).filter (!·.isNan)
  if vs.any fun v => match v with | .inf _ => true | _ => false then .inf false
  else
    let mx := (vs.map fun v => v.int.natAbs).foldl Nat.max 0
    if isQ4 d.r.fmt then .fin false mx else fp32.read (fp32.roundQ 0 false false mx (448 * one149)).1

/-- VQNT (R237). The scales of the .auto form are written in its last cycle, in the order of their blocks, and reserve no bank (DESIGN CHOICE, log 81). (DEDUCED, log 44) -/
def qntVR (h : Head) (p : PV) (s : State) : VR :=
  let rd := s.read
  let d := s.opnd p.d p
  let a := s.opnd p.a p
  let mk := s.maskOf p
  let auto := h.fn == 0
  let fa := (fmtF a.r.fmt).getD fp32
  let ok := scaled d && isF a.r.fmt && !a.r.sen && !(mk.any (·.r.sen)) && scalesOk d
  let table := ((List.range d.m).map d.block).eraseDups.map fun b => (b, if auto then blockScale rd d a mk b else fp32.read (rd (d.blockScaleAddr b) 4))
  let sc (e : Nat) : FV := ((table.find? (·.1 == d.block e)).map (·.2)).getD (.fin false 0)
  let f : ElFn := fun e xs => quant d.r.fmt p.rm (xs.getD 0 0) (fa.read (xs.getD 0 0)) (sc e)
  let v := ewVR s.kc rd d [a] mk p.zero (if ok then some f else none) true false 6
    (if auto then fun _ => [] else fun e => [(d.scaleOf e, 4, d.reg)])
  let v := { v with c3 := v.c3.and (scalesAligned d), resumes := false }
  if !auto then v
  else
    let beats := v.occ
    let time := 6 + 2 * beats
    -- a beat rests on every lane of its elements' blocks
    let mates (b : OutBeat) : List SrcEl :=
      let bl := (b.srcs.map fun e => d.block e.el).eraseDups
      v.srcs.filter fun e => bl.contains (d.block e.el)
    { v with
      time := time, occ := 2 * beats,
      srcs := v.srcs ++ v.srcs.map fun e => { e with off := beats + e.off },
      dst := v.dst.map fun e => (e.1 + beats, e.2),
      outs := fun lo hi =>
        let (bs, g) := v.outs lo hi
        let scales := table.flatMap fun b => placeLE (d.blockScaleAddr b.1) 4 (fp32.conv 0 false b.2).1
        ((bs.map fun b => { b with off := b.off + beats, srcs := mates b }) ++ (if bs.isEmpty then [] else [⟨time, scales, v.srcs, []⟩]), g) }

def execVqnt (h : Head) (p : PV) (s : State) : Out := runV (.vqnt h p) (qntVR h p) s
def execVdqn (h : Head) (p : PV) (s : State) : Out := runV (.vdqn h p) (dqnVR p) s

end Sys2Proof.Machine
end

