-- ==== Sys2Proof/Machine/Causeway.lean ====
section
/-! DEFINITION. The causeway instructions (R259 to R263): a branch added into an X32 half or subtracted from it, and the position-weighted checksum. -/

namespace Sys2Proof.Machine

/-- One element of CWADD or CWSUB (R261): the half, then the branch. -/
def causeway (sub conv : Bool) (frac : Nat) : ElFn := fun _ xs =>
  let k := sgn 32 (xs.getD 0 0)
  let (b, f) := if conv then causewayQ frac (fp32.read (xs.getD 1 0)) else (sgn 32 (xs.getD 1 0), 0)
  let v := if sub then k - b else k + b
  let (r, g) := zPut 13 false v
  (r, orF f g)

/-- CWADD and CWSUB (R260 to R262): D is read and written, A alone may be bound to a queue (R215). -/
def causewayVR (sub : Bool) (h : Head) (p : PV) (s : State) : VR :=
  let d := s.opnd p.d p
  let a := s.opnd p.a p
  let mk := s.maskOf p
  let conv := h.fn == 0
  let ok := isX d.r.fmt && (if conv then sameFmt a.r.fmt 12 else isX a.r.fmt) && d.r.qb == 31
    && mk.all (·.r.qb == 31) && !(d.r.sen || a.r.sen || mk.any (·.r.sen))
  ewVR s.kc s.read d [d, a] mk false (if ok then some (causeway sub conv d.r.frac) else none) true true 6 (lan := some 128)

/-- CWSUM (R263). Only element (0, 0) of D counts. -/
def cwsumVR (h : Head) (p : PV) (s : State) : VR :=
  let rd := s.read
  let d := s.opnd p.d p
  let a := s.opnd p.a p
  let mk := s.maskOf p
  let n := a.n
  let l := lanes (a :: mk.toList)
  let beats := beatsOf l n a.rows
  let time := 8 + beats
  let m := n * a.rows
  let add := h.fn == 1
  let lane (e : Nat) : Bool := match mk with | some o => o.bits rd e != 0 | none => true
  let x : EW := { d := a, ops := [a], mask := mk, f := fun _ _ => (0, 0) }
  let ok := isX a.r.fmt && (d.r.fmt == 5 || d.r.fmt == 6) && (mk.all fun o => isZ o.r.fmt && o.n == n && o.rows == a.rows)
    && (d :: a :: mk.toList).all (fun o => !o.r.sen && o.bindOk false) && (a :: mk.toList).all Opnd.placed
    && d.r.base + 4 ≤ 2 ^ 23 && m ≤ 65536
  let own : List SrcEl := if add then [⟨0, d.r.base, 4, d.reg, 0⟩] else []
  let srcEls := own ++ (List.range m).flatMap fun e => x.reads rd (beatOf l n e) e
  { c3 := Res.all ([Res.need ok cIllegalOperand] ++ (a :: mk.toList).map Opnd.align ++ [Res.needW (d.r.base % 4 == 0) cAlign d.r.base 0]),
    regs := d.reg :: a.reg :: (mk.map (·.reg)).toList, time := time, occ := beats, srcs := srcEls, dst := [(time, d.r.base, 4)],
    outs := fun _ _ =>
      let c := (((List.range m).filter lane).map fun (e : Nat) => (2 * (e : Int) + 1) * sgn 32 (a.bits rd e)).sum
      let old : Int := if add then sgn 32 (rd d.r.base 4) else 0
      let bs := placeLE d.r.base 4 (zBits 5 (old + c))
      ([⟨time, bs, srcEls, []⟩], 0),
    m := m, resumes := false }

def execCwadd (h : Head) (p : PV) (s : State) : Out := runV (.cwadd h p) (causewayVR false h p) s
def execCwsub (h : Head) (p : PV) (s : State) : Out := runV (.cwsub h p) (causewayVR true h p) s
def execCwsum (h : Head) (p : PV) (s : State) : Out := runV (.cwsum h p) (cwsumVR h p) s

end Sys2Proof.Machine
end

