-- ==== Sys2Proof/Machine/Sort.lean ====
section
/-! DEFINITION. The sort-array instructions (R268, R272 to R279, R400). -/

namespace Sys2Proof.Machine

/-- SKEY (R272): SCFG takes its new value at the end of the issue cycle. -/
def execSkey (h : Head) (p : PV) (s : State) : Out :=
  .next (issue (.skey h p) { time := 1, eff := fun s => s.post 0 [.scfg (h.fn.toNat + 8 * (p.mx % 8))] } s)

/-- PL of MODE, 0 meaning 15 (R273, R274). (DEDUCED, log 55) -/
def plOf (p : PV) : Nat := if p.mx % 16 == 0 then 15 else p.mx % 16
/-- The array is free of an earlier instruction's occupancy; the resident state is readable only then (R278, R415). -/
def arrayFree (s : State) : Res := Res.ready (vget s.kc.occ 2 0 ≤ s.t0) 7 0
/-- A KP64 region within the entry's limits (R273, R275, R277). (DEDUCED, log 55) -/
def kpOk (o : Opnd) : Bool := isKP o.r.fmt && !o.r.sen && o.r.qb == 31 && o.placed
/-- The trap of a sort-array cell that holds an uncorrectable error (R400). -/
def cellTrap (c : Nat) : TrapInfo := ⟨cDataPoison, 0, 3 * 2 ^ 21 + 31 * 2 ^ 16 + c⟩
/-- The state after DATA_POISON or a failing dump: no longer valid (R274, R278). -/
def invalid (s : State) : Eff := .sort { s.kc.sort with valid := false } 0

/-- An instruction that keeps the sort array's cells in use until its Time ends (R278, R400). -/
def usesCells : Instr → Bool
  | .sort _ _ | .sortc _ _ | .sortcLd _ _ | .sortu _ _ | .sortuDump _ _ | .smrg _ _ => true
  | _ => false
/-- Sources read, the first that meets poison stopping the instruction (R278). -/
def sortRead (i : Instr) (srcs : List SrcEl) (done : State → State) (s : State) : State :=
  match srcs.find? fun e => (s.kc.poisonIn e.a e.n).isSome with
  | some e =>
    let (t, hook) := s.srcPoison ((s.kc.poisonIn e.a e.n).getD 0) e.reg
    s.postDetect i e.off t 0 hook [invalid s, .vprog 0]
  | none => done s

/-- What the sort instructions have in common; a guard-false one occupies the array only. -/
def sortPlan (occ time : Nat) (s : State) : Plan :=
  { c5b := arrayFree s, c5F := arrayFree s, time := time, effF := fun s => s.occupy 2 occ }

def srcUses (t0 : Nat) (srcs : List SrcEl) : List Use := usesAt t0 false (srcs.map fun e => (e.off, e.a, e.n))
def toSrcs (t0 : Nat) (srcs : List SrcEl) : List Src := srcs.map fun e => ⟨e.a, e.n, t0 + e.off, t0 + e.off, false⟩

/-! ### SORT (R273) -/

def sortSrcs (o : Opnd) (m : Nat) : List SrcEl := (List.range m).map fun e => ⟨e / 128, o.loc e, 8, o.reg, e⟩
/-- Cells of a loaded tile; the pair and the tag of a sentinel are open (DESIGN CHOICE, log 4). -/
def loadCells (rd : Nat → Nat → Nat) (fr : Nat) (o : Opnd) (m : Nat) : List Cell :=
  (List.range 16384).map fun e =>
    if e < m then { pair := BitVec.ofNat 64 (rd (o.loc e) 8), tag := e, sent := false }
    else { pair := freeDword fr (8 * e), tag := (Config.freeByte fr (2 ^ 18 + e)).toNat, sent := true }

def sortPost (i : Instr) (p : PV) (s : State) : State :=
  let o := opndOf s.kc p.a.toNat 0
  let pl := plOf p
  let srcs := sortSrcs o o.m
  sortRead i srcs (fun s =>
    let x : SortState := { valid := true, cells := loadCells s.read s.free o o.m, n := o.m, p := 0, s := 0, pl := pl, cfg := s.kc.scfg }
    (s.modK fun k => { k with sortBad := [] }).post (131 + 128 * pl) [.sort x (s.t0 + 128)] (toSrcs s.t0 srcs)) s

def planSort (h : Head) (p : PV) (s : State) : Plan :=
  let o := opndOf s.kc p.a.toNat 0
  let t := 132 + 128 * plOf p
  let srcs := sortSrcs o o.m
  { sortPlan t t s with
    rd3 := [.st o.reg], c3 := (Res.need (kpOk o && o.m ≤ 16384) cIllegalOperand).and o.align, use := srcUses s.t0 srcs,
    reads := srcs.map fun e => (e.a, e.n), acc := true, eff := fun s => sortPost (.sort h p) p (s.occupy 2 t) }
def execSort (h : Head) (p : PV) (s : State) : Out := .next (issue (.sort h p) (planSort h p s) s)

/-! ### Dumps (R276) -/

def dumpBytes : Nat := 163904
/-- The dump read or written in address order, two beats a cycle. -/
def dumpSrcs (a reg : Nat) : List SrcEl := (List.range 161).map fun t => ⟨t, a + 1024 * t, Nat.min 1024 (dumpBytes - 1024 * t), reg, t⟩
/-- The state record is one that R276 allows. -/
def recordOk (rd : Nat → Nat → Nat) (a : Nat) : Bool :=
  let r := a + 163840
  let cfg := rd (r + 5) 1
  rd r 2 ≤ 16384 && rd (r + 2) 1 ≤ 15 && (rd (r + 2) 1 != 15 || rd (r + 3) 1 == 0) && rd (r + 3) 1 ≤ 127
  && 1 ≤ rd (r + 4) 1 && rd (r + 4) 1 ≤ 15 && cfg % 8 ≤ 4 && cfg < 64 && rd (r + 6) 58 == 0
/-- Tests of a dump's register (R276, R279). -/
def dumpTests (o : Opnd) : Res :=
  Res.all [Res.need (isKP o.r.fmt && !o.r.sen && o.r.base + dumpBytes ≤ 2 ^ 23) cIllegalOperand,
           Res.needW (o.r.base % 64 == 0) cAlign o.r.base 0]
def dumpCells (rd : Nat → Nat → Nat) (a : Nat) : List Cell :=
  (List.range 16384).map fun e =>
    let t := rd (a + 131072 + 2 * e) 2
    { pair := BitVec.ofNat 64 (rd (a + 8 * e) 8), tag := t % 2 ^ 14, sent := t.testBit 15 }
/-- No tag half has bit 14 set, and N of them are no sentinels. -/
def dumpOk (rd : Nat → Nat → Nat) (a n : Nat) : Bool :=
  let ts := (List.range 16384).map fun e => rd (a + 131072 + 2 * e) 2
  ts.all (!·.testBit 14) && (ts.filter (!·.testBit 15)).length == n

/-- The bytes of a dump of a state. -/
def SortState.dump (x : SortState) (a : Nat) : List (Nat × Byte) :=
  (x.cells.zipIdx.flatMap fun c => placeLE (a + 8 * c.2) 8 c.1.pair.toNat)
  ++ (x.cells.zipIdx.flatMap fun c => placeLE (a + 131072 + 2 * c.2) 2 ((if c.1.sent then 2 ^ 15 else 0) + c.1.tag % 2 ^ 14))
  ++ placeLE (a + 163840) 2 x.n ++ placeLE (a + 163842) 1 x.p ++ placeLE (a + 163843) 1 x.s ++ placeLE (a + 163844) 1 x.pl
  ++ placeLE (a + 163845) 1 x.cfg ++ placeLE (a + 163846) 58 0
/-- The state a dump describes. -/
def undump (rd : Nat → Nat → Nat) (a : Nat) : SortState :=
  let r := a + 163840
  { valid := true, cells := dumpCells rd a, n := rd r 2, p := rd (r + 2) 1, s := rd (r + 3) 1, pl := rd (r + 4) 1, cfg := rd (r + 5) 1 }

/-! ### SORTC (R274) -/

/-- R of R274. -/
def SortState.steps (x : SortState) (pl : Nat) : Nat := if pl > x.p then 128 * (pl - x.p) - x.s else 0

def sortcPost (i : Instr) (p : PV) (s : State) : State :=
  let x := s.kc.sort
  match s.kc.sortBad with
  | c :: _ => s.postDetect i 0 (cellTrap c) 0 false [invalid s]
  | [] => s.post (3 + x.steps (plOf p)) [.sort { x with pl := plOf p } s.t0] [] (some (s.origin i))

def planSortc (h : Head) (p : PV) (s : State) : Plan :=
  let t := 4 + s.kc.sort.steps (plOf p)
  { sortPlan t t s with
    c3 := (arrayFree s).and (Res.need s.kc.sort.valid cSortState), eff := fun s => sortcPost (.sortc h p) p (s.occupy 2 t) }
def execSortc (h : Head) (p : PV) (s : State) : Out := .next (issue (.sortc h p) (planSortc h p s) s)

/-- SORTC.ld (R274, R276). A tag half with bit 14 set raises with the count, at issue + 161 (DESIGN CHOICE, log 98). -/
def sortcLdPost (i : Instr) (p : PV) (s : State) : State :=
  let o := opndOf s.kc p.a.toNat 0
  let a := o.r.base
  let srcs := dumpSrcs a o.reg
  sortRead i srcs (fun s =>
    let x := undump s.read a
    let s := s.modK fun k => { k with sortBad := [] }
    if dumpOk s.read a x.n then s.post (164 + x.steps (plOf p)) [.sort { x with pl := plOf p } (s.t0 + 161)] (toSrcs s.t0 srcs)
    else s.postDetect i 161 ⟨cSortState, 0, 0⟩ 0 false [invalid s]) s

def planSortcLd (h : Head) (p : PV) (s : State) : Plan :=
  let o := opndOf s.kc p.a.toNat 0
  let a := o.r.base
  let rd := s.draw.read
  let t := 165 + (undump rd a).steps (plOf p)
  let srcs := dumpSrcs a o.reg
  { sortPlan t t s with
    rd3 := [.st o.reg], bank3 := if dumpTests o == .ok then usesOf (a + 163840) 64 s.t0 false else [],
    c3 := Res.all [dumpTests o, s.structPoison (a + 163840) 64, Res.need (recordOk rd a) cSortState],
    use := srcUses s.t0 srcs, reads := [(a, dumpBytes)], acc := true,
    eff := fun s => sortcLdPost (.sortcLd h p) p (s.occupy 2 t) }
def execSortcLd (h : Head) (p : PV) (s : State) : Out := .next (issue (.sortcLd h p) (planSortcLd h p s) s)

/-! ### SORTU (R275) -/

def sortuPost (i : Instr) (t : Nat) (bs : List (Nat × Byte)) (s : State) : State :=
  match s.kc.sortBad with
  | c :: _ => s.postDetect i 0 (cellTrap c) 0 false [invalid s]
  | [] => s.post t [.pool bs [] (wholeGranules bs)] [] (some (s.origin i))

/-- The real cells at D's elements, in boustrophedon order. -/
def sortuBytes (p : PV) (s : State) : List (Nat × Byte) :=
  let o := opndOf s.kc p.d.toNat 0
  s.kc.sort.unload.zipIdx.flatMap fun c => placeLE (o.loc c.2) 8 c.1.pair.toNat
def sortuDumpBytes (p : PV) (s : State) : List (Nat × Byte) := s.kc.sort.dump (opndOf s.kc p.d.toNat 0).r.base

/-- Destination banks claimed for writing at issue and locked to the end of the Time (R75). -/
def lockDest (rs : List (Nat × Nat)) (t0 time : Nat) (p : Plan) : Plan :=
  { p with use := p.use ++ (rs.flatMap fun r => usesOf r.1 r.2 t0 true), take := p.take ++ claimsOf rs t0 (t0 + time) .lock }

def planSortu (h : Head) (p : PV) (s : State) : Plan :=
  let o := opndOf s.kc p.d.toNat 0
  let x := s.kc.sort
  lockDest (o.r.ranges o.rows o.n) s.t0 134
    { sortPlan 128 134 s with
      rd3 := [.st o.reg],
      c3 := Res.all [Res.need (kpOk o && o.dstOk) cIllegalOperand, o.align, arrayFree s, Res.need (x.valid && o.m == x.n) cSortState],
      acc := true, eff := fun s => sortuPost (.sortu h p) 134 (sortuBytes p s) (s.occupy 2 128) }
def execSortu (h : Head) (p : PV) (s : State) : Out := .next (issue (.sortu h p) (planSortu h p s) s)

def planSortuDump (h : Head) (p : PV) (s : State) : Plan :=
  let o := opndOf s.kc p.d.toNat 0
  lockDest [(o.r.base, dumpBytes)] s.t0 167
    { sortPlan 161 167 s with
      rd3 := [.st o.reg], c3 := Res.all [dumpTests o, arrayFree s, Res.need s.kc.sort.valid cSortState],
      acc := true, eff := fun s => sortuPost (.sortuDump h p) 167 (sortuDumpBytes p s) (s.occupy 2 161) }
def execSortuDump (h : Head) (p : PV) (s : State) : Out := .next (issue (.sortuDump h p) (planSortuDump h p s) s)

/-! ### SMRG (R277): beats of 64 pairs, the last in the last cycle -/

def smrgSrcs (a b : Opnd) : List SrcEl :=
  let part (o : Opnd) (t : Nat) : List SrcEl :=
    (List.range (Nat.min 64 (o.m - 64 * t))).map fun j => ⟨t, o.loc (64 * t + j), 8, o.reg, 64 * t + j⟩
  (List.range 128).flatMap fun t => part a t ++ part b t
def runOf (rd : Nat → Nat → Nat) (o : Opnd) : List Cell :=
  (List.range o.m).map fun e => { pair := BitVec.ofNat 64 (rd (o.loc e) 8), sent := false }

/-- SMRG's beats (R277). Of a D with more beats than the Time has cycles the first ones fall in the issue cycle (DESIGN CHOICE, log 99). -/
def smrgPost (i : Instr) (p : PV) (s : State) : State :=
  let k := s.kc
  let d := opndOf k p.d.toNat 0
  let a := opndOf k p.a.toNat 0
  let b := opndOf k p.b.toNat 0
  let srcs := smrgSrcs a b
  let s := s.modK fun k => { k with sort := { k.sort with valid := false }, sortBad := [] }
  sortRead i srcs (fun s =>
    let out := mergeRuns (k.scfg % 32) (a.m + b.m) (runOf s.read a) (runOf s.read b)
    let vs := out.map (·.pair.toNat)
    let whole := wholeGranules (vs.zipIdx.flatMap fun v => placeLE (d.loc v.2) 8 v.1)
    let n := beatsOf 64 d.n d.rows
    (List.range n).foldl (fun s b =>
      s.post (326 - (n - 1 - b)) [.pool ((beatEls 64 d.n b).flatMap fun e => placeLE (d.loc e) 8 (vs.getD e 0)) [] (if b + 1 == n then whole else [])]
        (srcs.map (SrcEl.toSrc s.t0 326))) s) s

def planSmrg (h : Head) (p : PV) (s : State) : Plan :=
  let k := s.kc
  let d := opndOf k p.d.toNat 0
  let a := opndOf k p.a.toNat 0
  let b := opndOf k p.b.toNat 0
  let srcs := smrgSrcs a b
  let n := beatsOf 64 d.n d.rows
  { sortPlan 320 326 s with
    rd3 := [.st d.reg, .st a.reg, .st b.reg],
    c3 := Res.all [Res.need (kpOk d && kpOk a && kpOk b && d.dstOk && a.m ≤ 8192 && b.m ≤ 8192 && d.m == a.m + b.m) cIllegalOperand,
                   d.align, a.align, b.align],
    use := srcUses s.t0 srcs ++ usesAt s.t0 true ((List.range n).flatMap fun b => (beatEls 64 d.n b).map fun e => (326 - (n - 1 - b), d.loc e, 8)),
    take := claimsOf (d.r.ranges d.rows d.n) s.t0 (s.t0 + 326) .lock, reads := srcs.map fun e => (e.a, e.n), acc := true,
    eff := fun s => smrgPost (.smrg h p) p (s.occupy 2 320) }
def execSmrg (h : Head) (p : PV) (s : State) : Out := .next (issue (.smrg h p) (planSmrg h p s) s)

end Sys2Proof.Machine
end

