-- ==== Sys2Proof/Machine/Matrix.lean ====
section
/-! DEFINITION. The matrix engine (R240 to R258) and its sums (R104, R112). -/

namespace Sys2Proof.Machine

/-! ### Exact sums (R112) -/

/-- An exact value in a unit that the context fixes. -/
inductive Ext where
  | fin (v : Int)
  | inf (neg : Bool)
  | nan
  deriving DecidableEq, Repr

def Ext.of : FV → Ext
  | .fin n k => .fin (FV.fin n k).int
  | .inf n => .inf n
  | .nan _ => .nan
def Ext.mul : Ext → Ext → Ext
  | .fin a, .fin b => .fin (a * b)
  | .nan, _ => .nan
  | _, .nan => .nan
  | .fin a, .inf n => if a == 0 then .nan else .inf (n != decide (a < 0))
  | .inf n, .fin a => if a == 0 then .nan else .inf (n != decide (a < 0))
  | .inf m, .inf n => .inf (m != n)
def Ext.add : Ext → Ext → Ext
  | .fin a, .fin b => .fin (a + b)
  | .nan, _ => .nan
  | _, .nan => .nan
  | .inf m, .inf n => if m == n then .inf m else .nan
  | .inf m, .fin _ => .inf m
  | .fin _, .inf n => .inf n

def unitScale : FV := .fin false one149

/-- One chunk promoted into an accumulator element (R112): terms, sa, sw. -/
def promote (acc : Nat) (terms : List (FV × FV)) (sa sw : FV) : Nat :=
  if terms.isEmpty then acc
  else
    let sum := (terms.map fun t => (Ext.of t.1).mul (Ext.of t.2)).foldl Ext.add (.fin 0)
    let t := (sum.mul (Ext.of sa)).mul (Ext.of sw)
    match t, fp32.read acc with
    | .fin 0, _ => acc
    | .nan, _ => fp32.canon
    | _, .nan _ => fp32.canon
    | .inf m, .inf n => if m == n then fp32.sign m fp32.infBits else fp32.canon
    | .inf m, _ => fp32.sign m fp32.infBits
    | .fin _, .inf n => fp32.sign n fp32.infBits
    | .fin v, a => (fp32.roundI 0 false (a.int * 2 ^ 447 + v) (2 ^ 596)).1

/-! ### Shapes -/

inductive MKind where
  | mma | mmah | mmat | m16 | mmas | mq4
  deriving DecidableEq, Repr

/-- Operand formats by FN[2:0] (R242). -/
def mFmts (f : Nat) : Nat × Nat :=
  match f with
  | 0 => (10, 10)
  | 1 => (11, 11)
  | 3 => (9, 9)
  | 4 => (8, 9)
  | 5 => (9, 8)
  | _ => (8, 8)

/-- A multiplying instruction on the registers as they stand (R241 to R244). -/
structure Mul where
  kind : MKind
  fa : Nat
  fb : Nat
  scA : Bool
  scB : Bool
  chunk : Nat
  rho : Nat
  /-- Rows of A, columns of B, K, as the core holds them. -/
  m : Nat
  n : Nat
  k : Nat
  /-- Result rows and columns, and its tiles. -/
  rows : Nat
  cols : Nat
  tr : Nat
  tc : Nat
  ra : Nat
  rb : Nat
  a : Nat
  b : Nat
  slotA : Nat
  slotB : Nat
  /-- Address of the first tile. -/
  base : Nat
  /-- Block origin and the last row, column and k of MMA16 (R250). -/
  oi : Nat := 0
  oj : Nat := 0
  li : Nat := 0
  lj : Nat := 0
  lk : Nat := 15
  reg : Nat := 511
  mr : Region

/-- Rows or columns of a core's own blocks in the group form (R244). -/
def localDim (g : Bool) (n mod at_ : Nat) : Nat :=
  if !g then n else (((List.range (ceilDiv n 128)).filter fun b => b % mod == at_).map fun b => Nat.min 128 (n - 128 * b)).sum

def Core.accBase (k : Core) (t : Nat) : Nat := (128 - fld (k.part.zeroExtend 64) 7 0 + t) * 2 ^ 16
def Core.accTiles (k : Core) : Nat := fld (k.part.zeroExtend 64) 7 0

/-- Address of slot number c of a ring (R78). -/
def Ring.slot (r : Ring) (c : Nat) : Nat := 512 * (r.baseb + r.slotb * (c % 2 ^ r.lgn))
def roundUp (n u : Nat) : Nat := ceilDiv n u * u

def mulOf (kind : MKind) (h : Head) (p : PM) (s : State) : Mul :=
  let k := s.kc
  let fn := h.fn.toNat
  let g := fn.testBit 3
  let (w, hh) := match s.myLaunch with | some l => (Nat.max 1 l.w, Nat.max 1 l.hh) | none => (1, 1)
  let blk := kind == .m16
  let m := if blk then 16 else 16 * p.tm.toNat
  let n := if blk then 16 else 16 * p.tn.toNat
  let turn := kind == .mmat
  let m' := if turn then localDim g m w k.rx else localDim g m hh k.ry
  let n' := if turn then localDim g n hh k.ry else localDim g n w k.rx
  let rows := if turn then n' else m'
  let cols := if turn then m' else n'
  let f := fn % 8
  let q4 := kind == .mq4
  let (fa, fb) := if q4 then (8, 14) else mFmts f
  let ra := p.ra.toNat
  let rb := p.rb.toNat
  let qa := vget k.rings ra {}
  let qb := vget k.rings rb {}
  { kind := kind, fa := fa, fb := fb, scA := if q4 then fn.testBit 0 else f == 6, scB := !q4 && f == 6,
    chunk := if q4 || f == 6 then 128 else 16, rho := if !q4 && f < 2 then 4 else 1,
    m := m', n := n', k := if blk then 16 else 16 * p.tk.toNat, rows := rows, cols := cols, tr := ceilDiv rows 128, tc := ceilDiv cols 128,
    ra := ra, rb := rb, a := qa.slot qa.rc, b := qb.slot (if ra == rb then qb.rc + 1 else qb.rc), slotA := 512 * qa.slotb, slotB := 512 * qb.slotb,
    base := k.accBase p.acc.toNat,
    oi := if blk then 16 * p.tm.toNat else 0, oj := if blk then 16 * p.tn.toNat else 0,
    li := p.mm.toNat, lj := p.nn.toNat, lk := if blk then p.kk.toNat else 15, reg := p.mta.toNat, mr := k.region p.mta.toNat }

def Mul.t (q : Mul) : Nat := q.tr * q.tc
/-- Values of a row of A: K, or the K/2 kept ones of MMAS. -/
def Mul.kept (q : Mul) : Nat := if q.kind == .mmas then q.k / 2 else q.k
def Mul.occ (q : Mul) : Nat := if q.kind == .m16 then 1 else q.t * q.kept * q.rho
def Mul.time (q : Mul) : Nat := if q.kind == .m16 then 8 else 12 + q.occ
/-- Bytes of data and of a whole operand with its scales (R241). -/
def Mul.dataA (q : Mul) : Nat := q.m * q.kept * fmtBytes q.fa
def Mul.dataB (q : Mul) : Nat := if isQ4 q.fb then q.k * q.n / 2 else q.k * q.n * fmtBytes q.fb
def Mul.sizeA (q : Mul) : Nat := if q.scA then roundUp q.dataA 512 + 4 * q.m * (q.k / 128) else q.dataA
def Mul.sizeB (q : Mul) : Nat := if q.scB then roundUp q.dataB 512 + 4 * (q.k / 128) * ceilDiv q.n 128 else q.dataB
/-- Scale addresses of MQ4's META register. -/
def Mul.metaScales (q : Mul) : List Nat :=
  (List.range (q.k / 128)).flatMap fun c => (List.range (ceilDiv q.n (2 ^ q.mr.blkc))).map fun b => q.mr.sbase + c * q.mr.sstr + 4 * b
/-- Ranges that META names (R251, R252). -/
def Mul.metaRanges (q : Mul) : List (Nat × Nat) :=
  match q.kind with
  | .mmas => if q.m * q.k == 0 then [] else [(q.mr.base, q.m * q.k / 8)]
  | .mq4 => q.metaScales.map (·, 4)
  | _ => []
/-- The tests of META (R251, R252). -/
def Mul.metaTests (q : Mul) : Res :=
  match q.kind with
  | .mmas => Res.all [Res.need (q.mr.fmt == 2 && q.mr.base + q.m * q.k / 8 ≤ 2 ^ 23) cIllegalOperand, Res.needW (q.mr.base % 1024 == 0) cAlign q.mr.base 0]
  | .mq4 => Res.all [
      Res.need (isQ4 q.mr.fmt && q.mr.sen && q.mr.blkr == 7 && q.mr.blkc ≤ 7 && q.metaScales.all fun a => a + 4 ≤ 2 ^ 23) cIllegalOperand,
      Res.needW (q.mr.sbase % 4 == 0 && q.mr.sstr % 4 == 0) cAlign q.mr.sbase 0]
  | _ => .ok

/-- Slots taken: ring, count (R240). -/
def Mul.claims (q : Mul) : List (Nat × Nat) := if q.ra == q.rb then [(q.ra, 2)] else [(q.ra, 1), (q.rb, 1)]
def ringFault (i k bytes : Nat) (r : Ring) : Res := Res.needW (r.slotb != 0 && k ≤ 2 ^ r.lgn && bytes ≤ 512 * r.slotb) cRingFault 0 i
def Ring.filled (r : Ring) (k : Nat) : Bool := k ≤ (r.tail + 256 - r.rc) % 256

/-! ### Elements -/

def Mul.aEl (rd : Nat → Nat → Nat) (q : Mul) (r c : Nat) : FV :=
  let n := fmtBytes q.fa
  ((fmtF q.fa).getD fp32).read (rd (q.a + (r * q.kept + c) * n) n)
def Mul.bEl (rd : Nat → Nat → Nat) (q : Mul) (k j : Nat) : FV :=
  if isQ4 q.fb then
    let v := rd (q.b + k * (q.n / 2) + j / 2) 1
    q4Val (if j % 2 == 1 then v / 16 else v % 16)
  else
    let n := fmtBytes q.fb
    ((fmtF q.fb).getD fp32).read (rd (q.b + (k * q.n + j) * n) n)
/-- The terms of the chunk that begins at k0, for a row of A and a column of B. -/
def Mul.terms (rd : Nat → Nat → Nat) (q : Mul) (r j k0 : Nat) : List (FV × FV) :=
  if q.kind == .mmas then
    (List.range (q.chunk / 4)).flatMap fun u =>
      let g := k0 / 4 + u
      let v := rd (q.mr.base + r * (q.k / 8) + g / 2) 1 / 16 ^ (g % 2) % 16
      [(q.aEl rd r (2 * g), q.bEl rd (4 * g + v % 4) j), (q.aEl rd r (2 * g + 1), q.bEl rd (4 * g + v / 4) j)]
  else
    ((List.range q.chunk).filter fun u => k0 != 0 || q.kind != .m16 || u ≤ q.lk).map fun u => (q.aEl rd r (k0 + u), q.bEl rd (k0 + u) j)
def Mul.sa (rd : Nat → Nat → Nat) (q : Mul) (r k0 : Nat) : FV :=
  if q.scA then fp32.read (rd (q.a + roundUp q.dataA 512 + 4 * (r * (q.k / 128) + k0 / 128)) 4) else unitScale
def Mul.sw (rd : Nat → Nat → Nat) (q : Mul) (j k0 : Nat) : FV :=
  if q.kind == .mq4 then fp32.read (rd (q.mr.sbase + k0 / 128 * q.mr.sstr + 4 * (j / 2 ^ q.mr.blkc)) 4)
  else if q.scB then fp32.read (rd (q.b + roundUp q.dataB 512 + 4 * (k0 / 128 * ceilDiv q.n 128 + j / 128)) 4)
  else unitScale
/-- Under a NaN or infinite scale a non-zero Q4N code makes its term NaN or infinite, as R252 has it, and a zero code's term stays zero, where R112 alone would multiply the sum by the scale (DESIGN CHOICE, log 82). -/
def scaleTerm (sw : FV) (t : FV × FV) : FV × FV :=
  (t.1, if t.2.isZero then t.2 else match sw with | .inf n => .inf (n != t.2.neg) | _ => .nan false)
/-- One chunk of one element. -/
def Mul.chunkInto (rd : Nat → Nat → Nat) (q : Mul) (r j acc k0 : Nat) : Nat :=
  let ts := q.terms rd r j k0
  let sw := q.sw rd j k0
  match sw with
  | .fin _ _ => promote acc ts (q.sa rd r k0) sw
  | _ => if q.kind == .mq4 then promote acc (ts.map (scaleTerm sw)) (q.sa rd r k0) unitScale else promote acc ts (q.sa rd r k0) sw
/-- All chunks of result element (i, j), from an accumulator value (R249). -/
def Mul.value (rd : Nat → Nat → Nat) (q : Mul) (i j acc : Nat) : Nat :=
  let (r, c) := if q.kind == .mmat then (j, i) else (i, j)
  (List.range (q.k / q.chunk)).foldl (fun v u => q.chunkInto rd r c v (q.chunk * u)) acc

/-- Address of element (i, j) of a result of tc tile columns from a base (R72, R243). -/
def accAddr (base tc i j : Nat) : Nat := base + (i / 128 * tc + j / 128) * 2 ^ 16 + 512 * (i % 128) + 4 * (j % 128)
/-- Result elements with their addresses. -/
def gridOf (rows cols : Nat) : List (Nat × Nat) := (List.range rows).flatMap fun i => (List.range cols).map fun j => (i, j)
def Mul.els (q : Mul) : List (Nat × Nat × Nat) :=
  match q.kind with
  | .m16 => (gridOf (q.li + 1) (q.lj + 1)).map fun e => (e.1, e.2, accAddr q.base 1 (q.oi + e.1) (q.oj + e.2))
  | _ => (gridOf q.rows q.cols).map fun e => (e.1, e.2, accAddr q.base q.tc e.1 e.2)

/-! ### The accumulator path (R245, R246) -/

/-- Accumulator effects pending, oldest first: landing cycle, bytes, whole granules, chaining. -/
def Core.accPend (k : Core) : List (Nat × List (Nat × Byte) × List Nat × Bool) :=
  k.cpu.pend.flatMap fun e => e.effs.filterMap fun f => match f with | .acc bs w c => some (e.land, bs, w, c) | _ => none
/-- An element as the accumulator path reads it. -/
def State.accRead (s : State) : Nat → Nat :=
  let rd : Nat → Byte := match s.kid with | some c => s.accByte c | none => fun _ => 0
  fun a => ofLE ((List.range 4).map fun j => rd (a + j))
/-- The poisoned granule that an element's read meets; one that a pending writer covers whole is no longer poisoned then. -/
def Core.accPoison (k : Core) (a : Nat) : Option Nat :=
  (k.poisonIn a 4).filter fun g => !(k.accPend.any fun p => p.2.2.1.contains g)
/-- An element has a pending writer; of the chaining ones or any (R245). -/
def Core.accHeld (k : Core) (as : List Nat) (any : Bool) : Bool :=
  k.accPend.any fun p => (any || !p.2.2.2) && p.2.1.any fun b => as.contains b.1

/-- Landing cycle of a write to an element: the end of its own Time or of the latest writer it chains on (R245). -/
def Core.accLand (k : Core) (own a : Nat) : Nat :=
  ((k.accPend.filter fun p => p.2.1.any (·.1 == a)).map (·.1)).foldl Nat.max own
def State.accTime (s : State) (own : Nat) (as : List Nat) : Nat := (as.map (s.kc.accLand (s.t0 + own))).foldl Nat.max (s.t0 + own) - s.t0

/-- Elements written through the accumulator path, grouped by landing cycle; each stands among the sources, so that what chains on it is found (R256). -/
def State.accWrite (s : State) (own : Nat) (els : List (Nat × Nat)) (srcs : List Src) : State :=
  let k := s.kc
  let lands := els.map fun e => (k.accLand (s.t0 + own) e.1, e)
  let last := (lands.map (·.1)).foldl Nat.max 0
  let whole := wholeGranules (els.flatMap fun e => placeLE e.1 4 e.2)
  ((lands.map (·.1)).eraseDups).foldl (fun s l =>
    let es := (lands.filter (·.1 == l)).map (·.2)
    s.post (l - s.t0) [.acc (es.flatMap fun e => placeLE e.1 4 e.2) (if l == last then whole else []) true]
      (srcs ++ es.map fun e => ⟨e.1, 4, l, s.t0, true⟩)) s

/-- RC advanced at issue (R79). -/
def claimRings (cs : List (Nat × Nat)) (s : State) : State :=
  cs.foldl (fun s c => s.modK fun k => { k with rings := vmod k.rings c.1 fun r => { r with rc := (r.rc + c.2) % 256 } }) s
/-- RC returned (R256). -/
def unclaimRings (cs : List (Nat × Nat)) (s : State) : State :=
  cs.foldl (fun s c => s.modK fun k => { k with rings := vmod k.rings c.1 fun r => { r with rc := (r.rc + 256 - c.2) % 256 } }) s

/-- The first poison that a multiplying instruction meets, with the operand as g3 gives it (R256, R265). -/
def Mul.poison (q : Mul) (k : Core) : Option (Nat × Nat) :=
  let at_ (rs : List (Nat × Nat)) (op : Nat) : Option (Nat × Nat) := (rs.findSome? fun r => k.poisonIn r.1 r.2).map (·, op)
  let accs : Option (Nat × Nat) :=
    if q.kind == .mmah then none
    else q.els.findSome? fun e => (k.accPoison e.2.2).map (·, 2 ^ 10 + (e.2.2 - k.accBase 0) / 2 ^ 16)
  [at_ [(q.a, q.sizeA)] (2 ^ 9 + q.ra), at_ [(q.b, q.sizeB)] (2 ^ 9 + q.rb), at_ q.metaRanges q.reg, accs].findSome? id

/-- Results, RC and HEAD of a multiplying instruction, or the poison it meets (R240, R245, R256). (DESIGN CHOICE, log 69) -/
def mulPost (i : Instr) (q : Mul) (s : State) : State :=
  match q.poison s.kc with
  | some (g, op) =>
    let (t, hook) := s.srcPoison g op
    let held := q.els.flatMap fun e => placeLE e.2.2 4 (s.accRead e.2.2)
    claimRings q.claims (s.postDetect i (Config.freeNat s.free % (q.time + 1)) t 0 hook [.acc held [] true])
  | none =>
    let rd := s.read
    let acc := s.accRead
    let els := q.els.map fun e => (e.2.2, q.value rd e.1 e.2.1 (if q.kind == .mmah then 0 else acc e.2.2))
    let srcs := ((q.a, q.sizeA) :: (q.b, q.sizeB) :: q.metaRanges).map fun r => (⟨r.1, r.2, s.t0 + q.time, s.t0, false⟩ : Src)
    claimRings q.claims ((s.accWrite q.time els srcs).post q.time (q.claims.map fun c => .ringHead c.1 c.2))

/-- The plan of a multiplying instruction. -/
def mulPlan (i : Instr) (q : Mul) (p : PM) (s : State) : Plan :=
  let k := s.kc
  let as := q.els.map (·.2.2)
  let ok := q.metaTests == .ok
  let mr := q.metaRanges
  let filled := Res.all (q.claims.map fun c => Res.ready ((vget k.rings c.1 {}).filled c.2) 4 c.1)
  let free := Res.ready (q.occ == 0 || vget k.occ 1 0 ≤ s.t0) 7 0
  let n := q.claims.length
  { pre := Res.need (p.acc.toNat + Nat.max 1 q.t ≤ k.accTiles) cIllegalOperand,
    rd3 := .ring q.ra :: .ring q.rb :: (if q.kind == .mmas || q.kind == .mq4 then [.st q.reg] else []),
    look3 := if ok then mr.flatMap fun r => usesOf r.1 r.2 s.t0 false else [],
    c3 := Res.all [
      q.metaTests, s.metaPoison q.metaRanges,
      ringFault q.ra (if n == 1 then 2 else 1) q.sizeA (vget k.rings q.ra {}), ringFault q.rb 1 q.sizeB (vget k.rings q.rb {})],
    c5 := filled, c5b := free.and (Res.ready (!k.accHeld as false) 12 p.acc.toNat), c5F := filled.and free,
    reads := (q.a, q.sizeA) :: (q.b, q.sizeB) :: mr ++ (if q.kind == .mmah then [] else as.map (·, 4)), acc := true, time := s.accTime q.time as, timeF := some q.time,
    eff := fun s => mulPost i q (s.occupy 1 q.occ),
    effF := fun s => (claimRings q.claims (s.occupy 1 q.occ)).post q.time (q.claims.map fun c => .ringHead c.1 c.2) }

def runMul (i : Instr) (kind : MKind) (h : Head) (p : PM) (s : State) : Out := .next (issue i (mulPlan i (mulOf kind h p s) p s) s)

def execMma (h : Head) (p : PM) (s : State) : Out := runMul (.mma h p) .mma h p s
def execMmah (h : Head) (p : PM) (s : State) : Out := runMul (.mmah h p) .mmah h p s
def execMmat (h : Head) (p : PM) (s : State) : Out := runMul (.mmat h p) .mmat h p s
def execMma16 (h : Head) (p : PM) (s : State) : Out := runMul (.mma16 h p) .m16 h p s
def execMmas (h : Head) (p : PM) (s : State) : Out := runMul (.mmas h p) .mmas h p s
def execMq4 (h : Head) (p : PM) (s : State) : Out := runMul (.mq4 h p) .mq4 h p s

/-! ### MZERO (R248) -/

def mzeroPost (q : Mul) (s : State) : State := s.accWrite (4 + q.t) (q.els.map fun e => (e.2.2, 0)) []
def planMzero (h : Head) (p : PM) (s : State) : Plan :=
  let q := mulOf .mma h p s
  let as := q.els.map (·.2.2)
  { c3 := Res.need (p.acc.toNat + Nat.max 1 q.t ≤ s.kc.accTiles) cIllegalOperand,
    c5b := (Res.ready (q.t == 0 || vget s.kc.occ 1 0 ≤ s.t0) 7 0).and (Res.ready (!s.kc.accHeld as false) 12 p.acc.toNat),
    acc := true, time := s.accTime (4 + q.t) as, timeF := some (4 + q.t), eff := fun s => mzeroPost q (s.occupy 1 q.t) }
def execMzero (h : Head) (p : PM) (s : State) : Out := .next (issue (.mzero h p) (planMzero h p s) s)

/-! ### MDRN and MLDA (R253, R254) -/

/-- The window of a drain or load: the pool element and the accumulator element of each (i, j). -/
def windowOf (turn : Bool) (p : PM) (r : Region) (base : Nat) : List (Nat × Nat) :=
  (gridOf r.rows r.cnt).map fun e =>
    let (i, j) := if turn then (e.2, e.1) else e
    ((r.addr e.1 e.2).toNat, accAddr base 1 (16 * p.tm.toNat + i) (16 * p.tn.toNat + j))

def windowOk (turn : Bool) (p : PM) (r : Region) : Bool :=
  let (a, b) := if turn then (r.cnt, r.rows) else (r.rows, r.cnt)
  16 * p.tm.toNat + a ≤ 128 && 16 * p.tn.toNat + b ≤ 128

/-- Tests of the META register as a region (R253, R254). -/
def windowTests (turn dst : Bool) (p : PM) (r : Region) (k : Core) : Res :=
  Res.all [
    Res.need (p.acc.toNat < k.accTiles && (isF r.fmt || isE8 r.fmt) && !r.sen && r.qb == 31 && !(dst && r.estr == 0) && windowOk turn p r) cIllegalOperand,
    r.tests r.rows r.cnt]

def mdrnPost (i : Instr) (h : Head) (p : PM) (t : Nat) (s : State) : State :=
  let fn := h.fn.toNat
  let k := s.kc
  let r := k.region p.mta.toNat
  let ff := (fmtF r.fmt).getD fp32
  let ws := windowOf (fn.testBit 0) p r (k.accBase p.acc.toNat)
  match ws.findSome? fun w => k.accPoison w.2 with
  | some g =>
    let (t, hook) := s.srcPoison g (2 ^ 10 + p.acc.toNat)
    s.postDetect i 0 t 0 hook (if fn.testBit 2 then [.acc (ws.flatMap fun w => placeLE w.2 4 (s.accRead w.2)) [] true] else [])
  | none =>
    let acc := s.accRead
    let bs := ws.flatMap fun w => placeLE w.1 r.eb (ff.conv 0 (fn.testBit 1) (fp32.read (acc w.2))).1
    let s := s.post t [.pool bs [] (wholeGranules bs)]
    if fn.testBit 2 then s.accWrite t (ws.map fun w => (w.2, 0)) [] else s

def planMdrn (h : Head) (p : PM) (s : State) : Plan :=
  let k := s.kc
  let r := k.region p.mta.toNat
  let turn := h.fn.toNat.testBit 0
  let ws := windowOf turn p r (k.accBase p.acc.toNat)
  let t := 4 + ceilDiv (r.rows * r.cnt * r.eb) 512
  let i : Instr := .mdrn h p
  lockDest (r.ranges r.rows r.cnt) s.t0 t
    { rd3 := [.st p.mta.toNat], c3 := windowTests turn true p r k,
      c5b := Res.ready (!k.accHeld (ws.map (·.2)) true) 12 p.acc.toNat, reads := ws.map fun w => (w.2, 4),
      acc := true, time := t, eff := mdrnPost i h p t }
def execMdrn (h : Head) (p : PM) (s : State) : Out := .next (issue (.mdrn h p) (planMdrn h p s) s)

def mldaPost (i : Instr) (p : PM) (t : Nat) (s : State) : State :=
  let k := s.kc
  let r := k.region p.mta.toNat
  let ff := (fmtF r.fmt).getD fp32
  let ws := windowOf false p r (k.accBase p.acc.toNat)
  match ws.findSome? fun w => k.poisonIn w.1 r.eb with
  | some g =>
    let (tr, hook) := s.srcPoison g p.mta.toNat
    s.postDetect i 0 tr 0 hook [.acc (ws.flatMap fun w => placeLE w.2 4 (k.pool.le w.2 4)) [] false]
  | none =>
    let rd := s.read
    let bs := ws.flatMap fun w => placeLE w.2 4 (fp32.conv 0 false (ff.read (rd w.1 r.eb))).1
    s.post t [.acc bs (wholeGranules bs) false]
      ((r.ranges r.rows r.cnt).map (fun (x : Nat × Nat) => (⟨x.1, x.2, s.t0 + t, s.t0, false⟩ : Src))
        ++ ws.map fun (w : Nat × Nat) => ⟨w.2, 4, s.t0 + t, s.t0, true⟩)

def planMlda (h : Head) (p : PM) (s : State) : Plan :=
  let k := s.kc
  let r := k.region p.mta.toNat
  let ws := windowOf false p r (k.accBase p.acc.toNat)
  let src := r.ranges r.rows r.cnt
  let t := 4 + ceilDiv (r.rows * r.cnt * 4) 512
  let i : Instr := .mlda h p
  lockDest (ws.map fun w => (w.2, 4)) s.t0 t
    { rd3 := [.st p.mta.toNat], c3 := windowTests false false p r k, use := src.flatMap fun x => usesOf x.1 x.2 s.t0 false,
      c5b := Res.ready (!k.accHeld (ws.map (·.2)) true) 12 p.acc.toNat, reads := src,
      acc := true, time := t, eff := mldaPost i p t }
def execMlda (h : Head) (p : PM) (s : State) : Out := .next (issue (.mlda h p) (planMlda h p s) s)

/-- MRPOP (R255). -/
def planMrpop (p : PM) (s : State) : Plan :=
  let r := p.ra.toNat
  let n := p.tm.toNat
  let q := vget s.kc.rings r {}
  { rd3 := [.ring r], c3 := ringFault r n 0 q, c5 := Res.ready (q.filled n) 4 r, time := 1,
    eff := fun s => (claimRings [(r, n)] s).post 1 [.ringHead r n] }
def execMrpop (h : Head) (p : PM) (s : State) : Out := .next (issue (.mrpop h p) (planMrpop p s) s)

end Sys2Proof.Machine
end

