-- ==== Sys2Proof/Machine/Copies.lean ====
section
/-! DEFINITION. The copy engine: descriptors, CPY and CPYX, starts, arrivals, landings and refusals, credits and the CRC-32C chain (R74, R83 to R85, R280 to R289, R408). -/

namespace Sys2Proof.Machine

/-! ### Descriptors (R280) -/

/-- A descriptor, its fields as numbers; strides signed. -/
structure Desc where
  src : Nat
  dst : Nat
  ctl : Nat
  sync : Nat
  dims : List (Nat × Int × Int)
  deriving DecidableEq, Repr

def descOf (bs : List Byte) : Desc :=
  let le (o n : Nat) : Nat := ofLE ((bs.drop o).take n)
  { src := le 0 8, dst := le 8 8, ctl := le 16 8, sync := le 24 8,
    dims := (List.range (le 16 1 % 16)).map fun d => (le (32 + 16 * d) 4, sgn 48 (le (36 + 16 * d) 6), sgn 48 (le (42 + 16 * d) 6)) }

/-- The local addresses of R280, their reserved bits left out. -/
def Desc.srcA (d : Desc) : Nat := d.src % 2 ^ 23
def Desc.dstA (d : Desc) : Nat := d.dst % 2 ^ 23
def Desc.f (d : Desc) (hi lo : Nat) : Nat := hdrField d.ctl hi lo
def Desc.ndim (d : Desc) : Nat := d.f 3 0
def Desc.e (d : Desc) : Nat := 2 ^ d.f 13 12
def Desc.dk (d : Desc) : Nat := d.f 15 14
def Desc.sk (d : Desc) : Bool := d.f 16 16 == 1
def Desc.sh (d : Desc) : Nat := d.f 21 17
def Desc.dh (d : Desc) : Nat := d.f 26 22
def Desc.fill (d : Desc) : Bool := d.f 33 33 == 1
def Desc.clip (d : Desc) : Bool := d.f 34 34 == 1
def Desc.scope (d : Desc) : Nat := d.f 37 35
def Desc.dplace (d : Desc) : Nat := d.f 47 38
def Desc.dpart (d : Desc) : Nat := d.f 55 50
def Desc.buf (d : Desc) : Nat := d.f 63 56
def Desc.land (d : Desc) : Nat := d.sync % 2 ^ 23
def Desc.le (d : Desc) : Bool := d.sync.testBit 23
def Desc.tlix (d : Desc) : Nat := hdrField d.sync 38 36
def Desc.tle (d : Desc) : Bool := d.sync.testBit 39
def Desc.count (d : Desc) : Nat := (d.dims.map (·.1)).foldl (· * ·) 1
/-- B of R281. -/
def Desc.b (d : Desc) : Nat := d.e * d.count
/-- Reserved bits (R280). -/
def Desc.resv (d : Desc) : Bool :=
  d.f 49 48 == 0 && d.f 32 27 == 0 && d.f 11 4 == 0 && d.sync / 2 ^ 40 == 0 && hdrField d.sync 35 24 == 0
  && (d.sk || d.src < 2 ^ 23) && (d.dk ≥ 2 || d.dst < 2 ^ 23)

/-- Offsets of the elements in index order, dimension 0 fastest (R281). -/
def offsets : List (Nat × Int) → List Int
  | [] => [0]
  | (n, st) :: rest => (offsets rest).flatMap fun h => (List.range n).map fun (i : Nat) => h + i * st
/-- Lowest and highest offset. -/
def extent : List (Nat × Int) → Int × Int
  | [] => (0, 0)
  | (n, st) :: rest =>
    let (lo, hi) := extent rest
    let far := ((n : Int) - 1) * st
    (lo + min 0 far, hi + max 0 far)
def Desc.sdims (d : Desc) : List (Nat × Int) := d.dims.map fun x => (x.1, x.2.1)
def Desc.ddims (d : Desc) : List (Nat × Int) := d.dims.map fun x => (x.1, x.2.2)
/-- A pool side lies in the pool. -/
def poolSide (base e : Nat) (dims : List (Nat × Int)) : Bool :=
  let (lo, hi) := extent dims
  decide (0 ≤ (base : Int) + lo ∧ (base : Int) + hi + e ≤ 2 ^ 23)

/-- The relative place a place operand names from (rx, ry), when it lies in the rectangle (R35). -/
def Launch.place (l : Launch) (rx ry pl : Nat) : Option (Nat × Nat) :=
  let x : Int := rx + sgn 6 pl
  let y : Int := ry + sgn 4 (pl / 64)
  if 0 ≤ x && x < l.w && 0 ≤ y && y < l.hh then some (x.toNat, y.toNat) else none

/-- The place a copy writes to, on this part or another. -/
def destOf (k : Core) (l : Launch) (d : Desc) : Option (Nat × Nat) := l.place k.rx k.ry d.dplace

/-- Global addresses of a side: v + offset + the element's offset. -/
def globalEls (h : Handle) (base e : Nat) (dims : List (Nat × Int)) : List (Int × Nat) :=
  (offsets dims).map fun o => ((h.v : Int) + sgn 64 base + o, e)

/-! ### CPY and CPYX (R282 to R285, R287) -/

/-- The tests of a descriptor that check 3 makes (R286, R287). A copy from a core's pool to its own goes between a pair of cores too, the core with itself (R37; DESIGN CHOICE, log 90). -/
def descTests (da : Nat) (d : Desc) (crc : Bool) (s : State) : Res :=
  match s.myLaunch with
  | none => Res.need false cIllegalOperand
  | some l =>
    let k := s.kc
    let dst := destOf k l d
    let unrecorded := match dst, s.kid with
      | some (x, y), some c => !d.sk && d.dk == 0 && l.hop c (l.coreOf x y) == 255
      | _, _ => false
    Res.all [
      Res.need (1 ≤ d.ndim && d.ndim ≤ 14 && da + 32 + 16 * d.ndim ≤ 2 ^ 23) cIllegalOperand,
      Res.need (d.dims.all (1 ≤ ·.1) && d.b ≤ 2 ^ 31 && d.scope ≤ 4 && d.dk != 3
        && !(d.dk == 1 && (d.dpart == l.fbix || d.dpart > l.fbn || (s.route d.dpart).isNone))
        && !(crc && (!d.le || d.dk == 2)) && !(d.le && d.dk == 2)
        && !(d.sk && (d.dk == 1 || (d.dk == 0 && d.dplace != 0)))
        && (d.sk || poolSide d.srcA d.e d.sdims) && (d.dk ≥ 2 || poolSide d.dstA d.e d.ddims)
        && (d.dk ≥ 2 || d.clip || dst.isSome) && !unrecorded) cIllegalOperand,
      Res.need d.resv cReservedField,
      Res.needW (d.src % d.e == 0 && d.dst % d.e == 0 && d.dims.all fun x => x.2.1 % (d.e : Int) == 0 && x.2.2 % (d.e : Int) == 0) cAlign da 0,
      (if d.le then landingOk d.land else .ok)]

/-- A copy resolved at its command's issue. -/
structure CopyPlan where
  d : Desc
  t : Nat
  future : Bool
  u : Nat
  n : Nat
  share : Bool
  src : Access
  dst : Access
  void : Bool
  pub : Option Nat

/-- First cycle at or after t at which n cycles meet none of some intervals [lo, hi). -/
def firstFree (n : Nat) (is : List (Nat × Nat)) : Nat → Nat → Nat
  | 0, t => t
  | f + 1, t =>
    match is.find? fun i => i.1 < t + n && t < i.2 with
    | some i => firstFree n is f i.2
    | none => t

/-- A copy whose command issues in cycle n0. -/
def copyPlan (d : Desc) (n0 start : Nat) (s : State) : CopyPlan :=
  let k := s.kc
  let dst := s.myLaunch.bind fun l => destOf k l d
  let void := d.dk < 2 && dst.isNone
  let side (h base : Nat) (dims : List (Nat × Int)) (nd : Need) : Access :=
    let hd := s.me.getH h
    s.resolve hd h (globalEls hd base d.e dims) { nd with clip := d.clip, al := d.e, copy := true }
  let a := if d.sk then side d.sh d.src d.sdims { r := true } else {}
  let b := if d.dk == 2 then side d.dh d.dst d.ddims { w := true } else {}
  let any := d.sk || d.dk == 2
  let share := (d.sk && a.timed) || (d.dk == 2 && b.timed)
  let all := (!d.sk || a.timed) && (d.dk != 2 || b.timed)
  let n := if void then 0 else ceilDiv d.b (if share then Nat.min k.share 128 else 128)
  -- T compared modulo 2^48 (R48)
  let ahead := (start + 2 ^ 48 - n0 % 2 ^ 48) % 2 ^ 48
  let future := 0 < ahead && ahead < 2 ^ 47
  let t := if future then n0 + ahead else n0 + 1
  let claimed := if share then k.shares else []
  let u := if n == 0 then t else firstFree n (k.spans ++ claimed) (k.spans.length + claimed.length + 1) t
  let hop := match dst, s.kid, s.myLaunch with | some (x, y), some c, some l => l.hop c (l.coreOf x y) | _, _, _ => 0
  let pub : Option Nat :=
    if void then some 0
    else if any then (if all && !(d.sk && d.dk == 2) then some (340 + s.hopN + n) else none)
    else if d.dk == 0 then some (20 + hop + ceilDiv d.b 128) else none
  { d := d, t := t, future := future, u := u, n := n, share := share, src := a, dst := b, void := void, pub := pub }

/-- The last cycle in which a copy's checksum slot is pending (R288). -/
def CopyPlan.ckLand (q : CopyPlan) : Nat := q.u + Nat.max 1 q.n - 1
/-- A gated CPYX whose write of the slot would not have landed later than the one pending, placed from its stamp or from the issue of that one, waits until that one has landed (R30). -/
def copyWait (d : Desc) (start : Nat → Nat) (crc : Option (Nat × Nat)) (i : Instr) (s : State) : Res :=
  let k := s.kc
  match if s.locked s.cur.hart s.cur.strm then none else crc with
  | none => .ok
  | some (_, slot) =>
    let e := vget k.ckBusy slot 0
    let since := (k.copies.filter fun c => c.crc.any (·.2 == slot)).map (·.issue) ++ (k.cpu.pend.filter fun p => p.effs.any (·.writes (.ck slot))).map (·.issue)
    let m := since.foldl Nat.max (Nat.min s.t0 ((s.stream s.cur.hart s.cur.strm).base + (headOf i).idle.toNat))
    Res.ready (e ≤ s.t0 || e ≤ (copyPlan d m (start m) s).ckLand) 1 slot

/-- Two copies of a core name one route (R284): the same kinds of source and destination, and the same place. -/
def Desc.route (d : Desc) : Bool × Nat × Nat × Nat := (d.sk, d.dk, if d.dk < 2 then d.dplace else 0, if d.dk == 1 then d.dpart else 0)
/-- The landing of a copy that has no published one, at an open distance from its interval, but in the order of the intervals among the copies of its route (R284, R285; DESIGN CHOICE, log 4). -/
def openLand (k : Core) (d : Desc) (u n fr : Nat) : Nat :=
  let mates := k.copies.filter fun e => !e.pub && (descOf e.desc).route == d.route
  let lo := ((mates.filter (·.u < u)).map (·.land)).foldl Nat.max (u + n + Config.freeNat fr)
  ((mates.filter (u < ·.u)).map (·.land)).foldl Nat.min lo

/-- CPY and CPYX: the descriptor's address, the start cycle by the cycle of issue, MODE and slot of a checked copy. (DEDUCED, log 50) -/
def cpyPlan (i : Instr) (rd : List Reg) (da : Nat) (start : Nat → Nat) (crc : Option (Nat × Nat)) (s : State) : Plan :=
  let raw := match s.kid with | some c => s.poolRead c da 32 | none => []
  let inPool := da % 64 == 0 && da < 2 ^ 23
  let size := Nat.min (32 + 16 * (ofLE ((raw.drop 16).take 1) % 16)) (2 ^ 23 - da)
  let bytes := match s.kid with | some c => s.poolRead c da size | none => []
  let d := descOf bytes
  let q := copyPlan d s.t0 (start s.t0) s
  let k := s.kc
  let locked := s.locked s.cur.hart s.cur.strm
  let meets (is : List (Nat × Nat)) : Bool := q.n != 0 && is.any fun r => r.1 < q.t + q.n && q.t < r.2
  let port := match (if d.dk == 1 && !q.void then s.route d.dpart else none) with
    | some p => Res.needW (s.portReady p) cNotReady 0 (portInfo p)
    | none => .ok
  { rd3 := rd, bank3 := if inPool then usesOf da size s.t0 false else [],
    c3 := Res.all [
      Res.need (da + 32 ≤ 2 ^ 23) cIllegalOperand, Res.needW (da % 64 == 0) cAlign da 0, s.structPoison da size, descTests da d crc.isSome s],
    rd := (if d.sk then [.h d.sh] else []) ++ (if d.dk == 2 then [.h d.dh] else []),
    wr := match crc with | some (_, slot) => if locked then [(.ck slot, q.ckLand - s.t0)] else [] | none => [],
    c5 := Res.all [
      copyWait d start crc i s,
      Res.ready (k.copies.length < 32) 6 0, Res.ready (q.future || !locked) 6 0, Res.ready (!(locked && meets k.spans)) 6 0,
      Res.ready (!(locked && q.share && meets k.shares)) 9 0, Res.ready (s.me.acq ≤ q.t && s.me.fence ≤ q.t) 11 0],
    c6 := Res.all [q.src.res, q.dst.res, port], reads := [(da, size)], time := 1, buf := d.buf,
    eff := fun s =>
      let u := s.me.stream s.cur.strm
      let tick : Option (Nat × Nat) := if d.tle then some (d.tlix, (vget k.tl d.tlix {}).iss + 1) else none
      let land := match q.pub with | some l => q.u + l | none => openLand k d q.u q.n s.free
      let e : Copy := {
        desc := bytes, sh := if d.sk then s.me.getH d.sh else {}, dh := if d.dk == 2 then s.me.getH d.dh else {}, word := encode i, pc := u.pc,
        sec := hdrSec (s.me.header u.sec), repn := u.repn, issue := s.t0, t := q.t, u := q.u, n := q.n, ticket := tick, crc := crc,
        land := land, due := land, pub := q.pub.isSome, void := q.void, remote := q.d.dk == 1 && !q.void }
      s.modK fun k => { k with
        copies := (k.copies.filter (·.t ≤ q.t)) ++ e :: k.copies.filter (q.t < ·.t)
        tl := if d.tle then vmod k.tl d.tlix fun x => { x with iss := x.iss + 1 } else k.tl
        ckBusy := match crc with | some (_, slot) => vset k.ckBusy slot (q.ckLand + 1) | none => k.ckBusy
        spans := if q.n != 0 then k.spans ++ [(q.u, q.u + q.n)] else k.spans
        shares := if q.share && q.n != 0 then k.shares ++ [(q.u, q.u + q.n)] else k.shares } }

def execCpy (h : Head) (p : PR) (s : State) : Out :=
  .next (issue (.cpy h p) (cpyPlan (.cpy h p) [.g p.a.toNat] (s.g p.a).toNat (· + p.imm.toNat) none s) s)
def execCpyAbs (h : Head) (p : PR) (s : State) : Out :=
  .next (issue (.cpyAbs h p) (cpyPlan (.cpyAbs h p) [.g p.a.toNat, .g p.b.toNat] (s.g p.a).toNat (fun _ => (s.g p.b).toNat % 2 ^ 48) none s) s)
def execCpyx (h : Head) (p : PR) (s : State) : Out :=
  .next (issue (.cpyx h p)
    (cpyPlan (.cpyx h p) [.g p.a.toNat] (s.g p.a).toNat (· + p.imm.toNat) (some (h.fn.toNat % 4, p.x.toNat % 4)) s) s)
def execCpyxAbs (h : Head) (p : PR) (s : State) : Out :=
  .next (issue (.cpyxAbs h p)
    (cpyPlan (.cpyxAbs h p) [.g p.a.toNat, .g p.b.toNat] (s.g p.a).toNat (fun _ => (s.g p.b).toNat % 2 ^ 48)
      (some (h.fn.toNat % 4, p.x.toNat % 4)) s) s)

/-! ### Start (R284), data and its delivery -/

/-- One element of a copy as it moves: its bytes' source and destination addresses, none where clipped, and the ordering kinds of destination pages. -/
structure CopyEl where
  src : Option (List Nat)
  dst : Option (List Nat)
  kinds : List Nat := []

def Copy.units (e : Copy) : List CopyEl :=
  let d := descOf e.desc
  let local_ (base : Nat) (dims : List (Nat × Int)) : List (Option (List (Page × Nat))) :=
    (offsets dims).map fun o => some ((List.range d.e).map fun j => ({}, ((base : Int) + o).toNat + j))
  let global (h : Handle) (base : Nat) (dims : List (Nat × Int)) (r w : Bool) : List (Option (List (Page × Nat))) :=
    (globalEls h base d.e dims).map fun x => match h.hit r w x.1 x.2 with | .ok bs => some bs | .bad _ _ _ => none
  let ss := if d.sk then global e.sh d.src d.sdims true false else local_ d.srcA d.sdims
  let ds := if d.dk == 2 then global e.dh d.dst d.ddims false true else local_ d.dstA d.ddims
  (ss.zip ds).map fun x => { src := x.1.map (·.map (·.2)), dst := x.2.map (·.map (·.2)), kinds := (x.2.getD []).map (·.1.kind) }

/-- What a copy moves when it starts: destination bytes in index order (fill included) with the kinds of their pages, those from poisoned sources, the bytes that moved with their source addresses, each written byte's address with its place among those moved, and whether an element was clipped. -/
structure Moved where
  bytes : List (Nat × Byte)
  kinds : List Nat
  bad : List Nat
  sent : List Byte
  froms : List Nat
  dsts : List (Nat × Option Nat)
  clipped : Bool

/-- The data of the elements in index order. Of a copy whose destination overlaps its own source, an element may be read as the earlier elements have left it, or as it was (R281; DESIGN CHOICE, log 4). -/
def moveData (fr : Nat) (own : Bool) (rd : Nat → Byte) (us : List CopyEl) : List (List Byte) :=
  (us.zipIdx.foldl (fun (acc : List (List Byte) × List (Nat × Byte)) u =>
    let see (a : Nat) : Byte := match acc.2.find? (·.1 == a) with
      | some b => if Config.freeBool fr u.2 then b.2 else rd a
      | none => rd a
    let bs := if u.1.dst.isNone then [] else (u.1.src.getD []).map see
    (acc.1 ++ [bs], if own && u.1.src.isSome then (((u.1.dst.getD []).zip bs).reverse ++ acc.2) else acc.2)) ([], [])).1

def movedBy (s : State) (c : CoreId) (e : Copy) : Moved :=
  let d := descOf e.desc
  let k := s.core c
  let us := e.units
  let own := (d.sk && d.dk == 2) || (!d.sk && d.dk == 0 && d.dplace == 0)
  let fl := s.inflightPool c
  let rd (a : Nat) : Byte := if d.sk then (s.memBytesOf (.core c) [a]).headD 0 else openByte s.free a (k.pool.read a) fl
  let foul (as : List Nat) : Bool := if d.sk then as.any s.linePoisoned else as.any fun a => (k.poisonIn a 1).isSome
  let es := us.zip (moveData s.free own rd us)
  let moving := es.filter fun x => x.1.src.isSome && x.1.dst.isSome
  let written := es.filter fun x => x.1.dst.isSome && (x.1.src.isSome || !d.fill)
  { bytes := written.flatMap fun x => (x.1.dst.getD []).zip (if x.1.src.isSome then x.2 else List.replicate d.e 0),
    kinds := written.flatMap (·.1.kinds),
    bad := moving.flatMap fun x => if foul (x.1.src.getD []) then x.1.dst.getD [] else [],
    sent := moving.flatMap (·.2),
    froms := if d.sk then [] else moving.flatMap fun x => x.1.src.getD [],
    dsts := (written.foldl (fun (x : Nat × List (Nat × Option Nat)) y =>
      let ds := y.1.dst.getD []
      if y.1.src.isSome then (x.1 + ds.length, x.2 ++ ds.zipIdx.map fun a => (a.1, some (x.1 + a.2))) else (x.1, x.2 ++ ds.map (·, none))) (0, [])).2,
    clipped := us.any fun x => x.src.isNone || x.dst.isNone }

/-- PSINJ inverts one bit of the next copy a port sends (R408): the bytes sent and the register. -/
def inject (inj : Dword) (bs : List Byte) : List Byte × Dword :=
  if !inj.getLsbD 0 || bs.isEmpty then (bs, inj)
  else
    let off := fld inj 47 16
    let bit := fld inj 10 8
    if off < bs.length then (bs.set off ((bs.getD off 0) ^^^ BitVec.twoPow 8 bit), inj &&& ~~~1)
    else (bs, BitVec.ofNat 64 ((off - bs.length) * 2 ^ 16 + bit * 2 ^ 8 + 1))

def State.port (s : State) (k : Nat) : Port := vget s.ports k {}
def State.modPort (s : State) (k : Nat) (f : Port → Port) : State := { s with ports := vmod s.ports k f }
/-- The passage port that sends a copy's byte to an address: to a pool of another part, or into a peer's window (R351, R408). -/
def State.portFor (s : State) (d : Desc) (a : Nat) : Option Nat :=
  if d.dk == 1 then s.route d.dpart else if d.dk == 2 && 2 ^ 47 ≤ a then s.route ((a - 2 ^ 47) / 2 ^ 41) else none
/-- One port sends the bytes at some places among those that a copy moves: the bytes as they leave, and its PSINJ. -/
def State.sendOver (s : State) (p : Nat) (js : List Nat) (sent : List Byte) : State × List Byte :=
  let (bs, reg) := inject (s.port p).inj (js.map fun j => sent.getD j 0)
  (s.modPort p fun q => { q with inj := reg }, (js.zip bs).foldl (fun l b => l.set b.1 b.2) sent)
/-- The ports that send a copy's moved bytes, each with the byte's place among those moved. -/
def State.portsOf (s : State) (d : Desc) (mv : Moved) : List (Nat × Nat) :=
  mv.dsts.filterMap fun x => x.2.bind fun j => (s.portFor d x.1).map fun p => (p, j)
/-- The bytes that a copy writes once the moved ones have become others on their way. -/
def Moved.resent (mv : Moved) (sent : List Byte) : List (Nat × Byte) :=
  (mv.bytes.zip mv.dsts).map fun b => match b.2.2 with | some j => (b.1.1, sent.getD j b.1.2) | none => b.1
/-- A copy's bytes, and those among them that were moved, as the ports send them: each port that is armed inverts its bit in the data that go through it (R408). -/
def State.throughPorts (s : State) (d : Desc) (mv : Moved) : State × List (Nat × Byte) × List Byte :=
  let via := s.portsOf d mv
  if via.all fun v => !(s.port v.1).inj.getLsbD 0 then (s, mv.bytes, mv.sent)
  else
    let (s, sent) := (via.map (·.1)).eraseDups.foldl (fun x p => x.1.sendOver p ((via.filter (·.1 == p)).map (·.2)) x.2) (s, mv.sent)
    (s, mv.resent sent, sent)

def Core.setCopy (k : Core) (n : Nat) (f : Copy → Copy) : Core := { k with copies := k.copies.modify n f }
def Core.dropCopy (k : Core) (n : Nat) : Core := { k with copies := k.copies.eraseIdx n }

/-- The place of a copy in its core's order: its start T, then its command (R117, R134). -/
def Copy.before (e f : Copy) : Bool := e.t < f.t || (e.t == f.t && e.issue < f.issue)
/-- The space in which a copy writes: memory, the pool of a core of this part, or of another part. -/
def copySpace (d : Desc) (a : Arrival) : Nat := if d.dk == 2 then 0 else 2 ^ 24 * (if d.dk == 1 then d.dpart + 1 else 0) + 1 + a.rx + 256 * a.ry
/-- Of two copies of one core the bytes of the later start stand (R134): they leave the earlier one's data where that lands later. -/
def giveWay (ts : List Transit) (c : CoreId) (older : Transit → Bool) (a : Arrival) (land : Nat) : List Transit :=
  ts.map fun t =>
    if t.from_ == c && older t && t.arr.lid == a.lid && t.arr.rx == a.rx && t.arr.ry == a.ry && land ≤ t.land then
      { t with arr := { t.arr with bytes := t.arr.bytes.filter fun b => !(a.bytes.any (·.1 == b.1)) } }
    else t

/-- The copy of a member core that an arrival belongs to. -/
def State.copyOfTransit (s : State) (t : Transit) : Option Copy := (s.core t.from_).copies.find? fun e => e.started && e.u == t.u

/-- The copy engine begins streaming entry k of a core's buffer (R281, R284). The arrival's source island and member are the issuing core's, also of data read from global memory (R74; DESIGN CHOICE, log 93). -/
def execCopyStart (c : CoreId) (n : Nat) (s : State) : Out :=
  let k := s.core c
  match k.copies[n]?, s.launchOf c with
  | some e, some l =>
    if e.started then .next s
    else
      let d := descOf e.desc
      let mv := movedBy s c e
      let setCk (s : State) (v : Nat) : State := match e.crc with
        | some (_, slot) => s.modCpu (.core c) fun u => { u with pend := u.pend ++
            [{ strm := .s, issue := e.issue, land := e.u + e.n - 1, effs := [.ck slot (BitVec.ofNat 32 v)] }] }
        | none => s
      let c0 := match e.crc with | some (mode, slot) => if mode == 0 || mode == 3 then 0 else (vget k.ck slot 0).toNat | none => 0
      if e.void then .next ((setCk s (crc32c c0 [])).modCore c fun k => (k.ticket e).dropCopy n)
      else
        let sum := crc32c c0 mv.sent
        let fr := s.free
        let s := setCk (if d.sk then s.draw.closeRead (.core c) (e.units.flatMap fun u => u.src.getD []) else s.draw) sum
        let out := mv.sent.length
        let e' : Copy := { e with started := true, fr := fr, froms := mv.froms, dsts := mv.dsts, c0 := c0, rd := if d.sk then out else 0,
                                  wr := if d.dk != 0 || d.dplace != 0 then out else 0 }
        let flags := if mv.clipped then flagClipped else 0
        let cr : Option Credit := if d.le then some ⟨d.land, d.b, flags, e.crc.map fun m => (m.1, sum), d.scope⟩ else none
        let (x, y) := (destOf k l d).getD (0, 0)
        let i := islandOf c
        let a : Arrival := { lid := if d.dk == 0 then l.lid else l.job, rx := x, ry := y, isl := i, inc := (s.island i).inc,
                             bytes := mv.bytes, poison := mv.bad, sent := mv.sent, last := true, credit := cr }
        let sp := copySpace d a
        let s := s.modCore c fun k => (k.setCopy n fun _ => e').overtake sp e.t e.issue (mv.bytes.map (·.1))
        let keep (b : Nat × Byte) : Bool := !e.newer.contains (sp, b.1)
        if d.dk == 0 then
          let a := { a with bytes := a.bytes.filter keep }
          let older (t : Transit) : Bool := (s.copyOfTransit t).all (·.before e)
          .next { s with transit := giveWay s.transit c older a e.land ++ [⟨a, e.land, c, e.u, false⟩] }
        else
          let (s, bytes, sent) := s.throughPorts d mv
          let bs := (bytes.zip mv.kinds).filter (keep ·.1)
          if d.dk == 2 then .next ((s.openWins (.core c) fr true (bs.map (·.1)) (bs.map (·.2))).memPut (bs.map (·.1)) (mv.bad.filter fun b => bs.any (·.1.1 == b)))
          else .next { s with out := s.out ++ [.passage d.dpart { a with bytes := bytes.filter keep, sent := sent }] }
  | _, _ => .next s

/-- The granules that hold some bytes lose their ECHK marks (R209). -/
def Core.unmark (k : Core) (as : List Nat) : Core :=
  let gs := (as.map fun a => a / 64 * 64).eraseDups
  { k with echk := unmarked gs k.echk }
/-- Data and credit reach a core's pool through the arrival port (R74, R84, R264); the granules written lose their ECHK mark at once where the copy has no published landing (R209, R286). -/
def State.deliver (s : State) (c : CoreId) (a : Arrival) (pub : Bool) : State :=
  let s := s.poolStore c none a.bytes a.poison (wholeGranules a.bytes)
  s.modCore c fun k =>
    let k := if pub then k else k.unmark (a.bytes.map (·.1))
    match a.credit.filter fun _ => a.last with
    | some cr => ({ k with pool := applyCredit k.pool cr a.sent } : Core).setScopes cr.land (countScope k.pool cr (k.scopes cr.land))
    | none => k

/-- The transit entry of an arrival. -/
def State.transitOf (s : State) (a : Arrival) : Option Transit := s.transit.find? (·.arr == a)
def State.endTransit (s : State) (a : Arrival) : State := { s with transit := s.transit.erase (((s.transitOf a)).getD ⟨a, 0, 0, 0, false⟩) }

/-- A core's copy whose streaming began in a cycle is refused. -/
def Core.refuse (k : Core) (u : Nat) : Core :=
  { k with copies := k.copies.map fun e => if e.started && e.u == u then { e with refused := true } else e }
/-- The sender of refused data learns it: a copy of this part, or another part's (R286). -/
def State.refuseTo (s : State) (a : Arrival) (t : Option Transit) : State :=
  match t with
  | some t => s.modCore t.from_ (·.refuse t.u)
  | none => { s with out := s.out ++ [.refused a] }

/-- Copy data arrives, or is refused: then it is discarded, a landing that survives takes a credit with REFUSED, and the sender learns it (R286, R384). -/
def execCopyArrival (a : Arrival) (s : State) : Out :=
  let t := s.transitOf a
  let s1 := s.endTransit a
  match s.launch a.lid with
  | none => .next (s1.refuseTo a t)
  | some l =>
    let c := l.coreOf a.rx a.ry
    if s.refuses a then
      let s2 := match a.credit with
        | some cr => if (s.island (islandOf c)).rst == 0 then
            s1.modCore c fun k => { k with pool := creditMem k.pool cr.land 0 flagRefused none } else s1
        | none => s1
      .next (s2.refuseTo a t)
    else .next (s1.deliver c a ((t.bind s.copyOfTransit).any (·.pub)))

/-- The last byte of a copy, the n-th of its core's buffer, has arrived: its ticket completes, what it wrote is visible to all, its bytes are counted; its entry is freed at its landing, which stands where it is published (R91, R118, R283, R285, R289). -/
def State.landCopy (s : State) (c : CoreId) (n : Nat) (e : Copy) : State :=
  let keep := e.pub && s.now (.core c) ≤ e.land
  let s := (s.shut e.fr).modCore c fun k =>
    let k := k.ticket e
    if keep then k.setCopy n fun e => { e with done := true } else k.dropCopy n
  s.modLaunch (s.core c).lid fun l => { l with hot := updCount l.hot (descOf e.desc).buf e.rd e.wr 0 }
/-- A copy with a published landing has landed: the granules that it wrote lose their ECHK marks, and its entry is free (R209, R283). -/
def State.endCopy (s : State) (c : CoreId) (n : Nat) (e : Copy) : State :=
  let d := descOf e.desc
  let s := s.modCore c (·.dropCopy n)
  match s.launchOf c with
  | some l => if d.dk != 0 then s else match destOf (s.core c) l d with
    | some (x, y) => s.modCore (l.coreOf x y) (·.unmark (e.dsts.map (·.1)))
    | none => s
  | none => s
/-- INFO of DELIVERY_REFUSED (R340). -/
def refusedInfo (d : Desc) (fbix : Nat) : Nat := d.land * 2 ^ 16 + d.dplace * 2 ^ 6 + (if d.dk == 1 then d.dpart else fbix)

end Sys2Proof.Machine
end

