-- ==== Sys2Proof/Machine/RowEngine.lean ====
section
/-! DEFINITION. The row engine (R292 to R295). -/

namespace Sys2Proof.Machine

/-- 1 / x in FP32, rounded once. -/
def recip32 (x : FV) : Nat :=
  match x with
  | .nan _ => fp32.canon
  | .inf n => fp32.sign n 0
  | .fin n k => if k == 0 then fp32.sign n fp32.infBits else (fp32.roundQ 0 false n one149 k).1
/-- 1 / sqrt(x) in FP32, rounded once. -/
def rsqrt32 (x : FV) : Nat :=
  match x with
  | .nan _ => fp32.canon
  | .inf n => if n then fp32.canon else 0
  | .fin n k =>
    if k == 0 then fp32.sign n fp32.infBits
    else if n then fp32.canon
    else let (a, b) := rsqrtQ k; (fp32.roundQ 0 false false a b).1
/-- exp(x) in FP32 for x not above 0, rounded once. (DESIGN CHOICE, log 51) -/
def exp32 (x : FV) : Nat :=
  match x with
  | .nan _ => fp32.canon
  | .inf n => if n then 0 else fp32.infBits
  | .fin _ k => if k == 0 then (fp32.roundQ 0 false false 1 1).1 else let (a, b) := expNegQ k; (fp32.roundQ 0 false false a b).1
/-- x / n for a count n. -/
def divCount (x : FV) (n : Nat) : Nat :=
  match x with
  | .fin s k => (fp32.roundQ 0 false s k (n * one149)).1
  | .inf s => fp32.sign s fp32.infBits
  | .nan _ => fp32.canon
def add32 (a b : Nat) : Nat := (fp32.add 0 false (fp32.read a) (fp32.read b)).1

/-- The maximum of a row (R293): NaN when any element is; −0 below +0. -/
def rowMax (xs : List FV) : Nat :=
  if xs.any FV.isNan then fp32.canon
  else
    let m := xs.foldl (fun m x => match m with | none => some x | some y => some (if fBelow y x then x else y)) none
    (fp32.conv 0 false (m.getD (.fin false 0))).1

/-- One row of SMAX: results in the destination format and the statistics m and s (R293). -/
def softmaxRow (ff : FFmt) (xs : List FV) : List Nat × Nat × Nat :=
  let m := rowMax xs
  let es := xs.map fun x => exp32 (fp32.read (fp32.add 0 false x (fp32.read m).flip).1)
  let s := es.foldl add32 0
  let q := fp32.read (recip32 (fp32.read s))
  (es.map fun e => (ff.fma 0 false (fp32.read e) q none).1, m, s)
/-- One row of RMS: results, t and g (R293). -/
def rmsRow (ff : FFmt) (eps : Nat) (xs : List FV) : List Nat × Nat × Nat :=
  let t := xs.foldl (fun t x => (fp32.fma 0 false x x (some (fp32.read t))).1) 0
  let g := rsqrt32 (fp32.read (add32 (divCount (fp32.read t) xs.length) eps))
  (xs.map fun x => (ff.fma 0 false x (fp32.read g) none).1, t, g)

/-- A ROWE on the registers as they stand, with its timetable (R292, R294). -/
structure Rowe where
  smax : Bool
  eps : Nat
  d : Opnd
  a : Opnd
  st : Option Opnd

def roweOf (smax : Bool) (p : PR) (s : State) : Rowe :=
  let k := s.kc
  { smax := smax, eps := p.imm.toNat, d := opndOf k p.d.toNat 0, a := opndOf k p.a.toNat 0,
    st := if p.b == 0x1FF then none else some (opndOf k p.b.toNat 0) }

def Rowe.n (q : Rowe) : Nat := q.a.n
def Rowe.r (q : Rowe) : Nat := q.a.rows
def Rowe.beat (q : Rowe) : Nat := ceilDiv q.n 128
def Rowe.time (q : Rowe) : Nat := if q.smax then (q.r + 2) * q.beat + 26 else (q.r + 1) * q.beat + 12
/-- The cycle in which the SCALE pass of row i ends, and the one in which it begins. -/
def Rowe.ends (q : Rowe) (i : Nat) : Nat := if q.smax then (i + 3) * q.beat + 26 else (i + 2) * q.beat + 12
def Rowe.begins (q : Rowe) (i : Nat) : Nat := if q.smax then (i + 2) * q.beat + 21 else (i + 1) * q.beat + 6
/-- Elements of beat t of row i. -/
def Rowe.els (q : Rowe) (t : Nat) : List Nat := (List.range (Nat.min 128 (q.n - 128 * t))).map (128 * t + ·)
/-- The source beats of row i in the pass that begins an offset after its first. -/
def Rowe.pass (q : Rowe) (off i : Nat) : List SrcEl :=
  (List.range q.beat).flatMap fun t => (q.els t).map fun j => ⟨i * q.beat + t + off, q.a.loc (i * q.n + j), q.a.r.eb, q.a.reg, i⟩
/-- The cycle in which the EXP pass of row i begins to fill the row buffer. -/
def Rowe.fills (q : Rowe) (i : Nat) : Nat := i * q.beat + q.beat + 6
/-- The row that the buffer holds for a SCALE pass still to begin, a number of cycles after issue. -/
def Rowe.buffered (q : Rowe) (off : Nat) : Option Nat :=
  let hi := ((List.range q.r).filter fun j => q.begins j ≤ off).length
  if q.smax && hi < q.r && q.fills hi ≤ off then some hi else none
/-- Source beats in order of their cycles: the first pass of every row, then the second. -/
def Rowe.srcs (q : Rowe) : List SrcEl := (List.range q.r).flatMap (q.pass 0) ++ (List.range q.r).flatMap (q.pass (q.beat + 6))
def Rowe.statAddrs (q : Rowe) (i : Nat) : List Nat :=
  match q.st with | some o => [(o.r.addr i 0).toNat, (o.r.addr i 1).toNat] | none => []
/-- Result beats: cycle, address, bytes; the statistics in the last cycle of the pass. -/
def Rowe.dst (q : Rowe) : List (Nat × Nat × Nat) :=
  (List.range q.r).flatMap fun i =>
    ((List.range q.beat).flatMap fun t => (q.els t).map fun j => (q.ends i - (q.beat - 1 - t), q.d.loc (i * q.n + j), q.d.r.eb))
    ++ (q.statAddrs i).map fun a => (q.ends i, a, 4)

/-- The issue-time tests (R294). -/
def Rowe.tests (q : Rowe) : Res :=
  let ok (o : Opnd) : Bool := !o.r.sen && o.r.qb == 31
  let stat := q.st.all fun o => sameFmt o.r.fmt 12 && ok o && o.rows == q.r && 2 ≤ o.n && o.placed && apart o q.a && apart o q.d
  Res.all ([Res.need (isF q.a.r.fmt && isF q.d.r.fmt && ok q.a && ok q.d && q.d.r.estr != 0 && q.d.n == q.n && q.d.rows == q.r
      && 1 ≤ q.n && q.n ≤ 8192 && q.a.placed && q.d.placed && stat) cIllegalOperand]
    ++ ([q.d, q.a] ++ q.st.toList).map Opnd.align)

/-- The bytes of row i. -/
def Rowe.row (rd : Nat → Nat → Nat) (q : Rowe) (i : Nat) : List (Nat × List (Nat × Byte)) :=
  let fa := (fmtF q.a.r.fmt).getD fp32
  let ff := (fmtF q.d.r.fmt).getD fp32
  let xs := (List.range q.n).map fun j => fa.read (q.a.bits rd (i * q.n + j))
  let (vs, u, v) := if q.smax then softmaxRow ff xs else rmsRow ff q.eps xs
  (List.range q.beat).map fun t =>
    (q.ends i - (q.beat - 1 - t),
     ((q.els t).flatMap fun j => placeLE (q.d.loc (i * q.n + j)) q.d.r.eb (vs.getD j 0))
      ++ (if t + 1 == q.beat then ((q.statAddrs i).zip [u, v]).flatMap fun x => placeLE x.1 4 x.2 else []))

/-- Rows from lo on, up to those whose SCALE pass has not begun when a read meets poison (R295). -/
def rowePost (i : Instr) (q : Rowe) (lo : Nat) (s : State) : State :=
  let k := s.kc
  let stop := (q.srcs.filter (lo ≤ ·.el)).find? fun e => (k.poisonIn e.a e.n).isSome
  let hi := match stop with
    | some e => Nat.max lo (((List.range q.r).filter fun j => q.begins j ≤ e.off).length)
    | none => q.r
  let rd := s.read
  let whole := wholeGranules (q.dst.flatMap fun e => (List.range e.2.2).map fun (j : Nat) => (e.2.1 + j, (0 : Byte)))
  let s := ((List.range q.r).filter fun j => lo ≤ j && j < hi).foldl (fun s j =>
    (q.row rd j).foldl (fun s b =>
      s.post b.1 [.pool b.2 [] (if b.1 == q.time then whole else [])]
        ((q.pass (q.beat + 6) j).map fun x => ⟨x.a, x.n, s.t0 + x.off, s.t0 + x.off, false⟩)) s) s
  match stop with
  | none => s
  | some e =>
    let g := (k.poisonIn e.a e.n).getD 0
    s.postDetect i e.off ⟨cDataPoison, g, q.a.reg + s.rangeOf g * 2 ^ 16⟩ hi false

def rowePlan (i : Instr) (q : Rowe) (s : State) : Plan :=
  let srcs := q.srcs
  { rd3 := [.st q.d.reg, .st q.a.reg] ++ (q.st.map fun o => Reg.st o.reg).toList, c3 := q.tests,
    use := usesAt s.t0 false (srcs.map fun e => (e.off, e.a, e.n)) ++ usesAt s.t0 true q.dst,
    c5b := Res.ready (vget s.kc.occ 3 0 ≤ s.t0) 7 0, reads := srcs.map fun e => (e.a, e.n), acc := true, time := q.time,
    eff := fun s => rowePost i q 0 ((s.occupy 3 q.time).modK fun k => { k with rowProg := 0, rowBad := if q.smax then k.rowBad.filter (q.n ≤ ·) else k.rowBad }) }

def execRoweSmax (h : Head) (p : PR) (s : State) : Out := .next (issue (.roweSmax h p) (rowePlan (.roweSmax h p) (roweOf true p s) s) s)
def execRoweRms (h : Head) (p : PR) (s : State) : Out := .next (issue (.roweRms h p) (rowePlan (.roweRms h p) (roweOf false p s) s) s)

end Sys2Proof.Machine
end

