-- ==== Sys2Proof/Machine/Ferries.lean ====
section
/-! DEFINITION. The ferry: arrivals, releases at every level, sailings, waits, and the fabric wait's count (R31, R43, R62, R296 to R299). -/

namespace Sys2Proof.Machine

def Core.fer (k : Core) (l : Nat) : Ferry := vget k.ferry (l - 1) {}
def Core.modFer (k : Core) (l : Nat) (f : Ferry → Ferry) : Core := { k with ferry := vmod k.ferry (l - 1) f }

/-- Δ of R297; level 5 has none. -/
def ferryDelta (l : Nat) : Nat := match l with | 1 => 1 | 2 => 18 | 3 => 40 | _ => 96
/-- The sailing index of a member (R304); 0 at level 1. -/
def Launch.sail (l : Launch) (rx ry lvl : Nat) : Nat :=
  let p := ry * l.w + rx
  if lvl < 2 then 0 else l.hdr (200 + 128 * (lvl - 2) + p / 2) 1 / 16 ^ (p % 2) % 16
def Launch.sgap (l : Launch) : Nat := l.hdr 31 1
/-- Rs of R62: the member's resumption. -/
def State.resumeAt (s : State) (c : CoreId) (lvl : Nat) : Option Nat :=
  match s.launchOf c with
  | none => none
  | some l => let k := s.core c; (k.fer lvl).trel.map fun t => t + l.sail k.rx k.ry lvl * l.sgap

def domTop (k : Core) : Nat := k.dom.toNat % 8

/-- The tests of R299 common to the forms. -/
def ferryTests (lvl : Nat) (arrive : Bool) (s : State) : Res :=
  let f := s.kc.fer lvl
  Res.need (lvl ≤ domTop s.kc && f.open_ != arrive) cIllegalOperand

/-- A stream's field is met (R52, R297). -/
def arrivedBit (k : Core) (q : Strm) (field : Nat) : Bool :=
  let t := k.cpu.stream q
  field == 0x3FF || t.ended || depOk field t.retired
def Core.ferryBits (k : Core) (f : Ferry) : BitVec 4 :=
  f.bits ||| (if arrivedBit k .a f.sa then 2 else 0) ||| (if arrivedBit k .v f.sv then 4 else 0) ||| (if arrivedBit k .m f.sm then 8 else 0)

/-- The arrive form's effect (R297). -/
def ferryArrive (p : PR) (cp arrw : Bool) (s : State) : State :=
  let v := p.imm.toNat
  let n := s.t0
  s.modK fun k => k.modFer p.x.toNat fun f =>
    { count := f.count + 1, open_ := true, arrw := arrw, sa := v % 1024, sv := v / 1024 % 1024, sm := v / 2 ^ 20 % 1024, cp := cp,
      issued := n, bits := 1, accs := k.cpu.acc }

/-- Locked code may not count copies without a published landing at levels 1 to 4 (R299). -/
def ferryCopies (lvl : Nat) (cp : Bool) (s : State) : Res :=
  Res.need (!(s.locked s.cur.hart s.cur.strm && lvl ≤ 4 && cp && s.kc.copies.any (!·.pub))) cIllegalOperand

def planFerryArr (h : Head) (p : PR) (s : State) : Plan :=
  let cp := h.fn == 4
  { c3 := (ferryTests p.x.toNat true s).and (ferryCopies p.x.toNat cp s), time := 1, eff := ferryArrive p cp false }
def execFerryArr (h : Head) (p : PR) (s : State) : Out := .next (issue (.ferryArr h p) (planFerryArr h p s) s)

/-- The wait's plan: it completes once the member has resumed. The acquire is the resumption itself (R135, R298), which has no Time to elapse: accesses issued at or after the wait's cycle follow it, as R327's merge does. The FENCE of the level's scope that goes with it binds at the wait (R135). -/
def ferryWaitPlan (lvl : Nat) (c3 : Res) (s : State) : Plan :=
  let f := s.kc.fer lvl
  { c3 := c3, c5b := if f.resumed then .ok else if lvl == 5 then .freeze false else .miss 8 0, time := 1,
    eff := fun s => (s.settle s.cur.hart (lvl - 1)).modK (·.modFer lvl fun f => { f with open_ := false, arrw := false }) }

def execFerryWait (h : Head) (p : PR) (s : State) : Out :=
  .next (issue (.ferryWait h p) (ferryWaitPlan p.x.toNat (ferryTests p.x.toNat false s) s) s)

/-- FERRY.ARRW: the arrival at its first cycle, the wait after it; gated sections only. -/
def execFerryArrw (h : Head) (p : PR) (s : State) : Out :=
  let lvl := p.x.toNat
  let i : Instr := .ferryArrw h p
  let q := s.cur.strm
  let gated := Res.need (!s.locked s.cur.hart q) cIllegalOperand
  if (s.kc.fer lvl).arrw then .next (issue i (ferryWaitPlan lvl gated s) s)
  else
    let s1 := issue i { c3 := gated.and (ferryTests lvl true s), time := 1, ctl := if s.guard h then .stay else .next, eff := ferryArrive p (h.fn == 6) true } s
    -- the word issues when its wait does: pacing counts from there
    if s1.kid.any fun c => ((s1.core c).fer lvl).arrw then
      .next (s1.modStream s.cur.hart q fun t => { t with last := (s.stream s.cur.hart q).last, tried := some s.t0 })
    else .next s1

/-! ### Arrivals and releases -/

/-- The members that share a core's domain at a level (R31), in this part. -/
def Launch.domain (l : Launch) (c : CoreId) (lvl : Nat) : List CoreId :=
  l.members.filter fun d => match lvl with
    | 1 => d == c
    | 2 => atollOf d == atollOf c
    | 3 => islandOf d == islandOf c
    | _ => true

/-- The member's arrival is complete at the end of the cycle before now (R297). -/
def State.memberReady (s : State) (c : CoreId) (lvl : Nat) : Bool :=
  let k := s.core c
  let f := k.fer lvl
  let n := s.now (.core c)
  f.open_ && f.arrived.isNone && f.issued < n && k.ferryBits f == 15 && f.accs ≤ n && (!f.cp || !(k.copies.any (·.issue < f.issued)))

/-- The cycles still owed to each level-5 wait of a frozen part, counted from now on where its count has not begun (R62). -/
def State.owe (s : State) (lid : Nat) : State :=
  match s.launch lid with
  | none => s
  | some l =>
    if !l.frozen then s
    else s.modLaunch lid fun l => { l with causes := l.causes.map fun c => match c with
      | .ferry d n none => .ferry d n ((s.resumeAt d 5).map fun r => s.time + ceilDiv ((r - n) * 52) (Nat.max 1 l.cur))
      | c => c }
/-- Level-5 waits whose count has ended. -/
def Launch.counted (l : Launch) (time : Nat) : List CoreId :=
  l.causes.filterMap fun c => match c with | .ferry d _ (some t) => if t ≤ time then some d else none | _ => none

/-- A_last of a domain whose members have all arrived and none of whom is released (R297). -/
def State.allArrived (s : State) (ds : List CoreId) (lvl : Nat) : Option Nat :=
  ds.foldl (fun m d =>
    let f := (s.core d).fer lvl
    match m, f.arrived, f.trel with
    | some x, some y, none => some (Nat.max x y)
    | _, _, _ => none) (some 0)

/-- A member completes its arrival: what its core has written and read is shown at the level's scope (R135, R297). The last of a part's at level 5 is announced to the fabric (R31). -/
def execMemberArrival (c : CoreId) (lvl : Nat) (s : State) : Out :=
  let n := s.now (.core c)
  .next (if s.memberReady c lvl then
      let s := (s.settle (.core c) (lvl - 1)).modCore c (·.modFer lvl fun f => { f with arrived := some (n - 1) })
      match s.launchOf c with
      | some l => if lvl == 5 && l.fbn != 0 && (s.allArrived l.members 5).isSome then { s with out := s.out ++ [.release 5 l.lid] } else s
      | none => s
    else s)

/-- T_rel for every domain at the level that is complete; level 5 takes the cycle at which the release reaches the part, or the smallest stop point of a frozen one (R62, R297). (DEDUCED, log 67) -/
def execFerryRelease (lid lvl inst : Nat) (s : State) : Out :=
  match s.launch lid with
  | none => .next s
  | some l =>
    if lvl == 5 then
      let t := if l.frozen then (l.members.filterMap fun d => (s.core d).stop).foldl Nat.min l.sfc else l.sfc
      .next ((l.members.foldl (fun s d => s.modCore d (·.modFer 5 fun f =>
        if f.count == inst && f.arrived.isSome && f.trel.isNone then { f with trel := some t } else f)) s).owe lid)
    else
      .next (l.members.foldl (fun s d =>
        match s.allArrived (l.domain d lvl) lvl with
        | some a => if a + ferryDelta lvl ≤ l.sfc then
            (l.domain d lvl).foldl (fun s e => s.modCore e (·.modFer lvl fun f => { f with trel := some (a + ferryDelta lvl) })) s
          else s
        | none => s) s)

/-- A member resumes at its own sailing (R298). -/
def execMemberResume (c : CoreId) (lvl : Nat) (s : State) : Out :=
  .next (match s.resumeAt c lvl with
    | some r => if r ≤ s.now (.core c) then s.modCore c (·.modFer lvl fun f => { f with resumed := true }) else s
    | none => s)

/-- The count owed to frozen level-5 waits ends: the stamp of each counts as its resumption (R62). -/
def execFabricWaitCountDone (lid : Nat) (s : State) : Out :=
  .next (match s.launch lid with
    | some l =>
      let done := l.counted s.time
      (done.foldl (fun s d => s.modCore d (·.modFer 5 fun f => { f with resumed := true })) s).modLaunch lid fun l =>
        { l with causes := l.causes.filter fun c => match c with | .ferry d _ _ => !done.contains d | _ => true }
    | none => s)

end Sys2Proof.Machine
end

