-- ==== Sys2Proof/Machine/Repost.lean ====
section
/-! DEFINITION. What an instruction brings forth once more from what it took at issue: to continue after a stop (R60, R218, R416), and to account for writes that met its sources while it ran (R61, R197, R214, R240, R246, R261, R292). -/

namespace Sys2Proof.Machine

/-- The vector engine's work for an instruction of its class. -/
def vrOf (i : Instr) : Option (State → VR) :=
  match i with
  | .vadd _ p => some (arithVR .add p)
  | .vsub _ p => some (arithVR .sub p)
  | .vmul _ p => some (arithVR .mul p)
  | .vfma h p => some (fmaVR h p)
  | .vmin _ p => some (pickVR false p)
  | .vmax _ p => some (pickVR true p)
  | .vabs _ p => some (absNegVR false p)
  | .vneg _ p => some (absNegVR true p)
  | .vand _ p => some (bitVR (· &&& ·) p)
  | .vor _ p => some (bitVR (· ||| ·) p)
  | .vxor _ p => some (bitVR (· ^^^ ·) p)
  | .vshl _ p => some (shiftVR (fun c => shiftL c p.sat) p)
  | .vshr h p => some (shiftVR (shiftR (h.fn == 1)) p)
  | .vcmp h p => some (cmpVR h p)
  | .vsel _ p => some (selVR p)
  | .vmov _ p => some (movVR p)
  | .vfillK _ p => some (fillKVR p)
  | .vfillIota _ p => some (iotaVR p)
  | .vcvt _ p => some (cvtVR p)
  | .vrcp _ p => some (unaryVR (fun a d => recip a d p.rm p.sat) p)
  | .vrsq _ p => some (unaryVR (fun a d => rsqrt a d p.rm p.sat) p)
  | .vnr h p => some (nrVR h p)
  | .vexp2 _ p => some (unaryVR (fun a d => special .exp2 a d p.rm p.sat) p)
  | .vlog2 _ p => some (unaryVR (fun a d => special .log2 a d p.rm p.sat) p)
  | .vtanh _ p => some (unaryVR (fun a d => special .tanh a d p.rm p.sat) p)
  | .vred h p => some (redVR (match h.fn.toNat with | 0 => .sum | 1 => .max | _ => .min) p [p.a])
  | .vdot _ p => some (redVR .dot p [p.a, p.b])
  | .vamax _ p => some (redVR .amax p [p.a])
  | .vscan _ p => some (scanVR p)
  | .vtrn _ p => some (trnVR p)
  | .vperm _ p => some (permVR p)
  | .vqnt h p => some (qntVR h p)
  | .vdqn _ p => some (dqnVR p)
  | .cwadd h p => some (causewayVR false h p)
  | .cwsub h p => some (causewayVR true h p)
  | .cwsum h p => some (cwsumVR h p)
  | _ => none

/-- What an instruction posts, from an element on, on a machine whose counters stand at its issue. -/
def repost (i : Instr) (el : Nat) (s : State) : State :=
  let d := s.draw
  let mul (kind : MKind) (h : Head) (p : PM) : State := mulPost i (mulOf kind h p d) d
  let atom (op : AOp) (h : Head) (p : PR) : State := atomicPost i op h p (atomicPlan i op h p s).time d
  match i with
  | .xlat _ p => xlatPost i p.d.toNat (s.g p.a + p.imm64).toNat (s.tn p.a) d
  | .ld h p => ldPost i h p (planLd h p s).time d
  | .lld h p => lldPost i h.fn.toNat p.d.toNat (poolPlace p (sizeOf h.fn.toNat) s).2 d
  | .lldS h p => lldPost i (h.fn.toNat % 8) p.d.toNat (spillPlace p (sizeOf (h.fn.toNat % 8)) s).2 d
  | .tst h p => tstPost h p (planTst h p s).time d
  | .gath h p => gathPost i h p (gsPlan h p false s).1.time d
  | .scat h p => scatPost i h p (gsPlan h p true s).1.time d
  | .stsw _ p => stswPost p (planStsw p s).time d
  | .aadd h p => atom .add h p
  | .aand h p => atom .and h p
  | .aor h p => atom .or h p
  | .axor h p => atom .xor h p
  | .amin h p => atom .min h p
  | .amax h p => atom .max h p
  | .aswp h p => atom .swp h p
  | .acas h p => atom .cas h p
  | .aqadd h p => atom .qadd h p
  | .qpush _ p => qpushPost p d
  | .sort _ p => sortPost i p d
  | .sortc _ p => sortcPost i p d
  | .sortcLd _ p => sortcLdPost i p d
  | .sortu _ p => sortuPost i 134 (sortuBytes p d) d
  | .sortuDump _ p => sortuPost i 167 (sortuDumpBytes p d) d
  | .smrg _ p => smrgPost i p d
  | .roweSmax _ p => rowePost i (roweOf true p d) el d
  | .roweRms _ p => rowePost i (roweOf false p d) el d
  | .mma h p => mul .mma h p
  | .mmah h p => mul .mmah h p
  | .mmat h p => mul .mmat h p
  | .mma16 h p => mul .m16 h p
  | .mmas h p => mul .mmas h p
  | .mq4 h p => mul .mq4 h p
  | .mzero h p => mzeroPost (mulOf .mma h p d) d
  | .mdrn h p => mdrnPost i h p (planMdrn h p s).time d
  | .mlda h p => mldaPost i p (planMlda h p s).time d
  | i => match vrOf i with | some f => vFinish i (f d) el d | none => d

/-! ### Sources that other writes met -/

/-- A source byte as it was read, or as a write that met it has left it, each write by free choice (DESIGN CHOICE, log 4); of a vector or sort element all bytes of a write together (R214, R277), else each for itself (R197, R240). -/
def Pend.asMet (e : Pend) (b : Nat × Byte) : Byte :=
  let x := if e.strm == .v then ((e.srcs.find? fun r => r.a ≤ b.1 && b.1 < r.a + r.n).map (·.a)).getD b.1 else b.1
  (e.met.filter (·.a == b.1)).foldl (fun o m => if Config.freeBool e.fr (2 ^ 30 + x + 2 ^ 52 * m.key) then m.b else o) b.2
/-- The core as it stood when an instruction read its sources: the registers it took, and its source bytes as they have been met. -/
def State.scratch (s : State) (c : CoreId) (o : Origin) (e : Pend) : State :=
  let at_ (k : Core) : Core :=
    { k with
      st := o.st, queues := o.queues, rings := o.rings, scfg := o.scfg, poison := [], sortBad := [], hook := none
      pool := k.pool.writes (e.seen.map fun b => (b.1, e.asMet b))
      cpu := { k.cpu with g := o.g, gt := o.gt, h := o.h, ht := o.ht, pend := [], walks := [] } }
  ({ s with transit := [], free := e.fr - 1, cur := ⟨.core c, e.strm⟩ } : State).modCore c at_
    |>.modLaunch (s.core c).lid fun l => { l with sfc := e.issue }

/-- Data that reach the pool through an entry of its own. -/
def Eff.isData : Eff → Bool | .pool _ _ _ | .nib _ => true | _ => false
def Pend.isData (e : Pend) : Bool := e.effs.any Eff.isData
/-- Two entries of one instruction. -/
def Pend.mate (e p : Pend) : Bool := p.strm == e.strm && p.issue == e.issue
/-- The instruction of an entry met poison, or has still to meet it. -/
def Cpu.stops (u : Cpu) (e : Pend) : Bool := u.pend.any (fun p => e.mate p && p.isDetect) || (u.stream e.strm).stopped.any (·.issue == e.issue)

def valueAt (bs : List (Nat × Byte)) (a : Nat) (old : Byte) : Byte := ((bs.reverse.find? (·.1 == a)).map (·.2)).getD old

/-- The effects of a pending entry, the k-th of its core, over the sources as other writes have met them. -/
def State.renewed (s : State) (c : CoreId) (k : Nat) (e : Pend) (o : Origin) : List Eff :=
  let u := (s.core c).cpu
  let ps := ((repost o.instr e.el (s.scratch c o e)).core c).cpu.pend
  let all := ps.flatMap (·.effs)
  -- of several entries that land together, the one as far from the last
  let after := ((u.pend.drop (k + 1)).filter fun p => e.mate p && p.land == e.land && p.isData).length
  let twin := ((ps.filter fun p => p.land == e.land && p.isData).reverse[after]?).map fun p => p.effs.filter Eff.isData
  let data := e.effs.filter Eff.isData
  let bytes := (twin.getD []).flatMap fun f => match f with | .pool bs _ _ => bs | _ => []
  let accs := all.flatMap fun f => match f with | .acc bs _ _ => bs | _ => []
  -- of an instruction that stops, only what it writes up to there
  let data := if data.isEmpty then [] else if u.stops e then data.map fun f => match f with | .pool bs bad w => .pool (bs.map fun b => (b.1, valueAt bytes b.1 b.2)) bad w | f => f
    else twin.getD data
  data ++ (e.effs.filter (!·.isData)).map fun f => match f with
    | .acc bs w ch => .acc (bs.map fun b => (b.1, valueAt accs b.1 b.2)) w ch
    | .flags v => ((ps.filter (·.land == e.land)).flatMap (·.effs)).findSome? (fun g => match g with | .flags w => some (.flags w) | _ => none) |>.getD (.flags v)
    | .sort x n => all.findSome? (fun g => match g with | .sort y m => some (.sort y m) | _ => none) |>.getD (.sort x n)
    | .sent bs => .sent (all.findSome? (fun g => match g with | .sent bs => some bs | _ => none) |>.getD bs)
    | .redo bs =>
      let now := all.findSome? (fun g => match g with | .redo bs => some bs | _ => none) |>.getD bs
      .pool (now.filter fun b => !e.newer.contains b.1) [] []
    | f => f

/-- Bytes of memory that an instruction wrote at issue stand as its renewed sources give them; what the core has stored since stays (R117, R197). -/
def State.resend (s : State) (e : Pend) (was now : List (Nat × Byte)) : State :=
  let olds := (s.wins.filter (·.fr == e.fr)).flatMap (·.old)
  let back := (was.filter fun b => !now.any (·.1 == b.1)).filterMap fun b => olds.find? (·.1 == b.1)
  let fresh := now.filter fun b => !(was.any (·.1 == b.1) || e.newer.contains b.1)
  ((s.amend e.fr (back ++ now)).memWrite fresh [])

/-- Matrix results that later instructions have chained on are what those read (R245). -/
def Cpu.rechain (u : Cpu) (e : Pend) (bs : List (Nat × Byte)) : Cpu :=
  let writes (p : Pend) (a : Nat) : Bool := p.effs.any fun f => match f with | .acc bs _ _ => bs.any (·.1 == a) | _ => false
  let next (p : Pend) (a : Nat) : Bool := !(u.pend.any fun q => q.strm == .m && e.issue < q.issue && q.issue < p.issue && writes q a)
  { u with pend := u.pend.map fun p =>
      let new := bs.filter fun b => p.strm == .m && e.issue < p.issue && p.seen.any (·.1 == b.1) && next p b.1
      if new.isEmpty then p
      else { p with seen := p.seen.map fun b => (b.1, valueAt new b.1 b.2), met := p.met ++ new.map fun b => ⟨b.1, b.2, p.hit⟩ } }

/-- A pending entry as it lands: over its sources as other writes met them. -/
def State.renew (s : State) (x : Hart) (k : Nat) (e : Pend) : State × Pend :=
  match x, e.origin with
  | .core c, some o =>
    if e.met.isEmpty then (s, e)
    else
      let e' := { e with effs := s.renewed c k e o }
      let was := e.effs.flatMap fun f => match f with | .sent bs => bs | _ => []
      let now := e'.effs.flatMap fun f => match f with | .sent bs => bs | _ => []
      let accs := e'.effs.flatMap fun f => match f with | .acc bs _ _ => bs | _ => []
      let s := if was.isEmpty then s else s.resend e was now
      (if accs.isEmpty then s else s.modCpu x (·.rechain e accs), e')
  | _, _ => (s, e)

end Sys2Proof.Machine
end

