-- ==== Sys2Proof/Machine/Results.lean ====
section
/-! DEFINITION. The ends of Times, repetitions, sections and kernels, and the stop of an instruction that traps after its issue (R26, R28, R30, R52, R157, R218, R245, R256, R278, R295, R416). -/

namespace Sys2Proof.Machine

/-! ### Whose turn it is -/

def streams : List Strm := [.s, .a, .v, .m]

/-- A core issues: no freeze holds it (R58 to R60); a hook's core runs by HFC until a walk halts it (R266). -/
def State.canIssue (s : State) (c : CoreId) : Bool :=
  let k := s.core c
  match s.launchOf c with
  | none => false
  | some l =>
    if k.hook.isSome then !(k.cpu.walks.any fun w => w.issue + 16 ≤ k.hfc)
    else !l.frozen && !k.stopped && k.hold ≤ l.sfc && !(k.stop.any (· ≤ l.sfc))

/-- The stream's next word has reached its stamp, and neither issued nor waited in this cycle (R49). -/
def State.stampDue (s : State) (x : Hart) (q : Strm) : Bool :=
  let t := s.stream x q
  let n := s.now x
  !t.ended && !t.parked && !t.past && t.tried != some n && t.last != some n
  && t.base + (if t.bad.isSome then 0 else (headOf (decode ((s.cpu x).wordAt t.pc))).idle.toNat) ≤ n

/-- In a cycle a stream's turn comes once the streams ahead of it have issued (R59). -/
def State.turn (s : State) (x : Hart) (q : Strm) : Bool :=
  match x with
  | .harbour => true
  | .core c => !(s.canIssue c && streams.any fun r => r.idx < q.idx && s.stampDue x r)

/-! ### Stops after issue -/

/-- The section of a stream that holds a word. -/
def Cpu.sectionAt (u : Cpu) (q : Strm) (pc : Nat) : Option Nat :=
  let t := u.stream q
  (t.secs ++ t.hooks).find? fun a => a + 8 ≤ pc && pc ≤ u.lastWord a
/-- The word is the last of a repeated section, so that an advance follows its issue (R157). -/
def Cpu.endsRepeat (u : Cpu) (q : Strm) (pc : Nat) : Bool :=
  match u.sectionAt q pc with
  | some a => hdrRpt (u.header a) && pc == u.lastWord a
  | none => false

/-- Stopped instructions stand in the order of their issues. -/
def insertStop (e : Stopped) : List Stopped → List Stopped
  | [] => [e]
  | x :: xs => if x.issue ≤ e.issue then x :: insertStop e xs else e :: x :: xs
def State.addStopped (s : State) (c : CoreId) (q : Strm) (e : Stopped) : State :=
  s.modStream (.core c) q fun t => { t with stopped := insertStop e t.stopped }

def Pend.accBytes (e : Pend) : List Nat := e.effs.flatMap fun f => match f with | .acc bs _ _ => bs.map (·.1) | _ => []

def insertNat (n : Nat) : List Nat → List Nat
  | [] => [n]
  | x :: xs => if n ≤ x then n :: x :: xs else x :: insertNat n xs
/-- Issue cycles of the M-stream writers that chain, directly or through others, on some elements, all their elements counted wherever they land (R245, R256). -/
def chainedOn (ps : List Pend) (as : List Nat) : List Nat :=
  let of (n : Nat) : List Nat := (ps.filter fun p => p.strm == .m && p.issue == n).flatMap Pend.accBytes
  ((((ps.filter (·.strm == .m)).map (·.issue)).eraseDups.foldr insertNat []).foldl (fun (m : List Nat × List Nat) n =>
    if (of n).any m.2.contains then (n :: m.1, of n ++ m.2) else m) ([], as)).1

/-- The ring slots that a multiplying instruction claims. -/
def ringClaims : Instr → List (Nat × Nat)
  | .mma _ p | .mmah _ p | .mmat _ p | .mma16 _ p | .mmas _ p | .mq4 _ p =>
    if p.ra == p.rb then [(p.ra.toNat, 2)] else [(p.ra.toNat, 1), (p.rb.toNat, 1)]
  | _ => []

/-- RC returned to its value before the issue, and HEAD where it has advanced: an instruction that is to meet poison itself never advances it (R256). -/
def returnSlots (ps : List Pend) (cs : List (Nat × Nat)) (s : State) : State :=
  let landed := !(ps.any fun p => p.effs.any fun f => match f with | .ringHead _ _ | .detect _ _ _ => true | _ => false)
  let s := unclaimRings cs s
  if landed then cs.foldl (fun s c => s.modK fun k => { k with rings := vmod k.rings c.1 fun r => { r with head := (r.head + 256 - c.2) % 256 } }) s else s
/-- Later M-stream instructions that chain on a stopped one are stopped with it (R256). -/
def State.stopChained (s : State) (c : CoreId) (e : Pend) : State :=
  let ps := (s.core c).cpu.pend
  let later := ps.filter fun p => e.issue < p.issue
  (chainedOn later e.accBytes).foldl (fun s n =>
    match ps.find? fun p => p.strm == .m && p.issue == n && p.origin.isSome with
    | some p =>
      (match p.origin with
       | some o =>
         let s := s.modCpu (.core c) fun u => { u with pend := u.pend.filter fun r => !(r.strm == .m && r.issue == n) }
         let s := { returnSlots (ps.filter fun r => r.strm == .m && r.issue == n) (ringClaims o.instr) { s with cur := ⟨.core c, .m⟩ } with cur := s.cur }
         s.addStopped c .m { origin := o, issue := n, el := 0, advanced := (s.core c).cpu.endsRepeat .m o.pc, newer := p.newer }
       | none => s)
    | none => s) s

/-- The buffer number of a transfer that stops after its issue (R63, R91). -/
def Origin.buf (o : Origin) : Nat :=
  let at_ (r : BitVec 9) : Nat := fld (vget (vget o.st r.toNat (Vector.replicate 4 0)) 2 0) 63 56
  match o.instr with
  | .gath _ p | .scat _ p => at_ p.d
  | _ => 0

/-- An instruction meets its poison: what it did stands, the stream keeps it stopped, and its trap is raised after issue (R12, R218, R256, R416). After a hook it kills the launch (R266). -/
def State.detectAt (s : State) (x : Hart) (k : Nat) (e : Pend) : State :=
  let s := s.dropPend x k
  match e.effs.findSome? fun f => match f with | .detect t el h => some (t, el, h) | _ => none, e.origin with
  | some (t, el, hook), some o =>
    match x with
    | .harbour =>
      let s := s.takeHarbourTrap e.strm t
      if s.harbour.halted then s
      else { s with harbour := if e.strm == .s then { s.harbour with epcs := o.pc } else { s.harbour with epca := o.pc } }
    | .core c =>
      if o.hooked then s.hookKill (s.mkRec c e.strm t true false (s.now x) (encode o.instr) o.pc o.sec o.repn)
      else
        let s := (e.effs.filter fun f => !(f.isDetect || f.isAcc)).foldl (fun s f => s.land1 x (some (e.strm, e.issue, e.land)) f) s
        let s := if e.strm == .m then { unclaimRings (ringClaims o.instr) { s.stopChained c e with cur := ⟨.core c, .m⟩ } with cur := s.cur } else s
        let s := match o.instr with
          | .roweSmax _ _ | .roweRms _ _ => s.modCore c fun k => { k with rowProg := el }
          | _ => s
        let s := s.freezeOf c o.buf
        let s := s.addStopped c e.strm { origin := o, issue := e.issue, el := el, advanced := (s.core c).cpu.endsRepeat e.strm o.pc, newer := e.newer }
        s.coreTrap c e.strm t true hook (encode o.instr) o.pc o.sec o.repn
  | _, _ => s

/-- An uncorrectable error meets an instruction in progress, in this cycle: what it has still to write from a cycle on is not written (R400). (DESIGN CHOICE, log 101) -/
def State.strike (s : State) (c : CoreId) (e : Pend) (o : Origin) (lo : Nat) (effs : List Eff) : State :=
  let d : Pend := { strm := e.strm, issue := e.issue, land := s.now (.core c), effs := effs, origin := some o, newer := e.newer }
  s.modCpu (.core c) fun u => { u with pend := (u.pend.filter fun p => !(e.mate p && lo ≤ p.land)) ++ [d] }
/-- An instruction in progress of some kind, with its origin. -/
def Core.running (k : Core) (kind : Instr → Bool) : Option (Pend × Origin) :=
  k.cpu.pend.findSome? fun e => match e.origin with | some o => if kind o.instr then some (e, o) else none | none => none
/-- An error in a sort-array cell stops what works on the array; otherwise it waits for what reads the cell (R400). -/
def State.cellError (s : State) (c : CoreId) (i : Nat) : State :=
  let k := s.core c
  match k.running usesCells with
  | some (e, o) => s.strike c e o 0 [.detect (cellTrap i) 0 false, .sort { k.sort with valid := false } 0]
  | none => s.modCore c fun k => { k with sortBad := i :: k.sortBad }
/-- An error in a row-buffer word stops the ROWE whose row the buffer holds; otherwise the word is written again before it is read (R400). -/
def State.rowError (s : State) (c : CoreId) (i : Nat) : State :=
  let k := s.core c
  let mark := s.modCore c fun k => { k with rowBad := i :: k.rowBad }
  match k.running fun i => match i with | .roweSmax _ _ => true | _ => false with
  | some (e, o) =>
    (match o.instr with
     | .roweSmax _ p =>
       let q := roweOf true p { s.modCore c (fun k => { k with st := o.st }) with cur := ⟨.core c, e.strm⟩ }
       match q.buffered (s.now (.core c) - e.issue) with
       | some j => s.strike c e o (e.issue + q.ends j - (q.beat - 1)) [.detect ⟨cDataPoison, 0, 4 * 2 ^ 21 + 31 * 2 ^ 16 + j % 1024⟩ j false]
       | none => mark
     | _ => mark)
  | none => mark

/-! ### Results -/

def State.landPend (s : State) (x : Hart) (k : Nat) : State :=
  match (s.cpu x).pend[k]? with
  | some e =>
    if e.isDetect then s.detectAt x k e
    else let (s, e) := s.renew x k e; (s.dropPend x k).landEffs x e
  | none => s
/-- Results land at the end of a cycle; a stop is met within its cycle, at its stream's turn (R59). -/
def State.landable (s : State) (x : Hart) (e : Pend) : Bool := if e.isDetect then e.land ≤ s.now x && s.turn x e.strm else e.land < s.now x


/-- An instruction's Time, or a beat's, ends (R30). -/
def execResultLands (x : Hart) (k : Nat) (s : State) : Out :=
  .next (match (s.cpu x).pend[k]? with
    | some e => if s.landable x e && (e.isDetect || !e.isAcc) then s.landPend x k else s
    | none => s)
/-- A write through the accumulator path lands (R245). -/
def execAccumulatorWriteLands (c : CoreId) (k : Nat) (s : State) : Out :=
  .next (match (s.core c).cpu.pend[k]? with
    | some e => if s.landable (.core c) e && !e.isDetect && e.isAcc then s.landPend (.core c) k else s
    | none => s)

/-- The named registers' BASE moves by STEP (R157). -/
def Core.advance (k : Core) (a : Nat) : Core :=
  (k.cpu.advanceSet a).foldl (fun k r => let w0 := k.stw r 0; k.setSt r 0 (setBase w0 (fld w0 22 0 + k.stepOf r))) k
def State.endRepetition (s : State) (c : CoreId) (q : Strm) : State :=
  match (s.stream (.core c) q).repEnd with
  | some (_, a) => (s.modCore c (·.advance a)).modStream (.core c) q fun t => { t with repEnd := none }
  | none => s
/-- The cycle of a repetition's last word ends (R157). -/
def execRepetitionEnd (x : Hart) (q : Strm) (s : State) : Out :=
  .next (match x, (s.stream x q).repEnd with
    | .core c, some (b, _) => if b < s.now x then s.endRepetition c q else s
    | _, _ => s)

/-- The oldest section whose words have all issued retires once its last Time has elapsed (R52). -/
def execSectionRetire (x : Hart) (q : Strm) (s : State) : Out :=
  .next (match (s.stream x q).retiring with
    | (n, d) :: r => if d < s.now x then s.modStream x q fun t => { t with retired := some n, retiring := r } else s
    | [] => s)

/-- A global access of the S or A stream on its way. -/
def Pend.isAccess (e : Pend) : Bool :=
  (e.strm == .s || e.strm == .a) && e.effs.any fun f => match f with | .hot _ _ _ | .shut _ | .via _ _ | .sent _ | .keep _ | .detect _ _ _ => true | _ => false
/-- What a HINVA waits for is performed: accesses of a core issued up to a cycle, or a copy (R358). -/
def State.drained (s : State) (d : CoreId × Nat × Bool) : Bool :=
  let k := s.core d.1
  let late (ps : List Pend) : Bool := ps.any fun e => e.issue ≤ d.2.1 && e.isAccess
  if d.2.2 then !k.copies.any fun e => e.issue == d.2.1 && !e.done
  else !late k.cpu.pend && !(match k.hook with | some v => late v.pend | none => false)
/-- The harbour core's S stream is held by a system instruction that has not completed (R348 to R350, R358), both streams by the drain of a trap (R337). -/
def State.harbourFree (s : State) (q : Strm) : Bool :=
  !s.harbour.halted && !s.harbour.entered && (q != .s || (s.harbour.hold ≤ s.time && s.harbour.drain.all s.drained))
/-- At the end of a cycle in which nothing issued before a trap is outstanding any more, a walk, a TLBI and a HINVA included, the first words at the vectors are due: two cycles after the one in which the last has completed (R337). -/
def Harbour.enter (h : Harbour) (now : Nat) : Harbour :=
  if !h.entered || h.busy now then h
  else
    let go (t : Stream) : Stream := { t with base := Nat.max t.base (now + 1) }
    { h with entered := false, cpu := (h.cpu.modStream .s go).modStream .a go }

/-- No word follows a stream's last word, and the cycle has come in which it would issue, at the stream's turn (R26, R59). -/
def State.ranPast (s : State) (x : Hart) (q : Strm) : Bool :=
  let t := s.stream x q
  t.past && !t.ended && !t.parked && t.base ≤ s.now x
  && match x with | .core c => s.canIssue c && s.turn x q | .harbour => s.harbourFree q
/-- ILLEGAL_OP there (R26); on the harbour core past the end of its instruction memory. -/
def execSectionRunPast (x : Hart) (q : Strm) (s : State) : Out :=
  let t := s.stream x q
  .next (if !s.ranPast x q then s
    else match x with
    | .core c =>
      s.coreTrap c q ⟨cIllegalOp, 0, 0⟩ false false 0 t.pc (hdrSec ((s.core c).cpu.header t.sec)) t.repn
    | .harbour => s.takeHarbourTrap q ⟨cIllegalOp, 0, 0⟩)

/-- A core has completed (R28). -/
def Core.complete (k : Core) : Bool :=
  k.cpu.strm.toList.all (fun t => t.ended && t.retiring.isEmpty && t.stopped.isEmpty) && k.cpu.pend.isEmpty && k.cpu.walks.isEmpty
    && k.copies.isEmpty && k.tl.toList.all fun t => t.val == t.iss
/-- Every member core has completed (R28): the launch completes and its domain is released (R377). -/
def execKernelComplete (lid : Nat) (s : State) : Out :=
  .next (match s.launch lid with
    | some l => if l.state == .run && !l.frozen && l.members.all fun c => (s.core c).complete then s.endLaunch lid 0 0 else s
    | none => s)

end Sys2Proof.Machine
end

