-- ==== Sys2Proof/Machine/Replay.lean ====
section
/-! DEFINITION. The continuation of an instruction stopped after its issue, on its original timetable (R60, R218, R256, R267, R278, R295, R416). -/

namespace Sys2Proof.Machine

/-- The stream registers that a V- or M-stream instruction reads again: BASE − STEP where its repeat advance has moved them (R218). -/
def Core.reread (k : Core) (q : Strm) (e : Stopped) : Vector (Vector Dword 4) 320 :=
  match k.cpu.sectionAt q e.origin.pc with
  | some a =>
    if e.advanced then
      ((k.cpu.advanceSet a).foldl (fun (k : Core) r =>
        let w0 := k.stw r 0
        k.setSt r 0 (setBase w0 (fld w0 22 0 + 2 ^ 23 - k.stepOf r))) k).st
    else k.st
  | none => k.st

def Eff.reorigin (o : Origin) : Eff → Eff
  | .via bs (some x) => .via bs (some (o, x.2))
  | f => f

/-- What an instruction writes as it continues leaves the bytes that its core has stored since its issue as they are (R117). -/
def State.keepOver (s was : State) (as : List Nat) (fr : Nat) : State :=
  { s with
    mem := s.mem.writes (as.map fun a => (a, was.mem.read a))
    wins := (s.wins.map fun w => if w.fr == fr then { w with old := w.old.filter fun b => !as.contains b.1 } else w).filter (!·.old.isEmpty) }
/-- One stopped instruction continues; what it posts keeps its origin. SORTC and SORTU have no source to restart from (R400): they raise SORT_STATE. (DEDUCED, log 52) -/
def State.replay (s : State) (c : CoreId) (q : Strm) (e : Stopped) : State :=
  let k := s.core c
  let lost := match e.origin.instr with | .sortc _ _ | .sortu _ _ | .sortuDump _ _ => !k.sort.valid | _ => false
  if lost then s.coreTrap c q ⟨cSortState, 0, 0⟩ false false (encode e.origin.instr) e.origin.pc e.origin.sec e.origin.repn
  else
    let o := e.origin
    let sfc := (s.launchOf c).map (·.sfc)
    let st := if q == .v || q == .m then k.reread q e else o.st
    let s1 : State := { (s.modCore c fun k => { k with
      st := st, queues := o.queues, rings := o.rings, scfg := o.scfg
      cpu := { k.cpu with g := o.g, gt := o.gt, h := o.h, ht := o.ht } }).modLaunch k.lid fun l => { l with sfc := e.issue } with cur := ⟨.core c, q⟩ }
    let s2 := (((repost o.instr e.el s1).attach s1.draw (.core c) { o with st := st } e.el).keepOver s e.newer s1.draw.free).draw
    let n := k.cpu.pend.length
    let m := k.cpu.walks.length
    let s3 := (s2.modCore c fun z => { z with
      st := k.st, queues := k.queues, rings := k.rings, scfg := k.scfg
      cpu := { z.cpu with
        g := k.cpu.g, gt := k.cpu.gt, h := k.cpu.h, ht := k.cpu.ht
        pend := z.cpu.pend.take n ++ (z.cpu.pend.drop n).map fun p => { p with newer := e.newer ++ p.newer, effs := p.effs.map (Eff.reorigin o) }
        walks := z.cpu.walks.take m ++ (z.cpu.walks.drop m).map fun w => { w with origin := o } } }).modLaunch k.lid fun l =>
          { l with sfc := sfc.getD l.sfc }
    { claimRings (ringClaims o.instr) { s3 with cur := ⟨.core c, q⟩ } with cur := s.cur }

/-- Every stopped instruction of a core continues, each stream's in program order. -/
def State.replayAll (s : State) (c : CoreId) : State :=
  [Strm.s, .a, .v, .m].foldl (fun s q =>
    let es := (s.stream (.core c) q).stopped
    let s := s.modStream (.core c) q fun t => { t with stopped := t.stopped.filter (·.rewalk) }
    (es.filter (!·.rewalk)).foldl (fun s e => s.replay c q e) s) s

end Sys2Proof.Machine
end

