-- ==== Sys2Proof/Machine/Freeze.lean ====
section
/-! DEFINITION. Harbour events and the RAS log (R336, R399), stop points and what drains at them, walks, swallowed pulses, frequency changes and the alignment of CYC (R56 to R59, R65, R354, R357, R403). -/

namespace Sys2Proof.Machine

/-! ### Harbour events (R335, R336) and the RAS log (R399) -/

def evFault : BitVec 8 := 1
def evHostdb : BitVec 8 := 2
def evWake : BitVec 8 := 4
def evTimer : BitVec 8 := 8
def evLaunch : BitVec 8 := 16
def evLink : BitVec 8 := 32
def evRas : BitVec 8 := 64
def evTalign : BitVec 8 := 128

/-- CYC of island 12 has reached HTCMP. -/
def State.timerOn (s : State) : Bool := s.harbour.htcmp.toNat ≤ s.cyc 12
/-- The event bits whose source asserts now. (DEDUCED, log 19) -/
def State.asserting (s : State) : BitVec 8 :=
  (if s.fq.isEmpty then 0 else evFault) ||| (if s.timerOn then evTimer else 0)
  ||| (if s.parts.toList.all (·.done.isEmpty) then 0 else evLaunch) ||| (if s.log.isEmpty then 0 else evRas)
/-- DEDUCED, log 19. -/
def State.setEvent (s : State) (m : BitVec 8) : State := { s with harbour := { s.harbour with hevent := s.harbour.hevent ||| m, evNow := s.harbour.evNow ||| m } }
/-- Bits whose source asserts are set. -/
def State.latch (s : State) : State := s.setEvent s.asserting

/-- One log record; a full log counts it as lost. Of a physical address DETAIL holds the low 40 bits. (DEDUCED, log 20) -/
def State.ras (s : State) (type isl unit detail : Nat) : State :=
  if s.log.length < 128 then
    { s with log := s.log ++ [(BitVec.ofNat 64 (detail % 2 ^ 40 * 2 ^ 24 + unit % 256 * 2 ^ 16 + isl % 16 * 2 ^ 8 + type), BitVec.ofNat 64 (s.cyc 12))] }.setEvent evRas
  else { s with logLost := Nat.min 255 (s.logLost + 1) }

/-! ### Stop points (R58, R59) -/

/-- A sort still in the array: it runs on, or stops at a step when the launch is saved (R278). (DEDUCED, log 34) -/
def Pend.isSort (e : Pend) : Bool := !e.isDetect && e.effs.any fun f => match f with | .sort _ _ => true | _ => false

/-- The pending entry of a core that lands first. -/
def Core.firstPend (k : Core) (sorts : Bool) : Option Nat :=
  (k.cpu.pend.zipIdx.foldl (fun (m : Option (Nat × Nat)) e =>
    if e.1.isSort && !sorts then m
    else match m with
      | some (l, _) => if e.1.land < l then some (e.1.land, e.2) else m
      | none => some (e.1.land, e.2)) none).map (·.2)
/-- Issued instructions run to completion (R58). -/
def State.drainN (c : CoreId) (sorts : Bool) : Nat → State → State
  | 0, s => s
  | n + 1, s => match (s.core c).firstPend sorts with | some k => drainN c sorts n (s.landPend (.core c) k) | none => s
def State.drain (s : State) (c : CoreId) (sorts : Bool) : State := s.drainN c sorts (s.core c).cpu.pend.length

def State.allStopped (s : State) (l : Launch) : Bool := l.members.all fun d => (s.core d).stopped

/-- Locks and holds end with the data that drain; the reservations of cycles still to come stand (R58, R213). (DEDUCED, log 89) -/
def ClaimKind.stays : ClaimKind → Bool | .use | .put => true | .lock | .hold => false
/-- A core reaches its stop point; the last one stills SFC (R58, R59). -/
def execFreezeStopPoint (c : CoreId) (s : State) : Out :=
  let k := s.core c
  .next (match k.stop, k.stopped || k.hook.isSome with
    | some t, false =>
      if t ≤ s.now (.core c) then
        let s := s.drain c false
        let s := [Strm.s, .a, .v, .m].foldl (fun s q => s.endRepetition c q) s
        let s := s.modCore c fun k => { k with stopped := k.stop.isSome, claims := k.claims.filter (·.kind.stays) }
        match s.launchOf c with
        | some l => if s.allStopped l then (s.modLaunch l.lid fun l => { l with frozen := true }).owe l.lid else s
        | none => s
      else s
    | _, _ => s)

/-! ### Walks (R354, R357) -/

/-- A walk's end is due (DESIGN CHOICE, log 4): its core has stopped, or its hook has reached the miss's stop point. -/
def State.walkDue (s : State) (x : Hart) (w : Walk) : Bool :=
  w.due ≤ s.time && match x with
    | .harbour => true
    | .core c => let k := s.core c; if k.hook.isSome then w.issue + 16 ≤ k.hfc else k.stopped

def State.endWalk (s : State) (x : Hart) : State :=
  let s := s.modCpu x fun u => { u with walks := u.walks.drop 1 }
  match x with
  | .harbour => s
  | .core c => if (s.core c).cpu.walks.isEmpty then s.modLaunch (s.core c).lid fun l => { l with causes := l.causes.filter (· != .walk c) } else s

/-- The oldest walk of a hart completes, or faults, in the context and from the roots with which it began (R346, R367); one through a range that an engine has marked waits, and so does that of its carry page (R361). -/
def execWalkComplete (x : Hart) (s : State) : Out :=
  .next (match (s.cpu x).walks with
    | w :: _ =>
      if !s.walkDue x w || s.barred w.root1 w.root2 (s.cpu x) w.ptn w.v then s
      else match s.translateFrom w.root1 w.root2 w.ptn w.v with
        | .ok pg gs =>
          let cy := (s.carryOf w.root1 w.root2 (s.cpu x) w.ptn pg).1
          let h : Handle := { valid := true, v := w.v, pg := pg, cy := cy }
          let land := match x with | .harbour => Nat.max w.land s.time | .core _ => w.land
          ((s.endWalk x).modCpu x fun u =>
            let u := if w.keep then u.install w.ptn pg gs else u
            { u with pend := u.pend ++ [{ strm := .a, issue := w.issue, land := land, effs := [.h w.d h w.t] }] })
        | .trap t =>
          let o := w.origin
          let s := s.endWalk x
          match x with
          | .harbour =>
            let s := s.takeHarbourTrap .a t
            if s.harbour.halted then s else { s with harbour := { s.harbour with epca := o.pc } }
          | .core c =>
            let s := s.addStopped c .a { origin := o, issue := w.issue, el := 0, advanced := (s.core c).cpu.endsRepeat .a o.pc }
            s.coreTrap c .a t true false (encode o.instr) o.pc o.sec o.repn
    | [] => s)

/-! ### Clock pulses and frequency (R56, R57, R403) -/

/-- One pulse of a domain is swallowed (R56). -/
def execPulseSwallow (lid : Nat) (s : State) : Out := .next (s.modLaunch lid fun l => { l with swallow := l.swallow + 1 })

/-- A launch's share, in bytes per nominal cycle (R67). -/
def Launch.share (l : Launch) : Nat := l.w * l.hh * l.hdr 14 2
/-- The multiplier a domain should run at (R403). -/
def State.wantedCur (s : State) (l : Launch) : Nat :=
  let sum := (s.launches.map Launch.share).sum
  let m := (l.atolls.map fun a => (s.atoll a).mult).foldl Nat.min 65
  if sum == 0 then m else Nat.min m (27648 * 52 / sum)
/-- An edge of the 25 MHz reference: one in 52 of the time base (R47). -/
def State.refEdge (s : State) : Bool := s.time % 52 == 0
/-- Relocking takes at most 2 µs, 2,600 edges (R57; DESIGN CHOICE, log 4). -/
def State.lockTime (s : State) : Nat := s.time + Config.freeNat s.free % 2601

/-- A launch that starts meets its atolls' loops as they stand: at the least multiplier in force, and without pulses while one of them relocks (R57, R403). -/
def State.meetLoops (s : State) (l : Launch) : Launch :=
  let ts := l.atolls.map s.atoll
  { l with cur := (ts.map (·.cur)).foldl Nat.min 65, relock := ts.any (!·.locked), lockAt := (ts.filterMap (·.lockAt)).foldl Nat.max s.time }
/-- Some atoll of a domain, or the domain, is not at the multiplier it should run at: after a launch has started or ended, or a setting has changed (R19, R403). -/
def State.offCur (s : State) (l : Launch) : Bool :=
  let m := s.wantedCur l
  l.cur != m || l.atolls.any fun a => (s.atoll a).cur != m
/-- A domain retargets all its atolls at one reference edge after a term of CUR has changed (R57, R403). -/
def execFrequencyRetarget (lid : Nat) (s : State) : Out :=
  .next (match s.launch lid with
    | some l =>
      let m := s.wantedCur l
      if s.refEdge && s.offCur l then
        let at_ := s.lockTime
        let s := l.atolls.foldl (fun s a => s.modAtoll a fun t => { t with cur := m, locked := false, lockAt := some at_ }) s.draw
        s.modLaunch lid fun l => { l with cur := m, relock := true, lockAt := at_ }
      else s
    | none => s)

/-- Every loop of a domain reports LOCKED (R57). -/
def execLoopLocked (lid : Nat) (s : State) : Out :=
  .next (match s.launch lid with
    | some l =>
      if l.relock && l.lockAt ≤ s.time then
        (l.atolls.foldl (fun s a => s.modAtoll a fun t => { t with locked := true, lockAt := none }) s).modLaunch lid fun l => { l with relock := false }
      else s
    | none => s)

/-- CYC of island 12 reaches the value TALIGN waits for: the masked islands change together (R65). (DEDUCED, log 40) -/
def execTalignApply (s : State) : Out :=
  .next (match s.talign with
    | some (mask, table, at_) =>
      if s.cyc 12 == at_ % 2 ^ 64 then
        ((List.range 14).foldl (fun (s : State) j => if mask.testBit j then s.modIsland j fun i => { i with cyc := table.getD j 0 } else s)
          { s with talign := none }).setEvent evTalign
      else s
    | none => s)

end Sys2Proof.Machine
end

