-- ==== Sys2Proof/Machine/Dispose.lean ====
section
/-! DEFINITION. Fault records and their dispositions, thaws, recovery hooks, the core window, and the harbour core's own events (R60, R264 to R267, R337 to R344). -/

namespace Sys2Proof.Machine

/-- A fault record's 64 bytes (R339). -/
def Rec.bytes (r : Rec) : List Byte :=
  toLE 1 r.trap.cause ++ toLE 1 (r.strm.idx + (if r.after then 4 else 0) + (if r.hookable then 8 else 0)) ++ toLE 2 r.seq ++ toLE 2 r.lid
  ++ toLE 1 r.rx ++ toLE 1 r.ry ++ toLE 6 r.sfc ++ toLE 2 0 ++ toLE 4 r.ima ++ toLE 2 r.sec ++ toLE 2 r.repn ++ toLE 8 r.trap.va
  ++ toLE 8 r.trap.info ++ toLE 12 r.word.toNat ++ toLE 2 r.vprog ++ toLE 1 r.isl ++ toLE 1 r.phys ++ toLE 8 r.cyc

/-- A record that the launch controller made at its stop point (R339, R380, R381). -/
def Rec.isControl (r : Rec) : Bool := !r.settled && (r.trap.cause == cBudgetExpired || r.trap.cause == cPreempt)
/-- A record may be posted: the controller's once its core has stopped, so that it tells of the S stream's next word there (R339), and that of a handle's new walk once the restore is done (R385). -/
def State.postable (s : State) (r : Rec) : Bool := (!r.isControl || (s.core r.c).stopped) && !(s.launch r.lid).any (·.loading)
/-- The controller's record describes the S stream's next word (R339). -/
def State.describe (s : State) (r : Rec) : Rec :=
  let u := (s.core r.c).cpu
  let x := u.stream .s
  if r.isControl then { r with word := u.wordAt x.pc, ima := x.pc, sec := hdrSec (u.header x.sec), repn := x.repn } else r

/-- The oldest waiting record that may be posted enters the fault queue when a slot is free, with the next SEQ (R338). One of a launch that its hook killed goes to the host at once (R341). (DESIGN CHOICE, log 21) -/
def execFaultRecordPost (s : State) : Out :=
  .next (match s.waitRecs.findIdx? s.postable with
    | some k =>
      match s.waitRecs[k]? with
      | some r =>
        if s.fq.length < 64 then
          let n := (s.seq + 1) % 65536
          let r := { s.describe r with seq := n }
          { s with waitRecs := s.waitRecs.eraseIdx k, recs := s.recs ++ [r], fq := s.fq ++ [n], seq := n,
                   out := if r.settled && r.disp == some 4 then s.out ++ [Output.record r.bytes] else s.out }.setEvent evFault
        else s
      | none => s
    | none => s)

def execHarbourTrap (q : Strm) (t : TrapInfo) (s : State) : Out := .next (s.takeHarbourTrap q t)

/-! ### DISP (R340, R341) -/

/-- The dispositions that a record's cause allows. -/
def Rec.allows (r : Rec) (k : Nat) : Bool :=
  match k with
  | 0 => [cHandleInvalid, cTranslation, cTranslationS2, cDataPoison, cDeliveryRefused, cBreak, cSyscall, cPreempt, cNotReady].contains r.trap.cause
  | 1 => r.trap.cause == cBreak || r.trap.cause == cSyscall
  | 2 => r.trap.cause == cDataPoison && r.hookable
  | 3 | 4 => true
  | _ => false

/-- Records of a launch whose freeze stands. -/
def State.recsOf (s : State) (lid : Nat) : List Rec := s.recs.filter fun r => r.lid == lid && !r.settled
def State.undisposed (s : State) (lid : Nat) : Bool := s.waitRecs.any (·.lid == lid) || (s.recsOf lid).any (·.disp.isNone)
def State.setStat (s : State) (n : Nat) : State := { s with harbour := { s.harbour with dispStat := n } }

/-- One write of DISP (R341). The last of a freeze's dispositions, one of them KILL, sets when the launch is released (DESIGN CHOICE, log 4). (DEDUCED, log 64) -/
def State.dispose (s : State) (seq k : Nat) : State :=
  match s.recs.find? fun r => r.seq == seq && r.disp.isNone && !r.settled with
  | none => s.setStat 1
  | some r =>
    let sup := s.harbour.pl == 1
    if sup && r.ptn != s.harbour.ptn then s.setStat 3
    else if !r.allows k || (sup && r.trap.cause == cTranslationS2) then s.setStat 2
    else
      let s := { s with recs := s.recs.map fun (x : Rec) => if x.seq == seq && x.disp.isNone && !x.settled then { x with disp := some k } else x }.setStat 0
      if !s.undisposed r.lid && (s.recsOf r.lid).any (·.disp == some 4) then
        (s.modLaunch r.lid fun l => { l with killAt := some (s.time + Config.freeNat s.free) }).draw
      else s

def execDispResume (seq : Nat) (s : State) : Out := .next (s.dispose seq 0)
def execDispSkip (seq : Nat) (s : State) : Out := .next (s.dispose seq 1)
def execDispHook (seq : Nat) (s : State) : Out := .next (s.dispose seq 2)
def execDispPreempt (seq : Nat) (s : State) : Out := .next (s.dispose seq 3)
/-- DEDUCED, log 23. -/
def execDispKill (seq : Nat) (s : State) : Out := .next (s.dispose seq 4)

/-! ### Recovery hooks (R264 to R267) -/

/-- What a hook may not change: every dword of the stopped instruction's destination register, ROWS and CNT of its sources (R267). -/
def hookShapes (k : Core) (i : Instr) : List (Nat × Nat × Dword) :=
  let rs := regionRegs i
  let word (r : Nat) (w : Nat) : Nat × Nat × Dword := (r, w, if w == 4 then BitVec.ofNat 64 ((k.stw r 0).toNat / 2 ^ 32) else k.stw r w)
  match i with
  | .mmas _ _ | .mq4 _ _ | .mlda _ _ | .sort _ _ | .sortcLd _ _ => rs.map fun r => word r 4
  | _ => match rs with
    | d :: ss => [word d 0, word d 1, word d 2, word d 3] ++ (ss.filter (· < 320)).map fun r => word r 4
    | [] => []

/-- Section of a stream's hook code (R303, R308). -/
def Launch.hookStart (l : Launch) (u : Cpu) (q : Strm) : Option Nat :=
  let n := l.hdr (52 + 2 * q.idx) 2
  if n == 0x3FF then none else (u.stream q).hooks.find? fun a => hdrSec (u.header a) == n

def hookStream (l : Launch) (u : Cpu) (q : Strm) : Stream :=
  let t := u.stream q
  match l.hookStart u q with
  | some a => { ended := false, pc := a + 8, sec := a, secs := t.secs, hooks := t.hooks }
  | none => { secs := t.secs, hooks := t.hooks }

/-- The machine saves what R265 names, writes the hook's arguments and starts its code with HFC 0 (R266). -/
def State.hookEntry (s : State) (r : Rec) : State :=
  match s.launch r.lid with
  | none => s
  | some l =>
    let s := s.drain r.c true
    let k := s.core r.c
    let u := k.cpu
    let i := ((u.stream r.strm).stopped.find? fun e => e.origin.pc == r.ima && e.origin.repn == r.repn).map (·.origin.instr)
    let sv : HookSave := {
      g := u.g, gt := u.gt, p := u.p, h := u.h, ht := u.ht, rings := k.rings, queues := k.queues, vflags := k.vflags, vprog := k.vprog,
      strm := u.strm, acq := u.acq, fence := u.fence, acc := u.acc, occ := k.occ, claims := k.claims, shares := k.shares, pend := u.pend,
      shapes := (i.map (hookShapes k)).getD [], raising := r.strm, start := s.cyc (islandOf r.c), seq := r.seq }
    let args : List (Nat × Nat) :=
      [(1, r.trap.va), (2, r.trap.info / 2 ^ 16 % 32), (3, r.trap.info % 2 ^ 11), (4, if r.strm == .v then r.vprog else 0)]
    let u := args.foldl (fun (u : Cpu) a => u.setG a.1 (BitVec.ofNat 64 a.2) false) u
    let u := { u with strm := #v[hookStream l u .s, hookStream l u .a, hookStream l u .v, hookStream l u .m], pend := [], acq := 0, fence := 0, acc := 0 }
    (s.modCore r.c fun k => { k with cpu := u, hook := some sv, hfc := 0, occ := Vector.replicate 4 0, claims := [], shares := [] }).modLaunch l.lid
      fun l => { l with state := .hookRun, causes := .hook r.c :: l.causes }

/-- Every hook stream has issued END and every Time has elapsed (R267). -/
def Core.hookDone (k : Core) : Bool :=
  k.hook.isSome && k.cpu.strm.toList.all (fun t => t.ended && t.retiring.isEmpty) && k.cpu.pend.isEmpty && k.cpu.walks.isEmpty

/-- The record that a launch's controller makes at relative place (0, 0) for a stop point; it is described when it is posted (R339, R380, R381). -/
def State.controlRec (s : State) (l : Launch) (cause info t : Nat) : Rec :=
  s.mkRec (l.coreOf 0 0) .s ⟨cause, 0, info⟩ false false t 0 0 0 0
/-- The stop point at which a frozen launch's controller joins a record to its freeze (R342, R380, R381). -/
def State.frozenStop (s : State) (l : Launch) : Nat := ((s.core (l.coreOf 0 0)).stop).getD l.sfc

/-- A hook ends: what was saved returns, and the stopped instruction may continue. A hook that changed the shape of its registers kills the launch; a pre-emption that waited is recorded (R266, R267, R381). -/
def execHookEnd (c : CoreId) (s : State) : Out :=
  let k := s.core c
  .next (match k.hook, s.launchOf c with
    | some sv, some l =>
      if !k.hookDone then s
      else if sv.shapes.any fun x => x.2.2 != (if x.2.1 == 4 then BitVec.ofNat 64 ((k.stw x.1 0).toNat / 2 ^ 32) else k.stw x.1 x.2.1) then
        match s.recs.find? fun r => r.seq == sv.seq && !r.settled with
        | some r => s.hookKill (s.mkRec c sv.raising ⟨cIllegalOperand, 0, 0⟩ false false l.sfc r.word r.ima r.sec r.repn)
        | none => s.endLaunch l.lid 2 0
      else
        let r := s.recs.find? fun r => r.seq == sv.seq && !r.settled
        let mark (t : Stream) : Stream := { t with stopped := t.stopped.map fun e =>
          if (r.any fun r => e.origin.pc == r.ima && e.origin.repn == r.repn) then { e with origin := { e.origin with hooked := true } } else e }
        let s := s.modCore c fun k => { k with
          rings := sv.rings, queues := sv.queues, vflags := sv.vflags, vprog := sv.vprog, occ := sv.occ, claims := sv.claims, shares := sv.shares
          hook := none, hfc := 0
          cpu := ({ k.cpu with g := sv.g, gt := sv.gt, p := sv.p, h := sv.h, ht := sv.ht, strm := sv.strm, acq := sv.acq, fence := sv.fence,
                               acc := sv.acc, pend := sv.pend } : Cpu).modStream sv.raising mark }
        let s := { s with recs := s.recs.map fun (r : Rec) => if r.seq == sv.seq && !r.settled then { r with disp := some 0 } else r }
        let s := if l.heldPre then { s with waitRecs := s.waitRecs ++ [s.controlRec l cPreempt 0 (s.frozenStop l)] } else s
        s.modLaunch l.lid fun l => { l with state := .run, heldPre := false, causes := l.causes.filter (· != .hook c) }
    | _, _ => s)

/-- A hook runs beyond its limit: the launch is killed, and the host learns BUDGET_EXPIRED (R266). (DEDUCED, log 70) -/
def execHookLimitExpire (c : CoreId) (s : State) : Out :=
  .next (match (s.core c).hook, s.launchOf c with
    | some sv, some l =>
      if l.hdr 60 4 < s.cyc (islandOf c) - sv.start then let u := (s.core c).cpu
        let x := u.stream .s
        s.hookKill (s.mkRec c .s ⟨cBudgetExpired, 0, l.budget⟩ false false l.sfc (u.wordAt x.pc) x.pc (hdrSec (u.header x.sec)) x.repn)
      else s
    | _, _ => s)

/-! ### Thaws (R60, R342) -/

/-- SKIP: the stream goes on as after a word without effect at its stamp (R341). -/
def State.skip (s : State) (r : Rec) : State :=
  let k := s.core r.c
  s.modStream (.core r.c) r.strm fun t => t.move (.core r.c) k.cpu (vget k.rep r.strm.idx 1) r.sfc 0 .next

/-- A restored handle is walked again, at no schedule cycle; a fault is recorded at its core's own stop point, at every thaw again (R385). -/
def State.rewalk (s : State) (c : CoreId) (e : Stopped) : State :=
  match e.origin.instr, s.launchOf c with
  | .xlat _ p, some l =>
    let v := (vget e.origin.g 1 0).toNat
    (match s.translate l.ptn v with
     | .ok pg _ => s.modCpu (.core c) fun u => u.setH p.d.toNat { valid := true, v := v, pg := pg, cy := s.carry u l.ptn pg } (vget u.ht p.d.toNat false)
     | .trap t => (s.addStopped c .a e).trapAt c .a t true false (s.core c).hold 0 e.origin.pc e.origin.sec e.origin.repn)
  | _, _ => s
def State.rewalks (s : State) (c : CoreId) : State :=
  let es := (s.stream (.core c) .a).stopped.filter (·.rewalk)
  es.foldl (fun s e => s.rewalk c e) (s.modStream (.core c) .a fun t => { t with stopped := t.stopped.filter (!·.rewalk) })

/-- SFC resumes from the smallest stop point; cores with a larger one are held until it (R60). -/
def State.thawNow (s : State) (l : Launch) : State :=
  let m := (l.members.filterMap fun d => (s.core d).stop).foldl Nat.min l.sfc
  let rs := s.recsOf l.lid
  let s := s.modLaunch l.lid fun l => { l with sfc := m, frozen := false, causes := [], debt := 0, frzBuf := 0 }
  let s := { s with recs := dropRecs (s.recs.map fun (r : Rec) => if r.lid == l.lid then { r with settled := true } else r) }
  let s := l.members.foldl (fun s d => s.modCore d fun k => { k with hold := k.stop.getD m, stop := none, stopped := false }) s
  let s := (rs.filter (·.disp == some 1)).foldl State.skip s
  l.members.foldl (fun s d => (s.rewalks d).replayAll d) s

/-- The record whose KILL ends a launch. -/
def State.killRec (s : State) (l : Launch) : Option Rec := (s.recsOf l.lid).find? (·.disp == some 4)
/-- TRAP service EXIT (R344). -/
def Rec.isExit (r : Rec) : Bool := r.trap.cause == cSyscall && r.trap.info == 2
/-- A launch ends by EXIT. -/
def State.exits (s : State) (l : Launch) : Bool := (s.killRec l).any Rec.isExit
/-- A launch that a disposition kills: the host receives the record, or the status of TRAP service EXIT (R341, R344, R377). (DESIGN CHOICE, log 22) -/
def State.killNow (s : State) (l : Launch) : State :=
  match s.killRec l with
  | none => s
  | some r =>
    if r.isExit then
      let v := ((s.core r.c).cpu.getG 1).toNat
      { s.endLaunch l.lid 1 (v % 2 ^ 32) with out := s.out ++ [Output.exit l.lid v] }
    else { s.endLaunch l.lid 2 0 with out := s.out ++ [Output.record r.bytes] }

def Cause.isWalk : Cause → Bool | .walk _ => true | _ => false
def Cause.isHook : Cause → Bool | .hook _ => true | _ => false

/-- The ticket that a locked TLWAIT waits for has completed (R58, R290). -/
def State.tlwaitMet (s : State) (c : CoreId) : Bool :=
  let u := (s.core c).cpu
  match decode (u.wordAt (u.stream .s).pc) with
  | .tlwait _ p => (if p.i then p.imm.toNat else (u.getG p.b.toNat).toNat) ≤ ((s.core c).tlNow p.a.toNat (s.now (.core c))).val
  | _ => true
/-- A cause of a freeze that ends of itself has ended. -/
def State.causeOver (s : State) : Cause → Bool
  | .tlwait c => s.tlwaitMet c
  | _ => false

/-- A restored handle that is walked again meets a range that an engine has marked (R361, R385). -/
def State.rewalkBarred (s : State) (p : Nat) (c : CoreId) : Bool :=
  (s.stream (.core c) .a).stopped.any fun e =>
    e.rewalk && s.barred (s.part p).s1root (s.part p).s2root (s.core c).cpu p (vget e.origin.g 1 0).toNat
/-- Every record of a freeze is disposed and what ends of itself has ended as far as the dispositions ask (R58, R342). A launch that is pre-empting ends by KILL or CTXSV only (R381). -/
def State.thawDue (s : State) (l : Launch) : Bool :=
  let rs := s.recsOf l.lid
  l.frozen && !s.undisposed l.lid
  && (if rs.any (·.disp == some 4) then l.killAt.any (· ≤ s.time)
      else l.state != .preempting && !l.loading && !l.causes.any (fun c => c.isWalk || c.isHook)
        && (rs.any (·.disp == some 3) || rs.any (·.disp == some 2) || (l.causes.all s.causeOver && !l.members.any (s.rewalkBarred l.ptn))))

/-- KILL, else PREEMPT, else hooks, else the thaw (R342). -/
def execThaw (lid : Nat) (s : State) : Out :=
  .next (match s.launch lid with
    | some l =>
      let rs := s.recsOf lid
      if !s.thawDue l then s
      else if rs.any (·.disp == some 4) then s.killNow l
      else if rs.any (·.disp == some 3) then
        let s := { s with recs := dropRecs (s.recs.map fun (r : Rec) => if r.lid == lid then { r with settled := true } else r) }
        s.modLaunch lid fun l => { l with state := .preempting, causes := [] }
      else match rs.find? (·.disp == some 2) with
        | some r => s.hookEntry r
        | none => s.thawNow l
    | none => s)

/-! ### The harbour core's events and the core window (R336, R343) -/

/-- The head record of the fault queue is removed; at an empty queue nothing is. -/
def execFqpop (s : State) : Out :=
  .next (match s.fq with
    | n :: ns =>
      let s := s.latch
      { s with fq := ns, recs := dropRecs (s.recs.map fun (r : Rec) => if r.seq == n && !r.popped then { r with popped := true } else r) }
    | [] => s)

/-- Bits written 1 are cleared, but for those whose source asserts and those that the hardware sets in this cycle (R335). (DEDUCED, log 19) -/
def execHeventClear (v : Dword) (s : State) : Out :=
  .next ({ s with harbour := { s.harbour with hevent := s.harbour.hevent &&& ~~~(v.truncate 8 &&& ~~~s.harbour.evNow) } }).latch

/-- CYC of island 12 has reached HTCMP. -/
def execTimer (s : State) : Out := .next (if s.timerOn then s.setEvent evTimer else s)

/-- The core that CWSEL names, of a launch that a freeze holds. -/
def State.windowCore (s : State) : Option CoreId :=
  let w := s.harbour.cwsel
  match s.launch (fld w 15 0) with
  | some l =>
    if fld w 23 16 < l.w && fld w 31 24 < l.hh && l.members.any fun d => (s.core d).stop.isSome then some (l.coreOf (fld w 23 16) (fld w 31 24))
    else none
  | none => none
def State.windowIndexOk (s : State) (wr : Bool) : Bool :=
  let w := s.harbour.cwidx
  let i := fld w 11 0
  match fld w 15 12 with
  | 0 => 1 ≤ i && i ≤ 63
  | 1 => 1 ≤ i && i ≤ 15
  | 2 => i ≤ 31
  | 3 => i < 1280
  | 4 => i ≤ 5 && !wr
  | _ => false
/-- The selected core has drained; the walk of a handle's write waits for a range that an engine has marked (R343, R361). -/
def State.windowReady (s : State) (wr : Bool) : Bool :=
  match s.windowCore with
  | none => true
  | some c =>
    let p := ((s.launchOf c).map (·.ptn)).getD 0
    (s.core c).stopped && !(wr && fld s.harbour.cwidx 15 12 == 2
      && s.barred (s.part p).s1root (s.part p).s2root (s.core c).cpu p ((s.core c).cpu.getH (fld s.harbour.cwidx 11 0)).v)

def State.windowRead (s : State) : Dword :=
  match s.windowCore with
  | none => 0
  | some c =>
    let k := s.core c
    let i := fld s.harbour.cwidx 11 0
    match fld s.harbour.cwidx 15 12 with
    | 0 => k.cpu.getG i
    | 1 => if k.cpu.getP i then 1 else 0
    | 2 => BitVec.ofNat 64 (k.cpu.getH i).v
    | 3 => k.stw (i / 4) (i % 4)
    | _ => if i == 0 then BitVec.ofNat 64 k.vprog else if i == 1 then k.vflags.zeroExtend 64 else BitVec.ofNat 64 (k.cpu.stream (strmOf (i - 2))).pc

/-- The translation that a write of a handle through the window makes. -/
def State.windowWalk (s : State) : Option Xl :=
  match s.windowCore with
  | some c =>
    if fld s.harbour.cwidx 15 12 == 2 then
      some (s.translate (((s.launchOf c).map (·.ptn)).getD 0) ((s.core c).cpu.getH (fld s.harbour.cwidx 11 0)).v)
    else none
  | none => none

/-- A write through the window clears the register's error (R400); of a handle it walks again from the stored v and clears its taint (R131). -/
def State.windowWrite (s : State) (v : Dword) : State :=
  match s.windowCore with
  | none => s
  | some c =>
    let i := fld s.harbour.cwidx 11 0
    let f := fld s.harbour.cwidx 15 12
    let s := s.modCpu (.core c) fun u => { u with regBad := u.regBad.filter (· != (f, i)) }
    match f with
    | 0 => s.modCpu (.core c) (·.setG i v false)
    | 1 => s.modCpu (.core c) (·.setP i (v.getLsbD 0))
    | 2 =>
      let p := ((s.launchOf c).map (·.ptn)).getD 0
      s.modCpu (.core c) fun u =>
        let h := u.getH i
        match s.translate p h.v with
        | .ok pg _ => u.setH i { valid := true, v := h.v, pg := pg, cy := s.carry u p pg } false
        | .trap _ => u.setH i { h with valid := false } false
    | 3 => s.modCore c (·.setSt (i / 4) (i % 4) (v &&& stMask (i % 4)))
    | _ => s

/-- An access of CWDATA, performed once the core has drained (R343). (DESIGN CHOICE, log 66) -/
def execCwdata (w : Option Dword) (s : State) : Out :=
  .next (match w with
    | some v => if s.windowIndexOk true && s.windowReady true then s.windowWrite v else s
    | none => s)

end Sys2Proof.Machine
end

