-- ==== Sys2Proof/Machine/Images.lean ====
section
/-! DEFINITION. Kernel images as the launch controller reads and tests them (R39, R300 to R308, R310, R311). -/

namespace Sys2Proof.Machine

/-- Reads n bytes, little-endian, at an offset of an image. -/
abbrev Rd := Nat → Nat → Nat
/-- An image in physical memory. -/
def State.imageAt (s : State) (a : Nat) : Rd := fun off n => s.mem.le (a + off) n

/-- A record of a TOF file (R301): tag, qualifier, place and length of its body. -/
structure ImgRec where
  tag : Nat
  qual : Nat
  off : Nat
  len : Nat
  deriving DecidableEq, Repr

def tagKhdr : Nat := 0x5244484B
def tagSsec : Nat := 0x43455353
def tagData : Nat := 0x41544144
def tagSpad : Nat := 0x44415053
def tagSymt : Nat := 0x544D5953
def tagStrt : Nat := 0x54525453
def tagDbgl : Nat := 0x4C474244

def up8 (n : Nat) : Nat := (n + 7) / 8 * 8
/-- The records of a file, none where one passes its end or its padding is not zero (R301). -/
def imgRecs (rd : Rd) (size : Nat) : Nat → Nat → Option (List ImgRec)
  | 0, _ => some []
  | n + 1, off =>
    let r : ImgRec := ⟨rd off 4, rd (off + 4) 4, off + 16, rd (off + 8) 8⟩
    let fin := off + 16 + up8 r.len
    if off + 16 ≤ size && fin ≤ size && rd (off + 16 + r.len) (up8 r.len - r.len) == 0 then (imgRecs rd size n fin).map (r :: ·) else none

def Rd.records (rd : Rd) : List ImgRec := (imgRecs rd (rd 16 8) (rd 8 4) 32).getD []
def Rd.find (rd : Rd) (tag qual : Nat) : Option ImgRec := (Rd.records rd).find? fun r => r.tag == tag && r.qual == qual

/-- A section of an image (R307): its address, whether it is a hook section, and its place in the file. -/
structure ImgSec where
  ima : Nat
  hook : Bool
  src : Nat
  bytes : Nat
  deriving DecidableEq, Repr

/-- Sections from entry k on, their images following one another from an offset. -/
def secList (rd : Rd) (off : Nat) : Nat → Nat → Nat → List ImgSec
  | 0, _, _ => []
  | n + 1, k, pos =>
    let b := 8 + 12 * hdrLen (rd pos 8)
    ⟨rd (off + 8 + 8 * k) 4, rd (off + 12 + 8 * k) 4 % 2 == 1, pos, b⟩ :: secList rd off n (k + 1) (pos + b)
def ImgRec.secs (r : ImgRec) (rd : Rd) : List ImgSec :=
  let n := rd r.off 4
  if 8 + 8 * n ≤ r.len then secList rd r.off n 0 (r.off + 8 + 8 * n) else []
/-- The sections of one stream. -/
def Rd.stream (rd : Rd) (q : Strm) : List ImgSec := match Rd.find rd tagSsec q.idx with | some r => r.secs rd | none => []

/-- R307 of an SSEC record. -/
def ssecOk (rd : Rd) (r : ImgRec) : Bool :=
  let n := rd r.off 4
  let ss := r.secs rd
  8 + 8 * n ≤ r.len && rd (r.off + 4) 4 == 0 && ss.length == n && (ss.map (·.bytes)).sum + 8 + 8 * n == r.len
  && (List.range n).all (fun k => rd (r.off + 12 + 8 * k) 4 ≤ 1)
  && ss.all fun x => x.ima % 4 == 0 && x.ima + x.bytes ≤ 2 ^ 19 && 20 ≤ x.bytes
/-- R310 of a DATA record. -/
def dataOk (rd : Rd) (r : ImgRec) : Bool :=
  24 ≤ r.len && rd r.off 8 % 2 ^ 16 == 0 && r.len == 24 + rd (r.off + 8) 8 && rd (r.off + 20) 4 == 0
  && (let f := rd (r.off + 16) 4; f / 64 == 0 && f % 4 ≤ 2 && f / 8 % 8 ≤ 2)
/-- No symbol is undefined (R302, R312). -/
def symsOk (rd : Rd) (r : ImgRec) : Bool := (List.range (r.len / 24)).all fun k => rd (r.off + 24 * k + 4) 1 != 0

/-- Status 1 of R374 does not apply: R300 to R302, R307 with the sections of R155, R310 and the length. (DEDUCED, log 26) -/
def imageOk (rd : Rd) (image imlen : Nat) : Bool :=
  let size := rd 16 8
  image % 8 == 0 && 32 ≤ imlen && rd 0 4 == 0x4E434C54 && rd 4 2 == 1 && rd 6 2 == 0 && rd 12 4 == 1 && rd 24 8 == 0 && 32 ≤ size && size ≤ imlen
  && match imgRecs rd size (rd 8 4) 32 with
     | none => false
     | some rs =>
       let count (t : Nat) : Nat := (rs.filter (·.tag == t)).length
       let segs := rs.filter (·.tag == tagData)
       count tagKhdr == 1 && count tagSpad == 1 && count tagSymt ≤ 1 && count tagStrt ≤ 1 && count tagDbgl ≤ 1
       && ([0, 1, 2, 3].all fun q => (rs.filter fun r => r.tag == tagSsec && r.qual == q).length ≤ 1)
       && rs.all (fun r => ([0, 1, 2, 3].all fun k => r.tag / 256 ^ k % 256 < 0x80)) && rs.all (fun r =>
            if 0x61 ≤ r.tag % 256 && r.tag % 256 ≤ 0x7A then true
            else if r.tag == tagSsec then r.qual ≤ 3 && ssecOk rd r
            else if r.tag == tagData then dataOk rd r
            else if r.tag == tagSymt then r.qual == 0 && symsOk rd r
            else if r.tag == tagKhdr then r.qual == 0 && r.len == 792 + 8 * rd (r.off + 784) 2
            else r.qual == 0 && [tagSpad, tagStrt, tagDbgl].contains r.tag)
       && (let all := [Strm.s, .a, .v, .m].flatMap (Rd.stream rd ·)
           all.zipIdx.all fun x => all.zipIdx.all fun y => x.2 == y.2 || x.1.ima + x.1.bytes ≤ y.1.ima || y.1.ima + y.1.bytes ≤ x.1.ima)
       && segs.zipIdx.all fun x => segs.zipIdx.all fun y =>
            x.2 == y.2 || (let a := rd x.1.off 8; let b := rd y.1.off 8; a + rd (x.1.off + 8) 8 ≤ b || b + rd (y.1.off + 8) 8 ≤ a)

/-- The kernel header's body. -/
def Rd.khdr (rd : Rd) : List Byte :=
  match Rd.find rd tagKhdr 0 with
  | some r => (List.range r.len).map fun k => BitVec.ofNat 8 (rd (r.off + k) 1)
  | none => []
def kh (h : List Byte) (off n : Nat) : Nat := ofLE ((h.drop off).take n)

/-- Ceiling of R64 between two relative islands. -/
def relCeil (i j : Nat) : Nat :=
  let d (a b : Nat) : Nat := (a - b) + (b - a)
  if i == j then 6 else 14 * (d (i % 4) (j % 4) + d (i / 4) (j / 4))

/-- Status 2 of R374 does not apply: the conditions of R306 with R33, R34, R39, R55, R67 and R70. (DEDUCED, log 26) -/
def headerOk (rd : Rd) (fbn : Nat) : Bool :=
  let h := Rd.khdr rd
  let f := kh h
  let det := f 2 2 == 1
  let w := f 28 1
  let hh := f 29 1
  let all := [Strm.s, .a, .v, .m].flatMap fun q => (Rd.stream rd q).map fun x => (q, x)
  let c := f 32 4
  let nbuf := f 784 2
  let bufs := (List.range nbuf).map fun k => f (792 + 8 * k) 1
  let split := ([0, 1, 2, 3].map fun k => Nat.max 1 (f (36 + 4 * k) 4)).foldl (· * ·) 1
  f 0 2 == 1 && f 2 2 ≤ 1 && 1 ≤ w && w ≤ 32 && 1 ≤ hh && hh ≤ 8 && 1 ≤ f 30 1 && f 30 1 ≤ 5
  && ([0, 1, 2, 3].all fun k => f (24 + k) 1 ≤ 64)
  && f 14 2 % 32 == 0 && 32 ≤ f 14 2 && f 14 2 ≤ 1024
  && f 8 1 + f 9 1 ≤ 128 && f 10 2 == 0
  && c ≤ 65536
  && (!det || (all.all (fun x => hdrLock (rd x.2.src 8)) && split == c && c % (w * hh * (fbn + 1)) == 0))
  && ((List.range 512).all fun k => f (200 + k) 1 % 16 ≤ 7 && f (200 + k) 1 / 16 ≤ 7)
  && f 16 8 % 2 ^ 16 == 0 && (f 16 8 == 0 || f 12 2 != 0)
  && f 64 1 ≤ 16 && ((List.range (f 64 1)).all fun k => f (72 + 8 * k) 4 % 64 == 0 && f (76 + 8 * k) 4 % 64 == 0 && f (72 + 8 * k) 4 + f (76 + 8 * k) 4 ≤ 2 ^ 23)
  && ([Strm.s, .a, .v, .m].all fun q =>
        let n := f (52 + 2 * q.idx) 2
        n == 0x3FF || (Rd.stream rd q).any fun x => x.hook && hdrSec (rd x.src 8) == n)
  && (!(all.any (·.2.hook)) || f 60 4 != 0)
  && ((List.range 64).all fun k => f (712 + k) 1 == 0xFF || relCeil (k / 8) (k % 8) ≤ f (712 + k) 1)
  && ((List.range 8).all fun k => 54 ≤ f (776 + k) 1)
  && nbuf ≤ 256 && bufs.eraseDups.length == nbuf
  && f 65 7 == 0 && f 786 6 == 0 && (List.range nbuf).all fun k => f (793 + 8 * k) 3 == 0

/-- Extents of the SPAD record: local address, place of the bytes, length (R311). -/
def extents (rd : Rd) : Nat → Nat → List (Nat × Nat × Nat)
  | 0, _ => []
  | n + 1, pos => let len := rd (pos + 4) 4; (rd pos 4 % 2 ^ 23, pos + 8, len) :: extents rd n (pos + 8 + up8 len)
/-- DEDUCED, log 29. -/
def Rd.spad (rd : Rd) : List (Nat × Nat × Nat) :=
  match Rd.find rd tagSpad 0 with | some r => extents rd (rd r.off 4) (r.off + 8) | none => []

/-- Instruction memory as the image's sections fill it (R307). -/
def Rd.imem (rd : Rd) : Mem :=
  [Strm.s, .a, .v, .m].foldl (fun m q => (Rd.stream rd q).foldl (fun m x =>
    m.writes ((List.range x.bytes).map fun k => (x.ima + k, BitVec.ofNat 8 (rd (x.src + k) 1)))) m) []
/-- A stream as a launch starts it (R27, R38): at the lowest of its main sections. -/
def Rd.start (rd : Rd) (q : Strm) : Stream :=
  let ss := Rd.stream rd q
  let main := (ss.filter (!·.hook)).map (·.ima)
  let t : Stream := { secs := main, hooks := (ss.filter (·.hook)).map (·.ima) }
  match main with
  | [] => t
  | a :: r => let a := r.foldl Nat.min a; { t with ended := false, pc := a + 8, sec := a }

end Sys2Proof.Machine
end

