-- ==== Sys2Proof/Machine/Launching.lean ====
section
/-! DEFINITION. The launch controllers: placement, LIDs, the commands of LCCMD, launch starts, preloads and budgets (R32 to R38, R67, R70, R77, R365, R372 to R381). -/

namespace Sys2Proof.Machine

/-! ### Placement (R34, R36, R37, R376) -/

/-- Islands of a partition: the mask of PTCFG. -/
def Part.mask (p : Part) : Nat := fld p.cfg 7 0
def Part.en (p : Part) : Bool := p.cfg.getLsbD 8
/-- The island whose CYC stands for a partition's queues: its first (R373). -/
def Part.home (p : Part) : Nat := ((List.range 8).find? p.mask.testBit).getD 0

/-- A logical place without a working core (R376, R392). -/
def State.deadPlace (s : State) (x y : Nat) : Bool := (s.atoll (atollAt x y)).map.toNat / 16 ^ (x % 8) % 16 == 0xF

/-- The latency table's entry (R64). -/
def State.hopEntry (s : State) (i j : Nat) : Nat := s.hops.getD (14 * i + j) 255

/-- The origin is admissible in an enabled partition (R34, R37, R365). (DEDUCED, log 35) -/
def State.admissible (s : State) (p : Part) (h : List Byte) (x0 y0 : Nat) : Bool :=
  let w := kh h 28 1
  let hh := kh h 29 1
  let c0 := islandAt x0 y0 % 4
  let r0 := islandAt x0 y0 / 4
  let isl (k : Nat) : Option Nat := if c0 + k % 4 < 4 && r0 + k / 4 < 2 then some (c0 + k % 4 + 4 * (r0 + k / 4)) else none
  let used := ((List.range (w * hh)).map fun m => islandAt (x0 + m % w) (y0 + m / w)).eraseDups
  p.en && x0 + w ≤ 32 && y0 + hh ≤ 8 && used.all p.mask.testBit
  && ((List.range 64).all fun k => kh h (712 + k) 1 == 0xFF || match isl (k / 8), isl (k % 8) with
        | some i, some j => s.hopEntry i j ≤ kh h (712 + k) 1
        | _, _ => true)
  && ((List.range 8).all fun k => match isl k with
        | some i => !used.contains i || [8, 9, 10, 11].all fun n => s.hopEntry i n ≤ kh h (776 + k) 1
        | none => true)

/-- An atoll that a launch other than one holds, or that takes none (R376, R393, R404). -/
def State.atollFree (s : State) (ign a : Nat) : Bool :=
  !(s.launches.any fun l => l.lid != ign && l.atolls.contains a) && !(s.atoll a).launchHold
  && (s.island (a / 4)).rst == 0 && s.readyBit (a / 4) 0 && s.readyBit (a / 4) 1

/-- The rectangle fits at an origin: its cores free and alive, the other cores of its atolls free or dead (R376). -/
def State.fits (s : State) (ign w hh x0 y0 : Nat) : Bool :=
  (List.range (w * hh)).all fun m =>
    let x := x0 + m % w
    let y := y0 + m / w
    s.atollFree ign (atollAt x y) && !s.deadPlace x y

/-- Origins in the order in which they are tried, one only under ORIGIN. -/
def origins (o : Option (Nat × Nat)) : List (Nat × Nat) :=
  match o with
  | some q => [q]
  | none => (List.range 8).flatMap fun y => (List.range 32).map fun x => (x, y)
def State.place (s : State) (p ign : Nat) (r : Request) : Option (Nat × Nat) :=
  (origins r.origin).find? fun q =>
    s.admissible (s.part p) r.khdr q.1 q.2 && s.fits ign (kh r.khdr 28 1) (kh r.khdr 29 1) q.1 q.2
/-- The share fits beside those of the running launches (R67). -/
def State.shareFits (s : State) (ign : Nat) (r : Request) : Bool :=
  ((s.launches.filter (·.lid != ign)).map Launch.share).sum + kh r.khdr 28 1 * kh r.khdr 29 1 * kh r.khdr 14 2 ≤ 27648

/-! ### LIDs and completions (R374, R377) -/

/-- DEDUCED, log 24. -/
def State.lidHeld (s : State) (n : Nat) : Bool :=
  s.launches.any (·.lid == n) || s.saved.any (fun e => e.lid == n && e.newlid.isNone)
  || s.parts.toList.any fun p =>
       p.queues.toList.any (fun q => q.any (·.lid == n)) || p.preload.any (·.lid == n) || p.hotsets.any (·.1 == n)
/-- The lowest free LID above one, counted cyclically in 1 to 65,535. -/
def State.nextLid (s : State) : Nat → Nat → Nat
  | 0, n => n
  | f + 1, n => let m := n % 65535 + 1; if s.lidHeld m then s.nextLid f m else m
/-- DEDUCED, log 24. -/
def State.takeLid (s : State) (p : Nat) : Nat × State :=
  let n := s.nextLid 65535 (s.part p).lastLid
  (n, s.modPart p fun q => { q with lastLid := n })

def State.record (s : State) (p lid outcome : Nat) : State := s.modPart p (·.complete lid outcome 0)
/-- The status of a command; the LID of the last SUBMIT stays (R373). -/
def State.setLcstat (s : State) (p st : Nat) : State := s.modPart p fun q => { q with lcstat := BitVec.ofNat 64 (fld q.lcstat 63 48 * 2 ^ 48 + st) }
/-- The status of a SUBMIT with the LID that it assigned, 0 when it was refused (R374). -/
def State.setSubmitted (s : State) (p st lid : Nat) : State := s.modPart p fun q => { q with lcstat := BitVec.ofNat 64 (lid * 2 ^ 48 + st) }

def State.setQueueOf (s : State) (p q : Nat) (rs : List Request) : State := s.modPart p fun x => { x with queues := vset x.queues q rs }
/-- A CYC cycle passes for the heads of a partition's queues (R375). -/
def Part.age (p : Part) : Part :=
  { p with queues := p.queues.map fun rs => match rs with | r :: t => { r with waited := r.waited + 1 } :: t | [] => [] }

/-! ### LCCMD (R373, R374, R379, R381) -/

def Part.cmdLid (p : Part) : Nat := fld p.lccmd 31 16
def Part.cmdQueue (p : Part) : Nat := fld p.lccmd 7 4

/-- The launch request that LCARG names (R372), none where a reserved field is set or it lies elsewhere. (DEDUCED, log 25) -/
def State.requestOf (s : State) (p : Nat) : Option Request :=
  let q := s.part p
  let a := fld q.lcarg 47 6 * 64
  let f (off n : Nat) : Nat := s.mem.le (a + off) n
  let here := match s.tierOf a with | some 0 | some 6 => true | _ => false
  if here && f 32 32 == 0 && f 25 1 ≤ 1 && f 24 1 ≤ 7 && f 28 1 ≤ 63 && f 29 1 ≤ f 28 1 && (f 30 2 != 0 || f 28 1 == 0) then
    some { lid := 0, image := f 0 8, imlen := f 8 8, budget := f 16 8, prio := f 24 1, origin := if f 25 1 == 1 then some (f 26 1, f 27 1) else none,
           fbn := f 28 1, fbix := f 29 1, job := f 30 2, queue := q.cmdQueue, khdr := Rd.khdr (s.imageAt (f 0 8)) }
  else none

/-- Why a SUBMIT is refused (R374), 0 when it is not: TDISP is asked before the image. (DEDUCED, log 25) -/
def State.submitStatus (s : State) (p : Nat) : Nat :=
  match s.requestOf p with
  | none => 7
  | some r =>
    let rd := s.imageAt r.image
    let q := s.part p
    if q.tdisp == 1 || q.tdisp == 3 then 5
    else if !imageOk rd r.image r.imlen then 1
    else if !headerOk rd r.fbn then 2
    else if 64 ≤ (vget q.queues r.queue []).length then 3
    else if !((origins r.origin).any fun o => s.admissible q r.khdr o.1 o.2) then 4
    else 0

def execSubmit (p : Nat) (s : State) : Out :=
  .next (match s.submitStatus p, s.requestOf p with
    | 0, some r =>
      let (n, s) := s.takeLid p
      (s.setQueueOf p r.queue (vget (s.part p).queues r.queue [] ++ [{ r with lid := n }])).setSubmitted p 0 n
    | st, _ => (s.record p 0 3).setSubmitted p st 0)

/-- A stop point that the controller chooses: at least 16 cycles ahead (R59; DESIGN CHOICE, log 4). (DESIGN CHOICE, log 72) -/
def State.chosenStop (s : State) (l : Launch) : Nat := l.sfc + 16 + Config.freeNat s.free
/-- A record of the controller joins or makes a freeze (R342, R380, R381). -/
def State.controlFreeze (s : State) (l : Launch) (cause info : Nat) : State :=
  let t := if l.frozen then s.frozenStop l else s.chosenStop l
  let s := if l.frozen then s else s.freeze l (l.coreOf 0 0) t t
  { s.draw with waitRecs := s.waitRecs ++ [s.controlRec l cause info t] }

def execPreempt (p : Nat) (s : State) : Out :=
  let n := (s.part p).cmdLid
  .next (match s.launch n with
    | some l =>
      if l.ptn != p || l.state == .preempting then s.setLcstat p 6
      else
        let s := s.setLcstat p 0
        if l.state == .hookRun then s.modLaunch n fun l => { l with heldPre := true } else s.controlFreeze l cPreempt 0
    | none => s.setLcstat p 6)

/-- ABANDON: a queued request or the preload (R379). -/
def execAbandon (p : Nat) (s : State) : Out :=
  let q := s.part p
  let n := q.cmdLid
  .next (if q.preload.any (·.lid == n) then
      ((s.modPart p fun q => { q with preload := none }).record p n 4).setLcstat p 0
    else match (List.range 16).find? fun k => (vget q.queues k []).any (·.lid == n) with
      | some k => ((s.setQueueOf p k ((vget q.queues k []).filter (·.lid != n))).record p n 4).setLcstat p 0
      | none => s.setLcstat p 6)

def execQhold (p : Nat) (s : State) : Out :=
  .next ((s.modPart p fun q => { q with holds := q.holds ||| BitVec.twoPow 16 q.cmdQueue }).setLcstat p 0)
def execQrun (p : Nat) (s : State) : Out :=
  .next ((s.modPart p fun q => { q with holds := q.holds &&& ~~~(BitVec.twoPow 16 q.cmdQueue) }).setLcstat p 0)
def execLcdpop (p : Nat) (s : State) : Out := .next (s.latch.modPart p fun q => { q with done := q.done.drop 1 })

/-! ### Starts (R38, R77) -/

/-- The pages of an overflow area under the current tables, none where one is not HBM of kind RC or SO (R77). A pointer that reaches 2^56 meets what the walk makes of its low 56 bits (DESIGN CHOICE, log 92). -/
def State.pinPages (s : State) (p v : Nat) : Nat → Option (List Page)
  | 0 => some []
  | n + 1 =>
    match s.translate p v with
    | .ok pg _ => if pg.tier == 0 && pg.kind ≤ 1 then (s.pinPages p (v + 2 ^ 16) n).map (pg :: ·) else none
    | .trap _ => none

/-- A page's walk goes through a range that an engine has marked: the overflow area waits to be pinned (R77, R361). -/
def State.pinBarred (s : State) (p v : Nat) : Nat → Bool
  | 0 => false
  | n + 1 => s.marked p (s.metBy (s.part p).s1root (s.part p).s2root p v) || s.pinBarred p (v + 2 ^ 16) n

/-- DOM of a member (R32, R33). -/
def Launch.domOf (l : Launch) (c : CoreId) : Nat :=
  let ix (ds : List CoreId) : Nat := ds.findIdx (· == c)
  let at_ := l.domain c 2
  let is := l.domain c 3
  l.fbn * 2 ^ 42 + l.fbix * 2 ^ 36 + (l.members.length - 1) * 2 ^ 28 + ix l.members * 2 ^ 20 + (is.length - 1) * 2 ^ 15 + ix is * 2 ^ 10
    + (at_.length - 1) * 2 ^ 7 + ix at_ * 2 ^ 4 + l.hdr 30 1

/-- A member core with what the launch controller writes from the kernel header (R38, R55). -/
def Launch.init (l : Launch) (c : CoreId) (pin : List Page) : Core :=
  let pace (k : Nat) : Nat := Nat.max 1 (l.hdr (24 + k) 1)
  { lid := l.lid, rx := coreX c - l.x0, ry := coreY c - l.y0, pace := #v[pace 0, pace 1, pace 2, pace 3], part := BitVec.ofNat 32 (l.hdr 8 4),
    dom := BitVec.ofNat 64 (l.domOf c), ovfptr := l.hdr 16 8, ovflen := l.hdr 12 2, pin := pin, share := l.hdr 14 2 }

/-- Pool bytes of the image's extents, from the image or, for a preload, from the staging region (R38, R378). (DEDUCED, log 29) -/
def spadBytes (rd : Rd) (stage : Option Rd) : List (Nat × Byte) :=
  ((Rd.spad rd).foldl (fun (a : List (Nat × Byte) × Nat) e =>
    (a.1 ++ (List.range e.2.2).map fun k =>
      (e.1 + k, BitVec.ofNat 8 (match stage with | some st => st (a.2 + k) 1 | none => rd (e.2.1 + k) 1)), a.2 + e.2.2)) ([], 0)).1

/-- Steps 1 to 3 of R38 at a place; the overflow area's failure refuses the launch (R77). (DEDUCED, log 30) -/
def State.startAt (s : State) (p : Nat) (r : Request) (x0 y0 : Nat) (pre : Bool) : State :=
  let rd := s.imageAt r.image
  let l : Launch := { lid := r.lid, ptn := p, job := r.job, fbn := r.fbn, fbix := r.fbix, x0 := x0, y0 := y0, khdr := r.khdr, image := r.image,
                      imlen := r.imlen, prio := r.prio, queue := r.queue, budget := r.budget }
  match s.pinPages p (l.hdr 16 8) (l.hdr 12 2) with
  | none => s.record p r.lid 3
  | some pin =>
    let l := s.meetLoops l
    let stage := if pre then some (s.imageAt (fld (s.part p).lcshb 47 16 * 2 ^ 16)) else none
    let bytes := spadBytes rd stage
    let streams : Vector Stream 4 := #v[Rd.start rd .s, Rd.start rd .a, Rd.start rd .v, Rd.start rd .m]
    let s := l.members.foldl (fun s c => s.modCore c fun k =>
      let n := l.init c pin
      { n with pool := Mem.writes [] bytes, shadow := if pre then k.cpu.imem else k.shadow, shadowBad := if pre then k.cpu.imemBad else k.shadowBad
               cpu := { n.cpu with strm := streams, imem := if pre then k.shadow else Rd.imem rd, imemBad := if pre then k.shadowBad else [] } }) s
    let s := l.atolls.foldl (fun s a => s.modAtoll a fun t => { t with bist := false, idle := 0 }) s
    { s with launches := s.launches ++ [l] }

/-- A head's effective priority (R375). (DEDUCED, log 28) -/
def State.rank (s : State) (p : Nat) (r : Request) : Nat :=
  let age := fld (s.part p).lcage 31 0
  if age == 0 then r.prio else Nat.min 7 (r.prio + r.waited / (1024 * age))
/-- The highest-ranked competing head of a partition (R375). -/
def State.topHead (s : State) (p : Nat) : Option Request :=
  let q := s.part p
  ((List.range 16).filterMap fun k => if q.holds.getLsbD k then none else (vget q.queues k []).head?).foldl (fun m r =>
    match m with
    | none => some r
    | some x => if s.rank p x < s.rank p r then some r else m) none

/-- A request waits for a range that an engine has marked (R361). -/
def State.requestBarred (s : State) (p : Nat) (r : Request) : Bool := s.pinBarred p (kh r.khdr 16 8) (kh r.khdr 12 2)
/-- What the controller may start now: a preload whose launch has gone, else the highest-ranked head where it fits (R375, R379). (DEDUCED, log 27) -/
def State.startable (s : State) (p : Nat) : Option (Request × Nat × Nat × Bool) :=
  let q := s.part p
  if q.tdisp == 3 then none
  else match q.preload with
  | some r => match r.place with
    | some o => if (s.launch r.behind).isNone && s.fits 0 (kh r.khdr 28 1) (kh r.khdr 29 1) o.1 o.2 && s.shareFits 0 r && !s.requestBarred p r then some (r, o.1, o.2, true) else none
    | none => none
  | none => match s.topHead p with
    | some r => if s.shareFits 0 r && !s.requestBarred p r then (s.place p 0 r).map fun o => (r, o.1, o.2, false) else none
    | none => none

def execLaunchStart (p : Nat) (s : State) : Out :=
  .next (match s.startable p with
    | some (r, x0, y0, pre) =>
      let s := if pre then s.modPart p fun q => { q with preload := none }
        else s.setQueueOf p r.queue ((vget (s.part p).queues r.queue []).drop 1)
      s.startAt p r x0 y0 pre
    | none => s)

/-- The head that may be preloaded behind a running launch; one without extents fits in any staging region (R378). -/
def State.preloadable (s : State) (p : Nat) : Option (Request × Nat × Nat × Nat) :=
  let q := s.part p
  if q.preload.isSome then none
  else match s.topHead p with
    | none => none
    | some r =>
      let size := ((Rd.spad (s.imageAt r.image)).map (·.2.2)).sum
      if fld q.lcshs 15 0 * 2 ^ 16 < size then none
      else (s.launches.filter fun l => l.ptn == p && l.state != .preempting).findSome? fun l => (s.place p l.lid r).map fun o => (r, o.1, o.2, l.lid)

def execPreload (p : Nat) (s : State) : Out :=
  .next (match s.startable p, s.preloadable p with
    | none, some (r, x0, y0, b) =>
      let rd := s.imageAt r.image
      let base := fld (s.part p).lcshb 47 16 * 2 ^ 16
      let im := Rd.imem rd
      let s := (s.setQueueOf p r.queue ((vget (s.part p).queues r.queue []).drop 1)).modPart p fun q =>
        { q with preload := some { r with place := some (x0, y0), behind := b } }
      let w := kh r.khdr 28 1
      let s := (List.range (w * kh r.khdr 29 1)).foldl (fun s m => s.modCore (coreAt (x0 + m % w) (y0 + m / w)) fun k => { k with shadow := im, shadowBad := [] }) s
      s.memWrite ((spadBytes rd none).zipIdx.map fun b => (base + b.2, b.1.2)) []
    | _, _ => s)

/-- RERUN: a launch killed within the freeze, its cores unreleased, starts afresh at its origin; it is a launch command under TDISP (R369, R379). (DESIGN CHOICE, log 22) -/
def execRerun (p : Nat) (s : State) : Out :=
  let n := (s.part p).cmdLid
  .next (match s.launch n with
    | some l =>
      if (s.part p).tdisp == 1 || (s.part p).tdisp == 3 then s.setLcstat p 5
      else if l.ptn != p || l.killAt.isNone || s.exits l then s.setLcstat p 6
      else
        let (m, s) := (s.killNow l).takeLid p
        let r : Request := { lid := m, image := l.image, imlen := l.imlen, budget := l.budget, prio := l.prio, origin := some (l.x0, l.y0),
                             fbn := l.fbn, fbix := l.fbix, job := l.job, queue := l.queue, khdr := l.khdr }
        ((s.modPart p fun q => { q with preload := q.preload.map fun x => if x.behind == n then { x with behind := m } else x }).startAt p r l.x0 l.y0
          false).setLcstat p 0
    | none => s.setLcstat p 6)

/-- A budget's CYC count is reached: one record at relative place (0, 0) (R380). -/
def Launch.budgetDue (l : Launch) : Bool := l.budget != 0 && l.budget ≤ l.used && !l.expired && l.state != .hookRun
def execBudgetExpired (lid : Nat) (s : State) : Out :=
  .next (match s.launch lid with
    | some l => if l.budgetDue then (s.controlFreeze l cBudgetExpired l.budget).modLaunch lid fun l => { l with expired := true } else s
    | none => s)

end Sys2Proof.Machine
end

