-- ==== Sys2Proof/Machine/Context.lean ====
section
/-! DEFINITION. The save area, CTXSV's save, late arrivals and the remap table, CTXLD's restore, and stale packets (R350, R382 to R386, R396). -/

namespace Sys2Proof.Machine

def coreBlockSize : Nat := 0x900000
def saveSize (n : Nat) : Nat := 0x10000 + n * coreBlockSize
def coreBlock (area p : Nat) : Nat := area + 0x10000 + p * coreBlockSize

/-- A range of memory emptied. -/
def Mem.clear (m : Mem) (a n : Nat) : Mem := m.filter fun c => c.1 < a || a + n ≤ c.1
/-- Intervals of addresses without the n addresses from a on. -/
def cutRange (ls : List (Nat × Nat)) (a n : Nat) : List (Nat × Nat) :=
  ls.flatMap fun r => if r.1 < a + n && a < r.2 then (if r.1 < a then [(r.1, a)] else []) ++ (if a + n < r.2 then [(a + n, r.2)] else []) else [r]
/-- Memory from a on gives way to what replaces it: n bytes are 0 for every observer (R118), the first k of them, whole lines, without poison (R399). -/
def State.wipe (s : State) (a n k : Nat) : State :=
  { s with
    mem := s.mem.clear a n, lines := cutRange s.lines a k
    wins := (s.wins.map fun w => { w with old := w.old.filter fun b => b.1 < a || a + n ≤ b.1 }).filter (!·.old.isEmpty) }

/-- n bytes lie in HBM or the far tier (R350, R405). -/
def State.plainRange (s : State) (a n : Nat) : Bool :=
  (hbmBase ≤ a && a + n ≤ hbmEnd - s.mscSteps * (16 * gib)) || (farBase ≤ a && a + n ≤ farEnd)

/-- Marks of 64-byte granules as bytes, one bit a granule (R383). -/
def markBytes (a : Nat) (gs : List Nat) : List (Nat × Byte) :=
  ((gs.map fun g => g / 512).eraseDups).map fun j =>
    (a + j, (gs.filter fun g => g / 512 == j).foldl (fun b g => b ||| BitVec.twoPow 8 (g / 64 % 8)) (0 : Byte))
/-- The granules that mark bytes from an address on name. -/
def marksOf (m : Mem) (a : Nat) : List Nat :=
  (m.filter fun c => a ≤ c.1 && c.1 < a + 0x4000).flatMap fun c =>
    ((List.range 8).filter fun j => c.2.getLsbD j).map fun j => 512 * (c.1 - a) + 64 * j

def Ring.dword (r : Ring) : Nat :=
  r.rc * 2 ^ 56 + r.tail * 2 ^ 48 + r.head * 2 ^ 40 + r.fc * 2 ^ 32 + r.lgn * 2 ^ 29 + r.slotb * 2 ^ 14 + r.baseb
def ringOf (n : Nat) : Ring :=
  let f (hi lo : Nat) : Nat := hdrField n hi lo
  { rc := f 63 56, tail := f 55 48, head := f 47 40, fc := f 39 32, lgn := f 31 29, slotb := f 28 14, baseb := f 13 0 }

/-- An optional cycle as eight bytes, all ones for none. (DESIGN CHOICE, log 32) -/
def optDword (o : Option Nat) : Nat := o.getD (2 ^ 64 - 1)
def dwordOpt (n : Nat) : Option Nat := if n == 2 ^ 64 - 1 then none else some n

/-! ### The save (R383, R384) -/

/-- The gap from a stop point to a stream's next stamp. -/
def Cpu.gapOf (u : Cpu) (t : Stream) (stop : Nat) : Nat := t.base + (headOf (decode (u.wordAt t.pc))).idle.toNat - stop

/-- The array's dump as a core block holds it: one that is not valid with no pair and P = 15, where PL is 15 too (R383; DESIGN CHOICE, log 32). -/
def SortState.record (x : SortState) : SortState := if x.valid then x else { x with n := 0, p := 15, s := 0, pl := 1 }
/-- A state record of a valid array. -/
def SortState.holds (x : SortState) : Bool := !(x.n == 0 && x.p == 15 && x.s == 0 && x.pl == 1)
/-- One core's block (R383). The ferry's and the streams' fields lie in the order in which R383 lists them. (DEDUCED, log 31) (DESIGN CHOICE, log 32) -/
def Core.saveBytes (k : Core) (b stop : Nat) : List (Nat × Byte) :=
  let u := k.cpu
  let at_ (o n v : Nat) : List (Nat × Byte) := placeLE (b + 0x800000 + o) n v
  let bits (l : List Bool) : Nat := l.foldr (fun x n => (if x then 1 else 0) + 2 * n) 0
  let stopped (t : Stream) : Nat := if t.stopped.isEmpty then 0 else 6
  (k.pool.map fun c => (b + c.1, c.2))
  ++ (u.g.toList.zipIdx.flatMap fun x => at_ (8 * x.2) 8 x.1.toNat)
  ++ at_ 0x200 8 (bits u.gt.toList) ++ at_ 0x208 4 (bits u.ht.toList) ++ at_ 0x210 2 u.p.toNat
  ++ (u.h.toList.zipIdx.flatMap fun x => at_ (0x220 + 16 * x.2) 8 x.1.v ++ at_ (0x228 + 16 * x.2) 1 (if x.1.valid then 1 else 0))
  ++ (k.tl.toList.zipIdx.flatMap fun x => at_ (0x420 + 16 * x.2) 8 x.1.iss ++ at_ (0x428 + 16 * x.2) 8 x.1.val)
  ++ (k.ck.toList.zipIdx.flatMap fun x => at_ (0x4A0 + 4 * x.2) 4 x.1.toNat)
  ++ (k.queues.toList.zipIdx.flatMap fun x => at_ (0x4B0 + 4 * x.2) 4 (if x.1.valid then 2 ^ 31 + x.1.addr else 0))
  ++ (k.rings.toList.zipIdx.flatMap fun x => at_ (0x4F0 + 8 * x.2) 8 x.1.dword)
  ++ at_ 0x570 2 k.vprog ++ at_ 0x572 4 k.vflags.toNat ++ (k.rep.toList.zipIdx.flatMap fun x => at_ (0x576 + 2 * x.2) 2 x.1) ++ at_ 0x57E 2 k.rowProg
  ++ (u.strm.toList.zipIdx.flatMap fun x =>
      let o := 0x600 + 32 * x.2
      let t := x.1
      at_ o 4 t.pc ++ at_ (o + 4) 2 (hdrSec (u.header t.sec)) ++ at_ (o + 6) 2 t.repn ++ at_ (o + 8) 2 (t.retired.getD 0x3FF)
      ++ at_ (o + 10) 4 (u.gapOf t stop) ++ at_ (o + 14) 6 stop ++ at_ (o + 20) 1 ((if t.ended then 1 else 0) + stopped t))
  ++ (k.ferry.toList.zipIdx.flatMap fun x =>
      let o := 0x680 + 32 * x.2
      at_ o 8 x.1.count ++ at_ (o + 8) 8 (optDword x.1.arrived) ++ at_ (o + 16) 8 (optDword x.1.trel) ++ at_ (o + 24) 1 x.1.bits.toNat)
  ++ (k.st.toList.zipIdx.flatMap fun x => x.1.toList.zipIdx.flatMap fun w => at_ (0x800 + 32 * x.2 + 8 * w.2) 8 w.1.toNat)
  ++ (k.copies.zipIdx.flatMap fun x =>
      let o := 0x3000 + 320 * x.2
      let e := x.1
      (e.desc.zipIdx.map fun d => (b + 0x800000 + o + d.2, d.1))
      ++ at_ (o + 256) 8 e.t ++ at_ (o + 264) 8 e.u ++ at_ (o + 272) 8 ((e.ticket.map (·.2)).getD 0) ++ at_ (o + 280) 1 (if e.started then 3 else 1))
  ++ markBytes (b + 0x808000) k.echk ++ markBytes (b + 0x80C000) k.poison
  ++ k.sort.record.dump (b + 0x810000)

/-- The launch block (R383). -/
def Launch.saveBytes (l : Launch) (a : Nat) : List (Nat × Byte) :=
  let at_ (o n v : Nat) : List (Nat × Byte) := placeLE (a + o) n v
  let n := l.w * l.hh
  at_ 0 4 0x5641534B ++ at_ 4 2 1 ++ at_ 6 2 n ++ at_ 8 2 l.lid ++ at_ 10 1 l.w ++ at_ 11 1 l.hh ++ at_ 12 1 l.ptn ++ at_ 13 1 l.prio
  ++ at_ 14 1 l.queue ++ at_ 15 1 ((if l.det then 1 else 0) + (if l.job != 0 then 2 else 0)) ++ at_ 16 8 l.image
  ++ at_ 24 8 (if l.budget == 0 then 0 else l.budget - l.used) ++ at_ 32 8 (saveSize n) ++ at_ 40 8 0
  ++ at_ 48 2 l.job ++ at_ 50 1 l.fbn ++ at_ 51 1 l.fbix
  ++ (l.khdr.zipIdx.map fun b => (a + 0x1000 + b.2, b.1))
  ++ l.hot.flatMap fun x => if x.1 < 256 then at_ (0x2000 + 24 * x.1) 8 x.2.1 ++ at_ (0x2008 + 24 * x.1) 8 x.2.2.1 ++ at_ (0x2010 + 24 * x.1) 8 x.2.2.2 else []

/-- A core as it is saved: what counts in SFC stays as it stood at its stop point, the walker cache is left behind (R357, R386); a SORT or SORTC past its load stands at its step (R278). -/
def Core.quiet (k : Core) (stop : Nat) : Core :=
  let x := k.cpu.pend.findSome? fun e => e.effs.findSome? fun f => match f with | .sort x n => some (x, n) | _ => none
  { k with
    sort := match x with | some (x, n) => if n ≤ stop then x.advance (stop - n) else x.finish | none => k.sort
    claims := k.claims.filter (·.kind.stays), stop := some stop, stopped := true
    cpu := { k.cpu with strm := k.cpu.strm.map fun t => { t with tried := none }, wcache := []
                        pend := k.cpu.pend.filter fun e => e.isSort && e.effs.any fun f => match f with | .sort _ n => n ≤ stop | _ => false } }

def State.savedOf (s : State) (lid : Nat) : Option Saved := s.saved.find? (·.lid == lid)

/-- CTXSV's status (R350). -/
def State.saveStatus (s : State) (lid area : Nat) : Nat :=
  match s.launch lid with
  | none => 1
  | some l =>
    if s.harbour.pl == 1 && l.ptn != s.harbour.ptn then 1
    else if l.state != .preempting then 2
    else
      let n := saveSize (l.w * l.hh)
      if area % 2 ^ 16 != 0 || !s.plainRange area n || (s.harbour.pl == 1 && !s.inRanges l.ptn area n) then 3 else 0

/-- Copies that have left no data on the straits complete before the capture (R382, R384). (DEDUCED, log 31) -/
def State.endCopies (s : State) (c : CoreId) : State :=
  ((s.core c).copies.zipIdx.reverse).foldl (fun s e =>
    if e.1.started && !e.1.remote && !e.1.refused && !e.1.done && !(s.transit.any fun t => t.from_ == c && t.u == e.1.u) then s.landCopy c e.2 e.1 else s) s

/-- CTXSV: the context is written, the remap table names the area, the atolls are released (R384). Records of the launch that stand are taken as disposed PREEMPT (R342). (DEDUCED, log 31) -/
def State.contextSave (s : State) (lid area : Nat) : State :=
  match s.launch lid with
  | none => s
  | some l =>
    let n := saveSize (l.w * l.hh)
    let s := l.members.foldl (fun s c => (s.drain c false).endCopies c) s
    let cores := l.members.map fun c => let k := s.core c; k.quiet (k.stop.getD l.sfc)
    let l := (s.launch lid).getD l
    let bytes := l.saveBytes area ++ cores.zipIdx.flatMap fun k => k.1.saveBytes (coreBlock area k.2) (k.1.stop.getD l.sfc)
    let s := s.wipe area n n
    let s : State := { s with mem := s.mem.writes bytes }
    let s := s.remapWrite l.ptn lid 1 area 0
    let s := l.members.foldl (fun s c => s.modCore c Core.release) s
    let e : Saved := { lid := lid, ptn := l.ptn, area := area, x0 := l.x0, y0 := l.y0, w := l.w, cores := cores }
    let preempted (r : Rec) : Rec := if r.lid == lid then { r with disp := some (r.disp.getD 3), settled := true } else r
    { s with launches := s.launches.filter (·.lid != lid), saved := s.saved.filter (·.lid != lid) ++ [e]
             recs := dropRecs (s.recs.map preempted), waitRecs := s.waitRecs.map fun (r : Rec) => preempted (s.describe r) }

/-! ### Late arrivals (R384) and stale packets (R396) -/

/-- The LID for which a LID stands now: forwarded as often as its launch has been restored (R384). -/
def State.forwarded (s : State) : Nat → Nat → Nat
  | 0, n => n
  | f + 1, n =>
    if (s.launch n).isSome then n
    else match (s.savedOf n).bind (·.newlid) with | some m => s.forwarded f m | none => n
def State.lidNow (s : State) (n : Nat) : Nat := s.forwarded s.saved.length n

/-- The island whose endpoint takes an arrival. -/
def State.arrivalIsland (s : State) (a : Arrival) : Option Nat :=
  let n := s.lidNow a.lid
  match s.launch n, s.savedOf n with
  | some l, _ => some (islandOf (l.coreOf a.rx a.ry))
  | none, some e => some (islandAt (e.x0 + a.rx) (e.y0 + a.ry))
  | none, none => none
def State.stale (s : State) (a : Arrival) : Bool := (s.arrivalIsland a).isSome && a.inc != (s.island a.isl).inc

/-- Packets on their way to a core that its copy awaits: a memory's response or acknowledgement, and the completion of its ticket. -/
def Copy.packets (e : Copy) : Nat :=
  let d := descOf e.desc
  if e.started && !e.done then (if d.sk || d.dk == 2 then 1 else 0) + (if e.ticket.isSome then 1 else 0) else 0
/-- Packets that are on their way to a core: responses to its reads and atomics, acknowledgements of its stores, its walks' responses, and what its copies await (R396). (DEDUCED, log 58) -/
def Core.packets (k : Core) : Nat :=
  (k.cpu.pend.filter fun e => e.effs.any fun f => match f with | .via _ _ | .shut _ => true | _ => false).length + k.cpu.walks.length
  + (k.copies.map Copy.packets).sum
/-- One response to an island from before its reset will arrive at an open edge (R396; DESIGN CHOICE, log 4). -/
def State.stray (s : State) (i : Nat) : State := (s.modIsland i fun x => { x with strays := (s.time + Config.freeNat s.free) :: x.strays }).draw
/-- The accesses in flight of cores whose launches the reset of some islands kills: their responses carry the old incarnation (R394, R396). -/
def State.strand (s : State) (isls : List Nat) : State :=
  s.launches.foldl (fun s l => (l.members.filter fun c => isls.contains (islandOf c)).foldl (fun s c =>
    (List.range (s.core c).packets).foldl (fun s _ => s.stray (islandOf c)) s) s) s
/-- A response as a packet: it is for no launch, and carries the incarnation before the island's. -/
def strayArrival (i inc : Nat) : Arrival :=
  { lid := 0, rx := 0, ry := 0, isl := i, inc := (inc + 255) % 256, bytes := [], poison := [], last := true, credit := none }
def State.strayDue (s : State) (i : Nat) : Bool := (s.island i).strays.any (· ≤ s.time)

/-- A packet from before a reset of its source island is dropped and counted (R396): an arrival, or a response to an access of a core that the reset has killed. -/
def execStaleDrop (a : Arrival) (s : State) : Out :=
  let count (i : Nat) (s : State) : State := s.modIsland i fun x => { x with stale := (x.stale + 1) % 2 ^ 32 }
  .next (match s.arrivalIsland a with
    | some i => if s.stale a then count i (s.endTransit a) else s
    | none =>
      if a == strayArrival a.isl (s.island a.isl).inc && s.strayDue a.isl then
        count a.isl (s.modIsland a.isl fun x => { x with strays := x.strays.eraseP (· ≤ s.time) })
      else s)

/-- The member of a saved rectangle at a place of the module. -/
def Saved.member (e : Saved) (c : CoreId) : Option Nat :=
  if e.x0 ≤ coreX c && coreX c < e.x0 + e.w && e.y0 ≤ coreY c then
    let p := (coreY c - e.y0) * e.w + (coreX c - e.x0)
    if p < e.cores.length then some p else none
  else none
/-- The copy that an arrival in transit belongs to: its sender's place in the saved rectangle, and its entry. -/
def Saved.copyOf (e : Saved) (t : Transit) : Option (Nat × Nat × Copy) :=
  match e.member t.from_ with
  | some p => (((e.cores[p]?.map (·.copies)).getD []).zipIdx.find? fun c => c.1.started && c.1.u == t.u).map fun c => (p, c.2, c.1)
  | none => none
def State.modSaved (s : State) (lid : Nat) (f : Saved → Saved) : State :=
  { s with saved := s.saved.map fun x => if x.lid == lid && x.newlid.isNone then f x else x }
def Saved.modCore (e : Saved) (p : Nat) (f : Core → Core) : Saved := { e with cores := e.cores.modify p f }

/-- A copy counts in LATE the first time that something of it is applied (R384). -/
def State.countLate (s : State) (e : Saved) (key : Nat × Nat) : State :=
  if e.late.contains key then s
  else
    ({ s with mem := s.mem.writes (placeLE (e.area + 0x28) 8 (s.mem.le (e.area + 0x28) 8 + 1)) } : State).modSaved e.lid
      fun x => { x with late := key :: x.late }

/-- A copy of a saved launch, the j-th of member p, completes: its ticket advances the saved VAL; its entry is freed, where its landing is published at that (R289, R384). -/
def State.lateTicket (s : State) (e : Saved) (p j : Nat) (c : Copy) : State :=
  let b := coreBlock e.area p + 0x800000
  let s := s.shut c.fr
  let s := if c.pub then s.modSaved e.lid fun x => x.modCore p (·.setCopy j fun y => { y with done := true })
    else s.memWrite (placeLE (b + 0x3000 + 320 * j + 280) 1 0) []
  match c.ticket, e.cores[p]? with
  | some (i, n), some k =>
    let tl := (vget k.tl i {}).complete n c.scope
    (s.memWrite (placeLE (b + 0x428 + 16 * i) 8 tl.val) []).modSaved e.lid fun x => x.modCore p fun k => { k with tl := vset k.tl i tl }
  | _, _ => s

/-- The saved launch that sent a copy over a passage from a core, with its place and the copy (R384). -/
def State.savedCopy (s : State) (c : CoreId) (n : Nat) : Option (Saved × Nat × Copy) :=
  s.saved.findSome? fun e =>
    match (if e.newlid.isNone then e.member c else none) with
    | some p => (((e.cores[p]?.bind fun k => k.copies[n]?).filter fun y => y.started && y.remote && !y.done && !y.refused)).map fun y => (e, p, y)
    | none => none
/-- A passage copy of a saved launch lands, or is refused: the refusal is met when the launch is restored (R286, R384). -/
def State.lateLanding (s : State) (c : CoreId) (n : Nat) (refused : Bool) : State :=
  match s.savedCopy c n with
  | some (e, p, y) =>
    if refused then s.modSaved e.lid fun x => x.modCore p (·.setCopy n fun y => { y with refused := true })
    else ((s.countLate e (c.val, y.u)).lateTicket e p n y)
  | none => s

/-- A copy completes, or, once it has, its entry is freed; over a passage also one of a saved launch (R384). (DESIGN CHOICE, log 71) -/
def execCopyLanding (c : CoreId) (n : Nat) (s : State) : Out :=
  .next (match (s.core c).copies[n]? with
    | none => s.lateLanding c n false
    | some e => if !e.started then s.lateLanding c n false else if e.done then s.endCopy c n e else s.landCopy c n e)

/-- A refusal reaches the sending core: a trap after issue, the ticket complete (R286). (DESIGN CHOICE, log 71) -/
def execDeliveryRefused (c : CoreId) (n : Nat) (s : State) : Out :=
  .next (match (s.core c).copies[n]?, s.launchOf c with
    | some e, some l =>
      if !e.started then s.lateLanding c n true
      else ((s.modCore c fun k => (k.ticket e).dropCopy n).freezeOf c (descOf e.desc).buf).coreTrap c .s ⟨cDeliveryRefused, 0, refusedInfo (descOf e.desc) l.fbix⟩ true false
        e.word e.pc e.sec e.repn
    | _, _ => s.lateLanding c n true)

/-- Data and credit of an arrival reach the saved image of member p (R384). Granules of a copy with a published landing keep their ECHK marks until SFC passes it (R209, R286); a write of whole lines of the area clears their poison (R399). -/
def State.lateData (s : State) (e : Saved) (p : Nat) (a : Arrival) (pub : Bool) : State :=
  let b := coreBlock e.area p
  let whole := wholeGranules a.bytes
  let bad := (a.poison.map fun x => x / 64 * 64).eraseDups
  let touched := (a.bytes.map fun x => x.1 / 64 * 64).eraseDups
  let poison := bad ++ (marksOf s.mem (b + 0x80C000)).filter fun g => !(whole.contains g || bad.contains g)
  let echk := (marksOf s.mem (b + 0x808000)).filter fun g => pub || !touched.contains g
  let s : State := { s with mem := ((s.mem.clear (b + 0x808000) 0x8000).writes (markBytes (b + 0x808000) echk)).writes (markBytes (b + 0x80C000) poison) }
  let s := s.memPut (a.bytes.map fun x => (b + x.1, x.2)) []
  match a.credit.filter fun _ => a.last with
  | some cr => ({ s with mem := applyCredit s.mem { cr with land := b + cr.land } a.sent } : State).modSaved e.lid
      fun x => x.modCore p fun k => k.setScopes cr.land (countScope s.mem { cr with land := b + cr.land } (k.scopes cr.land))
  | none => s

/-- An arrival for a saved launch is applied to its save area; one for a forwarded LID to the new placement. -/
def execLateArrival (a : Arrival) (s : State) : Out :=
  let t := s.transitOf a
  let n := s.lidNow a.lid
  if s.stale a then .next s
  else if (s.launch n).isSome then execCopyArrival { a with lid := n } (s.endTransit a)
  else .next (match s.savedOf n with
    | some e =>
      let s := (((s.endTransit a).lateData e (a.ry * e.w + a.rx) a ((t.bind e.copyOf).any (·.2.2.pub))).countLate e (match t with | some t => (t.from_.val, t.u) | none => (256, a.copy)))
      (match t.bind e.copyOf with
       | some (p, j, c) => if a.last then s.lateTicket e p j c else s
       | none => s)
    | none => s)

/-! ### The restore (R385) -/

/-- Offsets and lengths that a core block reserves. -/
def coreReserved : List (Nat × Nat) :=
  [(0x80020C, 4), (0x800212, 14), (0x800580, 128), (0x800720, 224), (0x805800, 0x2800), (0x838040, 0xC7FC0)]
  ++ ((List.range 32).map fun i => (0x800229 + 16 * i, 7)) ++ ((List.range 4).map fun i => (0x800615 + 32 * i, 11))
  ++ ((List.range 5).map fun i => (0x800699 + 32 * i, 7)) ++ (List.range 32).map fun i => (0x803119 + 320 * i, 39)
/-- Offsets and lengths that the launch block reserves. -/
def launchReserved (khdr : Nat) : List (Nat × Nat) := [(0x34, 0x1000 - 0x34), (0x1000 + khdr, 0x1000 - khdr), (0x3800, 0x10000 - 0x3800)]
def Mem.blank (m : Mem) (a n : Nat) : Bool := !(m.any fun c => a ≤ c.1 && c.1 < a + n)

/-- A save area that CTXLD accepts (R385). -/
def State.saveOk (s : State) (a : Nat) : Bool :=
  let f (o n : Nat) : Nat := s.mem.le (a + o) n
  let n := f 6 2
  let khdr := 792 + 8 * f (0x1000 + 784) 2
  f 0 4 == 0x5641534B && f 4 2 == 1 && n == f 10 1 * f 11 1 && 1 ≤ n && n ≤ 256 && f 10 1 == f (0x1000 + 28) 1 && f 11 1 == f (0x1000 + 29) 1
  && khdr ≤ 0x1000 && f 15 1 / 4 == 0 && (launchReserved khdr).all (fun r => s.mem.blank (a + r.1) r.2)
  && (List.range n).all fun p =>
      let b := coreBlock a p
      coreReserved.all (fun r => s.mem.blank (b + r.1) r.2)
      && (let rd := fun x k => s.mem.le x k
          recordOk rd (b + 0x810000) && ((List.range 16384).all fun e => !(rd (b + 0x830000 + 2 * e) 2).testBit 14))

/-- A queue register with its control word of the restored pool (R81, R82). -/
def restoreQueue (pool : Mem) (q : Nat) : Queue :=
  if q / 2 ^ 31 == 0 then {}
  else
    let a := q % 2 ^ 23
    { valid := true, addr := a, base := pool.le a 4, lge := pool.le (a + 6) 1, lgd := pool.le (a + 7) 1, head := pool.le (a + 8) 2,
      tail := pool.le (a + 10) 2, qc := pool.le (a + 12) 2, pc := pool.le (a + 14) 2 }

/-- A handle walked again from its v; one that faults loses its valid bit. (DEDUCED, log 34) -/
def State.rehandle (s : State) (u : Cpu) (p : Nat) (h : Handle) : Handle :=
  match s.translate p h.v with
  | .ok pg _ => { valid := true, v := h.v, pg := pg, cy := s.carry u p pg }
  | .trap _ => { h with valid := false }

/-- The value of a register by file and index, as Reg.win numbers them. -/
def Core.regVal (k : Core) (r : Nat × Nat) : Nat :=
  let i := r.2
  match r.1 with
  | 0 => (k.cpu.getG i).toNat
  | 1 => (k.cpu.getP i).toNat
  | 2 => (k.cpu.getH i).v
  | 3 => (k.stw (i / 4) (i % 4)).toNat
  | 4 => if i == 0 then k.vprog else k.vflags.toNat
  | 5 => let t := vget k.tl i {}; t.iss * 2 ^ 64 + t.val
  | 6 => (vget k.ck i 0).toNat
  | 7 => let q := vget k.queues i {}; if q.valid then 2 ^ 23 + q.addr else 0
  | 8 => (vget k.rings i {}).dword
  | _ => vget k.rep i 1
/-- Errors of registers that a restored core holds as they were saved; those that the area gives another value have been rewritten (R400; DESIGN CHOICE, log 33). -/
def Core.badKept (k base : Core) : Core :=
  { k with cpu := { k.cpu with regBad := base.cpu.regBad.filter fun r => k.regVal r == base.regVal r } }

/-- A copy of a copy-buffer entry that the controller has kept nothing of: the area's second load (R283 to R285, R385). Its handles are the restored ones that its descriptor names; one whose streaming had ended waits for its landing, its ticket complete where VAL has passed it. (DESIGN CHOICE, log 33) -/
def copyOfEntry (l : Launch) (k : Core) (c : CoreId) (desc : List Byte) (sh dh : Handle) (t u tick val : Nat) (streamed : Bool) (fr : Nat) : Copy :=
  let d := descOf desc
  let dst := destOf k l d
  let void := d.dk < 2 && dst.isNone
  let timed (h : Handle) (base : Nat) (dims : List (Nat × Int)) (r w : Bool) : Bool :=
    (globalEls h base d.e dims).all fun x => match h.hit r w x.1 x.2 with | .ok bs => bs.all (·.1.tier == 0) | .bad _ _ _ => true
  let ta := d.sk && timed sh d.src d.sdims true false
  let tb := d.dk == 2 && timed dh d.dst d.ddims false true
  let n := if void then 0 else ceilDiv d.b (if ta || tb then Nat.min k.share 128 else 128)
  let hop := match dst with | some (x, y) => l.hop c (l.coreOf x y) | none => 0
  let pub : Option Nat :=
    if void then some 0
    else if d.sk && d.dk == 2 then none
    else if d.sk || d.dk == 2 then (if ta || tb then some (340 + l.hopN c + n) else none)
    else if d.dk == 0 then some (20 + hop + ceilDiv d.b 128) else none
  let land := match pub with | some x => u + x | none => u + n + Config.freeNat fr
  let ticket := if d.tle then some (d.tlix, tick) else none
  { desc := desc, sh := if d.sk then sh else {}, dh := if d.dk == 2 then dh else {}, word := 0, pc := 0, sec := 0, repn := 0, issue := t, t := t, u := u,
    n := n, ticket := ticket, crc := none, started := streamed, land := land, pub := pub.isSome, due := land,
    done := streamed && pub.isSome && ticket.all fun x => x.2 ≤ val, void := void, remote := d.dk == 1 && !void && !streamed }
/-- A core restored: every field as the area gives it, reserved bits of registers zero (R8), over what the controller kept (R385). (DESIGN CHOICE, log 33) (DEDUCED, log 52) -/
def State.restoreCore (s : State) (l : Launch) (c : CoreId) (kept : Bool) (base : Core) (b : Nat) : Core :=
  let f (o n : Nat) : Nat := s.mem.le (b + 0x800000 + o) n
  let vec {α : Type} (n : Nat) (g : Nat → α) : Vector α n := Vector.ofFn fun i : Fin n => g i.val
  let pool : Mem := (s.mem.filter fun c => b ≤ c.1 && c.1 < b + 2 ^ 23).map fun c => (c.1 - b, c.2)
  let stop := f 0x60E 6
  let u := base.cpu
  let hs : Vector Handle 32 := vec 32 fun i => { valid := f (0x228 + 16 * i) 1 % 2 == 1, v := f (0x220 + 16 * i) 8 }
  let re (h : Handle) : Handle := if h.valid then s.rehandle {} l.ptn h else h
  let stream (q : Nat) : Stream :=
    let o := 0x600 + 32 * q
    let t := vget u.strm q {}
    let pc := f o 4
    let sec := ((t.secs ++ t.hooks).find? fun a => a + 8 ≤ pc && pc ≤ u.lastWord a).getD t.sec
    { t with pc := pc, sec := sec, repn := f (o + 6) 2, retired := if f (o + 8) 2 == 0x3FF then none else some (f (o + 8) 2)
             base := stop + f (o + 10) 4 - (headOf (decode (u.wordAt pc))).idle.toNat, ended := f (o + 20) 1 % 2 == 1
             stopped := if f (o + 20) 1 / 4 % 2 == 1 then t.stopped else [] }
  let x := undump (fun a n => s.mem.le a n) (b + 0x810000)
  let sort := { x with valid := x.holds }
  let h (i : Nat) : Handle := re (vget hs i {})
  let k : Core := { base with share := l.hdr 14 2 }
  let copies := if kept then ((base.copies.zipIdx.filter fun c => f (0x3000 + 320 * c.2 + 280) 1 % 2 == 1).map fun c =>
      let o := 0x3000 + 320 * c.2
      let e := c.1
      { e with desc := (List.range e.desc.length).map (fun k => BitVec.ofNat 8 (f (o + k) 1)), t := f (o + 256) 8, u := f (o + 264) 8
               ticket := e.ticket.map fun t => (t.1, f (o + 272) 8), sh := re e.sh, dh := re e.dh })
    else (List.range 32).filterMap fun j =>
      let o := 0x3000 + 320 * j
      if f (o + 280) 1 % 2 == 1 then
        let bs := (List.range 256).map fun i => BitVec.ofNat 8 (f (o + i) 1)
        let d := descOf bs
        some (copyOfEntry l k c (bs.take (32 + 16 * d.ndim)) (h d.sh) (h d.dh) (f (o + 256) 8) (f (o + 264) 8) (f (o + 272) 8)
          (f (0x428 + 16 * d.tlix) 8) ((f (o + 280) 1).testBit 1) (s.free + 2 ^ 40 * (j + 1)))
      else none
  let left := 128 * (sort.pl - sort.p) - sort.s
  let going := !kept && sort.valid && sort.p < sort.pl
  Core.badKept { base with
    lid := l.lid, pool := pool, stop := some stop, stopped := true
    cpu := { u with
      g := vec 64 fun i => BitVec.ofNat 64 (f (8 * i) 8), gt := vec 64 fun i => (f 0x200 8).testBit i
      p := BitVec.ofNat 16 (f 0x210 2), h := hs.map re, ht := vec 32 fun i => (f 0x208 4).testBit i, strm := vec 4 stream
      pend := if going then [{ strm := .v, issue := stop, land := stop + left + 3, effs := [.sort sort stop] }]
              else u.pend.map fun e => { e with effs := e.effs.map fun g => match g with | .sort _ _ => .sort sort stop | g => g } }
    occ := if going then vset base.occ 2 (stop + left + 4) else base.occ
    tl := vec 8 fun i => { vget base.tl i {} with iss := f (0x420 + 16 * i) 8, val := f (0x428 + 16 * i) 8 }
    ck := vec 4 fun i => BitVec.ofNat 32 (f (0x4A0 + 4 * i) 4), queues := vec 16 fun i => restoreQueue pool (f (0x4B0 + 4 * i) 4)
    rings := vec 16 fun i => ringOf (f (0x4F0 + 8 * i) 8), vprog := f 0x570 2, vflags := BitVec.ofNat 32 (f 0x572 4) &&& 0x7F
    rep := vec 4 fun i => f (0x576 + 2 * i) 2, rowProg := f 0x57E 2
    ferry := vec 5 fun i =>
      let o := 0x680 + 32 * i
      { vget base.ferry i {} with count := f o 8, arrived := dwordOpt (f (o + 8) 8), trel := dwordOpt (f (o + 16) 8), bits := BitVec.ofNat 4 (f (o + 24) 1) }
    st := vec 320 fun i => vec 4 fun w => BitVec.ofNat 64 (f (0x800 + 32 * i + 8 * w) 8) &&& stMask w
    copies := copies, spans := if kept then base.spans else copies.filterMap fun e => if e.n == 0 then none else some (e.u, e.u + e.n)
    echk := marksOf s.mem (b + 0x808000), poison := marksOf s.mem (b + 0x80C000), sort := sort } base

/-- The walk of a restored handle that faulted, as an instruction of the A stream stopped at the stop point. (DEDUCED, log 34) -/
def rewalkOf (k : Core) (i : Nat) : Stopped :=
  let t := k.cpu.stream .a
  let stop := k.stop.getD 0
  { issue := stop, el := 0, rewalk := true
    origin := { instr := .xlat ⟨0, false, 0, 0⟩ ⟨0, 0, 0, 1, BitVec.ofNat 9 i⟩, pc := t.pc, sec := hdrSec (k.cpu.header t.sec), repn := t.repn,
                g := vset k.cpu.g 1 (BitVec.ofNat 64 (k.cpu.getH i).v), gt := k.cpu.gt, h := k.cpu.h, ht := k.cpu.ht, st := k.st,
                queues := k.queues, rings := k.rings, scfg := k.scfg } }

/-- The launch that a save area describes, at an origin. (DESIGN CHOICE, log 33) -/
def State.savedLaunch (s : State) (area x0 y0 : Nat) : Launch :=
  let f (o n : Nat) : Nat := s.mem.le (area + o) n
  let n := 792 + 8 * f (0x1000 + 784) 2
  { lid := 0, ptn := f 12 1, job := f 48 2, fbn := f 50 1, fbix := f 51 1, x0 := x0, y0 := y0, khdr := s.mem.bytes (area + 0x1000) n,
    image := f 16 8, imlen := 0, prio := f 13 1, queue := f 14 1, budget := f 24 8, frozen := true, loading := true
    hot := ((List.range 256).map fun b => (b, f (0x2000 + 24 * b) 8, f (0x2008 + 24 * b) 8, f (0x2010 + 24 * b) 8)).filter fun x =>
      x.2.1 != 0 || x.2.2.1 != 0 || x.2.2.2 != 0 }

/-- The walks that a restore makes go through a range that an engine has marked: CTXLD waits (R361). -/
def State.loadBarred (s : State) (area : Nat) : Bool :=
  let l := s.savedLaunch area 0 0
  let q := s.part l.ptn
  (s.pinBarred l.ptn (l.hdr 16 8) (l.hdr 12 2)
    || (List.range (l.w * l.hh)).any fun p => (List.range 32).any fun i =>
        let o := coreBlock area p + 0x800220 + 16 * i
        s.mem.le (o + 8) 1 % 2 == 1 && s.barred q.s1root q.s2root {} l.ptn (s.mem.le o 8)) && s.saveOk area

/-- CTXLD's status (R350, R385): the area, its record and overflow area, then the origin; in a TDISP state that takes no launch no origin is admissible (R369; DESIGN CHOICE, log 84). -/
def State.loadStatus (s : State) (area x0 y0 : Nat) : Nat :=
  let l := s.savedLaunch area x0 y0
  let sup := s.harbour.pl == 1
  let n := saveSize (s.mem.le (area + 6) 2)
  if area % 2 ^ 16 != 0 || !s.plainRange area n || (sup && !s.inRanges s.harbour.ptn area n) then 3
  else if !s.saveOk area || (s.pinPages l.ptn (l.hdr 16 8) (l.hdr 12 2)).isNone then 1
  else if (s.part l.ptn).tdisp == 1 || (s.part l.ptn).tdisp == 3 || (sup && l.ptn != s.harbour.ptn) || !s.admissible (s.part l.ptn) l.khdr x0 y0 || !s.fits 0 l.w l.hh x0 y0 then 2
  else 0

/-- A member's core of a launch restored elsewhere. -/
def Saved.moved (e : Saved) (l : Launch) (c : CoreId) : CoreId := l.coreOf (coreX c - e.x0) (coreY c - e.y0)

/-- CTXLD: the launch stands frozen at its saved stop points under a new LID; arrivals for its old one go to its new place, and the entry of the old one is held until the restore completes (R384, R385). -/
def State.contextLoad (s : State) (area x0 y0 : Nat) : Nat × State :=
  let l := s.savedLaunch area x0 y0
  let old := s.mem.le (area + 8) 2
  let kept := (s.savedOf old).filter fun e => e.ptn == l.ptn && e.newlid.isNone
  let (n, s) := s.takeLid l.ptn
  let pin := (s.pinPages l.ptn (l.hdr 16 8) (l.hdr 12 2)).getD []
  let l := s.meetLoops { l with lid := n }
  let rd := s.imageAt l.image
  let im := Rd.imem rd
  let fresh (c : CoreId) : Core := { l.init c pin with cpu := { strm := #v[Rd.start rd .s, Rd.start rd .a, Rd.start rd .v, Rd.start rd .m] } }
  let cores := l.members.zipIdx.map fun c =>
    let b := ((kept.bind fun e => e.cores[c.2]?).getD (fresh c.1))
    let b := { b with dom := BitVec.ofNat 64 (l.domOf c.1), pin := pin, cpu := { b.cpu with imem := im, imemBad := [] } }
    (c.1, s.restoreCore l c.1 kept.isSome b (coreBlock area c.2))
  let sfc := (cores.filterMap fun c => c.2.stop).foldl Nat.min (((cores.filterMap fun c => c.2.stop).headD 0))
  let s := cores.foldl (fun s c => s.modCore c.1 fun k => { c.2 with shadow := k.shadow, shadowBad := k.shadowBad }) s
  let s := l.atolls.foldl (fun s a => s.modAtoll a fun t => { t with bist := false, idle := 0 }) s
  let s := { s with launches := s.launches ++ [{ l with sfc := sfc }]
                    saved := s.saved.map fun e => if kept.isSome && e.lid == old && e.newlid.isNone then { e with newlid := some n, cores := [] } else e }
  let s := match kept with
    | some e => ({ s with transit := s.transit.map fun (t : Transit) =>
        if t.arr.lid == old then { t with from_ := e.moved l t.from_, arr := { t.arr with lid := n } } else t } : State).remapWrite l.ptn old 2 area 0
    | none => s
  let s := cores.foldl (fun s c =>
    ((List.range 32).filter fun i => s.mem.le (coreBlock area (((c.2.ry) * l.w) + c.2.rx) + 0x800228 + 16 * i) 1 % 2 == 1 && !(c.2.cpu.getH i).valid).foldl (fun s i =>
      s.addStopped c.1 .a (rewalkOf c.2 i)) s) s
  (n, s)

end Sys2Proof.Machine
end

