-- ==== Sys2Proof/Machine/Engines.lean ====
section
/-! DEFINITION. The promotion and migration engines (R360 to R363). Engine e stands on island 8 + e; those of islands 12 and 13 migrate. -/

namespace Sys2Proof.Machine

def State.engine (s : State) (e : Nat) : Engine := vget s.engines e {}
def State.modEngine (s : State) (e : Nat) (f : Engine → Engine) : State := { s with engines := vmod s.engines e f }

/-- The latched request (R363): partition, guest-physical base, bytes, destination. -/
def Engine.ptn (e : Engine) : Nat := fld e.la 50 48
def Engine.base (e : Engine) : Nat := fld e.la 47 16 * 2 ^ 16
def Engine.size (e : Engine) : Nat := if fld e.la 1 0 == 0 then 2 ^ 16 else 2 ^ 26
def Engine.dest (e : Engine) : Nat := fld e.lb 47 16 * 2 ^ 16

/-- The entry at a level that a stage-2 walk reaches: its address and dword. -/
def State.entryAt (s : State) (g stop : Nat) : Nat → Nat → Option (Nat × Nat)
  | 0, _ => none
  | n + 1, node =>
    let ea := node + 8 * indexAt g n
    let e := s.tableEntry ea
    if n == stop then some (ea, e)
    else if !ebit e 0 || malformed n e || ebit e 1 then none
    else s.entryAt g stop n (nodeOf e)
def State.stage2 (s : State) (p g n : Nat) : Option (Nat × Nat) := s.entryAt g n 4 (fld (s.part p).s2root 47 13 * 2 ^ 13)

/-- The HBM channel of a physical byte, numbered over all stacks (R351). -/
def hbmChannel (a : Nat) : Nat := (a - hbmBase) / (3 * gib)

/-- A range within a partition's HBM range (R366). -/
def State.inHbm (s : State) (p a n : Nat) : Bool := s.tierOf a == some 0 && s.inRanges p a n

/-- What an engine moves: the entry it rewrites, the frames in ascending guest-physical order with their size, and the dword it stores. -/
structure Move where
  entry : Nat
  frames : List Nat
  unit : Nat
  new : Nat
  deriving DecidableEq, Repr

/-- The move that a promotion request asks for (R360). -/
def State.promotion (s : State) (i : Nat) (e : Engine) : Option Move :=
  match s.stage2 e.ptn e.base 1 with
  | none => none
  | some (ea, w) =>
    let leaves := (List.range 1024).map fun k => s.tableEntry (nodeOf w + 8 * k)
    let f := leaves.headD 0
    if ebit w 0 && !ebit w 1 && !malformed 1 w && fld e.la 1 0 == 1 && e.base % 2 ^ 26 == 0 && e.dest % 2 ^ 26 == 0
        && (leaves.all fun x => ebit x 0 && ebit x 1 && !malformed 0 x && x / 4 % 16 == f / 4 % 16 && !ebit x 11
              && s.tierOf (eaddr x * 2 ^ 16) == some 0 && hbmChannel (eaddr x * 2 ^ 16) == hbmChannel e.dest)
        && s.tierOf e.dest == some 0 && 8 + hbmChannel e.dest / 48 == i then
      some { entry := ea, frames := leaves.map fun x => eaddr x * 2 ^ 16, unit := 2 ^ 16,
             new := e.dest + f / 2 ^ 12 % 16 * 2 ^ 12 + f / 4 % 16 * 4 + 3 }
    else none

/-- A frame that exists and does not lie in the harbour store: a leaf with another is malformed (R351). -/
def State.frameOk (s : State) (a n : Nat) : Bool := (match s.tierOf a with | some 6 | none => false | _ => true) && (s.tierOf (a + n - 1)).isSome
/-- The move that a migration request asks for (R360). -/
def State.migration (s : State) (e : Engine) : Option Move :=
  let n := fld e.la 1 0
  match s.stage2 e.ptn e.base n with
  | none => none
  | some (ea, w) =>
    if n ≤ 1 && ebit w 0 && ebit w 1 && !malformed n w && s.frameOk (eaddr w * 2 ^ 16) e.size && e.base % e.size == 0 && e.dest % e.size == 0
        && (match s.tierOf e.dest with | some 0 | some 1 => true | _ => false) then
      some { entry := ea, frames := [eaddr w * 2 ^ 16], unit := e.size, new := w / 2 ^ 48 * 2 ^ 48 + e.dest + w % 2 ^ 16 }
    else none

def State.moveOf (s : State) (n : Nat) : Option Move :=
  let e := s.engine n
  if n < 4 then s.promotion (8 + n) e else s.migration e

/-- RESULT of a request that is refused (R363): its destination is asked first. (DEDUCED, log 53) -/
def State.engineRefusal (s : State) (n : Nat) : Option Nat :=
  let e := s.engine n
  let inside := if n < 4 then s.inHbm e.ptn e.dest e.size else s.inRanges e.ptn e.dest e.size
  if !inside then some 3 else if (s.moveOf n).isNone then some 2 else none

/-- Every walker-cache result of a marked range is dropped (R361). -/
def Cpu.dropRange (u : Cpu) (p a n : Nat) : Cpu :=
  { u with
    wcache := u.wcache.filter fun w => !(w.ptn == p && w.used.gpas.any fun g => a ≤ g.1 && g.1 < a + n)
    walks := u.walks.map fun w => { w with keep := false } }
def State.dropCaches (s : State) (f : Cpu → Cpu) : State :=
  let s := s.launches.foldl (fun s l => l.members.foldl (fun s c => s.modCpu (.core c) f) s) s
  s.modCpu .harbour f

/-- ENGCMD.START with a TAG: ENGA and ENGB are latched, and an accepted request marks its range (R361, R363). -/
def execEngStart (n tag : Nat) (s : State) : Out :=
  .next (if (s.engine n).phase != 0 then s
    else
      let s := s.modEngine n fun e => { e with la := e.a, lb := e.b, tag := tag, poisoned := 0 }
      match s.engineRefusal n with
      | some r => s.modEngine n fun e => { e with result := r }
      | none =>
        let e := s.engine n
        (s.modEngine n fun e => { e with phase := 1 }).dropCaches (·.dropRange e.ptn e.base e.size))

/-- CANCEL takes effect in phase 1 only. -/
def execEngCancel (n : Nat) (s : State) : Out :=
  .next (s.modEngine n fun e => if e.phase == 1 then { e with phase := 0, result := 1 } else e)

/-- A page overlaps a guest-physical range (R361). -/
def Page.meets (q : Page) (r : Nat × Nat) : Bool := q.present && q.gpa < r.1 + r.2 && r.1 < q.gpa + 2 ^ q.lg
def Handle.meets (h : Handle) (r : Nat × Nat) : Bool := h.valid && (h.pg.meets r || h.cy.meets r)

/-- A core holds the range through a handle, one on its way to its register, one saved for a hook, one that a pending copy took, or a pinned overflow area (R77, R87, R361). -/
def Core.holdsRange (k : Core) (m : Nat × Nat) : Bool :=
  let held (ps : List Pend) : Bool := ps.any fun e => e.effs.any fun f => match f with | .h _ h _ => h.meets m | _ => false
  k.cpu.h.toList.any (·.meets m) || held k.cpu.pend || (match k.hook with | some v => v.h.toList.any (·.meets m) || held v.pend | none => false)
  || k.copies.any (fun e => e.sh.meets m || e.dh.meets m) || k.pin.any (·.meets m)
/-- DEDUCED, log 53. -/
def State.rangeHeld (s : State) (e : Engine) : Bool :=
  s.launches.any fun l => l.ptn == e.ptn && l.members.any fun c => (s.core c).holdsRange (e.base, e.size)

/-- Phase 1 ends once nothing maps the range; the copy ends at an open edge (DESIGN CHOICE, log 4). -/
def execEngCopyBegin (n : Nat) (s : State) : Out :=
  .next (match s.moveOf n with
    | some _ =>
      if (s.engine n).phase == 1 && !s.rangeHeld (s.engine n) then
        (s.modEngine n fun e => { e with phase := 2, due := s.time + Config.freeNat s.free }).draw
      else s
    | none => s)

/-- Source and destination of each unit of a move. -/
def Move.pairs (m : Move) (dest : Nat) : List (Nat × Nat) := m.frames.zipIdx.map fun f => (f.1, dest + m.unit * f.2)

/-- The first n bytes of a move copied; whole lines written lose their poison (R399). (DESIGN CHOICE, log 54) -/
def State.moveBytes (s : State) (m : Move) (dest n : Nat) : State :=
  (m.pairs dest).foldl (fun s p =>
    let k := Nat.min m.unit (n - (p.2 - dest))
    let bs := (s.mem.filter fun c => p.1 ≤ c.1 && c.1 < p.1 + k).map fun c => (p.2 + (c.1 - p.1), c.2)
    let s := s.wipe p.2 k (k / 64 * 64)
    { s with mem := s.mem.writes bs }) s

/-- Poisoned lines of the source. -/
def State.badLines (s : State) (m : Move) : List Nat :=
  (s.lines.flatMap fun r => m.frames.flatMap fun f =>
    let lo := Nat.max r.1 f / 64
    let hi := (Nat.min r.2 (f + m.unit) + 63) / 64
    (List.range (hi - lo)).map fun k => (lo + k) * 64).eraseDups
/-- A stack or channel of the move is not ready (R362). -/
def State.moveUnready (s : State) (m : Move) (dest : Nat) : Bool := (m.pairs dest).any fun p => (s.unready p.1).isSome || (s.unready p.2).isSome

/-- What stands in the way of a copy: RESULT 4 or 5 (R362, R363). -/
def State.engineFault (s : State) (n : Nat) : Option Nat :=
  match s.moveOf n with
  | none => none
  | some m => if s.moveUnready m (s.engine n).dest then some 4 else if (s.badLines m).isEmpty then none else some 5

/-- The copy has ended: the frames stand copied and phase 3 begins; at its end, at an open edge (DESIGN CHOICE, log 4), one dword is stored, the caches are dropped again and the mark is cleared (R361). Nothing holds the range meanwhile: no walk goes through a marked range. -/
def execEngRewrite (n : Nat) (s : State) : Out :=
  let e := s.engine n
  .next (match s.moveOf n with
    | some m =>
      if s.rangeHeld e then s
      else if e.phase == 2 && (s.engineFault n).isNone then
        ((s.moveBytes m e.dest (m.unit * m.frames.length)).modEngine n fun e => { e with phase := 3, due := s.time + Config.freeNat s.free }).draw
      else if e.phase == 3 then
        ((s.memWrite (placeLE m.entry 8 m.new) []).dropCaches (·.dropRange e.ptn e.base e.size)).modEngine n fun e => { e with phase := 0, result := 0 }
      else s
    | none => s)

/-- A copy aborts: the entry stands, an open part of the destination is written (DESIGN CHOICE, log 4), the event is logged (R362). (DESIGN CHOICE, log 54) -/
def execEngAbort (n : Nat) (s : State) : Out :=
  let e := s.engine n
  .next (match s.moveOf n, s.engineFault n with
    | some m, some r =>
      if e.phase == 2 then
        let bad := if r == 5 then (s.badLines m).length else 0
        let s := (s.moveBytes m e.dest (Config.freeNat s.free % (m.unit * m.frames.length + 1))).draw
        (s.ras 10 (8 + n) n ((m.frames.headD 0) % 2 ^ 40)).modEngine n fun e => { e with phase := 0, result := r, poisoned := bad }
      else s
    | _, _ => s)

end Sys2Proof.Machine
end

