-- ==== Sys2Proof/Machine/Sha512.lean ====
section
/-! DEFINITION. SHA-512 and RSASSA-PKCS1-v1_5 with it, as the boot ROM and attestation use them (R390, R391, R401). The spec names the algorithms; their steps are those of FIPS 180-4 and RFC 8017 (PRESUMED, log 104). -/

namespace Sys2Proof.Machine

/-! ### SHA-512 -/

/-- The round constants. -/
def shaK0 : List Dword := [
  0x428a2f98d728ae22, 0x7137449123ef65cd, 0xb5c0fbcfec4d3b2f, 0xe9b5dba58189dbbc,
  0x3956c25bf348b538, 0x59f111f1b605d019, 0x923f82a4af194f9b, 0xab1c5ed5da6d8118,
  0xd807aa98a3030242, 0x12835b0145706fbe, 0x243185be4ee4b28c, 0x550c7dc3d5ffb4e2,
  0x72be5d74f27b896f, 0x80deb1fe3b1696b1, 0x9bdc06a725c71235, 0xc19bf174cf692694,
  0xe49b69c19ef14ad2, 0xefbe4786384f25e3, 0x0fc19dc68b8cd5b5, 0x240ca1cc77ac9c65]
def shaK1 : List Dword := [
  0x2de92c6f592b0275, 0x4a7484aa6ea6e483, 0x5cb0a9dcbd41fbd4, 0x76f988da831153b5,
  0x983e5152ee66dfab, 0xa831c66d2db43210, 0xb00327c898fb213f, 0xbf597fc7beef0ee4,
  0xc6e00bf33da88fc2, 0xd5a79147930aa725, 0x06ca6351e003826f, 0x142929670a0e6e70,
  0x27b70a8546d22ffc, 0x2e1b21385c26c926, 0x4d2c6dfc5ac42aed, 0x53380d139d95b3df,
  0x650a73548baf63de, 0x766a0abb3c77b2a8, 0x81c2c92e47edaee6, 0x92722c851482353b]
def shaK2 : List Dword := [
  0xa2bfe8a14cf10364, 0xa81a664bbc423001, 0xc24b8b70d0f89791, 0xc76c51a30654be30,
  0xd192e819d6ef5218, 0xd69906245565a910, 0xf40e35855771202a, 0x106aa07032bbd1b8,
  0x19a4c116b8d2d0c8, 0x1e376c085141ab53, 0x2748774cdf8eeb99, 0x34b0bcb5e19b48a8,
  0x391c0cb3c5c95a63, 0x4ed8aa4ae3418acb, 0x5b9cca4f7763e373, 0x682e6ff3d6b2b8a3,
  0x748f82ee5defb2fc, 0x78a5636f43172f60, 0x84c87814a1f0ab72, 0x8cc702081a6439ec]
def shaK3 : List Dword := [
  0x90befffa23631e28, 0xa4506cebde82bde9, 0xbef9a3f7b2c67915, 0xc67178f2e372532b,
  0xca273eceea26619c, 0xd186b8c721c0c207, 0xeada7dd6cde0eb1e, 0xf57d4f7fee6ed178,
  0x06f067aa72176fba, 0x0a637dc5a2c898a6, 0x113f9804bef90dae, 0x1b710b35131c471b,
  0x28db77f523047d84, 0x32caab7b40c72493, 0x3c9ebe0a15c9bebc, 0x431d67c49c100d4c,
  0x4cc5d4becb3e42b6, 0x597f299cfc657e2a, 0x5fcb6fab3ad6faec, 0x6c44198c4a475817]
def shaK : List Dword := shaK0 ++ shaK1 ++ shaK2 ++ shaK3
/-- The initial hash value. -/
def shaInit : List Dword := [
  0x6a09e667f3bcc908, 0xbb67ae8584caa73b, 0x3c6ef372fe94f82b, 0xa54ff53a5f1d36f1,
  0x510e527fade682d1, 0x9b05688c2b3e6c1f, 0x1f83d9abfb41bd6b, 0x5be0cd19137e2179]

def rotr64 (x : Dword) (n : Nat) : Dword := x.rotateRight n
/-- Bytes as a number, the first the most significant; and back. -/
def ofBE (bs : List Byte) : Nat := bs.foldl (fun n b => n * 256 + b.toNat) 0
def toBE : Nat → Nat → List Byte
  | 0, _ => []
  | n + 1, v => toBE n (v / 256) ++ [BitVec.ofNat 8 v]

/-- The message with its padding and its length in bits. -/
def shaPad (m : List Byte) : List Byte := m ++ 0x80 :: List.replicate ((239 - m.length % 128) % 128) 0 ++ toBE 16 (8 * m.length)

/-- The schedule, its latest word first: n words more. -/
def shaWords : Nat → List Dword → List Dword
  | 0, w => w
  | n + 1, w =>
    let at_ (k : Nat) : Dword := w.getD (k - 1) 0
    let s0 := rotr64 (at_ 15) 1 ^^^ rotr64 (at_ 15) 8 ^^^ (at_ 15 >>> 7)
    let s1 := rotr64 (at_ 2) 19 ^^^ rotr64 (at_ 2) 61 ^^^ (at_ 2 >>> 6)
    shaWords n ((at_ 16 + s0 + at_ 7 + s1) :: w)

/-- The eight working variables. -/
structure ShaVars where
  a : Dword
  b : Dword
  c : Dword
  d : Dword
  e : Dword
  f : Dword
  g : Dword
  h : Dword
def shaRound (v : ShaVars) (kw : Dword × Dword) : ShaVars :=
  let t1 := v.h + (rotr64 v.e 14 ^^^ rotr64 v.e 18 ^^^ rotr64 v.e 41) + ((v.e &&& v.f) ^^^ (~~~v.e &&& v.g)) + kw.1 + kw.2
  let t2 := (rotr64 v.a 28 ^^^ rotr64 v.a 34 ^^^ rotr64 v.a 39) + ((v.a &&& v.b) ^^^ (v.a &&& v.c) ^^^ (v.b &&& v.c))
  ⟨t1 + t2, v.a, v.b, v.c, v.d + t1, v.e, v.f, v.g⟩
/-- One block of 128 bytes into the hash value. -/
def shaBlock (h : List Dword) (block : List Byte) : List Dword :=
  let w := (List.range 16).map fun k => BitVec.ofNat 64 (ofBE ((block.drop (8 * k)).take 8))
  let ws := (shaWords 64 w.reverse).reverse
  let at_ (k : Nat) : Dword := h.getD k 0
  let v := (shaK.zip ws).foldl shaRound ⟨at_ 0, at_ 1, at_ 2, at_ 3, at_ 4, at_ 5, at_ 6, at_ 7⟩
  List.zipWith (· + ·) h [v.a, v.b, v.c, v.d, v.e, v.f, v.g, v.h]
def shaBlocks : Nat → List Dword → List Byte → List Dword
  | 0, h, _ => h
  | n + 1, h, m => shaBlocks n (shaBlock h (m.take 128)) (m.drop 128)
/-- SHA-512 of a byte string: 64 bytes. -/
def sha512 (m : List Byte) : List Byte :=
  let p := shaPad m
  (shaBlocks (p.length / 128) shaInit p).flatMap fun x => toBE 8 x.toNat

/-! ### RSASSA-PKCS1-v1_5 -/

/-- b^e mod n over the low bits of e. -/
def powMod (n : Nat) : Nat → Nat → Nat → Nat
  | 0, _, _ => 1 % n
  | k + 1, b, e => (if e % 2 == 1 then b else 1) * powMod n k (b * b % n) (e / 2) % n
/-- The encoded message of 512 bytes: the padding, SHA-512's DigestInfo and the digest. -/
def pkcsEncode (m : List Byte) : List Byte :=
  let info : List Byte := [0x30, 0x51, 0x30, 0x0D, 0x06, 0x09, 0x60, 0x86, 0x48, 0x01, 0x65, 0x03, 0x04, 0x02, 0x03, 0x05, 0x00, 0x04, 0x40]
  0 :: 1 :: List.replicate 426 0xFF ++ 0 :: info ++ sha512 m
/-- A signature of 512 bytes, most significant first, verifies under a public key: modulus and exponent. -/
def rsaVerifies (key : Nat × Nat) (m sig : List Byte) : Bool :=
  let x := ofBE sig
  decide (x < key.1) && toBE 512 (powMod key.1 4096 x key.2) == pkcsEncode m
/-- The signature of a message under a private key: modulus and exponent. -/
def rsaSign (key : Nat × Nat) (m : List Byte) : List Byte := toBE 512 (powMod key.1 4096 (ofBE (pkcsEncode m)) key.2)

end Sys2Proof.Machine
end

