-- ==== Sys2Proof/Machine/Bringup.lean ====
section
/-! DEFINITION. Power-up and Frebry's verification, readiness, resets, spares and self-test, soft errors and the RAS log (R389 to R400). -/

namespace Sys2Proof.Machine

/-! ### Power-up and VERIFY (R389 to R391) -/

/-- Map and spare of an atoll from its retired positions (R397). -/
def atmapOf (ret : BitVec 9) : BitVec 32 × Nat :=
  let ok := (List.range 9).filter fun q => !ret.getLsbD q
  (BitVec.ofNat 32 (((List.range 8).map fun k => ok.getD k 0xF * 16 ^ k).sum), ok.getD 8 0xF)

/-- What a restart leaves of an atoll: its retired cores stay retired, the others mapped in order (R397). -/
def Atoll.restarted (t : Atoll) : Atoll := { retired := t.retired, map := (atmapOf t.retired).1, spare := (atmapOf t.retired).2 }
/-- What no reset of the module changes: the fused latency table, the retired cores, and the model's own records. -/
def State.restart (s : State) : State :=
  { State.reset with hops := s.hops, atolls := s.atolls.map Atoll.restarted, inputs := s.inputs, out := s.out, free := s.free }
def execPowerUp (s : State) : Out := .next s.restart
def execModuleReset (s : State) : Out := .next s.restart

def execBootdb (len : Nat) (s : State) : Out :=
  .next (if s.stage == 1 then { s with stage := 2, attempts := s.attempts + 1, bootLen := len } else s)

/-- The bytes that the digest covers (R390). -/
def State.signedBytes (s : State) : List Byte := s.mem.bytes 0 64 ++ s.mem.bytes 576 (s.mem.le 24 8 + s.mem.le 32 8)

/-- The first check of R391 that the downloaded image fails, 0 when none does. -/
def State.imageErr (s : State) : Nat :=
  let f (off n : Nat) : Nat := s.mem.le off n
  let im := f 24 8
  let vec (v : Nat) : Bool := v % 4 == 0 && v < im
  if f 0 4 != 0x59425246 || f 4 4 != 1 || f 41 23 != 0 || !vec (f 16 4) || !(f 20 4 == 0xFFFFFFFF || vec (f 20 4)) then 1
  else if !(576 + im + f 32 8 ≤ s.bootLen && s.bootLen ≤ 2 ^ 21 && im % 4 == 0 && im ≤ 2 ^ 19) then 2
  else if 4 ≤ f 40 1 || Config.slotRevoked (f 40 1) then 3
  else if f 8 8 < Config.minSvn then 4
  else if !rsaVerifies (Config.romKey (f 40 1)) s.signedBytes (s.mem.bytes 64 512) then 5
  else 0

/-- VERIFY ends: Frebry starts, or the store is zeroed and the loader waits again (R391). (DEDUCED, log 56) -/
def execVerifyDone (s : State) : Out :=
  .next (if s.stage != 2 then s
    else match s.imageErr with
      | 0 =>
        let f (off n : Nat) : Nat := s.mem.le off n
        let im := f 24 8
        let vs := f 16 4
        let va := f 20 4
        let dig := sha512 s.signedBytes
        let top := 576 + im + f 32 8
        let go (pc : Nat) (t : Stream) : Stream := { t with pc := pc, parked := false, ended := false, base := s.time, tried := none }
        let h := s.harbour
        let u : Cpu := { h.cpu with imem := h.cpu.imem.writes ((s.mem.bytes 576 im).zipIdx.map fun b => (b.2, b.1)) }
        let u := u.modStream .s (go vs)
        let u := if va == 0xFFFFFFFF then u.modStream .a fun t => { t with parked := true } else u.modStream .a (go va)
        { s with
          mem := s.mem.clear top (0x200000 - top), stage := 3, akey := some (Config.aliasKey dig)
          fwdig := Vector.ofFn fun i : Fin 8 => BitVec.ofNat 64 (ofLE ((dig.drop (8 * i.val)).take 8))
          harbour := { h with
            cpu := u, vecm := BitVec.ofNat 64 ((if va == 0xFFFFFFFF then 0 else va) * 2 ^ 32 + vs)
            hstat := BitVec.ofNat 64 (h.ptn * 256 + fld h.hstat 3 2 * 4 + 2) } }
      | e => { s with mem := s.mem.clear 0 0x200000, stage := 1, err := e })

/-! ### Readiness (R393) -/

/-- The functions of an island, as bits of READY (R392). -/
def readyMask (isl : Nat) : BitVec 13 :=
  if isl < 8 then 0x003 else if isl < 12 then 0x0FD else if isl == 12 then 0x1F01 else if isl == 13 then 0x701 else 0
/-- Those whose READY bits a reset brings back: all but the passage ports, which training sets (R407). (DEDUCED, log 57) -/
def resetMask (isl : Nat) : BitVec 13 := readyMask isl &&& ~~~0xE0

/-- An access in flight whose function is lost (R393): a read's data is poison. (DEDUCED, log 58) -/
def Pend.lose (lost : Nat → Bool) (e : Pend) : Pend :=
  match e.effs.findSome? fun f => match f with | .via bs o => some (bs.filter (lost ·.2), o) | _ => none with
  | none | some ([], _) => e
  | some (_, some (o, va)) =>
    { e with effs := .detect ⟨cDataPoison, va, 31 * 2 ^ 16⟩ 0 false :: e.effs.filterMap fun f => match f with | .g i _ _ => some (.keep i) | _ => none
             origin := some o }
  | some (bs, none) =>
    { e with effs := e.effs.map fun f => match f with | .pool b bad w => .pool b (bad ++ bs.map (·.1)) w | f => f }
/-- A write loses bytes: what it replaced stands again under the next newer write, and the bytes that no newer write covers are left over. (DEDUCED, log 58) -/
def undoWins (fr : Nat) (lost : Nat → Bool) : List Win → List Win × List (Nat × Byte)
  | [] => ([], [])
  | w :: ws =>
    let (rs, back) := undoWins fr lost ws
    if w.fr == fr then ({ w with old := w.old.filter (!lost ·.1) } :: rs, w.old.filter (lost ·.1) ++ back)
    else ({ w with old := w.old.map fun b => (back.find? (·.1 == b.1)).getD b } :: rs, back.filter fun b => !w.old.any (·.1 == b.1))
/-- Lines that a lost write leaves over, on which no newer write stands, are marked as they were before it (R399). -/
def State.undoLines (s : State) (fr : Nat) (back : List (Nat × Byte)) : List (Nat × Nat) :=
  let newer := (s.wins.takeWhile (·.fr != fr)).flatMap fun w => w.old.map (·.1 / 64)
  let was := (s.wins.filter (·.fr == fr)).flatMap (·.bad)
  ((back.map (·.1 / 64)).eraseDups.filter (!newer.contains ·)).foldl (fun ls g =>
    (if was.contains (64 * g) then [(64 * g, 64 * g + 64)] else []) ++ cutLine ls (64 * g)) s.lines
def State.undo (s : State) (fr : Nat) (lost : Nat → Bool) : State :=
  let (ws, back) := undoWins fr lost s.wins
  { s with wins := ws.filter (!·.old.isEmpty), mem := s.mem.writes back, lines := s.undoLines fr back }
/-- Addresses of the write that was made under a number and is still on its way. -/
def State.sentAt (s : State) (fr : Nat) : List Nat := (s.wins.filter (·.fr == fr)).flatMap fun w => w.old.map (·.1)
def State.lostAt (s : State) (lost : Nat → Bool) (e : Pend) : Option Nat :=
  ((e.effs.flatMap fun f => match f with | .via bs _ => bs.map (·.2) | _ => []) ++ s.sentAt e.fr).find? lost

/-- One lost access is logged (R399): the unit is that of NOT_READY. -/
def State.logLost11 (s : State) (a : Option Nat) : State :=
  match a with
  | some a => let i := (s.unready a).getD 0; s.ras 11 (i % 16) (i / 256) a
  | none => s

def State.loseHart (s : State) (x : Hart) (lost : Nat → Bool) : State :=
  let es := (s.cpu x).pend
  let s := es.foldl (fun s e => (s.logLost11 (s.lostAt lost e)).undo e.fr lost) s
  s.modCpu x fun u => { u with pend := u.pend.map (Pend.lose lost) }



/-- A streaming copy whose source or destination is lost; one whose passage port is completes with its streaming, its data dropped. -/
def State.loseCopy (s : State) (c : CoreId) (lost : Nat → Bool) (port : Nat → Bool) (e : Copy) : State :=
  let d := descOf e.desc
  let s := match (s.portFor d 0).filter fun k => d.dk == 1 && e.remote && port k with
    | some k => (s.ras 11 (8 + k / 3) k d.dst).modCore c fun x =>
        { x with copies := x.copies.map fun (y : Copy) => if y.started && y.u == e.u then { y with remote := false, due := e.u + e.n - 1, land := e.u + e.n - 1 } else y }
    | none => s
  let us := e.units
  let foul := us.flatMap fun x => match x.src, x.dst with
    | some as, some ds => if d.sk && as.any lost then ds else []
    | _, _ => []
  let s := s.logLost11 ((us.flatMap fun x => (if d.sk then x.src.getD [] else []) ++ (if d.dk == 2 then x.dst.getD [] else [])).find? lost)
  if d.dk == 2 then (s.undo e.fr lost).memPut [] (foul.filter (!lost ·))
  else { s with transit := s.transit.map fun (t : Transit) =>
    if t.from_ == c && t.u == e.u then { t with arr := { t.arr with poison := t.arr.poison ++ foul } } else t }

/-- The host link and the CXL ports whose READY bits clear are down (R410, R411). -/
def State.linksDown (s : State) (isl : Nat) (mask : BitVec 13) : State :=
  let cxl (k : Nat) (s : State) : State := if mask.getLsbD (9 + k) then { s with cxl := vset s.cxl (2 * (isl - 12) + k) 0 } else s
  let s := if isl == 12 && mask.getLsbD 11 then { s with hlstat := 0 } else s
  if isl == 12 || isl == 13 then cxl 1 (cxl 0 s) else s
/-- Those that become ready have trained, at a width and rate, or with a number of decoded devices, that the spec leaves to the link (R410, R411; DESIGN CHOICE, log 4). -/
def State.linkUp (s : State) (isl b : Nat) : State :=
  if isl == 12 && b == 11 then { s with hlstat := BitVec.ofNat 64 (Config.freeNat s.free % 4096) }.draw
  else if (isl == 12 || isl == 13) && (b == 9 || b == 10) then
    { s with cxl := vset s.cxl (2 * (isl - 12) + (b - 9)) (BitVec.ofNat 64 (Config.freeNat s.free % 256 * 256 + 2)) }.draw
  else s

/-- READY bits of an island clear, and what is in flight through them is lost (R393). (DEDUCED, log 58) -/
def State.loseReady (s : State) (isl : Nat) (mask : BitVec 13) : State :=
  let s0 := s
  let s := s.modIsland isl fun i => { i with ready := i.ready &&& ~~~mask }
  let s1 := s
  let lost (a : Nat) : Bool := (s0.unready a).isNone && (s1.unready a).isSome
  let port (k : Nat) : Bool := s0.portReady k && !s1.portReady k
  let s := (s.linksDown isl mask).loseHart .harbour lost
  s.launches.foldl (fun s l => l.members.foldl (fun s c =>
    ((s.core c).copies.filter fun e => e.started && !e.done && !e.refused).foldl (fun s e => s.loseCopy c lost port e) (s.loseHart (.core c) lost)) s) s

/-- A preload's shadow images are written again on the cores of an island (R394). -/
def State.reshadow (s : State) (isl : Nat) : State :=
  s.parts.toList.foldl (fun s p =>
    match p.preload with
    | some r =>
      let (x0, y0) := r.place.getD (0, 0)
      let w := Nat.max 1 (ofLE ((r.khdr.drop 28).take 1))
      let im := Rd.imem (s.imageAt r.image)
      (List.range (w * ofLE ((r.khdr.drop 29).take 1))).foldl (fun s m =>
        let c := coreAt (x0 + m % w) (y0 + m / w)
        if islandOf c == isl then s.modCore c fun k => { k with shadow := im, shadowBad := [] } else s) s
    | none => s) s

/-! ### Spares (R397, R398) -/

/-- Self-test and repair of an atoll's nine cores; which of them fail is the hardware's (R397; DESIGN CHOICE, log 4). (DESIGN CHOICE, log 39) -/
def State.selfTest (s : State) (a : Nat) : State :=
  let t := s.atoll a
  let ret := t.retired ||| BitVec.ofNat 9 (Config.freeNat s.free)
  let (m, sp) := atmapOf ret
  let s := (s.modAtoll a fun t => { t with retired := ret, map := m, spare := sp, bist := false }).draw
  let s := ((List.range 9).filter fun q => ret.getLsbD q && !t.retired.getLsbD q).foldl (fun s q => s.ras 1 (a / 4) (9 * (a % 4) + q) 0) s
  if t.spare < 9 && !ret.getLsbD t.spare && sp != t.spare then s.ras 3 (a / 4) (9 * (a % 4) + t.spare) 0 else s

/-- Repairs leave records of the types given, of a unit or of the physical cores; how many and of what is the hardware's (R397, R399; DESIGN CHOICE, log 4). (DESIGN CHOICE, log 39) -/
def State.repairLog (s : State) (isl : Nat) (types : List Nat) (unit : Option Nat) : State :=
  let fr := s.free
  ((List.range (Config.freeNat fr % 129)).foldl (fun s k =>
    s.ras (types.getD ((Config.freeByte fr (10 * k)).toNat % types.length) 4) isl (unit.getD ((Config.freeByte fr (10 * k + 1)).toNat % 36)) (freeDword fr (10 * k + 2)).toNat) s).draw
/-- The core domain's self-test and repair: rows, and columns of the matrix engine and the sort array (R397). -/
def State.testCores (s : State) (isl : Nat) : State := ([0, 1, 2, 3].foldl (fun s r => s.selfTest (4 * isl + r)) s).repairLog isl [4, 5, 6] none

/-- A core is retired in the field (R398). (DEDUCED, log 59) -/
def State.retire (s : State) (a q : Nat) : State :=
  let drop (t : Atoll) : Atoll :=
    { t with
      retired := t.retired ||| BitVec.twoPow 9 q
      map := BitVec.ofNat 32 (((List.range 8).map fun k => (if t.map.toNat / 16 ^ k % 16 == q then 0xF else t.map.toNat / 16 ^ k % 16) * 16 ^ k).sum)
      spare := if t.spare == q then 0xF else t.spare }
  if (s.atoll a).retired.getLsbD q then s else (s.modAtoll a drop).ras 2 (a / 4) (9 * (a % 4) + q) 0

/-- Firmware sets RET bits of ATMAP (R392); a write that clears one is discarded. (DEDUCED, log 59) -/
def execAtmapRetire (a m : Nat) (s : State) : Out :=
  let old := (s.atoll a).retired.toNat
  .next (if old &&& m != old then s else ((List.range 9).filter m.testBit).foldl (fun s q => s.retire a q) s)

def State.atollHeld (s : State) (a : Nat) : Bool := s.launches.any fun l => l.atolls.contains a
/-- A test may start (R398, R404). (DESIGN CHOICE, log 38) -/
def State.bistMay (s : State) (a : Nat) : Bool :=
  let t := s.atoll a
  s.bistctl.getLsbD 0 && !s.atollHeld a && t.state == 0 && !t.launchHold && fld s.bistctl 31 16 * 2 ^ 20 ≤ t.idle
  && (s.island (a / 4)).rst == 0 && s.readyBit (a / 4) 1 && !(s.atolls.toList.any (·.bist))

/-- A test starts on one physical core, which the machine chooses (DESIGN CHOICE, log 4). -/
def execBistStart (a : Nat) (s : State) : Out :=
  .next (if s.bistMay a then (s.modAtoll a fun t => { t with bist := true, bistPos := Config.freeNat s.free % 9 }).draw else s)
/-- The core under test is reset: its logical place, if it holds one. (DESIGN CHOICE, log 38) -/
def execBistAbort (a : Nat) (s : State) : Out :=
  let t := s.atoll a
  let p := (List.range 8).find? fun k => t.map.toNat / 16 ^ k % 16 == t.bistPos
  .next (if t.bist then
      let s := s.modAtoll a fun t => { t with bist := false, idle := 0 }
      match p with
      | some k => s.modCore (coreAt (8 * (a / 4 % 4) + k) (4 * (a / 16) + a % 4)) fun c => { shadow := c.shadow, shadowBad := c.shadowBad }
      | none => s
    else s)
/-- DESIGN CHOICE, log 38. -/
def execBistFail (a : Nat) (s : State) : Out :=
  let t := s.atoll a
  .next (if t.bist then (s.modAtoll a fun t => { t with bist := false, idle := 0 }).retire a t.bistPos else s)
def execBistPass (a : Nat) (s : State) : Out :=
  .next (s.modAtoll a fun t => if t.bist then { t with bist := false, idle := 0 } else t)

/-! ### Resets (R394, R396) -/

/-- Every register, pool byte and mark of an island's cores is cleared, and their spares are mapped. -/
def State.clearCores (s : State) (isl : Nat) : State :=
  let s := { s with cores := Vector.ofFn fun c : Fin 256 => if islandOf c == isl then {} else s.cores[c] }
  s.testCores isl

/-- Memory that loses its contents with its island: every line of it reads as poison (R394). -/
def islandMemory (isl : Nat) : Option (Nat × Nat) :=
  if 8 ≤ isl && isl < 12 then some (hbmBase + 144 * gib * (isl - 8), 144 * gib) else if isl == 13 then some (0x28000000000, 512 * gib) else none

/-- The uncore: CYC restarts, links go down, and the memory loses its contents. -/
def State.clearUncore (s : State) (isl : Nat) : State :=
  let s := s.modIsland isl fun i => { i with cyc := 0 }
  let down (ps : Vector Port 12) (k : Nat) : Vector Port 12 :=
    vmod ps (3 * (isl - 8) + k) fun q => { q with link := 0, lanes := 0, lp := 0, retry := 0 }
  let s := { s with ports := if 8 ≤ isl && isl < 12 then [0, 1, 2].foldl down s.ports else s.ports }
  match islandMemory isl with
  | some (a, n) =>
    let s := s.wipe a n n
    { s with lines := (a, a + n) :: s.lines }
  | none => s

/-- Responses from a near- or far-tier island that is reset carry its old incarnation: of the accesses, walks and copies that await one, those whose response was already on its way drop it, counted where it arrives (R396; which they are, DESIGN CHOICE, log 4). (DEDUCED, log 58) -/
def State.strandFrom (s : State) (isl cmd : Nat) : State :=
  let lost (a : Nat) : Bool := (s.unready a).isNone && ((s.modIsland isl fun i => { i with ready := 0 }).unready a).isSome
  let sent (i n : Nat) (s : State) : State := (List.range n).foldl (fun s _ => if Config.freeBool s.free 0 then s.stray i else s.draw) s
  let hart (x : Hart) (i : Nat) (s : State) : State :=
    sent i (((s.cpu x).pend.filter fun e => (s.lostAt lost e).isSome).length + (s.cpu x).walks.length) s
  let awaits (e : Copy) : Bool := e.started && !e.done && e.units.any fun x => (x.src.getD [] ++ x.dst.getD []).any lost
  if cmd != 2 || isl < 8 then s
  else s.launches.foldl (fun s l => l.members.foldl (fun s c =>
    sent (islandOf c) ((s.core c).copies.filter awaits).length (hart (.core c) (islandOf c) s)) s) (hart .harbour 12 s)

/-- A CMD write that R394 does not discard. -/
def State.resetOk (s : State) (isl cmd : Nat) : Bool :=
  isl < 14 && (s.island isl).rst == 0 && ((cmd == 1 && isl < 8) || (cmd == 2 && isl != 12))

/-- DEDUCED, log 57. -/
def State.resetIsland (s : State) (isl cmd : Nat) : State :=
  if !s.resetOk isl cmd then s
  else
    let s := (s.strand [isl]).strandFrom isl cmd
    let s := (s.launches.filter fun l => l.atolls.any fun a => a / 4 == isl).foldl (fun s l => s.endLaunch l.lid 2 0) s
    let s := s.loseReady isl (if cmd == 1 then 2 else BitVec.allOnes 13)
    let s := if isl < 8 then s.clearCores isl else s
    let s := if cmd == 2 then (s.clearUncore isl).repairLog isl [7] none else s
    s.modIsland isl fun i => { i with rst := cmd, inc := (i.inc + 1) % 256 }
def execCoreReset (isl : Nat) (s : State) : Out := .next (s.resetIsland isl 1)
def execIslandReset (isl : Nat) (s : State) : Out := .next (s.resetIsland isl 2)

/-- A function has finished its bring-up or its repair. A reset ends with the last of its island's (R394); cores that come up from power-up are tested first, and a stack has its lanes repaired (R397). (DEDUCED, log 57) -/
def execFunctionReady (isl b : Nat) (s : State) : Out :=
  .next (if !(resetMask isl).getLsbD b || s.readyBit isl b then s
    else
      let s := if b == 1 && (s.island isl).rst == 0 then s.testCores isl else s
      let s := if 8 ≤ isl && isl < 12 && 2 ≤ b && b < 5 then s.repairLog isl [8] (some (3 * (isl - 8) + (b - 2))) else s
      let s := s.linkUp isl b
      let s := s.modIsland isl fun i => { i with ready := i.ready ||| BitVec.twoPow 13 b }
      let i := s.island isl
      if i.rst != 0 && i.ready &&& resetMask isl == resetMask isl then (s.modIsland isl fun i => { i with rst := 0 }).reshadow isl else s)

/-- A function fails in service (R393); a passage port with it loses its link. -/
def execFunctionFail (isl b : Nat) (s : State) : Out :=
  .next (if !s.readyBit isl b then s
    else
      let s := s.loseReady isl (BitVec.twoPow 13 b)
      if 8 ≤ isl && isl < 12 && 5 ≤ b && b < 8 then
        { s with ports := vmod s.ports (3 * (isl - 8) + (b - 5)) fun (q : Port) => { q with link := 0, lanes := 0, lp := 0 } }.setEvent evLink
      else s)

/-! ### Soft errors and the log (R399, R400) -/

/-- A line of memory is struck: its mark outlasts the loss of a write on its way. -/
def State.strikeLine (s : State) (g : Nat) : State :=
  { s with lines := (g, g + 64) :: cutLine s.lines g, wins := s.wins.map fun w => if w.old.any (·.1 / 64 * 64 == g) then { w with bad := g :: w.bad } else w }
/-- A corrected error changes nothing; an uncorrectable one marks what it struck and is logged. (DEDUCED, log 20) (DEDUCED, log 60) -/
def execSoftError (e : ErrSite) (fixed : Bool) (s : State) : Out :=
  let log (s : State) (c : CoreId) (d : Nat) : State := s.ras 9 (islandOf c) (s.physCore c) d
  .next (if fixed then s
    else match e with
      | .pool c a => log (s.modCore c fun k => { k with poison := a / 64 * 64 :: k.poison.filter (· != a / 64 * 64) }) c a
      | .word c a => log (s.modCpu (.core c) fun u => { u with imemBad := a :: u.imemBad }) c a
      | .shadow c a => log (s.modCore c fun k => { k with shadowBad := a :: k.shadowBad }) c a
      | .reg c f i => log (s.modCpu (.core c) fun u => { u with regBad := (f, i) :: u.regBad }) c i
      | .row c i => log (s.rowError c i) c i
      | .sort c i => log (s.cellError c i) c i
      | .line a =>
        let g := a / 64 * 64
        match s.tierOf a with
        | some 0 =>
          let k := (a - hbmBase) / (48 * gib)
          (s.strikeLine g).ras 9 (8 + k / 3) k a
        | some 1 => (s.strikeLine g).ras 9 (if a < 0x28000000000 then 12 else 13) 0 a
        | _ => s)

/-- LOGPOP removes the head record; RAS stays latched until it is cleared. -/
def execLogpop (s : State) : Out := .next { s.latch with log := s.log.drop 1 }

end Sys2Proof.Machine
end

