-- ==== Sys2Proof/Machine/Partition.lean ====
section
/-! DEFINITION. Partitions: their registers and what discards a write of them, TDISP, function-level reset and hotness release (R365 to R371, R395). -/

namespace Sys2Proof.Machine

/-! ### PTCFG and its neighbours (R365 to R367) -/

/-- The island masks that are rectangles of R365. -/
def rectMasks : List Nat :=
  [1, 2, 4].flatMap fun w => [1, 2].flatMap fun h => ((List.range 4).filter fun c => c % w == 0 && c + w ≤ 4).flatMap fun c =>
    ((List.range 2).filter fun r => r + h ≤ 2).map fun r =>
      ((List.range (w * h)).map fun k => 2 ^ (c + k % w + 4 * (r + k / w))).sum

/-- Bounds of a partition's HBM and far ranges (R366, R367). -/
def Part.hbmLo (p : Part) : Nat := hbmBase + fld p.hbm 15 0 * gib
def Part.hbmHi (p : Part) : Nat := p.hbmLo + fld p.hbm 31 16 * gib
def Part.farLo (p : Part) : Nat := farBase + fld p.far 15 0 * gib
def Part.farHi (p : Part) : Nat := p.farLo + fld p.far 31 16 * gib
def meets (a b c d : Nat) : Bool := a < d && c < b && a < b && c < d

/-- The HBM range that enabling gives a partition whose PTHBM is 0: after those of the lower-numbered enabled ones (R366). (DEDUCED, log 35) -/
def State.defaultHbm (s : State) (p n : Nat) : Dword :=
  let base := ((List.range p).filter fun q => (s.part q).en).foldl (fun m q => Nat.max m (fld (s.part q).hbm 15 0 + fld (s.part q).hbm 31 16)) 0
  BitVec.ofNat 64 (n * ((576 - 16 * s.mscSteps) / 8) * 2 ^ 16 + base)

def islandCount (m : Nat) : Nat := ((List.range 8).filter m.testBit).length

/-- The partition as a write of PTCFG would leave it. -/
def State.enabled (s : State) (p : Nat) (v : Dword) : Part :=
  let q := s.part p
  { q with cfg := v &&& 0x1FF, hbm := if v.getLsbD 8 && q.hbm == 0 then s.defaultHbm p (islandCount (fld v 7 0)) else q.hbm }

/-- An atoll's retention image, and whether it is held (R405). -/
def imageSize : Nat := 0x4420000
def Atoll.held (a : Atoll) : Bool := 3 ≤ a.state && a.state ≤ 6

/-- What keeps a partition from being enabled: R365 broken, an overlap with another of islands or of some range of R366, a window among them, or a held retention image. (DEDUCED, log 35) -/
def State.enableBad (s : State) (p : Nat) (q : Part) : Bool :=
  !rectMasks.contains q.mask
  || ((List.range 8).any fun k =>
       let r := s.part k
       k != p && r.en && (q.mask &&& r.mask != 0 || meets q.hbmLo q.hbmHi r.hbmLo r.hbmHi || meets q.farLo q.farHi r.farLo r.farHi || fld q.ext 5 0 &&& fld r.ext 5 0 != 0))
  || s.atolls.toList.any fun a =>
       a.held && (meets q.hbmLo q.hbmHi a.retbase (a.retbase + imageSize) || meets q.farLo q.farHi a.retbase (a.retbase + imageSize))

/-- A launch of the partition exists: started, or saved. (DEDUCED, log 36) -/
def State.hasLaunch (s : State) (p : Nat) : Bool := s.launches.any (·.ptn == p) || s.saved.any fun e => e.ptn == p && e.newlid.isNone

/-- R367's grounds for discarding a write of register k of a partition. -/
def State.ptDiscard (s : State) (p k : Nat) (v : Dword) : Bool :=
  let q := s.part p
  let off := k == 0 && !v.getLsbD 8
  if q.en then !off || s.hasLaunch p
  else k == 0 && v.getLsbD 8 && s.enableBad p (s.enabled p v)

/-- The partition's launches are killed: those running and those saved, whose counters stand in their save areas (R369, R370, R377, R384). (DEDUCED, log 36) -/
def State.killPart (s : State) (p : Nat) : State :=
  let s := (s.launches.filter (·.ptn == p)).foldl (fun s l => s.endLaunch l.lid 2 0) s
  (s.saved.filter fun e => e.ptn == p && e.newlid.isNone).foldl (fun s e =>
    ((s.clearRemap e.lid).modPart p (·.keepHot e.lid (s.savedLaunch e.area e.x0 e.y0).hot)).record p e.lid 2) s

/-- Entry to ERROR (R369). (DEDUCED, log 35) -/
def State.tdispError (s : State) (p : Nat) : State := (s.killPart p).modPart p fun q => { q with tdisp := 3 }
/-- DEDUCED, log 61. -/
def State.ptRej (s : State) (p : Nat) : State := s.modPart p fun q => { q with cfg := q.cfg ||| BitVec.twoPow 64 31 }

/-- A write of PTCFG, PTHBM, PTFAR, PTEXT or S2ROOT: 0x400 + 0x10 × p + k (R367, R369). REJ clears by an accepted write of 1. -/
def execPtcfgWrite (n : Nat) (v : Dword) (s : State) : Out :=
  let p := n / 16 % 8
  let k := n % 16
  .next (if (s.part p).tdisp == 1 || (s.part p).tdisp == 2 then (s.tdispError p).ptRej p
    else if s.ptDiscard p k v then s.ptRej p
    else s.modPart p fun q =>
      match k with
      | 0 => { s.enabled p v with cfg := (v &&& 0x1FF) ||| (if v.getLsbD 31 then 0 else q.cfg &&& BitVec.twoPow 64 31) }
      | 1 => { q with hbm := v &&& 0xFFFFFFFF }
      | 2 => { q with far := v &&& 0xFFFFFFFF }
      | 3 => { q with ext := v &&& 0x3F }
      | _ => { q with s2root := v &&& 0xFFFFFFFFE000 })

/-! ### TDISP (R369) -/

def execTdispLock (p : Nat) (s : State) : Out :=
  .next (if (s.part p).tdisp == 0 && (s.part p).en then s.modPart p fun q => { q with tdisp := 1 } else s.ptRej p)
def execTdispStart (p : Nat) (s : State) : Out :=
  .next (if (s.part p).tdisp == 1 then s.modPart p fun q => { q with tdisp := 2 } else s.ptRej p)
def execTdispStop (p : Nat) (s : State) : Out := .next ((s.killPart p).modPart p fun q => { q with tdisp := 0 })

/-- An FLR of function p + 1, which exists while EN = 1 (R368, R395). (DEDUCED, log 35) -/
def execFunctionLevelReset (p : Nat) (s : State) : Out :=
  let q := s.part p
  .next (if !q.en then s
    else
      let s := (s.strand ((List.range 8).filter q.mask.testBit)).tdispError p
      let lids := (q.queues.toList.flatMap fun r => r.map (·.lid)) ++ (q.preload.map (·.lid)).toList
      let s := s.modPart p fun q => { q with queues := Vector.replicate 16 [], preload := none }
      let s := lids.foldl (fun s n => s.record p n 4) s
      ((List.range 8).filter q.mask.testBit).foldl (fun s i => s.resetIsland i 2) s)

/-! ### Hotness (R370, R371) -/

def execHotrel (p lid : Nat) (s : State) : Out :=
  .next (s.modPart p fun q => { q with hotsets := q.hotsets.filter (·.1 != lid) })

/-- The counters of the launch and the buffer that HOTSEL selects: bytes read, bytes written, cycles. -/
def State.hotCounts (s : State) (p : Nat) : Nat × Nat × Nat :=
  let q := s.part p
  let n := fld q.hotsel 15 0
  let set : List (Nat × Nat × Nat × Nat) := match s.launches.find? fun l => l.lid == n && l.ptn == p with
    | some l => l.hot
    | none => ((q.hotsets.find? (·.1 == n)).map (·.2)).getD []
  ((set.find? (·.1 == fld q.hotsel 23 16)).map (·.2)).getD (0, 0, 0)

end Sys2Proof.Machine
end

