-- ==== Sys2Proof/Machine/Power.lean ====
section
/-! DEFINITION. Atoll power: the parts of an ATCTL write, gating with its retention image, WAKE, the clock and droops (R402 to R406, R412). -/

namespace Sys2Proof.Machine

def State.atRej (s : State) (a : Nat) : State := s.modAtoll a fun t => { t with rej := true }

/-! ### ATCTL (R404, R412) -/

/-- An arrival in transit is bound for the atoll. -/
def State.boundFor (s : State) (a : Nat) (t : Transit) : Bool :=
  match s.launch t.arr.lid with
  | some l => atollOf (l.coreOf t.arr.rx t.arr.ry) == a
  | none => false
/-- PENDING_ARRIVALS: arrivals accepted before the close and not yet applied. -/
def State.pendingArrivals (s : State) (a : Nat) : Nat :=
  if (s.atoll a).arrivalClose then (s.transit.filter fun t => t.accepted && s.boundFor a t).length + (s.orphans.filter fun o => o.accepted && atollOf o.c == a).length
  else 0

/-- Part 1: bits written 1 are set. Which arrivals on their way were accepted before the close is open (DESIGN CHOICE, log 4). (DEDUCED, log 62) -/
def State.atSets (s : State) (a : Nat) (v : Dword) : State :=
  let s := if v.getLsbD 9 && !(s.atoll a).arrivalClose then
      let take (k : Nat) (near old : Bool) : Bool := if near then Config.freeBool s.free k else old
      ({ s with transit := s.transit.zipIdx.map fun t => { t.1 with accepted := take t.2 (s.boundFor a t.1) t.1.accepted }
                orphans := s.orphans.zipIdx.map fun t => { t.1 with accepted := take (2 ^ 20 + t.2) (atollOf t.1.c == a) t.1.accepted } } : State).draw
    else s
  s.modAtoll a fun t => { t with launchHold := t.launchHold || v.getLsbD 8, arrivalClose := t.arrivalClose || v.getLsbD 9 }

/-- Part 3: bits written 0 are cleared in RUN; elsewhere the clear is discarded. (DEDUCED, log 62) -/
def State.atClears (s : State) (a : Nat) (v : Dword) : State :=
  let t := s.atoll a
  if !((t.launchHold && !v.getLsbD 8) || (t.arrivalClose && !v.getLsbD 9)) then s
  else if t.state == 0 then
    (s.modAtoll a fun t => { t with launchHold := v.getLsbD 8, arrivalClose := v.getLsbD 9 })
  else s.atRej a

/-- CMD 1. -/
def State.atQuiesce (s : State) (a : Nat) : State :=
  let t := s.atoll a
  if t.state == 0 && t.launchHold && t.arrivalClose then s.modAtoll a fun t => { t with state := 1, rej := false } else s.atRej a

/-- RETBASE is valid (R405): the image lies in HBM or the far tier, outside every enabled partition's ranges. -/
def State.retbaseOk (s : State) (a : Nat) : Bool :=
  let b := (s.atoll a).retbase
  s.plainRange b imageSize && s.parts.toList.all fun p =>
    !p.en || !(meets b (b + imageSize) p.hbmLo p.hbmHi || meets b (b + imageSize) p.farLo p.farHi)

/-- CMD 2: the save starts; it ends at an open edge (DESIGN CHOICE, log 4). -/
def State.atGate (s : State) (a : Nat) : State :=
  if (s.atoll a).state == 2 && s.retbaseOk a then
    (s.modAtoll a fun t =>
      { t with state := 3, rej := false, retainOk := false, result := 0, granules := 0, due := s.time + Config.freeNat s.free }).draw
  else s.atRej a

/-- A gated atoll wakes: EN, and the loop restarts at MULT (R404). -/
def State.atWaking (s : State) (a : Nat) : State :=
  (s.modAtoll a fun t => { t with state := 5, en := true, due := s.lockTime }).draw
/-- CMD 3. -/
def State.atWake (s : State) (a : Nat) : State :=
  match (s.atoll a).state with
  | 1 | 2 => s.modAtoll a fun t => { t with state := 0, idleAll := false, rej := false }
  | 4 => (s.modAtoll a fun t => { t with rej := false }).atWaking a
  | _ => s.atRej a

/-- Part 2. (DEDUCED, log 62) -/
def State.atCmd (s : State) (a cmd : Nat) : State :=
  match cmd with | 1 => s.atQuiesce a | 2 => s.atGate a | 3 => s.atWake a | _ => s

def execQuiesce (a : Nat) (s : State) : Out := .next (s.atQuiesce a)
def execGate (a : Nat) (s : State) : Out := .next (s.atGate a)
def execAtollWake (a : Nat) (s : State) : Out := .next (s.atWake a)
/-- One write of ATCTL: the sets, the command, the clears (R412). -/
def execAtctlBits (a : Nat) (v : Dword) (s : State) : Out := .next (((s.atSets a v).atCmd a (fld v 1 0)).atClears a v)

/-- A WAKE write of 1 (R405, R412). -/
def execWake (a : Nat) (s : State) : Out :=
  let s := s.setEvent evWake
  .next (match (s.atoll a).state with
    | 3 => s.modAtoll a fun t => { t with wake := true }
    | 4 => (s.modAtoll a fun t => { t with wake := true }).atWaking a
    | _ => s.atRej a)

/-! ### The gating machine (R404, R405) -/

def execQuiesced (a : Nat) (s : State) : Out :=
  let t := s.atoll a
  .next (if t.state == 1 && !s.atollHeld a && !t.bist && s.pendingArrivals a == 0 then
      s.modAtoll a fun t => { t with state := 2, idleAll := true }
    else s)

/-- The living places of an atoll and their cores. -/
def State.places (s : State) (a : Nat) : List (Nat × CoreId) :=
  ((List.range 8).map fun k => (k, coreAt (8 * (a / 4 % 4) + k) (4 * (a / 16) + a % 4))).filter fun q =>
    (s.atoll a).map.toNat / 16 ^ q.1 % 16 != 0xF
/-- 64 KiB granules of an image with n places. -/
def imageGranules (n : Nat) : Nat := 128 * n + 8 * n + (n * 0x4000 + 0xFFFF) / 0x10000

/-- The three areas of a place in the image. -/
def imageAreas (b k : Nat) : List (Nat × Nat) := [(b + k * 0x800000, 0x800000), (b + 0x4000000 + k * 0x80000, 0x80000), (b + 0x4400000 + k * 0x4000, 0x4000)]

/-- The image is written; the cores lose what it does not hold. A latched WAKE acts at once (R405). -/
def execSaveDone (a : Nat) (s : State) : Out :=
  let t := s.atoll a
  .next (if t.state == 3 && t.due ≤ s.time then
      let ps := s.places a
      let s := ps.foldl (fun s q =>
        let k := s.core q.2
        let bs := (k.pool.map fun c => (t.retbase + q.1 * 0x800000 + c.1, c.2))
          ++ (k.shadow.map fun c => (t.retbase + 0x4000000 + q.1 * 0x80000 + c.1, c.2)) ++ markBytes (t.retbase + 0x4400000 + q.1 * 0x4000) k.poison
        let s := (imageAreas t.retbase q.1).foldl (fun s r => s.wipe r.1 r.2 r.2) s
        { s.modCore q.2 (fun _ => {}) with mem := s.mem.writes bs }) s
      let s := s.modAtoll a fun t =>
        { t with state := 4, result := 1, retainOk := true, en := false, good := false, locked := false, granules := imageGranules ps.length }
      if t.wake then s.atWaking a else s
    else s)

/-- The first address of a living place's areas, of their first and last bytes, that lies behind a function that is not ready. -/
def State.imageUnready (s : State) (a : Nat) : Option Nat :=
  ((s.places a).flatMap fun q => (imageAreas (s.atoll a).retbase q.1).flatMap fun r => [r.1, r.1 + r.2 - 1]).find? fun x => (s.unready x).isSome
/-- DEDUCED, log 59. -/
def execSaveFail (a : Nat) (s : State) : Out :=
  .next (if (s.atoll a).state == 3 then
      let x := (s.imageUnready a).getD (s.atoll a).retbase
      let i := (s.unready x).getD (a / 4)
      (s.modAtoll a fun t => { t with state := 2, result := 2 }).ras 11 (i % 16) (i / 256) x
    else s)

/-- The regulator is good and the loop locked. -/
def execRestoring (a : Nat) (s : State) : Out :=
  let t := s.atoll a
  .next (if t.state == 5 && t.due ≤ s.time then
      (s.modAtoll a fun t =>
        { t with state := 6, good := true, locked := true, cur := t.mult, granules := 0, due := s.time + Config.freeNat s.free }).draw
    else s)

/-- Pool granules of a place that a bad line of the image concerns: one line of the pool, or the 512 granules of one line of marks. -/
def badGranules (b k : Nat) (bad : List Nat) : List Nat :=
  (bad.flatMap fun a =>
    if b + k * 0x800000 ≤ a && a < b + (k + 1) * 0x800000 then [(a - b - k * 0x800000) / 64 * 64]
    else
      let m := b + 0x4400000 + k * 0x4000
      if m ≤ a && a < m + 0x4000 then (List.range 512).map fun j => ((a - m) / 64 * 512 + j) * 64 else []).eraseDups

/-- The part of an area that lies behind a function that is not ready (R393): stacks and tiers meet at multiples of 48 GiB. -/
def State.lostPart (s : State) (r : Nat × Nat) : List (Nat × Nat) :=
  let cut := hbmBase + ceilDiv (r.1 + 1 - hbmBase) (48 * gib) * (48 * gib)
  let end_ := r.1 + r.2
  [(r.1, Nat.min cut end_), (cut, end_)].filter fun q => q.1 < q.2 && (s.unready q.1).isSome
/-- The lines of some areas that an interval of addresses touches. -/
def linesIn (areas : List (Nat × Nat)) (r : Nat × Nat) : List Nat :=
  areas.flatMap fun q =>
    let lo := Nat.max r.1 q.1 / 64 * 64
    (List.range ((Nat.min r.2 (q.1 + q.2) + 63 - lo) / 64)).map fun k => lo + 64 * k

/-- The image is read back; lines that could not be read are named, beside those that are marked and those behind a function that is not ready. Only the areas of living places are read. Words of the shadow bank from such lines hold an error (R400). (DEDUCED, log 59) -/
def execRestoreDone (a : Nat) (bad : List Nat) (s : State) : Out :=
  let t := s.atoll a
  .next (if t.state == 6 && t.due ≤ s.time then
      let ps := s.places a
      let area (m : Mem) (b n : Nat) : Mem := (m.filter fun c => b ≤ c.1 && c.1 < b + n).map fun c => (c.1 - b, c.2)
      let areas := ps.flatMap fun q => imageAreas t.retbase q.1
      let bad := ((bad.map fun b => (b / 64 * 64, b / 64 * 64 + 64)) ++ s.lines ++ areas.flatMap s.lostPart).flatMap (linesIn areas)
      let s := ps.foldl (fun s q => s.modCore q.2 fun k =>
        { k with
          pool := area s.mem (t.retbase + q.1 * 0x800000) 0x800000
          shadow := area s.mem (t.retbase + 0x4000000 + q.1 * 0x80000) 0x80000
          shadowBad := (bad.filter fun x => t.retbase + 0x4000000 + q.1 * 0x80000 ≤ x && x < t.retbase + 0x4000000 + (q.1 + 1) * 0x80000).flatMap fun x =>
            (List.range 16).map fun j => x - (t.retbase + 0x4000000 + q.1 * 0x80000) + 4 * j
          poison := (marksOf s.mem (t.retbase + 0x4400000 + q.1 * 0x4000) ++ badGranules t.retbase q.1 bad).eraseDups }) s
      s.modAtoll a fun t =>
        { t with state := 2, result := if bad.isEmpty then 1 else 2, wake := false, granules := imageGranules ps.length }
    else s)

/-- RETBASE is kept while its image is held (R405). -/
def execRetbaseWrite (a : Nat) (v : Dword) (s : State) : Out :=
  .next (if (s.atoll a).held then s.atRej a else s.modAtoll a fun t => { t with retbase := fld v 47 16 * 2 ^ 16 })

/-! ### Clock and droops (R403, R406) -/

/-- MULT; the loop retargets at the next reference edge (R57, R403). -/
def execFllcfgWrite (a : Nat) (v : Dword) (s : State) : Out :=
  let m := fld v 6 0
  .next (if 24 ≤ m && m ≤ 65 then s.modAtoll a fun t => { t with mult := m } else s.atRej a)

/-- An atoll outside every domain runs at its own MULT: it retargets at a reference edge (R403). A loop locks again wherever it was retargeted, also after its launch has ended. (DEDUCED, log 62) -/
def State.freeLoops (s : State) : State :=
  (List.range 32).foldl (fun s a =>
    let t := s.atoll a
    if t.state == 4 || t.state == 5 then s
    else if !s.atollHeld a && s.refEdge && t.cur != t.mult then (s.modAtoll a fun t => { t with cur := t.mult, locked := false, lockAt := some s.lockTime }).draw
    else match t.lockAt with
      | some e => if e ≤ s.time then s.modAtoll a fun t => { t with locked := true, lockAt := none } else s
      | none => s) s

/-- The hardware updates a system register in this cycle: that stands against a SYSW to it (R335). -/
def State.hwUpdate (s : State) (n : Nat) : State := { s with harbour := { s.harbour with hwNow := n :: s.harbour.hwNow } }

/-- One CYC cycle of a droop: boosted while the window's duty lasts, then one pulse swallowed for the whole domain (R406). (DEDUCED, log 62) -/
def execDroopBoost (a : Nat) (s : State) : Out :=
  let t := s.atoll a
  let c := s.cyc (a / 4)
  let used := if t.win == c / 64 then t.dutyUsed else 0
  .next (if !t.en then s
    else if used < t.duty then
      let more := !(t.lastBoost == c && used != 0)
      let s := s.modAtoll a fun t =>
        { t with win := c / 64, dutyUsed := used + 1, lastBoost := c + 1, boost := if more then Nat.min 65535 (t.boost + 1) else t.boost }
      if more then s.hwUpdate (0x806 + 8 * a) else s
    else
      let s := s.modAtoll a fun t => { t with win := c / 64, dutyUsed := used }
      match s.launches.find? fun l => l.atolls.contains a with
      | some l => s.modLaunch l.lid fun l => { l with swallow := l.swallow + 1 }
      | none => s)

end Sys2Proof.Machine
end

