-- ==== Sys2Proof/Machine/Links.lean ====
section
/-! DEFINITION. Passage ports, the time-step counter, the host link with its doorbells and posted writes, and attestation (R136, R389, R401, R407 to R411). -/

namespace Sys2Proof.Machine

/-! ### Training (R407) -/

def State.dropLink (s : State) (k link : Nat) : State :=
  (s.loseReady (8 + k / 3) (BitVec.twoPow 13 (5 + k % 3))).modPort k fun p => { p with link := link, lanes := 0, lp := 0 }
def execPassageTrain (k : Nat) (s : State) : Out := .next (if k < 12 then s.dropLink k 1 else s)
def execPassageTakeDown (k : Nat) (s : State) : Out := .next (if k < 12 then s.dropLink k 0 else s)

/-- A port that trains sets its READY bit and LINK. -/
def execTrainingDone (k lanes lp peer : Nat) (s : State) : Out :=
  .next (if k < 12 && (s.port k).link == 1 then
      ((s.modPort k fun p => { p with link := 2, lanes := lanes % 256, lp := lp % 65536, peer := peer &&& 0x3F0F, known := true, retry := 0 }).modIsland (8 + k / 3)
        fun i => { i with ready := i.ready ||| BitVec.twoPow 13 (5 + k % 3) }).setEvent evLink
    else s)
def execFlitRetry (k : Nat) (s : State) : Out :=
  .next (if (s.port k).link == 2 then s.modPort k fun p => { p with retry := (p.retry + 1) % 2 ^ 64 } else s)

/-! ### TSC (R409) -/

/-- An alignment written on this part, or on the peer of a trained port, whose hop is compensated, takes effect 4,096 periods after the write. DEDUCED, log 63. -/
def execTsalign (v : Dword) (s : State) : Out :=
  .next (if s.tsalign.isSome || s.ports.toList.all (·.link != 2) then s
    else { s with tsalign := some (v.toNat, (s.tsc + 4096) % 2 ^ 64), tsdone := false })
def execTscAlignApply (s : State) : Out :=
  .next (match s.tsalign with
    | some (v, e) => if e == s.tsc then { s with tsc := v, tsalign := none, tsdone := true }.setEvent evLink else s
    | none => s)

/-! ### Doorbells and posted writes (R136, R389, R410) -/

/-- A value in HDBIN, from the host or from a SYSW. -/
def State.doorbell (s : State) (v : Dword) : State := { s with hdbin := v }.setEvent evHostdb
/-- The host writes HDBIN. -/
def execHdbin (v : Dword) (s : State) : Out := .next ((s.doorbell v).hwUpdate 0xA01)
/-- HDBOUT raises MSI-X vector 0 of function 0; its value reaches no one else. -/
def execHdbout (_v : Dword) (s : State) : Out := .next { s with out := s.out ++ [.msix 0] }

/-- Harbour store bytes that the host may write: all while STAGE is WAIT, the host channel while it is RUN (R389, R410). (DEDUCED, log 68) -/
def State.apertureOpen (s : State) (a n : Nat) : Bool :=
  a + n ≤ 0x200000 && (s.stage == 1 || (s.stage == 3 && 0x1FF000 ≤ a))
/-- A posted write becomes visible at once, after those that arrived before it; one that reaches no memory, or no ready function, is dropped. -/
def execHostPostedWrite (a : Nat) (data : List Byte) (s : State) : Out :=
  let bs := data.zipIdx.map fun b => (a + b.2, b.1)
  .next (if a < 0x200000 then (if s.apertureOpen a data.length then s.memWrite bs [] else s)
    else if bs.all fun b => (s.tierOf b.1).isSome && (s.unready b.1).isNone then s.memWrite bs [] else s)

/-- BOOTSTAT (R392). -/
def State.bootstat (s : State) : Dword := BitVec.ofNat 64 (s.err * 2 ^ 24 + s.attempts % 256 * 2 ^ 8 + s.stage)
/-- A byte that the host reads in BAR0 of function 0, by its offset (R389, R405, R410): the harbour store while STAGE is WAIT, the mirror of BOOTSTAT, the WAKE registers, the host channel while STAGE is RUN; all else is zero. A read changes nothing. (DEDUCED, log 68) -/
def State.barByte (s : State) (off : Nat) : Byte :=
  if off < 0x200000 then (if s.stage == 1 then s.mem.read off else 0)
  else if off < 0x200008 then BitVec.ofNat 8 (s.bootstat.toNat / 256 ^ (off - 0x200000))
  else if 0x201000 ≤ off && off < 0x201100 then (if off % 8 == 0 && (s.atoll ((off - 0x201000) / 8)).wake then 1 else 0)
  else if 0x210000 ≤ off && off < 0x211000 && s.stage == 3 then s.mem.read (0x1FF000 + (off - 0x210000))
  else 0
def State.barRead (s : State) (off n : Nat) : List Byte := (List.range n).map fun k => s.barByte (off + k)

/-! ### Attestation (R401) -/

/-- Measurement block 3: the fused configuration. -/
def State.fused (s : State) : List Byte :=
  s.hops.flatMap (toLE 1 ·) ++ ([0, 1, 2, 3].map fun k => if Config.slotRevoked k then (1 : Byte) else 0) ++ toLE 8 Config.minSvn
/-- ATMAPa as it reads (R392). -/
def Atoll.atmap (t : Atoll) : Nat := t.retired.toNat * 2 ^ 48 + t.spare * 2 ^ 36 + t.map.toNat
/-- The registers that TDISP locks (R369). -/
def Part.locked (p : Part) : List Byte := [p.cfg, p.hbm, p.far, p.ext, p.s2root].flatMap fun v => toLE 8 v.toNat

/-- The measurement blocks that function f reports. -/
def State.measurements (s : State) (f : Nat) : List Byte :=
  sha512 Config.bootRom ++ s.fwdig.toList.flatMap (fun v => toLE 8 v.toNat) ++ sha512 s.fused
  ++ sha512 (s.atolls.toList.flatMap fun t => toLE 8 t.atmap) ++ (if f == 0 then [] else (s.part (f - 1)).locked)

/-- Slot 0's certificate chain, which ends in the alias certificate, the measurements, and the alias key's signature over the request and both (DESIGN CHOICE, log 15). -/
def spdmAnswer (key : Nat × Nat × Nat) (msg blocks : List Byte) : List Byte :=
  let body := Config.rootChain ++ Config.aliasCert (key.1, key.2.1) ++ blocks
  body ++ rsaSign (key.1, key.2.2) (msg ++ body)
/-- Frebry answers through the mailbox of function 0 or of an enabled partition; the message's first byte names the function (DESIGN CHOICE, log 15). -/
def execSpdmRequest (msg : List Byte) (s : State) : Out :=
  let f := (msg.headD 0).toNat
  .next (if s.stage == 3 && (f == 0 || (f ≤ 8 && (s.part (f - 1)).en)) then
      match s.akey with
      | some k => { s with out := s.out ++ [.spdm (spdmAnswer k msg (s.measurements f))] }
      | none => s
    else s)

end Sys2Proof.Machine
end

