-- ==== Sys2Proof/Machine/System.lean ====
section
/-! DEFINITION. The system registers with their rights, reads and writes (R333 to R336, R363, R364, R367, R373, R392, R402, R407 to R411), and the system instructions (R345 to R350). -/

namespace Sys2Proof.Machine

/-! ### Rights (R333, R334) -/

/-- Read and write right at S and at M, and whether S's is limited to its own partition. -/
structure Right where
  rs : Bool := false
  ws : Bool := false
  rm : Bool := false
  wm : Bool := false
  own : Bool := false
  deriving DecidableEq, Repr

def rightR : Right := { rs := true, rm := true }
def rightRW : Right := { rs := true, ws := true, rm := true, wm := true }
def rightRM : Right := { rs := true, rm := true, wm := true }
def rightM : Right := { rm := true, wm := true }
def rightMW : Right := { wm := true }
def rightW : Right := { ws := true, wm := true }
def Right.owned (r : Right) : Right := { r with own := true }

/-- The harbour core's own registers (R336). -/
def ownRight (n : Nat) : Option Right :=
  match n with
  | 0x000 | 0x001 | 0x004 | 0x005 => some rightRM
  | 0x002 | 0x003 | 0x007 | 0x010 | 0x011 | 0x031 => some rightRW
  | 0x006 | 0x008 | 0x009 | 0x00A => some rightM
  | 0x020 => some rightR
  | 0x029 => some rightW.owned
  | 0x02A | 0x030 | 0x032 => some rightRW.owned
  | n => if 0x021 ≤ n && n ≤ 0x028 then some rightR.owned else none
/-- Bring-up, reset and repair (R392). -/
def bringRight (n : Nat) : Option Right :=
  if n ≤ 0x10E || (0x110 ≤ n && n ≤ 0x11D) || (0x130 ≤ n && n ≤ 0x13D) || (0x170 ≤ n && n ≤ 0x172) || (0x1E0 ≤ n && n ≤ 0x1E7) then some rightR
  else if (0x120 ≤ n && n ≤ 0x12D) || (0x140 ≤ n && n ≤ 0x15F) || n == 0x180 then some rightRM
  else if n == 0x173 then some rightMW
  else none
/-- The launch controllers (R373). -/
def lcRight (k : Nat) : Option Right :=
  match k with
  | 0 | 4 => some rightW.owned
  | 1 | 5 => some rightRW.owned
  | 2 | 3 => some rightR.owned
  | 6 | 7 | 8 => some rightRM
  | k => if 0x10 ≤ k && k ≤ 0x1F then some rightR.owned else none
/-- The partitions (R367). -/
def ptRight (k : Nat) : Option Right :=
  match k with
  | 0 | 1 | 2 | 3 | 4 | 6 => some rightRM.owned
  | 5 | 7 => some rightRW.owned
  | 8 | 9 | 10 | 12 => some rightR.owned
  | 11 => some rightW.owned
  | _ => none
/-- The engines (R363). -/
def engRight (k : Nat) : Option Right :=
  match k with | 0 | 1 => some rightM | 2 => some rightMW | 3 => some { rm := true } | _ => none
/-- The passage ports (R407). -/
def portRight (k : Nat) : Option Right :=
  match k with | 0 => some rightRM | 1 | 2 | 3 | 5 => some rightR | 4 => some rightM | _ => none

/-- The rights of a system register; none where the number is unassigned. -/
def sysRight (n : Nat) : Option Right :=
  if n < 0x100 then ownRight n
  else if n < 0x200 then bringRight n
  else if n < 0x400 then lcRight (n % 0x40)
  else if n < 0x480 then ptRight (n % 16)
  else if 0x500 ≤ n && (n < 0x520 || (0x540 ≤ n && n < 0x550)) then engRight (n % 8)
  else if 0x580 ≤ n && n < 0x585 then some rightRM
  else if 0x800 ≤ n && n < 0x900 then (if n % 8 == 1 || n % 8 == 5 then some rightR else some rightRM)
  else if 0x900 ≤ n && n < 0x9C0 then portRight (n % 16)
  else match n with
    | 0x9C0 | 0x9C2 | 0xA00 | 0xA10 | 0xA20 | 0xA30 | 0xA40 => some rightR
    | 0x9C1 | 0xA02 => some rightMW
    | 0xA01 => some rightRM
    | _ => none

/-- The head record of the fault queue. -/
def State.headRec (s : State) : Option Rec := s.fq.head?.bind fun n => s.recs.find? fun r => r.seq == n && !r.popped

/-- The partition that a register marked own belongs to; of the core window, that of the launch named. (DEDUCED, log 64) -/
def State.sysOwner (s : State) (n : Nat) (wr : Bool) (v : Dword) : Option Nat :=
  if 0x200 ≤ n && n < 0x400 then some ((n - 0x200) / 0x40)
  else if 0x400 ≤ n then some ((n - 0x400) / 16)
  else if n == 0x030 || n == 0x032 then
    (s.launch (fld (if n == 0x030 && wr then v else s.harbour.cwsel) 15 0)).map (·.ptn)
  else if n == 0x02A then none
  else (s.headRec).map (·.ptn)

/-- NOT_READY of a register whose function is not ready: INFO of R340. The registers of readiness and reset themselves always answer. (DEDUCED, log 65) -/
def State.sysUnready (s : State) (n : Nat) : Option Nat :=
  let need (i : Nat) : Option Nat := if s.uncore i then none else some i
  if 0x100 ≤ n && n ≤ 0x10D then need (n - 0x100)
  else if 0x200 ≤ n && n < 0x400 then (let p := s.part ((n - 0x200) / 0x40); if p.mask == 0 then none else need p.home)
  else if 0x500 ≤ n && n < 0x520 then need (8 + (n - 0x500) / 8)
  else if 0x540 ≤ n && n < 0x550 then need (12 + (n - 0x540) / 8)
  else if 0x800 ≤ n && n < 0x900 then need ((n - 0x800) / 32)
  else if 0x900 ≤ n && n < 0x9C0 then need (8 + (n - 0x900) / 48)
  else if 0xA00 ≤ n && n ≤ 0xA02 then (if s.readyBit 12 11 then none else some (5 * 16 + 12))
  else if 0xA10 ≤ n && n ≤ 0xA40 then need (12 + (n - 0xA10) / 32)
  else none

/-- The first three checks of R333. (DEDUCED, log 64) -/
def State.sysCheck (s : State) (n : Nat) (wr : Bool) (v : Dword) : Res :=
  match sysRight n with
  | none => .trap ⟨cIllegalOperand, 0, 0⟩
  | some r =>
    let m := s.harbour.pl == 2
    let may := if wr then (if m then r.wm else r.ws) else (if m then true else r.rs || r.ws)
    let foreign := !m && r.own && match s.sysOwner n wr v with | some p => p != s.harbour.ptn | none => false
    if foreign || (!may && (!wr || r.wm)) then .trap ⟨cPrivilege, 0, 0⟩
    else if !may then .trap ⟨cIllegalOperand, 0, 0⟩
    else .ok
def State.sysReady (s : State) (n : Nat) : Res := match s.sysUnready n with | some i => .trap ⟨cNotReady, 0, i⟩ | none => .ok

/-! ### Reads -/

def bits (l : List (Nat × Nat)) : Dword := BitVec.ofNat 64 ((l.map fun x => x.1 * 2 ^ x.2).sum)
def flag (b : Bool) : Nat := if b then 1 else 0

def State.readOwn (s : State) (n : Nat) : Dword :=
  let h := s.harbour
  match n with
  | 0x000 => h.hstat
  | 0x001 => h.hcause
  | 0x002 => BitVec.ofNat 64 h.epcs
  | 0x003 => BitVec.ofNat 64 h.epca
  | 0x004 => h.hval
  | 0x005 => h.hinfo
  | 0x006 => h.vecm
  | 0x007 => h.vecs
  | 0x008 => h.hdeleg
  | 0x009 => h.scra
  | 0x00A => h.scrb
  | 0x010 => (h.hevent ||| s.asserting).zeroExtend 64
  | 0x011 => h.htcmp
  | 0x020 => BitVec.ofNat 64 s.fq.length
  | 0x02A => BitVec.ofNat 64 h.dispStat
  | 0x030 => h.cwsel
  | 0x031 => h.cwidx
  | 0x032 => s.windowRead
  | n =>
    if 0x021 ≤ n && n ≤ 0x028 then
      match s.headRec with | some r => BitVec.ofNat 64 (ofLE ((r.bytes.drop (8 * (n - 0x021))).take 8)) | none => 0
    else 0

def State.readBring (s : State) (n : Nat) : Dword :=
  if n < 0x10E then BitVec.ofNat 64 (s.cyc (n - 0x100))
  else if n == 0x10E then s.bootstat
  else if n < 0x120 then (s.island (n - 0x110)).ready.zeroExtend 64
  else if n < 0x130 then bits [((s.island (n - 0x120)).rst, 8)]
  else if n < 0x140 then bits [((s.island (n - 0x130)).stale, 16), ((s.island (n - 0x130)).inc, 0)]
  else if n < 0x160 then BitVec.ofNat 64 (s.atoll (n - 0x140)).atmap
  else match n with
    | 0x170 => bits [(s.logLost, 8), (s.log.length, 0)]
    | 0x171 => (s.log.headD (0, 0)).1
    | 0x172 => (s.log.headD (0, 0)).2
    | 0x180 => s.bistctl
    | n => if 0x1E0 ≤ n then vget s.fwdig (n - 0x1E0) 0 else 0

def State.readLc (s : State) (p k : Nat) : Dword :=
  let q := s.part p
  match k with
  | 1 => q.lcarg
  | 2 => q.lcstat
  | 3 => match q.done with | (l, o, st) :: _ => bits [(l, 48), (o, 40), (st, 0)] | [] => 0
  | 5 => q.lcage
  | 6 => q.lcshb
  | 7 => q.lcshs
  | 8 => q.lcremap
  | k =>
    if 0x10 ≤ k then
      let rs := vget q.queues (k - 0x10) []
      bits [(flag (q.holds.getLsbD (k - 0x10)), 31), (rs.length, 16), ((rs.head?.map (·.lid)).getD 0, 0)]
    else 0

def State.readPt (s : State) (p k : Nat) : Dword :=
  let q := s.part p
  match k with
  | 0 => q.cfg
  | 1 => q.hbm
  | 2 => q.far
  | 3 => q.ext
  | 4 => q.s2root
  | 5 => q.s1root
  | 6 => BitVec.ofNat 64 q.tdisp
  | 7 => q.hotsel
  | 8 => BitVec.ofNat 64 (s.hotCounts p).1
  | 9 => BitVec.ofNat 64 (s.hotCounts p).2.1
  | 10 => BitVec.ofNat 64 (s.hotCounts p).2.2
  | 12 => BitVec.ofNat 64 q.hotlost
  | _ => 0

/-- The engine whose block holds a number (R363). -/
def engineOf (n : Nat) : Nat := if n < 0x520 then (n - 0x500) / 8 else 4 + (n - 0x540) / 8
def State.readEng (s : State) (n : Nat) : Dword :=
  let e := s.engine (engineOf n)
  match n % 8 with
  | 0 => e.a
  | 1 => e.b
  | 3 => bits [(e.poisoned, 32), (e.result, 16), (e.tag, 8), (e.phase, 0)]
  | _ => 0

def State.readAtoll (s : State) (a k : Nat) : Dword :=
  let t := s.atoll a
  match k with
  | 0 => bits [(flag t.arrivalClose, 9), (flag t.launchHold, 8)]
  | 1 => bits [(Nat.min 65535 (s.pendingArrivals a), 16), (flag t.rej, 10), (flag t.retainOk, 9), (flag t.idleAll, 8), (t.state, 0)]
  | 2 => bits [(t.cur, 16), (flag t.locked, 8), (t.mult, 0)]
  | 3 => bits [(flag t.good, 13), (flag t.en, 12), (t.vout, 0)]
  | 4 => BitVec.ofNat 64 t.retbase
  | 5 => bits [(t.granules, 16), (t.result, 0)]
  | 6 => bits [(t.boost, 16), (t.duty, 0)]
  | _ => bits [(flag t.wake, 0)]

def State.readPort (s : State) (n k : Nat) : Dword :=
  let p := s.port n
  match k with
  | 1 => bits [(p.lanes, 8), (p.link, 0)]
  | 2 => BitVec.ofNat 64 p.lp
  | 3 => BitVec.ofNat 64 p.peer
  | 4 => p.inj
  | 5 => BitVec.ofNat 64 p.retry
  | _ => 0

/-- A register's value; one that is only written reads zero. -/
def State.sysRead (s : State) (n : Nat) : Dword :=
  if n < 0x100 then s.readOwn n
  else if n < 0x200 then s.readBring n
  else if n < 0x400 then s.readLc ((n - 0x200) / 0x40) (n % 0x40)
  else if n < 0x480 then s.readPt ((n - 0x400) / 16) (n % 16)
  else if n < 0x550 then s.readEng n
  else if n == 0x580 then BitVec.ofNat 64 s.mscSteps
  else if n < 0x585 then vget s.xclrng (n - 0x581) 0
  else if n < 0x900 then s.readAtoll ((n - 0x800) / 8) (n % 8)
  else if n < 0x9C0 then s.readPort ((n - 0x900) / 16) (n % 16)
  else match n with
    | 0x9C0 => BitVec.ofNat 64 s.tsc
    | 0x9C2 => bits [(flag s.tsdone, 0)]
    | 0xA00 => s.hlstat
    | 0xA01 => s.hdbin
    | 0xA02 => 0
    | n => vget s.cxl ((n - 0xA10) / 16) 0

/-! ### Writes -/

def Out.state (s : State) (o : Out) : State := match o with | .next t => t | _ => s

/-- Both PC fields of a vector register, their low two bits discarded (R336). -/
def vecMask : Dword := 0x0007FFFC0007FFFC

/-- Registers of the harbour core that only hold what is written. -/
def Harbour.store (h : Harbour) (n : Nat) (v : Dword) : Harbour :=
  match n with
  | 0x000 => if fld v 1 0 == 0 || fld v 1 0 == 3 then h else { h with hstat := v &&& 0x71F }
  | 0x001 => { h with hcause := v &&& 0x1FF }
  | 0x002 => { h with epcs := fld v 18 2 * 4 }
  | 0x003 => { h with epca := fld v 18 2 * 4 }
  | 0x004 => { h with hval := v }
  | 0x005 => { h with hinfo := v }
  | 0x006 => { h with vecm := v &&& vecMask }
  | 0x007 => { h with vecs := v &&& vecMask }
  | 0x008 => { h with hdeleg := v }
  | 0x009 => { h with scra := v }
  | 0x00A => { h with scrb := v }
  | 0x011 => { h with htcmp := v }
  | 0x030 => { h with cwsel := v &&& 0xFFFFFFFF }
  | 0x031 => { h with cwidx := v &&& 0xFFFF }
  | _ => h

/-- Registers of a launch controller and a partition that only hold what is written (R373, R367). -/
def Part.storeLc (q : Part) (k : Nat) (v : Dword) : Part :=
  match k with
  | 1 => { q with lcarg := v &&& 0x0000FFFFFFFFFFC0 }
  | 5 => { q with lcage := v &&& 0xFFFFFFFF }
  | 6 => { q with lcshb := v &&& 0x0000FFFFFFFF0000 }
  | 7 => { q with lcshs := v &&& 0xFFFF }
  | 8 => { q with lcremap := v &&& 0x0000FFFFFFF00000 }
  | _ => q
/-- DEDUCED, log 61. -/
def Part.storePt (q : Part) (k : Nat) (v : Dword) : Part :=
  match k with
  | 5 => { q with s1root := v &&& 0x0000FFFFFFFFE000 }
  | 7 => { q with hotsel := v &&& 0xFFFFFF }
  | _ => q
def Engine.store (e : Engine) (k : Nat) (v : Dword) : Engine :=
  match k with
  | 0 => { e with a := v &&& 0x0007FFFFFFFF0003 }
  | 1 => { e with b := v &&& 0x0000FFFFFFFF0000 }
  | _ => e
/-- LDOCFG and DROOP (R402): a VOUT_MV out of range is discarded. -/
def Atoll.store (t : Atoll) (k : Nat) (v : Dword) : Atoll :=
  match k with
  | 3 => if 550 ≤ fld v 9 0 && fld v 9 0 ≤ 950 then { t with vout := fld v 9 0 } else { t with rej := true }
  | 6 => { t with boost := fld v 31 16, duty := fld v 3 0 }
  | _ => t
/-- MSCCFG and XCLRNG (R364): discarded while any partition is enabled; STEPS above 32 are. (DEDUCED, log 63) -/
def State.storeMsc (s : State) (n : Nat) (v : Dword) : State :=
  if s.parts.toList.any (·.en) then s
  else if n == 0x580 then (if fld v 5 0 ≤ 32 then { s with mscSteps := fld v 5 0 } else s)
  else { s with xclrng := vset s.xclrng (n - 0x581) v }

/-- A write of a register that has no behaviour of its own (R333); a field that the hardware updates in the same cycle keeps that (R335). -/
def State.regStore (s : State) (n : Nat) (v : Dword) : State :=
  if n < 0x100 then { s with harbour := s.harbour.store n v }
  else if n == 0x180 then { s with bistctl := v &&& 0xFFFF0001 }
  else if 0x200 ≤ n && n < 0x400 then s.modPart ((n - 0x200) / 0x40) fun q => q.storeLc (n % 0x40) v
  else if 0x400 ≤ n && n < 0x480 then s.modPart ((n - 0x400) / 16) fun q => q.storePt (n % 16) v
  else if 0x500 ≤ n && n < 0x550 then s.modEngine (engineOf n) fun e => e.store (n % 8) v
  else if 0x580 ≤ n && n < 0x585 then s.storeMsc n v
  else if 0x800 ≤ n && n < 0x900 then s.modAtoll ((n - 0x800) / 8) fun t => { t.store (n % 8) v with boost := if s.harbour.hwNow.contains n then t.boost else (t.store (n % 8) v).boost }
  else if 0x900 ≤ n && n < 0x9C0 && n % 16 == 4 then s.modPort ((n - 0x900) / 16) fun p => { p with inj := v &&& 0x0000FFFFFFFF0701 }
  else s
def execRegisterWrite (n : Nat) (v : Dword) (s : State) : Out := .next (s.regStore n v)

/-- LCCMD (R373, R374). -/
def State.lcCommand (s : State) (p : Nat) (v : Dword) : State :=
  let s := s.modPart p fun q => { q with lccmd := v &&& 0xFFFF00FF }
  Out.state s (match fld v 3 0 with
    | 1 => execSubmit p s
    | 2 => execPreempt p s
    | 3 => execAbandon p s
    | 4 => execRerun p s
    | 5 => execQhold p s
    | 6 => execQrun p s
    | _ => .next (s.setLcstat p 7))

/-- A write of TSALIGN on this part reaches the peer of every trained port (R22, R409). -/
def State.tsalignWrite (s : State) (v : Dword) : State :=
  let t := Out.state s (execTsalign v s)
  let ps := if s.tsalign.isSome then [] else (List.range 12).filter fun k => (s.port k).link == 2
  { t with out := t.out ++ ps.map fun k => Output.align k v }

/-- A write of a register with a behaviour of its own below 0x400. -/
def State.writeLow (s : State) (n : Nat) (v : Dword) : Out :=
  if n == 0x010 then execHeventClear v s
  else if n == 0x029 then execFqpop s
  else if n == 0x02A then
    let q := fld v 63 48
    match fld v 2 0 with
    | 0 => execDispResume q s
    | 1 => execDispSkip q s
    | 2 => execDispHook q s
    | 3 => execDispPreempt q s
    | 4 => execDispKill q s
    | k => .next (s.dispose q k)
  else if n == 0x032 then execCwdata (some v) s
  else if 0x120 ≤ n && n < 0x12E then
    match fld v 1 0 with
    | 1 => execCoreReset (n - 0x120) s
    | 2 => execIslandReset (n - 0x120) s
    | _ => .next s
  else if 0x140 ≤ n && n < 0x160 then execAtmapRetire (n - 0x140) (fld v 56 48) s
  else if n == 0x173 then execLogpop s
  else if 0x200 ≤ n && n % 0x40 == 0 then .next (s.lcCommand ((n - 0x200) / 0x40) v)
  else if 0x200 ≤ n && n % 0x40 == 4 then execLcdpop ((n - 0x200) / 0x40) s
  else execRegisterWrite n v s

/-- One from 0x400 on. -/
def State.writeHigh (s : State) (n : Nat) (v : Dword) : Out :=
  let p := (n - 0x400) / 16
  if n < 0x480 && n % 16 < 5 then execPtcfgWrite n v s
  else if n < 0x480 && n % 16 == 6 then
    match fld v 10 8 with
    | 0 => .next s
    | 1 => execTdispLock p s
    | 2 => execTdispStart p s
    | 3 => execTdispStop p s
    | _ => .next (s.ptRej p)
  else if n < 0x480 && n % 16 == 11 then execHotrel p (fld v 15 0) s
  else if 0x500 ≤ n && n < 0x550 && n % 8 == 2 then
    match fld v 1 0 with
    | 1 => execEngStart (engineOf n) (fld v 15 8) s
    | 2 => execEngCancel (engineOf n) s
    | _ => .next s
  else if 0x800 ≤ n && n < 0x900 then
    let a := (n - 0x800) / 8
    match n % 8 with
    | 0 => execAtctlBits a v s
    | 2 => execFllcfgWrite a v s
    | 4 => execRetbaseWrite a v s
    | 7 => if v.getLsbD 0 then execWake a s else .next s
    | _ => execRegisterWrite n v s
  else if 0x900 ≤ n && n < 0x9C0 && n % 16 == 0 then
    match fld v 1 0 with
    | 1 => execPassageTrain ((n - 0x900) / 16) s
    | 2 => execPassageTakeDown ((n - 0x900) / 16) s
    | _ => .next s
  else match n with
    | 0x9C1 => .next (s.tsalignWrite v)
    | 0xA01 => .next (if s.harbour.hwNow.contains n then s else s.doorbell v)
    | 0xA02 => execHdbout v s
    | _ => execRegisterWrite n v s
def State.sysWrite (s : State) (n : Nat) (v : Dword) : State := Out.state s (if n < 0x400 then s.writeLow n v else s.writeHigh n v)

/-! ### SYSR and SYSW (R345) -/

def sysNum (p : PR) (s : State) : Nat := (if p.i then p.imm.toNat else (s.g p.b).toNat) % 2 ^ 16
/-- What the core window and the fault queue ask of an access (R336, R343). -/
def State.sysTests (s : State) (n : Nat) (wr : Bool) : Res :=
  if n == 0x032 then Res.need (s.windowCore.isSome && s.windowIndexOk wr) cIllegalOperand
  else if n == 0x029 && wr then Res.need (!s.fq.isEmpty) cIllegalOperand
  else .ok

/-- Registers of R336 answer in 2 cycles; of the others the time is open (DESIGN CHOICE, log 4). (DESIGN CHOICE, log 42) -/
def planSysr (p : PR) (s : State) : Plan :=
  let n := sysNum p s
  let t := if n < 0x100 then 2 else Config.freeNat s.free
  let may := (s.sysCheck n false 0).and (s.sysTests n false)
  { pre := if p.i then may else .ok, rd3 := if p.i then [] else [.g p.b.toNat], c3 := may,
    wr := [(.g p.d.toNat, t)], c5 := Res.ready (n != 0x032 || s.windowReady false) 1 0, c6 := s.sysReady n, acq := true, time := t,
    eff := fun s' => s'.post t [.g p.d.toNat (s.sysRead n) false] }
def execSysr (h : Head) (p : PR) (s : State) : Out := .next (issue (.sysr h p) (planSysr p s) s)

/-- A handle written through the window is walked again; a failed walk leaves it invalid and raises (R343). -/
def State.windowFault (s : State) (n : Nat) : Option TrapInfo :=
  if n == 0x032 then (match s.windowWalk with | some (.trap t) => some t | _ => none) else none

def syswPlan (p : PR) (s : State) : Plan :=
  let n := sysNum p s
  let v := s.g p.a
  let may := (s.sysCheck n true v).and (s.sysTests n true)
  { pre := if p.i && n != 0x030 then may else .ok, rd3 := .g p.a.toNat :: (if p.i then [] else [.g p.b.toNat]), c3 := may,
    c5 := Res.ready (n != 0x032 || s.windowReady true) 1 0,
    c6 := (s.sysReady n).and (match s.windowFault n with | some t => .trap t | none => .ok), rel := true, time := 1,
    eff := fun s' => (s'.settle .harbour 4).sysWrite n v }
def execSysw (h : Head) (p : PR) (s : State) : Out :=
  let pl := syswPlan p s
  let s0 := match s.windowFault (sysNum p s) with
    | some t => if s.verdict (.sysw h p) pl == .trap t then s.windowWrite (s.g p.a) else s
    | none => s
  .next (issue (.sysw h p) pl s0)

/-! ### ERET and WFI (R346, R347) -/

/-- Every issued instruction of the harbour core has completed, the Times without a result among them, and its A stream is parked. -/
def State.harbourIdle (s : State) : Bool :=
  (s.stream .harbour .a).parked && s.harbour.cpu.pend.isEmpty && s.harbour.cpu.walks.isEmpty
  && [Strm.s, .a].all fun q => (s.stream .harbour q).doneMax < s.time

def planEret (s : State) : Plan :=
  let l := fld s.harbour.hstat 3 2
  { c3 := Res.need (s.harbour.exl && (l == 1 || l == 2)) cIllegalOperand, c5 := Res.ready s.harbourIdle 1 0,
    time := 1, eff := State.eret, ctl := .stay }
def execEret (h : Head) (p : PR) (s : State) : Out := .next (issue (.eret h p) (planEret s) s)

def planWfi (p : PR) (s : State) : Plan :=
  let m := (s.harbour.hevent ||| s.asserting) &&& (p.imm.truncate 8)
  { wr := [(.g p.d.toNat, 1)], c5 := Res.ready (m != 0) 1 0, time := 1,
    eff := fun s => s.post 1 [.g p.d.toNat (m.zeroExtend 64) false] }
def execWfi (h : Head) (p : PR) (s : State) : Out := .next (issue (.wfi h p) (planWfi p s) s)

/-! ### TLBI and HINVA (R348, R349, R358) -/

/-- The S stream issues nothing until an open edge (DESIGN CHOICE, log 4). (DESIGN CHOICE, log 66) -/
def State.holdS (s : State) (t : Nat) : State := { s with harbour := { s.harbour with hold := s.time + t } }

/-- Walker-cache entries that a TLBI drops: for a virtual address all that its stage-1 leaf gave, for a guest-physical one all that some stage-2 leaf holding it gave. A walk in progress installs nothing. (DEDUCED, log 37) -/
def tlbiDrops (fn ptn a : Nat) (w : WalkEntry) : Bool :=
  match fn with
  | 0 => true
  | 1 => w.ptn == ptn && w.page.base / 2 ^ w.used.lg1 == a / 2 ^ w.used.lg1
  | 3 => w.ptn == ptn && w.used.gpas.any fun g => g.1 / 2 ^ g.2 == a / 2 ^ g.2
  | _ => w.ptn == ptn
def Cpu.tlbi (u : Cpu) (fn ptn a : Nat) : Cpu :=
  { u with wcache := u.wcache.filter (!tlbiDrops fn ptn a ·), walks := u.walks.map fun w => { w with keep := false } }

def planTlbi (h : Head) (p : PR) (s : State) : Plan :=
  let fn := h.fn.toNat
  let ptn := (s.g p.b).toNat % 8
  let a := (s.g p.a).toNat
  let t := Config.freeNat s.free
  { pre := Res.need (s.harbour.pl == 2 || fn == 1 || fn == 2) cPrivilege, rd3 := [.g p.b.toNat], rd := [.g p.a.toNat], rel := true, time := 1,
    c3 := Res.need (s.harbour.pl == 2 || ((fn == 1 || fn == 2) && ptn == s.harbour.ptn)) cPrivilege,
    eff := fun s => ((s.settle .harbour 4).dropCaches (·.tlbi fn ptn a)).holdS t }
def execTlbi (h : Head) (p : PR) (s : State) : Out := .next (issue (.tlbi h p) (planTlbi h p s) s)

def Page.holds (q : Page) (v : Nat) : Bool := q.present && q.base ≤ v && v < q.base + 2 ^ q.lg
def Page.maps (q : Page) (a : Nat) : Bool := q.present && q.frame ≤ a && a < q.frame + 2 ^ q.lg
/-- Handles that a HINVA form names. -/
def hinvaHits (fn a : Nat) (h : Handle) : Bool :=
  h.valid && match fn with | 0 => h.pg.holds a || h.cy.holds a | 1 => h.pg.maps a || h.cy.maps a | _ => true

/-- Handles cleared, with their taint, and how many. -/
def clearHandles (fn a : Nat) (hs : Vector Handle 32) (ts : Vector Bool 32) : Nat × Vector Handle 32 × Vector Bool 32 :=
  ((hs.toList.filter (hinvaHits fn a)).length, hs.map fun h => if hinvaHits fn a h then { h with valid := false } else h,
   Vector.ofFn fun i : Fin 32 => ts[i] && !hinvaHits fn a hs[i])

/-- One core's handles, those saved for a running hook among them; what the harbour core must wait for. -/
def State.hinvaCore (s : State) (fn a : Nat) (c : CoreId) : Nat × State :=
  let k := s.core c
  let (n, h, t) := clearHandles fn a k.cpu.h k.cpu.ht
  let (m, hook) := match k.hook with
    | some v => let (m, h, t) := clearHandles fn a v.h v.ht; (m, some { v with h := h, ht := t })
    | none => (0, none)
  let late := k.copies.filter fun e => hinvaHits fn a e.sh || hinvaHits fn a e.dh
  let drain := (if n + m == 0 then [] else [(c, s.now (.core c), false)]) ++ late.map fun e => (c, e.issue, true)
  let s := s.modCore c fun k => { k with cpu := { k.cpu with h := h, ht := t }, hook := hook }
  (n + m, { s with harbour := { s.harbour with drain := s.harbour.drain ++ drain } })
/-- DESIGN CHOICE, log 66. -/
def State.hinva (s : State) (fn a ptn : Nat) : Nat × State :=
  (s.launches.filter (·.ptn == ptn)).foldl (fun (x : Nat × State) l =>
    l.members.foldl (fun (x : Nat × State) c => let (n, s) := x.2.hinvaCore fn a c; (x.1 + n, s)) x) (0, s)

def planHinva (h : Head) (p : PR) (s : State) : Plan :=
  let ptn := (s.g p.b).toNat % 8
  { rd3 := [.g p.b.toNat], rd := [.g p.a.toNat], wr := [(.g p.d.toNat, 1)], time := 1,
    c3 := Res.need (s.harbour.pl == 2 || ptn == s.harbour.ptn) cPrivilege,
    eff := fun s' => let (n, t) := s'.hinva h.fn.toNat (s.g p.a).toNat ptn; t.post 1 [.g p.d.toNat (BitVec.ofNat 64 n) false] }
def execHinva (h : Head) (p : PR) (s : State) : Out := .next (issue (.hinva h p) (planHinva h p s) s)

/-! ### CTXSV and CTXLD (R350) -/

/-- Status and count as both leave them in g[D]; they hold the S stream to an open edge (DESIGN CHOICE, log 4). -/
def State.ctxResult (s : State) (d t st v : Nat) : State := (s.holdS t).post t [.g d (BitVec.ofNat 64 (st * 2 ^ 56 + v)) false]

def planCtxsv (p : PR) (s : State) : Plan :=
  let lid := (s.g p.a).toNat % 2 ^ 16
  let area := (s.g p.b).toNat
  let t := Config.freeNat s.free
  { rd := [.g p.a.toNat, .g p.b.toNat], wr := [(.g p.d.toNat, t)], time := t,
    eff := fun s =>
      match s.saveStatus lid area, s.launch lid with
      | 0, some l => (s.contextSave lid area).ctxResult p.d.toNat t 0 (saveSize (l.w * l.hh))
      | st, _ => s.ctxResult p.d.toNat t st 0 }
def execCtxsv (h : Head) (p : PR) (s : State) : Out := .next (issue (.ctxsv h p) (planCtxsv p s) s)

def planCtxld (p : PR) (s : State) : Plan :=
  let area := (s.g p.a).toNat
  let x0 := fld (s.g p.b) 4 0
  let y0 := fld (s.g p.b) 10 8
  let t := Config.freeNat s.free
  { rd := [.g p.a.toNat, .g p.b.toNat], wr := [(.g p.d.toNat, t)], c5b := Res.ready (!s.loadBarred area) 1 0, time := t,
    eff := fun s =>
      match s.loadStatus area x0 y0 with
      | 0 =>
        let l := s.savedLaunch area x0 y0
        let (n, u) := s.contextLoad area x0 y0
        (u.ctxResult p.d.toNat t 0 n).post t [.forward l.ptn (s.mem.le (area + 8) 2) area n]
      | st => s.ctxResult p.d.toNat t st 0 }
def execCtxld (h : Head) (p : PR) (s : State) : Out := .next (issue (.ctxld h p) (planCtxld p s) s)

end Sys2Proof.Machine
end

