-- ==== Sys2Proof/Machine/Dispatch.lean ====
section
/-! DEFINITION. One arm per constructor of Instr: each instruction and each event of the opcode table to its meaning. -/

namespace Sys2Proof.Machine

def exec (i : Instr) (s : State) : Host.Outcome State Fault Refusal :=
  match i with
  | .nop h p => Sys2Proof.Machine.execNop h p s
  | .ill h op p => Sys2Proof.Machine.execIll h op p s
  | .add h p => Sys2Proof.Machine.execAdd h p s
  | .sub h p => Sys2Proof.Machine.execSub h p s
  | .mul h p => Sys2Proof.Machine.execMul h p s
  | .mulh h p => Sys2Proof.Machine.execMulh h p s
  | .div h p => Sys2Proof.Machine.execDiv h p s
  | .rem h p => Sys2Proof.Machine.execRem h p s
  | .and h p => Sys2Proof.Machine.execAnd h p s
  | .or h p => Sys2Proof.Machine.execOr h p s
  | .xor h p => Sys2Proof.Machine.execXor h p s
  | .shl h p => Sys2Proof.Machine.execShl h p s
  | .shr h p => Sys2Proof.Machine.execShr h p s
  | .sar h p => Sys2Proof.Machine.execSar h p s
  | .min h p => Sys2Proof.Machine.execMin h p s
  | .max h p => Sys2Proof.Machine.execMax h p s
  | .cmp h p => Sys2Proof.Machine.execCmp h p s
  | .sel h p => Sys2Proof.Machine.execSel h p s
  | .li h p => Sys2Proof.Machine.execLi h p s
  | .liZ h p => Sys2Proof.Machine.execLiZ h p s
  | .lih h p => Sys2Proof.Machine.execLih h p s
  | .plog h p => Sys2Proof.Machine.execPlog h p s
  | .popc h p => Sys2Proof.Machine.execPopc h p s
  | .clz h p => Sys2Proof.Machine.execClz h p s
  | .br h p => Sys2Proof.Machine.execBr h p s
  | .jmp h p => Sys2Proof.Machine.execJmp h p s
  | .call h p => Sys2Proof.Machine.execCall h p s
  | .callR h p => Sys2Proof.Machine.execCallR h p s
  | .ret h p => Sys2Proof.Machine.execRet h p s
  | .loop h p => Sys2Proof.Machine.execLoop h p s
  | .endS h p => Sys2Proof.Machine.execEndS h p s
  | .brk h p => Sys2Proof.Machine.execBrk h p s
  | .trap h p => Sys2Proof.Machine.execTrap h p s
  | .talign h p => Sys2Proof.Machine.execTalign h p s
  | .tlwait h p => Sys2Proof.Machine.execTlwait h p s
  | .tlread h p => Sys2Proof.Machine.execTlread h p s
  | .cpy h p => Sys2Proof.Machine.execCpy h p s
  | .cpyAbs h p => Sys2Proof.Machine.execCpyAbs h p s
  | .cpyx h p => Sys2Proof.Machine.execCpyx h p s
  | .cpyxAbs h p => Sys2Proof.Machine.execCpyxAbs h p s
  | .roweSmax h p => Sys2Proof.Machine.execRoweSmax h p s
  | .roweRms h p => Sys2Proof.Machine.execRoweRms h p s
  | .ferryArr h p => Sys2Proof.Machine.execFerryArr h p s
  | .ferryWait h p => Sys2Proof.Machine.execFerryWait h p s
  | .ferryArrw h p => Sys2Proof.Machine.execFerryArrw h p s
  | .domq h p => Sys2Proof.Machine.execDomq h p s
  | .stset h p => Sys2Proof.Machine.execStset h p s
  | .stget h p => Sys2Proof.Machine.execStget h p s
  | .ststep h p => Sys2Proof.Machine.execStstep h p s
  | .qconf h p => Sys2Proof.Machine.execQconf h p s
  | .qconfRel h p => Sys2Proof.Machine.execQconfRel h p s
  | .rconf h p => Sys2Proof.Machine.execRconf h p s
  | .sysr h p => Sys2Proof.Machine.execSysr h p s
  | .sysw h p => Sys2Proof.Machine.execSysw h p s
  | .eret h p => Sys2Proof.Machine.execEret h p s
  | .wfi h p => Sys2Proof.Machine.execWfi h p s
  | .tlbi h p => Sys2Proof.Machine.execTlbi h p s
  | .hinva h p => Sys2Proof.Machine.execHinva h p s
  | .ctxsv h p => Sys2Proof.Machine.execCtxsv h p s
  | .ctxld h p => Sys2Proof.Machine.execCtxld h p s
  | .xlat h p => Sys2Proof.Machine.execXlat h p s
  | .hinv h p => Sys2Proof.Machine.execHinv h p s
  | .hinvAll h p => Sys2Proof.Machine.execHinvAll h p s
  | .hqry h p => Sys2Proof.Machine.execHqry h p s
  | .ld h p => Sys2Proof.Machine.execLd h p s
  | .st h p => Sys2Proof.Machine.execSt h p s
  | .lld h p => Sys2Proof.Machine.execLld h p s
  | .lldS h p => Sys2Proof.Machine.execLldS h p s
  | .lst h p => Sys2Proof.Machine.execLst h p s
  | .lstS h p => Sys2Proof.Machine.execLstS h p s
  | .tld h p => Sys2Proof.Machine.execTld h p s
  | .tst h p => Sys2Proof.Machine.execTst h p s
  | .gath h p => Sys2Proof.Machine.execGath h p s
  | .scat h p => Sys2Proof.Machine.execScat h p s
  | .ldsw h p => Sys2Proof.Machine.execLdsw h p s
  | .ldswH h p => Sys2Proof.Machine.execLdswH h p s
  | .stsw h p => Sys2Proof.Machine.execStsw h p s
  | .aadd h p => Sys2Proof.Machine.execAadd h p s
  | .aand h p => Sys2Proof.Machine.execAand h p s
  | .aor h p => Sys2Proof.Machine.execAor h p s
  | .axor h p => Sys2Proof.Machine.execAxor h p s
  | .amin h p => Sys2Proof.Machine.execAmin h p s
  | .amax h p => Sys2Proof.Machine.execAmax h p s
  | .aswp h p => Sys2Proof.Machine.execAswp h p s
  | .acas h p => Sys2Proof.Machine.execAcas h p s
  | .aqadd h p => Sys2Proof.Machine.execAqadd h p s
  | .fence h p => Sys2Proof.Machine.execFence h p s
  | .qpush h p => Sys2Proof.Machine.execQpush h p s
  | .qpop h p => Sys2Proof.Machine.execQpop h p s
  | .larm h p => Sys2Proof.Machine.execLarm h p s
  | .larmG h p => Sys2Proof.Machine.execLarmG h p s
  | .lpoll h p => Sys2Proof.Machine.execLpoll h p s
  | .lwait h p => Sys2Proof.Machine.execLwait h p s
  | .prefX h p => Sys2Proof.Machine.execPrefX h p s
  | .prefM h p => Sys2Proof.Machine.execPrefM h p s
  | .echk h p => Sys2Proof.Machine.execEchk h p s
  | .echkOff h p => Sys2Proof.Machine.execEchkOff h p s
  | .vadd h p => Sys2Proof.Machine.execVadd h p s
  | .vsub h p => Sys2Proof.Machine.execVsub h p s
  | .vmul h p => Sys2Proof.Machine.execVmul h p s
  | .vfma h p => Sys2Proof.Machine.execVfma h p s
  | .vmin h p => Sys2Proof.Machine.execVmin h p s
  | .vmax h p => Sys2Proof.Machine.execVmax h p s
  | .vabs h p => Sys2Proof.Machine.execVabs h p s
  | .vneg h p => Sys2Proof.Machine.execVneg h p s
  | .vand h p => Sys2Proof.Machine.execVand h p s
  | .vor h p => Sys2Proof.Machine.execVor h p s
  | .vxor h p => Sys2Proof.Machine.execVxor h p s
  | .vshl h p => Sys2Proof.Machine.execVshl h p s
  | .vshr h p => Sys2Proof.Machine.execVshr h p s
  | .vcmp h p => Sys2Proof.Machine.execVcmp h p s
  | .vsel h p => Sys2Proof.Machine.execVsel h p s
  | .vmov h p => Sys2Proof.Machine.execVmov h p s
  | .vfillK h p => Sys2Proof.Machine.execVfillK h p s
  | .vfillIota h p => Sys2Proof.Machine.execVfillIota h p s
  | .vfillFc h p => Sys2Proof.Machine.execVfillFc h p s
  | .vcvt h p => Sys2Proof.Machine.execVcvt h p s
  | .vrcp h p => Sys2Proof.Machine.execVrcp h p s
  | .vrsq h p => Sys2Proof.Machine.execVrsq h p s
  | .vnr h p => Sys2Proof.Machine.execVnr h p s
  | .vexp2 h p => Sys2Proof.Machine.execVexp2 h p s
  | .vlog2 h p => Sys2Proof.Machine.execVlog2 h p s
  | .vtanh h p => Sys2Proof.Machine.execVtanh h p s
  | .vred h p => Sys2Proof.Machine.execVred h p s
  | .vscan h p => Sys2Proof.Machine.execVscan h p s
  | .vdot h p => Sys2Proof.Machine.execVdot h p s
  | .vtrn h p => Sys2Proof.Machine.execVtrn h p s
  | .vperm h p => Sys2Proof.Machine.execVperm h p s
  | .vamax h p => Sys2Proof.Machine.execVamax h p s
  | .vqnt h p => Sys2Proof.Machine.execVqnt h p s
  | .vdqn h p => Sys2Proof.Machine.execVdqn h p s
  | .cwadd h p => Sys2Proof.Machine.execCwadd h p s
  | .cwsub h p => Sys2Proof.Machine.execCwsub h p s
  | .cwsum h p => Sys2Proof.Machine.execCwsum h p s
  | .skey h p => Sys2Proof.Machine.execSkey h p s
  | .sort h p => Sys2Proof.Machine.execSort h p s
  | .sortc h p => Sys2Proof.Machine.execSortc h p s
  | .sortcLd h p => Sys2Proof.Machine.execSortcLd h p s
  | .sortu h p => Sys2Proof.Machine.execSortu h p s
  | .sortuDump h p => Sys2Proof.Machine.execSortuDump h p s
  | .smrg h p => Sys2Proof.Machine.execSmrg h p s
  | .mzero h p => Sys2Proof.Machine.execMzero h p s
  | .mma h p => Sys2Proof.Machine.execMma h p s
  | .mmah h p => Sys2Proof.Machine.execMmah h p s
  | .mmat h p => Sys2Proof.Machine.execMmat h p s
  | .mma16 h p => Sys2Proof.Machine.execMma16 h p s
  | .mmas h p => Sys2Proof.Machine.execMmas h p s
  | .mq4 h p => Sys2Proof.Machine.execMq4 h p s
  | .mdrn h p => Sys2Proof.Machine.execMdrn h p s
  | .mlda h p => Sys2Proof.Machine.execMlda h p s
  | .mrpop h p => Sys2Proof.Machine.execMrpop h p s
  | .resultLands x k => Sys2Proof.Machine.execResultLands x k s
  | .accumulatorWriteLands c k => Sys2Proof.Machine.execAccumulatorWriteLands c k s
  | .repetitionEnd x q => Sys2Proof.Machine.execRepetitionEnd x q s
  | .sectionRetire x q => Sys2Proof.Machine.execSectionRetire x q s
  | .sectionRunPast x q => Sys2Proof.Machine.execSectionRunPast x q s
  | .kernelComplete lid => Sys2Proof.Machine.execKernelComplete lid s
  | .copyStart c k => Sys2Proof.Machine.execCopyStart c k s
  | .copyArrival a => Sys2Proof.Machine.execCopyArrival a s
  | .copyLanding c k => Sys2Proof.Machine.execCopyLanding c k s
  | .deliveryRefused c k => Sys2Proof.Machine.execDeliveryRefused c k s
  | .memberArrival c l => Sys2Proof.Machine.execMemberArrival c l s
  | .ferryRelease lid l inst => Sys2Proof.Machine.execFerryRelease lid l inst s
  | .memberResume c l => Sys2Proof.Machine.execMemberResume c l s
  | .freezeStopPoint c => Sys2Proof.Machine.execFreezeStopPoint c s
  | .thaw lid => Sys2Proof.Machine.execThaw lid s
  | .fabricWaitCountDone lid => Sys2Proof.Machine.execFabricWaitCountDone lid s
  | .walkComplete x => Sys2Proof.Machine.execWalkComplete x s
  | .pulseSwallow lid => Sys2Proof.Machine.execPulseSwallow lid s
  | .frequencyRetarget lid => Sys2Proof.Machine.execFrequencyRetarget lid s
  | .loopLocked lid => Sys2Proof.Machine.execLoopLocked lid s
  | .talignApply => Sys2Proof.Machine.execTalignApply s
  | .faultRecordPost => Sys2Proof.Machine.execFaultRecordPost s
  | .harbourTrap q t => Sys2Proof.Machine.execHarbourTrap q t s
  | .dispResume seq => Sys2Proof.Machine.execDispResume seq s
  | .dispSkip seq => Sys2Proof.Machine.execDispSkip seq s
  | .dispHook seq => Sys2Proof.Machine.execDispHook seq s
  | .dispPreempt seq => Sys2Proof.Machine.execDispPreempt seq s
  | .dispKill seq => Sys2Proof.Machine.execDispKill seq s
  | .hookEnd c => Sys2Proof.Machine.execHookEnd c s
  | .hookLimitExpire c => Sys2Proof.Machine.execHookLimitExpire c s
  | .fqpop => Sys2Proof.Machine.execFqpop s
  | .heventClear v => Sys2Proof.Machine.execHeventClear v s
  | .cwdata w => Sys2Proof.Machine.execCwdata w s
  | .submit p => Sys2Proof.Machine.execSubmit p s
  | .preempt p => Sys2Proof.Machine.execPreempt p s
  | .abandon p => Sys2Proof.Machine.execAbandon p s
  | .rerun p => Sys2Proof.Machine.execRerun p s
  | .qhold p => Sys2Proof.Machine.execQhold p s
  | .qrun p => Sys2Proof.Machine.execQrun p s
  | .lcdpop p => Sys2Proof.Machine.execLcdpop p s
  | .launchStart p => Sys2Proof.Machine.execLaunchStart p s
  | .preload p => Sys2Proof.Machine.execPreload p s
  | .budgetExpired lid => Sys2Proof.Machine.execBudgetExpired lid s
  | .lateArrival a => Sys2Proof.Machine.execLateArrival a s
  | .staleDrop a => Sys2Proof.Machine.execStaleDrop a s
  | .engStart e op => Sys2Proof.Machine.execEngStart e op s
  | .engCancel e => Sys2Proof.Machine.execEngCancel e s
  | .engCopyBegin e => Sys2Proof.Machine.execEngCopyBegin e s
  | .engRewrite e => Sys2Proof.Machine.execEngRewrite e s
  | .engAbort e => Sys2Proof.Machine.execEngAbort e s
  | .hotrel p lid => Sys2Proof.Machine.execHotrel p lid s
  | .ptcfgWrite n v => Sys2Proof.Machine.execPtcfgWrite n v s
  | .tdispLock p => Sys2Proof.Machine.execTdispLock p s
  | .tdispStart p => Sys2Proof.Machine.execTdispStart p s
  | .tdispStop p => Sys2Proof.Machine.execTdispStop p s
  | .functionLevelReset p => Sys2Proof.Machine.execFunctionLevelReset p s
  | .bootdb len => Sys2Proof.Machine.execBootdb len s
  | .coreReset isl => Sys2Proof.Machine.execCoreReset isl s
  | .islandReset isl => Sys2Proof.Machine.execIslandReset isl s
  | .functionReady isl b => Sys2Proof.Machine.execFunctionReady isl b s
  | .functionFail isl b => Sys2Proof.Machine.execFunctionFail isl b s
  | .atmapRetire a m => Sys2Proof.Machine.execAtmapRetire a m s
  | .bistStart a => Sys2Proof.Machine.execBistStart a s
  | .bistAbort a => Sys2Proof.Machine.execBistAbort a s
  | .bistFail a => Sys2Proof.Machine.execBistFail a s
  | .bistPass a => Sys2Proof.Machine.execBistPass a s
  | .softError e fixed => Sys2Proof.Machine.execSoftError e fixed s
  | .quiesce a => Sys2Proof.Machine.execQuiesce a s
  | .gate a => Sys2Proof.Machine.execGate a s
  | .atollWake a => Sys2Proof.Machine.execAtollWake a s
  | .atctlBits a v => Sys2Proof.Machine.execAtctlBits a v s
  | .wake a => Sys2Proof.Machine.execWake a s
  | .quiesced a => Sys2Proof.Machine.execQuiesced a s
  | .saveDone a => Sys2Proof.Machine.execSaveDone a s
  | .saveFail a => Sys2Proof.Machine.execSaveFail a s
  | .restoring a => Sys2Proof.Machine.execRestoring a s
  | .restoreDone a bad => Sys2Proof.Machine.execRestoreDone a bad s
  | .retbaseWrite a v => Sys2Proof.Machine.execRetbaseWrite a v s
  | .fllcfgWrite a v => Sys2Proof.Machine.execFllcfgWrite a v s
  | .droopBoost a => Sys2Proof.Machine.execDroopBoost a s
  | .passageTrain k => Sys2Proof.Machine.execPassageTrain k s
  | .passageTakeDown k => Sys2Proof.Machine.execPassageTakeDown k s
  | .trainingDone k lanes lp peer => Sys2Proof.Machine.execTrainingDone k lanes lp peer s
  | .flitRetry k => Sys2Proof.Machine.execFlitRetry k s
  | .tsalign v => Sys2Proof.Machine.execTsalign v s
  | .hdbin v => Sys2Proof.Machine.execHdbin v s
  | .hdbout v => Sys2Proof.Machine.execHdbout v s
  | .spdmRequest msg => Sys2Proof.Machine.execSpdmRequest msg s
  | .hostPostedWrite addr data => Sys2Proof.Machine.execHostPostedWrite addr data s
  | .registerWrite n v => Sys2Proof.Machine.execRegisterWrite n v s
  | .timer => Sys2Proof.Machine.execTimer s
  | .powerUp => Sys2Proof.Machine.execPowerUp s
  | .moduleReset => Sys2Proof.Machine.execModuleReset s
  | .verifyDone => Sys2Proof.Machine.execVerifyDone s
  | .logpop => Sys2Proof.Machine.execLogpop s
  | .tscAlignApply => Sys2Proof.Machine.execTscAlignApply s

end Sys2Proof.Machine
end

