-- ==== Sys2Proof/Machine/Schedule.lean ====
section
/-! DEFINITION. What happens next: the machine event that is due, the stream that issues, or an edge of the time base (R41, R47 to R60, R331; log 1 to log 3). Every event named here changes the state when it is executed. -/

namespace Sys2Proof.Machine

/-! ### Which event is due -/

/-- The first element for which a function answers. -/
def firstOf {α β : Type} (f : α → Option β) : List α → Option β
  | [] => none
  | a :: as => match f a with | some b => some b | none => firstOf f as
def whenB (b : Bool) (i : Instr) : Option Instr := if b then some i else none

/-- A result of a hart that lands now. -/
def State.landingOf (s : State) (x : Hart) : Option Instr :=
  ((s.cpu x).pend.findIdx? fun e => s.landable x e).map fun k =>
    match x, (s.cpu x).pend[k]? with
    | .core c, some e => if e.isAcc && !e.isDetect then .accumulatorWriteLands c k else .resultLands x k
    | _, _ => .resultLands x k

/-- The oldest walk of a hart ends, unless an engine has marked its range (R361). -/
def State.walkOf (s : State) (x : Hart) : Option Instr :=
  match (s.cpu x).walks with
  | w :: _ => whenB (s.walkDue x w && !s.barred w.root1 w.root2 (s.cpu x) w.ptn w.v) (.walkComplete x)
  | [] => none

/-- The cycle up to which a core's copies start: SFC, or its stop point (R58). -/
def State.copyNow (s : State) (l : Launch) (c : CoreId) : Nat :=
  let k := s.core c
  match k.stop with | some t => if k.stopped then Nat.min t l.sfc else l.sfc | none => l.sfc

def State.copyEvent (s : State) (l : Launch) (c : CoreId) : Option Instr :=
  firstOf (fun (e : Copy × Nat) =>
    if !e.1.started then whenB (e.1.u < s.copyNow l c) (.copyStart c e.2)
    else if e.1.refused then some (.deliveryRefused c e.2)
    else if e.1.done then whenB (e.1.land < l.sfc) (.copyLanding c e.2)
    else whenB (!e.1.remote && e.1.due < l.sfc && !(s.transit.any fun t => t.from_ == c && t.u == e.1.u)) (.copyLanding c e.2)) (s.core c).copies.zipIdx

/-- What an arrival meets: a stale incarnation, a running launch, a save area, or nothing (R286, R384, R396). -/
def State.arrivalEvent (s : State) (a : Arrival) : Instr :=
  if s.stale a then .staleDrop a
  else if (s.launch a.lid).isNone && (s.savedOf a.lid).isSome then .lateArrival a
  else .copyArrival a
/-- Of the arrivals that are due, the first by source (R74). -/
def State.transitEvent (s : State) : Option Instr :=
  (s.inOrder (s.transit.filter fun t => match s.launch t.arr.lid with | some l => decide (s.portCycle t < l.sfc) | none => true)).head?.map
    fun t => s.arrivalEvent t.arr

/-- Ferry events of one core (R297, R298). -/
def State.ferryEvent (s : State) (c : CoreId) : Option Instr :=
  firstOf (fun lvl =>
    let f := (s.core c).fer lvl
    if s.memberReady c lvl then some (.memberArrival c lvl)
    else whenB (!f.resumed && (s.resumeAt c lvl).any (· ≤ s.now (.core c))) (.memberResume c lvl)) [1, 2, 3, 4, 5]
/-- DEDUCED, log 67. -/
def State.releaseEvent (s : State) (l : Launch) : Option Instr :=
  firstOf (fun lvl =>
    firstOf (fun c => match s.allArrived (l.domain c lvl) lvl with
      | some a => whenB (if lvl == 5 then l.fbn == 0 else a + ferryDelta lvl ≤ l.sfc) (.ferryRelease l.lid lvl ((s.core c).fer lvl).count)
      | none => none) l.members) [1, 2, 3, 4, 5]

/-- Events of one member core. -/
def State.coreEvent (s : State) (l : Launch) (c : CoreId) : Option Instr :=
  let x : Hart := .core c
  let k := s.core c
  let n := s.now x
  (s.landingOf x).or <| (firstOf (fun q =>
    let t := s.stream x q
    if t.repEnd.any (·.1 < n) then some (Instr.repetitionEnd x q)
    else if (t.retiring.head?).any (·.2 < n) then some (.sectionRetire x q)
    else whenB (s.ranPast x q) (.sectionRunPast x q)) streams).or <|
  (s.walkOf x).or <|
  (whenB (k.hook.isNone && !k.stopped && k.stop.any (· ≤ l.sfc)) (.freezeStopPoint c)).or <|
  (s.copyEvent l c).or <| (s.ferryEvent c).or <|
  (match k.hook with
   | some v => (whenB (l.hdr 60 4 < s.cyc (islandOf c) - v.start) (.hookLimitExpire c)).or (whenB k.hookDone (.hookEnd c))
   | none => none)

/-- Events of one launch. -/
def State.launchEvent (s : State) (l : Launch) : Option Instr :=
  (firstOf (s.coreEvent l) l.members).or <| (s.releaseEvent l).or <|
  (whenB (l.state == .run && !l.frozen && l.members.all fun c => (s.core c).complete) (.kernelComplete l.lid)).or <|
  (whenB l.budgetDue (.budgetExpired l.lid)).or <|
  (whenB (s.refEdge && s.offCur l) (.frequencyRetarget l.lid)).or <|
  (whenB (l.relock && l.lockAt ≤ s.time) (.loopLocked l.lid)).or <|
  (whenB (!(l.counted s.time).isEmpty) (.fabricWaitCountDone l.lid)).or <| whenB (s.thawDue l) (.thaw l.lid)

def State.engineEvent (s : State) (n : Nat) : Option Instr :=
  let e := s.engine n
  if e.phase == 0 then none
  else match s.moveOf n with
    | none => none
    | some _ =>
      if e.phase == 1 then whenB (!s.rangeHeld e) (.engCopyBegin n)
      else if e.due ≤ s.time then
        if e.phase == 2 && (s.engineFault n).isSome then some (.engAbort n) else whenB (!s.rangeHeld e) (.engRewrite n)
      else none

def State.atollEvent (s : State) (a : Nat) : Option Instr :=
  let t := s.atoll a
  match t.state with
  | 1 => whenB (!s.atollHeld a && !t.bist && s.pendingArrivals a == 0) (.quiesced a)
  | 3 => whenB (t.due ≤ s.time) (if (s.imageUnready a).isSome then .saveFail a else .saveDone a)
  | 5 => whenB (t.due ≤ s.time) (.restoring a)
  | 6 => whenB (t.due ≤ s.time) (.restoreDone a [])
  | _ => none

/-- Events of the harbour core. -/
@[noinline] def State.harbourEvent (s : State) : Option Instr :=
  (s.landingOf .harbour).or <| (s.walkOf .harbour).or <| firstOf (fun q => whenB (s.ranPast .harbour q) (.sectionRunPast .harbour q)) [.s, .a]

/-- The event that is due, in a fixed order: of one cycle's writes of a pool local ones land before arrivals (R74). -/
def State.dueEvent (s : State) : Option Instr :=
  s.harbourEvent.or <|
  (whenB (s.stage == 2) .verifyDone).or <|
  (whenB (s.waitRecs.any s.postable && s.fq.length < 64) .faultRecordPost).or <|
  (firstOf (fun (l : Launch) => firstOf (fun c => s.landingOf (.core c)) l.members) s.launches).or <|
  s.transitEvent.or <| (firstOf s.launchEvent s.launches).or <|
  (firstOf (fun i => whenB (s.strayDue i) (Instr.staleDrop (strayArrival i (s.island i).inc))) (List.range 14)).or <|
  (firstOf (fun p => (whenB (s.startable p).isSome (Instr.launchStart p)).or (whenB (s.preloadable p).isSome (.preload p))) (List.range 8)).or <|
  (firstOf s.engineEvent (List.range 6)).or <| (firstOf s.atollEvent (List.range 32)).or <|
  (whenB (s.timerOn && !s.harbour.hevent.getLsbD 3) .timer).or <|
  (whenB (s.talign.any fun t => s.cyc 12 == t.2.2 % 2 ^ 64) .talignApply).or <|
  whenB (s.tsalign.any fun t => t.2 == s.tsc) .tscAlignApply

/-- Events that come from outside the module, or from what the spec leaves to the hardware. -/
def outside : Instr → Bool
  | .copyArrival _ | .lateArrival _ | .staleDrop _ | .ferryRelease _ _ _ | .pulseSwallow _ | .functionLevelReset _ | .powerUp | .moduleReset
  | .bootdb _ | .functionReady _ _ | .functionFail _ _ | .bistStart _ | .bistAbort _ | .bistFail _ | .bistPass _ | .softError _ _ | .wake _
  | .saveFail _ | .restoreDone _ _ | .droopBoost _ | .trainingDone _ _ _ _ | .flitRetry _ | .hdbin _ | .tsalign _ | .spdmRequest _ | .hostPostedWrite _ _ => true
  | _ => false
/-- An outside event as it acts: an arrival by what it meets. -/
def State.outsideEvent (s : State) (i : Instr) : Option Instr :=
  match i with
  | .copyArrival a | .lateArrival a => some (s.arrivalEvent a)
  | .staleDrop a => if (s.arrivalIsland a).isSome then some (s.arrivalEvent a) else some i
  | .ferryRelease _ lvl _ => whenB (lvl == 5) i
  | .copyLanding c n | .deliveryRefused c n => (match (s.core c).copies[n]? with
    | some e => whenB (if e.started then e.remote && !e.done && !e.refused else (s.savedCopy c n).isSome) i
    | none => whenB (s.savedCopy c n).isSome i)
  | i => whenB (outside i) i

/-! ### Which stream issues -/

/-- The next stream: the harbour core's, then each launch's cores', S before A before V before M (R59). -/
def State.nextIssuer (s : State) : Option Agent :=
  match ([Strm.s, .a].find? fun q => s.harbourFree q && s.stampDue .harbour q) with
  | some q => some ⟨.harbour, q⟩
  | none => firstOf (fun (l : Launch) => firstOf (fun c =>
      if s.canIssue c then (streams.find? fun q => s.stampDue (.core c) q).map fun q => (⟨.core c, q⟩ : Agent) else none) l.members) s.launches

/-- The current agent's word. -/
def State.word (s : State) : BitVec 96 := (s.cpu s.cur.hart).wordAt (s.stream s.cur.hart s.cur.strm).pc
/-- The current agent's word issues; a branch to an illegal target raises here (R172). -/
def State.illegalTarget (s : State) : Option Nat := (s.stream s.cur.hart s.cur.strm).bad
/-- The record names the branch: its address and word, and the section it stands in (DESIGN CHOICE, log 87). -/
def State.raiseTarget (s : State) (a : Nat) : State := s.raise ⟨cIllegalOp, 0, a⟩ s.word

/-! ### Time -/

/-- A launch whose cycle advances with its pulses: SFC, or HFC under a hook. -/
def Launch.moves (l : Launch) : Bool := 0 < l.debt && (!l.frozen || l.state == .hookRun)

/-- One cycle of a launch ends: arrivals already met stay met (R297), then SFC or HFC counts. -/
def State.advance (s : State) (l : Launch) : State :=
  let s := l.members.foldl (fun s c => s.modCore c fun k =>
    { k with
      ferry := k.ferry.map fun f => if f.open_ && f.arrived.isNone then { f with bits := k.ferryBits f } else f
      hfc := if k.hook.isSome && !(k.cpu.walks.any fun w => w.issue + 16 ≤ k.hfc) then k.hfc + 1 else k.hfc }) s
  s.modLaunch l.lid fun l => { l with debt := l.debt - 1, sfc := if l.frozen then l.sfc else l.sfc + 1 }

/-- Pulses of a domain at multiplier cur in the t-th edge of the time base (R47, R48). -/
def pulses (cur t : Nat) : Nat := (t + 1) * cur / 52 - t * cur / 52

/-- One CYC cycle of a launch (R56, R57, R63, R91, R380). -/
def Launch.edge (l : Launch) (t : Nat) : Launch :=
  let l := { l with used := l.used + 1 }
  if l.relock || 0 < l.swallow then { l with swallow := l.swallow - 1, debt := 0, hot := updCount l.hot 0 0 0 1 }
  else if l.frozen then { l with debt := if l.state == .hookRun then pulses l.cur t else 0, hot := updCount l.hot l.frzBuf 0 0 1 }
  else { l with debt := pulses l.cur t }

/-- A frozen launch's copies go on at the physical rate (R58). -/
def State.drainCopies (s : State) : State :=
  (s.launches.filter (·.frozen)).foldl (fun s l =>
    let s := l.members.foldl (fun s c => s.modCore c fun k => { k with copies := k.copies.map fun e => if e.started then { e with due := e.due - 1 } else e }) s
    { s with transit := s.transit.map fun (t : Transit) => if t.arr.lid == l.lid then { t with land := t.land - 1 } else t }) s

/-- One edge of the island time base. -/
def State.edge (s : State) : State :=
  let s := s.freeLoops.drainCopies
  let h : Harbour := { s.harbour with evNow := 0, hwNow := [], drain := s.harbour.drain.filter (!s.drained ·) }
  let s : State := { s with harbour := h.enter s.time }
  let held := s.launches.flatMap Launch.atolls
  let count (a : Fin 32) : Atoll := { s.atolls[a] with idle := if held.contains a.val then 0 else s.atolls[a].idle + 1 }
  let s : State := { s with
    time := s.time + 1
    launches := s.launches.map (Launch.edge · s.time)
    islands := s.islands.map fun (i : Island) => { i with cyc := (i.cyc + 1) % 2 ^ 64 }
    parts := s.parts.map Part.age
    atolls := Vector.ofFn count
    orphans := s.orphans.filter (s.time < ·.due)
    tsc := if (s.time + 1) % 52 == 0 then (s.tsc + 1) % 2 ^ 64 else s.tsc }
  s.latch
/-- DEDUCED, log 40. -/
def State.tick (s : State) : State := match s.launches.find? Launch.moves with | some l => s.advance l | none => s.edge

/-! ### Placing a word where the next step fetches it -/

/-- The harbour core about to issue a word at address 0 of its S stream, at M. (DESIGN CHOICE, log 18) -/
def State.atHarbour (s : State) (w : BitVec 96) (idle : Nat) : State :=
  let h := s.harbour
  let u : Cpu := { h.cpu with imem := h.cpu.imem.writes ((bytesOfWord w).zipIdx.map fun (b : Byte × Nat) => (b.2, b.1)) }
  let go (t : Stream) : Stream := { t with ended := false, parked := false, pc := 0, base := s.time, tried := none, last := none, bad := none, past := false }
  { s with
    cur := ⟨.harbour, .s⟩, inputs := [], stage := 3, time := s.time + idle
    harbour := { h with cpu := u.modStream .s go, halted := false, hold := 0, drain := [], hstat := 2 } }

/-- The header of a gated section 0 of one word without dependences (R156). -/
def oneWordHeader : Nat := 2 ^ 10 + (2 ^ 40 - 1) * 2 ^ 22
/-- A launch of one core, its given stream about to issue a word at address 8. (DESIGN CHOICE, log 18) -/
def State.atCore (s : State) (q : Strm) (w : BitVec 96) (idle : Nat) : State :=
  let l : Launch := { lid := 1, ptn := 0, job := 0, fbn := 0, fbix := 0, x0 := 0, y0 := 0, khdr := List.replicate 28 0 ++ [1, 1], image := 0,
                      imlen := 0, prio := 0, queue := 0, budget := 0, sfc := idle }
  let go (t : Stream) : Stream := { t with ended := false, parked := false, pc := 8, sec := 0, base := 0, secs := [0], hooks := [] }
  let code := ((toLE 8 oneWordHeader) ++ bytesOfWord w).zipIdx.map fun (b : Byte × Nat) => (b.2, b.1)
  let k : Core := { lid := 1, cpu := ({ imem := Mem.writes [] code } : Cpu).modStream q go }
  { s.modCore 0 fun _ => k with cur := ⟨.core 0, q⟩, inputs := [], launches := [l] }

/-- DESIGN CHOICE, log 18. -/
def State.place1 (s : State) (nbits w : Nat) : State :=
  let v := BitVec.ofNat 96 (w % 2 ^ nbits)
  let i := decode v
  let idle := (headOf i).idle.toNat
  if privileged i then s.atHarbour v idle else s.atCore (i.cls.getD .s) v idle

end Sys2Proof.Machine
end

