-- ==== Sys2Proof/Machine/Words.lean ====
section
/-! DEFINITION. The plan under which each word issues, collected; the arbiter's choice among the streams of a core (R41, R42), which weighs the plans; and what it means that a word passes every check and that it completes with an effect: the claims are stated in these terms. -/

namespace Sys2Proof.Machine

/-- The plan of a word, as its meaning gives it to issue; an event has none. -/
def planOf (i : Instr) (s : State) : Plan :=
  match i with
  | .nop _ p => { ctl := .nop p.imm.toNat }
  | .ill _ _ _ => {}
  | .add _ p => aluPlan p 1 (· + ·) s
  | .sub _ p => aluPlan p 1 (· - ·) s
  | .mul _ p => aluPlan p 3 (· * ·) s
  | .mulh h p => aluPlan p 3 (mulHigh (uns h)) s
  | .div h p => aluPlan p 20 (divide (uns h)) s
  | .rem h p => aluPlan p 20 (remain (uns h)) s
  | .and _ p => aluPlan p 1 (· &&& ·) s
  | .or _ p => aluPlan p 1 (· ||| ·) s
  | .xor _ p => aluPlan p 1 (· ^^^ ·) s
  | .shl _ p => aluPlan p 1 (fun x y => x <<< shc y) s
  | .shr _ p => aluPlan p 1 (fun x y => x >>> shc y) s
  | .sar _ p => aluPlan p 1 (fun x y => x.sshiftRight (shc y)) s
  | .min h p => aluPlan p 1 (fun x y => if lessThan (uns h) y x then y else x) s
  | .max h p => aluPlan p 1 (fun x y => if lessThan (uns h) x y then y else x) s
  | .cmp h p => planCmp h p s
  | .sel _ p => planSel p s
  | .li _ p => planG p.d [] 1 p.imm64 false
  | .liZ _ p => planG p.d [] 1 (p.imm.zeroExtend 64) false
  | .lih _ p => planG p.d [p.d] 1 (p.imm ++ (s.g p.d).extractLsb' 0 32) (s.tn p.d)
  | .plog h p => planPlog h p s
  | .popc _ p => planG p.d [p.a] 1 (BitVec.ofNat 64 (popCount (s.g p.a))) (s.tn p.a)
  | .clz _ p => planG p.d [p.a] 1 (BitVec.ofNat 64 (leadZeros (s.g p.a))) (s.tn p.a)
  | .br _ p => { time := 1, ctl := .jump (relTarget s p) }
  | .jmp _ p => { rd := [.g p.a.toNat], time := 1, ctl := .jump (absTarget s p) }
  | .call _ p => callPlan [] (relTarget s p) s
  | .callR _ p => callPlan [.g p.a.toNat] (absTarget s p) s
  | .ret _ _ => { rd := [.g 63], time := 1, ctl := .jump (s.me.getG 63).toNat }
  | .loop _ p => planLoop p s
  | .endS _ _ => { ctl := .stop }
  | .brk _ p => { c6 := .trap ⟨cBreak, 0, p.imm64.toNat⟩ }
  | .trap _ p => { c6 := .trap ⟨cSyscall, 0, p.imm64.toNat⟩ }
  | .talign _ p => planTalign p s
  | .tlwait _ p => planTlwait p s
  | .tlread h p => planTlread h p s
  | .cpy h p => cpyPlan (.cpy h p) [.g p.a.toNat] (s.g p.a).toNat (· + p.imm.toNat) none s
  | .cpyAbs h p => cpyPlan (.cpyAbs h p) [.g p.a.toNat, .g p.b.toNat] (s.g p.a).toNat (fun _ => (s.g p.b).toNat % 2 ^ 48) none s
  | .cpyx h p => cpyPlan (.cpyx h p) [.g p.a.toNat] (s.g p.a).toNat (· + p.imm.toNat) (some (h.fn.toNat % 4, p.x.toNat % 4)) s
  | .cpyxAbs h p => cpyPlan (.cpyxAbs h p) [.g p.a.toNat, .g p.b.toNat] (s.g p.a).toNat (fun _ => (s.g p.b).toNat % 2 ^ 48) (some (h.fn.toNat % 4, p.x.toNat % 4)) s
  | .roweSmax h p => rowePlan (.roweSmax h p) (roweOf true p s) s
  | .roweRms h p => rowePlan (.roweRms h p) (roweOf false p s) s
  | .ferryArr h p => planFerryArr h p s
  | .ferryWait _ p => ferryWaitPlan p.x.toNat (ferryTests p.x.toNat false s) s
  | .ferryArrw h p => if (s.kc.fer p.x.toNat).arrw then ferryWaitPlan p.x.toNat (Res.need (!s.locked s.cur.hart s.cur.strm) cIllegalOperand) s else
      { c3 := (Res.need (!s.locked s.cur.hart s.cur.strm) cIllegalOperand).and (ferryTests p.x.toNat true s), time := 1,
        ctl := if s.guard h then .stay else .next, eff := ferryArrive p (h.fn == 6) true }
  | .domq _ p => planDomq p s
  | .stset h p => planStset h p s
  | .stget h p => planStget h p s
  | .ststep _ p => planStstep p s
  | .qconf _ p => planQconf p s
  | .qconfRel _ p => planQconfRel p s
  | .rconf _ p => planRconf p s
  | .sysr _ p => planSysr p s
  | .sysw _ p => syswPlan p s
  | .eret _ _ => planEret s
  | .wfi _ p => planWfi p s
  | .tlbi h p => planTlbi h p s
  | .hinva h p => planHinva h p s
  | .ctxsv _ p => planCtxsv p s
  | .ctxld _ p => planCtxld p s
  | .xlat h p => planXlat h p s
  | .hinv _ p => { wr := [(.h p.d.toNat, 1)], time := 1, eff := fun s => s.post 1 [.hclr p.d.toNat] }
  | .hinvAll _ _ => { wr := (List.range 32).map fun i => (.h i, 1), time := 1, eff := fun s => s.post 1 ((List.range 32).map Eff.hclr) }
  | .hqry h p => planHqry h p s
  | .ld h p => planLd h p s
  | .st h p => planSt h p s
  | .lld h p => lldPlan (.lld h p) h.fn.toNat p.d.toNat (.g p.a.toNat) (poolPlace p (sizeOf h.fn.toNat) s).1 (poolPlace p (sizeOf h.fn.toNat) s).2 s
  | .lldS h p => lldPlan (.lldS h p) (h.fn.toNat % 8) p.d.toNat (.g 62) (spillPlace p (sizeOf (h.fn.toNat % 8)) s).1 (spillPlace p (sizeOf (h.fn.toNat % 8)) s).2 s
  | .lst h p => lstPlan h.fn.toNat p.d (.g p.a.toNat) (poolPlace p (sizeOf h.fn.toNat) s).1 (poolPlace p (sizeOf h.fn.toNat) s).2 s
  | .lstS h p => lstPlan (h.fn.toNat % 8) p.d (.g 62) (spillPlace p (sizeOf (h.fn.toNat % 8)) s).1 (spillPlace p (sizeOf (h.fn.toNat % 8)) s).2 s
  | .tld h p => planTld h p s
  | .tst h p => planTst h p s
  | .gath h p => planGath h p s
  | .scat h p => planScat h p s
  | .ldsw _ p => ldswPlan p false s
  | .ldswH _ p => ldswPlan p true s
  | .stsw _ p => planStsw p s
  | .aadd h p => atomicPlan (.aadd h p) .add h p s
  | .aand h p => atomicPlan (.aand h p) .and h p s
  | .aor h p => atomicPlan (.aor h p) .or h p s
  | .axor h p => atomicPlan (.axor h p) .xor h p s
  | .amin h p => atomicPlan (.amin h p) .min h p s
  | .amax h p => atomicPlan (.amax h p) .max h p s
  | .aswp h p => atomicPlan (.aswp h p) .swp h p s
  | .acas h p => atomicPlan (.acas h p) .cas h p s
  | .aqadd h p => atomicPlan (.aqadd h p) .qadd h p s
  | .fence _ p => planFence p s
  | .qpush _ p => planQpush p s
  | .qpop _ p => planQpop p s
  | .larm _ p => larmPlan (s.g p.a).toNat [] (.g p.a.toNat) p.imm.toNat s
  | .larmG _ p => larmPlan (s.g p.a).toNat [.g p.b.toNat] (.g p.a.toNat) ((s.g p.b).toNat % 2 ^ 32) s
  | .lpoll _ p => planLpoll p s
  | .lwait _ p => planLwait p s
  | .prefX _ p => planPrefX p s
  | .prefM _ p => planPrefM p s
  | .echk _ p => echkPlan (s.g p.a).toNat p.imm.toNat (.g p.a.toNat) marked
  | .echkOff _ p => echkPlan (s.g p.a).toNat p.imm.toNat (.g p.a.toNat) unmarked
  | .vadd h p => vPlan (.vadd h p) (arithVR .add p) s
  | .vsub h p => vPlan (.vsub h p) (arithVR .sub p) s
  | .vmul h p => vPlan (.vmul h p) (arithVR .mul p) s
  | .vfma h p => vPlan (.vfma h p) (fmaVR h p) s
  | .vmin h p => vPlan (.vmin h p) (pickVR false p) s
  | .vmax h p => vPlan (.vmax h p) (pickVR true p) s
  | .vabs h p => vPlan (.vabs h p) (absNegVR false p) s
  | .vneg h p => vPlan (.vneg h p) (absNegVR true p) s
  | .vand h p => vPlan (.vand h p) (bitVR (· &&& ·) p) s
  | .vor h p => vPlan (.vor h p) (bitVR (· ||| ·) p) s
  | .vxor h p => vPlan (.vxor h p) (bitVR (· ^^^ ·) p) s
  | .vshl h p => vPlan (.vshl h p) (shiftVR (fun c => shiftL c p.sat) p) s
  | .vshr h p => vPlan (.vshr h p) (shiftVR (shiftR (h.fn == 1)) p) s
  | .vcmp h p => vPlan (.vcmp h p) (cmpVR h p) s
  | .vsel h p => vPlan (.vsel h p) (selVR p) s
  | .vmov h p => vPlan (.vmov h p) (movVR p) s
  | .vfillK h p => vPlan (.vfillK h p) (fillKVR p) s
  | .vfillIota h p => vPlan (.vfillIota h p) (iotaVR p) s
  | .vfillFc _ p => { time := 1, eff := fun s => s.post 1 [.clrFlags (BitVec.ofNat 32 p.mx), .vprog 0] }
  | .vcvt h p => vPlan (.vcvt h p) (cvtVR p) s
  | .vrcp h p => vPlan (.vrcp h p) (unaryVR (fun a d => recip a d p.rm p.sat) p) s
  | .vrsq h p => vPlan (.vrsq h p) (unaryVR (fun a d => rsqrt a d p.rm p.sat) p) s
  | .vnr h p => vPlan (.vnr h p) (nrVR h p) s
  | .vexp2 h p => vPlan (.vexp2 h p) (unaryVR (fun a d => special .exp2 a d p.rm p.sat) p) s
  | .vlog2 h p => vPlan (.vlog2 h p) (unaryVR (fun a d => special .log2 a d p.rm p.sat) p) s
  | .vtanh h p => vPlan (.vtanh h p) (unaryVR (fun a d => special .tanh a d p.rm p.sat) p) s
  | .vred h p => vPlan (.vred h p) (redVR (match h.fn.toNat with | 0 => .sum | 1 => .max | _ => .min) p [p.a]) s
  | .vscan h p => vPlan (.vscan h p) (scanVR p) s
  | .vdot h p => vPlan (.vdot h p) (redVR .dot p [p.a, p.b]) s
  | .vtrn h p => vPlan (.vtrn h p) (trnVR p) s
  | .vperm h p => vPlan (.vperm h p) (permVR p) s
  | .vamax h p => vPlan (.vamax h p) (redVR .amax p [p.a]) s
  | .vqnt h p => vPlan (.vqnt h p) (qntVR h p) s
  | .vdqn h p => vPlan (.vdqn h p) (dqnVR p) s
  | .cwadd h p => vPlan (.cwadd h p) (causewayVR false h p) s
  | .cwsub h p => vPlan (.cwsub h p) (causewayVR true h p) s
  | .cwsum h p => vPlan (.cwsum h p) (cwsumVR h p) s
  | .skey h p => { time := 1, eff := fun s => s.post 0 [.scfg (h.fn.toNat + 8 * (p.mx % 8))] }
  | .sort h p => planSort h p s
  | .sortc h p => planSortc h p s
  | .sortcLd h p => planSortcLd h p s
  | .sortu h p => planSortu h p s
  | .sortuDump h p => planSortuDump h p s
  | .smrg h p => planSmrg h p s
  | .mzero h p => planMzero h p s
  | .mma h p => mulPlan (.mma h p) (mulOf .mma h p s) p s
  | .mmah h p => mulPlan (.mmah h p) (mulOf .mmah h p s) p s
  | .mmat h p => mulPlan (.mmat h p) (mulOf .mmat h p s) p s
  | .mma16 h p => mulPlan (.mma16 h p) (mulOf .m16 h p s) p s
  | .mmas h p => mulPlan (.mmas h p) (mulOf .mmas h p s) p s
  | .mq4 h p => mulPlan (.mq4 h p) (mulOf .mq4 h p s) p s
  | .mdrn h p => planMdrn h p s
  | .mlda h p => planMlda h p s
  | .mrpop _ p => planMrpop p s
  | _ => {}

/-! ### The arbiter (R41, R42) -/

/-- What a stream of the current hart takes in this cycle, should its word issue beside others that have their grants. (DEDUCED, log 85) -/
def State.wouldTake (s : State) (q : Strm) (granted : List Claim) : List Claim :=
  let s : State := { s with cur := ⟨s.cur.hart, q⟩, rivals := granted }
  let i := decode s.word
  let p := planOf i s
  if s.stampDue s.cur.hart q && s.illegalTarget.isNone && s.verdict i p == .ok then (p.when (s.guard (headOf i))).takes (s.now s.cur.hart) else []
/-- The streams in the order in which the arbiter grants: after the one last granted (R41). -/
def rotation (last : Strm) : List Strm := streams.drop (last.idx + 1) ++ streams.take (last.idx + 1)
/-- What comes before the current word at the arbiter: of locked words nothing but what has issued; of a gated one every locked claim of the cycle, and the gated waiters that the rotation chooses first. (DEDUCED, log 85) -/
def State.rivalsNow (s : State) : List Claim :=
  match s.cur.hart with
  | .harbour => []
  | .core c =>
    let x := s.cur.hart
    if s.locked x s.cur.strm then []
    else
      let first := (streams.filter (s.locked x)).flatMap fun q => s.wouldTake q []
      ((rotation (s.core c).rot).takeWhile (· != s.cur.strm)).foldl (fun g q => if s.locked x q then g else g ++ s.wouldTake q g) first

/-- The word passes every check of R53 and its guard is true (R145): what R53 asks before an instruction has its effect. -/
def State.goes (s : State) (i : Instr) : Prop := s.verdict i (planOf i s) = .ok ∧ s.guard (headOf i) = true

/-- REP of the current stream; 1 on the harbour core. -/
def State.repNow (s : State) : Nat := match s.cur.hart with | .core c => vget (s.core c).rep s.cur.strm.idx 1 | .harbour => 1

/-- All of a state but what every issue moves on its hart: the streams, the ends of its accesses' Times (R129), its bank, share and interval claims (R69, R73, R75, R284) with the rotation (R41), and the model's draw counter (DESIGN CHOICE, log 4). -/
def State.rest (s : State) (x : Hart) : State :=
  let s : State := { s.modCpu x fun u => { u with strm := Vector.replicate 4 {}, acc := 0, acq := 0, fence := 0 } with free := 0 }
  match x with
  | .harbour => s
  | .core c => s.modCore c fun k => { k with claims := [], shares := [], spans := [], rot := .s }

/-- t is e, but that the current word's stream has moved on as R49 and R157 say, by a control c over a Time; no other stream of the hart has moved. -/
def State.ran (s t e : State) (time : Nat) (c : Ctl) : Prop :=
  t.rest s.cur.hart = e.rest s.cur.hart
  ∧ ∀ q, t.stream s.cur.hart q = if q = s.cur.strm then (e.stream s.cur.hart q).move s.cur.hart (s.cpu s.cur.hart) s.repNow s.t0 time c
      else e.stream s.cur.hart q

/-- A state e that a word's effect has left, its new pending entries with what each takes with it: its number, and where it has sources its origin and the bytes as the word read them (R61, R197, R214). Nothing else of e differs. -/
def State.entered (s e : State) (i : Instr) : State := e.attach s.draw s.cur.hart (s.origin i) 0

/-- Executing i answers a next state, which is e, its new entries completed, with the issue's movement. -/
def State.completes (s : State) (i : Instr) (time : Nat) (c : Ctl) (e : State) : Prop :=
  ∃ t, exec i s = .next t ∧ s.ran t (s.entered e i) time c

/-- The state once the result that the current word leaves pending has landed (R30). -/
def State.landed (s t : State) : State := t.landPend s.cur.hart s.me.pend.length

end Sys2Proof.Machine
end

