-- ==== Sys2Proof/Machine/Step.lean ====
section
/-! DEFINITION. One step of the module: an outside event, else a machine event that is due, else the word of one stream, else an edge of the time base. -/

namespace Sys2Proof.Machine

/-- The word of the current agent issues, its rivals at the arbiter known (R41, R42). -/
def stepWord (s : State) : Host.Outcome State Fault Refusal :=
  match s.illegalTarget with
  | some a => .next (s.raiseTarget a)
  | none => exec (decode s.word) { s with rivals := s.rivalsNow }

def step (s : State) : Host.Outcome State Fault Refusal :=
  match s.inputs with
  | i :: r =>
    match s.outsideEvent i with
    | some e => exec e { s with inputs := r }
    | none => .next { s with inputs := r }
  | [] =>
    match s.dueEvent with
    | some e => exec e s
    | none =>
      match s.nextIssuer with
      | some a => stepWord { s with cur := a }
      | none => .next s.tick

/-- A word placed where the next step fetches it: system instructions on the harbour core at M, all others on a launch of one core. (DESIGN CHOICE, log 18) -/
def State.withFetchWord (s : State) (nbits w : Nat) : State := s.place1 nbits w

end Sys2Proof.Machine
end

