-- ==== Sys2Proof/Safety.lean ====
section
/-! DEFINITION. What counts as a safe state: physical memory and the pools have their canonical form. -/

namespace Sys2Proof

/-- Physical memory is in its canonical form: addresses strictly rising, and no listed byte equal to what an unlisted address reads as. -/
def Machine.State.memOk (s : Machine.State) : Prop := s.mem.wf = true
/-- So is every core's pool. -/
def Machine.State.poolsOk (s : Machine.State) : Prop := ∀ c, (s.core c).pool.wf = true

end Sys2Proof
end

