-- ==== Sys2Proof/Certificates/Slice0/Obligations.lean ====
section
/-! DEFINITION. The statements about the model, each from the numbered rules of the spec. What a word's statement needs of a state is State.goes: the word passes every check of R53 and its guard is true. What it concludes is State.completes: executing the word answers a next state, equal to the given one but for the movement of the issuing stream. An entry that State.post adds is a result pending to the end of the Time (R30); ResultsLand says what it then writes. -/

open Sys2Proof Sys2Proof.Machine

namespace Sys2Proof.Machine

/-! ### Expected results -/

/-- The second source of R164. -/
def sourceB (s : State) (p : PR) : Dword := if p.x.getLsbD 0 then p.imm.signExtend 64 else s.me.getG p.b.toNat

/-- The instructions of R165: payload, Time, and the result of R166 as an integer. -/
def arithOf : Instr → Option (PR × Nat × (Dword → Dword → Int))
  | .add _ p => some (p, 1, fun a b => a.toInt + b.toInt)
  | .sub _ p => some (p, 1, fun a b => a.toInt - b.toInt)
  | .mul _ p => some (p, 3, fun a b => a.toInt * b.toInt)
  | .mulh h p => some (p, 3, fun a b => if h.fn = 1 then (a.toNat : Int) * b.toNat / 2 ^ 64 else a.toInt * b.toInt / 2 ^ 64)
  | .div h p => some (p, 20, fun a b =>
      if b = 0 then 2 ^ 64 - 1 else if h.fn = 1 then (a.toNat : Int) / b.toNat
      else if a.toInt = -2 ^ 63 ∧ b.toInt = -1 then -2 ^ 63 else a.toInt.tdiv b.toInt)
  | .rem h p => some (p, 20, fun a b =>
      if b = 0 then 2 ^ 64 - 1 else if h.fn = 1 then (a.toNat : Int) - b.toNat * ((a.toNat : Int) / b.toNat)
      else if a.toInt = -2 ^ 63 ∧ b.toInt = -1 then 0 else a.toInt - b.toInt * a.toInt.tdiv b.toInt)
  | .and _ p => some (p, 1, fun a b => ((a &&& b).toNat : Int))
  | .or _ p => some (p, 1, fun a b => ((a ||| b).toNat : Int))
  | .xor _ p => some (p, 1, fun a b => ((a ^^^ b).toNat : Int))
  | .shl _ p => some (p, 1, fun a b => (a.toNat : Int) * 2 ^ (b.toNat % 64))
  | .shr _ p => some (p, 1, fun a b => (a.toNat : Int) / 2 ^ (b.toNat % 64))
  | .sar _ p => some (p, 1, fun a b => a.toInt / 2 ^ (b.toNat % 64))
  | .min h p => some (p, 1, fun a b => if h.fn = 1 then Min.min (a.toNat : Int) b.toNat else Min.min a.toInt b.toInt)
  | .max h p => some (p, 1, fun a b => if h.fn = 1 then Max.max (a.toNat : Int) b.toNat else Max.max a.toInt b.toInt)
  | _ => none

/-- The conditions of CMP (R168). -/
def cmpHolds (fn : BitVec 4) (a b : Dword) : Prop :=
  (fn = 0 ∧ a = b) ∨ (fn = 1 ∧ a ≠ b) ∨ (fn = 2 ∧ a.toInt < b.toInt) ∨ (fn = 3 ∧ b.toInt ≤ a.toInt)
  ∨ (fn = 4 ∧ a.toNat < b.toNat) ∨ (fn = 5 ∧ b.toNat ≤ a.toNat)
  ∨ (fn = 6 ∧ ∃ k, k < 64 ∧ a.getLsbD k = true ∧ b.getLsbD k = true) ∨ (fn = 7 ∧ ∀ k, k < 64 → (a.getLsbD k = true → b.getLsbD k = false))

/-- The truth table of PLOG (R170): the results for (a, b) = (0,0), (0,1), (1,0), (1,1). -/
def plogTable (fn : BitVec 4) : List Bool :=
  match fn.toNat with
  | 0 => [false, false, false, true]
  | 1 => [false, true, true, true]
  | 2 => [false, true, true, false]
  | 3 => [false, false, true, false]
  | 4 => [true, false, true, true]
  | 5 => [true, true, true, false]
  | 6 => [true, false, false, false]
  | _ => [true, false, false, true]

/-- How many of the 64 bits are one. -/
def onesIn (x : Dword) : Nat := (List.range 64).countP fun k => x.getLsbD k
/-- n counts the zero bits above the highest one bit of x, 64 when there is none. -/
def zerosAbove (x : Dword) (n : Nat) : Prop := n ≤ 64 ∧ (∀ k, 64 - n ≤ k → k < 64 → x.getLsbD k = false) ∧ (n < 64 → x.getLsbD (63 - n) = true)

/-- The return address of a CALL (R173): the next word, or the first word of the stream's next section, or 0x80000 when there is none. -/
def returnsTo (t : Stream) (last r : Nat) : Prop :=
  (t.pc ≠ last ∧ r = t.pc + 12)
  ∨ (t.pc = last ∧ ((∃ n, n ∈ t.peers t.sec ∧ t.sec < n ∧ (∀ m, m ∈ t.peers t.sec → t.sec < m → n ≤ m) ∧ r = n + 8)
      ∨ ((∀ m, m ∈ t.peers t.sec → m ≤ t.sec) ∧ r = 0x80000)))

end Sys2Proof.Machine

/-! ### Reset, fetch and decoding -/

/-- What power-up leaves (R389): the boot ROM in stage WAIT, the harbour core at M with every stream parked, no launch, no event pending, island 12's UNCORE, HOST and HCORE ready and no other function, memory reading 0 at every address (DESIGN CHOICE, log 8), and on every core no launch. The register values that R389 does not name are log 5 to log 10's. Memory and pools have their canonical form at power-up, where no byte is listed. -/
def Obligations.PowerUpState : Prop :=
  (State.reset.stage = 1 ∧ State.reset.harbour.hstat = 2 ∧ State.reset.harbour.halted = false
  ∧ (∀ q, (State.reset.stream .harbour q).parked = true) ∧ State.reset.launches = [] ∧ State.reset.harbour.hevent = 0
  ∧ (∀ i, i < 14 → (State.reset.island i).ready = if i = 12 then 0x1801 else 0)
  ∧ (∀ a, State.reset.mem.read a = 0) ∧ (∀ c, (State.reset.core c).lid = 0))
  ∧ (State.reset.memOk ∧ State.reset.poolsOk ∧ State.reset.mem = [])

/-- One step: an outside event first, as it acts (DESIGN CHOICE, log 3); else the due machine event (DESIGN CHOICE, log 2); else the word of the stream that issues, whose twelve bytes at its pc decode to i, beside the claims that come before it at the arbiter (R41, R42), the agents in the model's order (DESIGN CHOICE, log 2); else an edge of the time base (DESIGN CHOICE, log 1). -/
def Obligations.StepRunsDecodedWord : Prop :=
  (∀ (s : State) (a : Agent) (i : Instr), s.inputs = [] → s.dueEvent = none → s.nextIssuer = some a →
    (s.stream a.hart a.strm).bad = none →
    decode (wordOfBytes ((s.cpu a.hart).imem.bytes (s.stream a.hart a.strm).pc 12)) = i → WellFormed i = true →
    step s = exec i { s with cur := a, rivals := ({ s with cur := a } : State).rivalsNow })
  ∧ (∀ (s : State) (i e : Instr) (r : List Instr), s.inputs = i :: r → s.outsideEvent i = some e → step s = exec e { s with inputs := r })
  ∧ (∀ (s : State) (e : Instr), s.inputs = [] → s.dueEvent = some e → step s = exec e s)
  ∧ (∀ s : State, s.inputs = [] → s.dueEvent = none → s.nextIssuer = none → step s = .next s.tick)

/-- Words written out bit by bit from the encoding tables and the worked encodings of the spec: R166, R174, R50, R186, R220, R260, R282, R149, R403. The common head lies where R144 puts it, in every word of every opcode: bits [31:17] IDLE, [16] GNOT, [15:12] GRD and [11:8] FN. -/
def Obligations.DecodedWordsAndHeads : Prop :=
  (decode 0x000000050800020300000001 = .add ⟨0, false, 0, 0⟩ ⟨5, 1, 0, 1, 3⟩
  ∧ decode 0xFFFFFFDC0000000000001016 = .br ⟨0, false, 1, 0⟩ ⟨0xFFFFFFDC, 0, 0, 0, 0⟩
  ∧ decode 0x000003E800000000000800FE = .nop ⟨4, false, 0, 0⟩ ⟨1000, 0, 0, 0, 0⟩
  ∧ decode 0x60000040101C040500000243 = .ld ⟨0, false, 0, 2⟩ ⟨0x60000040, 2, 7, 2, 5⟩
  ∧ decode 0x000001003808020300000080 = .vadd ⟨0, false, 0, 0⟩ ⟨0, 0x010, 7, 2, 1, 3⟩
  ∧ decode 0x000000280800140000000222 = .cpyx ⟨0, false, 0, 2⟩ ⟨40, 1, 0, 10, 0⟩
  ∧ decode 0x0080808000FF8510000400C1 = .mma ⟨2, false, 0, 0⟩ ⟨8, 8, 8, 0, 0, 0, 0x1FF, 5, 1, 0⟩
  ∧ decode 0x0000082A08000A0000000031 = .sysw ⟨0, false, 0, 0⟩ ⟨0x82A, 1, 0, 5, 0⟩)
  ∧ (∀ w : BitVec 96, headOf (decode w) = ⟨w.extractLsb' 17 15, w.getLsbD 16, w.extractLsb' 12 4, w.extractLsb' 8 4⟩)

/-- Decoding the word of an instruction gives it back, for every well-formed instruction that has a word, with every operand at every value its fields admit (R143 to R149, R159). -/
def Obligations.DecodeEncode : Prop :=
  ∀ i : Instr, i.isWord = true → WellFormed i = true → decode (encode i) = i

/-- Every 96-bit word decodes to an instruction whose word it is: no bit of a word is dropped (R143 to R149). -/
def Obligations.EncodeDecode : Prop :=
  ∀ w : BitVec 96, (decode w).isWord = true ∧ encode (decode w) = w

/-- The 256 exposed cores are the places of a grid of 32 columns by 8 rows; a core's island and its atoll, four rows of eight to an island, from its place (R17). -/
def Obligations.GridPlaces : Prop :=
  (∀ x y : Nat, x < 32 → y < 8 →
    coreX (coreAt x y) = x ∧ coreY (coreAt x y) = y
    ∧ islandOf (coreAt x y) = x / 8 + 4 * (y / 4)
    ∧ atollOf (coreAt x y) = 4 * islandOf (coreAt x y) + y % 4 ∧ atollOf (coreAt x y) < 32)
  ∧ (∀ c : CoreId, coreX c < 32 ∧ coreY c < 8 ∧ coreAt (coreX c) (coreY c) = c)
  ∧ (∀ (n : Nat) (c : CoreId), n < 8 →
    (islandOf c = n ↔ 8 * (n % 4) ≤ coreX c ∧ coreX c ≤ 8 * (n % 4) + 7 ∧ 4 * (n / 4) ≤ coreY c ∧ coreY c ≤ 4 * (n / 4) + 3))

/-! ### Memory -/

/-- A step keeps the canonical form of physical memory and of every core's pool, from every state that has it, whatever event or word it takes. -/
def Obligations.StepKeepsMemoryForm : Prop :=
  ∀ s t : State, s.memOk → s.poolsOk → step s = .next t → t.memOk ∧ t.poolsOk

/-- Values are little-endian (R6): in a memory of canonical form, writing the n low bytes of a value at a and reading n bytes there gives it modulo 2^(8 n), and every byte outside a to a + n - 1 reads as before. -/
def Obligations.LittleEndianMemory : Prop :=
  ∀ (m : Mem) (a n v : Nat), m.wf = true →
    (m.writes (placeLE a n v)).le a n = v % 2 ^ (8 * n)
    ∧ (∀ k, k < n → (m.writes (placeLE a n v)).read (a + k) = BitVec.ofNat 8 (v / 2 ^ (8 * k)))
    ∧ ∀ b, (b < a ∨ a + n ≤ b) → (m.writes (placeLE a n v)).read b = m.read b

/-! ### The S stream's arithmetic -/

/-- ADD to MAX (R165, R166): the result, modulo 2^64, lands in g[D] at the end of the Time with the OR of its sources' taints; nothing else changes. -/
def Obligations.Arithmetic : Prop :=
  ∀ (i : Instr) (p : PR) (n : Nat) (f : Dword → Dword → Int) (s : State), arithOf i = some (p, n, f) → s.goes i →
    s.completes i n .next (s.draw.post n
      [.g p.d.toNat (BitVec.ofInt 64 (f (s.me.getG p.a.toNat) (sourceB s p)))
        (s.me.getT p.a.toNat || (!p.x.getLsbD 0 && s.me.getT p.b.toNat))])

/-- CMP writes p[D] with its condition on g[A] and the second source (R168). LI, LI.Z, LIH, POPC and CLZ (R171): LI and LI.Z clear the taint, LIH keeps that of g[D], POPC and CLZ take that of g[A]. -/
def Obligations.ComparisonsConstantsCounts : Prop :=
  (∀ (h : Head) (p : PR) (s : State) (b : Bool), s.goes (.cmp h p) →
    (b = true ↔ cmpHolds h.fn (s.me.getG p.a.toNat) (sourceB s p)) →
    s.completes (.cmp h p) 1 .next (s.draw.post 1 [.p p.d.toNat b]))
  ∧ (∀ (h : Head) (p : PR) (s : State),
    (s.goes (.li h p) → s.completes (.li h p) 1 .next (s.draw.post 1 [.g p.d.toNat (BitVec.ofInt 64 p.imm.toInt) false]))
    ∧ (s.goes (.liZ h p) → s.completes (.liZ h p) 1 .next (s.draw.post 1 [.g p.d.toNat (BitVec.ofNat 64 p.imm.toNat) false]))
    ∧ (s.goes (.lih h p) → s.completes (.lih h p) 1 .next (s.draw.post 1
        [.g p.d.toNat (BitVec.ofNat 64 (p.imm.toNat * 2 ^ 32 + (s.me.getG p.d.toNat).toNat % 2 ^ 32)) (s.me.getT p.d.toNat)]))
    ∧ (s.goes (.popc h p) → s.completes (.popc h p) 1 .next (s.draw.post 1
        [.g p.d.toNat (BitVec.ofNat 64 (onesIn (s.me.getG p.a.toNat))) (s.me.getT p.a.toNat)]))
    ∧ ∀ n, zerosAbove (s.me.getG p.a.toNat) n → s.goes (.clz h p) →
        s.completes (.clz h p) 1 .next (s.draw.post 1 [.g p.d.toNat (BitVec.ofNat 64 n) (s.me.getT p.a.toNat)]))

/-- PLOG combines predicates by its table in one cycle; an FN of 8 to 15, and any field the table gives as 0, raises RESERVED_FIELD, its registers are p1 to p15 and p0 to p15, and p0 reads 1 (R170). -/
def Obligations.PredicateLogic : Prop :=
  ∀ (h : Head) (p : PR) (s : State),
    (s.goes (.plog h p) → s.completes (.plog h p) 1 .next (s.draw.post 1
      [.p p.d.toNat ((plogTable h.fn).getD (2 * (s.me.getP p.a.toNat).toNat + (s.me.getP p.b.toNat).toNat) false)]))
    ∧ (8 ≤ h.fn.toNat ∨ p.x ≠ 0 ∨ p.imm ≠ 0 → resvOk (.plog h p) = false) ∧ s.me.getP 0 = true
    ∧ (p.d = 0 ∨ 16 ≤ p.d.toNat ∨ 16 ≤ p.a.toNat ∨ 16 ≤ p.b.toNat → idxOk (.plog h p) = false)
    ∧ (encode (.plog h p)).extractLsb' 0 8 = 0x13

/-- SEL reads both sources and the predicate; its taint is the OR of both sources', whichever is chosen; X[4] = 1, and any field the table gives as 0, raises RESERVED_FIELD (R169). -/
def Obligations.Selection : Prop :=
  ∀ (h : Head) (p : PR) (s : State),
    (s.goes (.sel h p) → s.completes (.sel h p) 1 .next (s.draw.post 1
      [.g p.d.toNat (if s.me.getP (p.x.toNat % 16) then s.me.getG p.a.toNat else s.me.getG p.b.toNat)
        (s.me.getT p.a.toNat || s.me.getT p.b.toNat)]))
    ∧ (p.x.getLsbD 4 = true ∨ h.fn ≠ 0 ∨ p.imm ≠ 0 → resvOk (.sel h p) = false)
    ∧ (64 ≤ p.d.toNat ∨ 64 ≤ p.a.toNat ∨ 64 ≤ p.b.toNat → idxOk (.sel h p) = false)
    ∧ (encode (.sel h p)).extractLsb' 0 8 = 0x10
    ∧ (planOf (.sel h p) s).rd = [.g p.a.toNat, .g p.b.toNat, .p (p.x.toNat % 16)]

/-! ### Control transfer -/

/-- A NOP does nothing beyond delaying its stream by IMM cycles (R50); a guard-true END ends its stream (R27, R175). BR, JMP, CALL, CALL.R, RET and LOOP (R174): the target of each, what CALL leaves in g63 (R173; on the harbour core the next word, log 14, DEDUCED), and LOOP's count. A word whose guard is false, once it passes its checks, moves its stream to the next word and changes nothing else; one of the V or M stream keeps what its entry states for that case (Plan.effF: the engine occupied, queues and rings moved; R81, R145, R240). -/
def Obligations.ControlTransfers : Prop :=
  (∀ (h : Head) (p : PR) (s : State),
    (s.goes (.nop h p) → s.completes (.nop h p) 0 (.nop p.imm.toNat) s.draw)
    ∧ (s.goes (.endS h p) → s.completes (.endS h p) 0 .stop s.draw))
  ∧ (∀ (h : Head) (p : PR) (s : State) (pc : Nat), (s.stream s.cur.hart s.cur.strm).pc = pc →
    (s.goes (.br h p) → s.completes (.br h p) 1 (.jump (BitVec.ofInt 64 (pc + p.imm.toInt)).toNat) s.draw)
    ∧ (s.goes (.jmp h p) → s.completes (.jmp h p) 1 (.jump (BitVec.ofInt 64 ((s.me.getG p.a.toNat).toInt + p.imm.toInt)).toNat) s.draw)
    ∧ (∀ r, (∀ c, s.cur.hart = .core c → returnsTo (s.stream s.cur.hart s.cur.strm) (s.me.lastWord (s.stream s.cur.hart s.cur.strm).sec) r) →
        (s.cur.hart = .harbour → r = pc + 12) →
        (s.goes (.call h p) → s.completes (.call h p) 1 (.jump (BitVec.ofInt 64 (pc + p.imm.toInt)).toNat)
          (s.draw.post 1 [.g 63 (BitVec.ofNat 64 r) false]))
        ∧ (s.goes (.callR h p) → s.completes (.callR h p) 1 (.jump (BitVec.ofInt 64 ((s.me.getG p.a.toNat).toInt + p.imm.toInt)).toNat)
          (s.draw.post 1 [.g 63 (BitVec.ofNat 64 r) false])))
    ∧ (s.goes (.ret h p) → s.completes (.ret h p) 1 (.jump (s.me.getG 63).toNat) s.draw)
    ∧ (s.goes (.loop h p) → s.completes (.loop h p) 1
        (if s.me.getG p.d.toNat = 1 then .next else .jump (BitVec.ofInt 64 (pc + p.imm.toInt)).toNat)
        (s.draw.post 1 [.g p.d.toNat (BitVec.ofInt 64 ((s.me.getG p.d.toNat).toInt - 1)) false])))
  ∧ (∀ (i : Instr) (s : State), i.isWord = true → s.verdict i (planOf i s) = .ok → s.guard (headOf i) = false →
    s.completes i ((planOf i s).timeF.getD (planOf i s).time) .next
      (if i.cls = some .v ∨ i.cls = some .m then (planOf i s).effF s.draw else s.draw))

/-- Where a compute core's stream goes on (R49, R52, R156, R157, R172, R174, R175): the next word one cycle on, a NOP's delay added; a branch target two cycles on, when it is the start of a word of its own section or the first word of another section of the stream, and otherwise ILLEGAL_OP falls due there; the next repetition, or the section after it, which retires the one left; past the last section when there is none; the end. A repeated section takes its number of repetitions from the stream's repeat register at its first word. That a branch to an illegal target retires the section that it leaves is log 103 (DEDUCED). The harbour core's words follow one another, and a branch goes to any word address below 2^19 (R26, R331, R332; log 14, DEDUCED); END parks its stream (R331). -/
def Obligations.StreamMoves : Prop :=
  (∀ (t : Stream) (u : Cpu) (c : CoreId) (rep b time n : Nat) (hdr m : Nat), u.header t.sec = hdr →
    m = (if t.fresh = true ∧ hdrRpt hdr = true then Nat.max 1 rep else t.left) →
    let leaves (v : Stream) : Prop := v.retiring = t.retiring ++ [(hdrSec hdr, Nat.max t.doneMax (b + time))]
    (t.pc ≠ u.lastWord t.sec →
      (t.move (.core c) u rep b time .next).pc = t.pc + 12 ∧ (t.move (.core c) u rep b time .next).base = b + 1
      ∧ (t.move (.core c) u rep b time .next).sec = t.sec ∧ (t.move (.core c) u rep b time .next).left = m
      ∧ (t.move (.core c) u rep b time .next).fresh = false
      ∧ (t.move (.core c) u rep b time (.nop n)).pc = t.pc + 12 ∧ (t.move (.core c) u rep b time (.nop n)).base = b + 1 + n)
    ∧ (∀ k, k < hdrLen hdr →
        (t.move (.core c) u rep b time (.jump (t.sec + 8 + 12 * k))).pc = t.sec + 8 + 12 * k
        ∧ (t.move (.core c) u rep b time (.jump (t.sec + 8 + 12 * k))).base = b + 2
        ∧ (t.move (.core c) u rep b time (.jump (t.sec + 8 + 12 * k))).sec = t.sec
        ∧ (t.move (.core c) u rep b time (.jump (t.sec + 8 + 12 * k))).left = m
        ∧ (t.move (.core c) u rep b time (.jump (t.sec + 8 + 12 * k))).retiring = t.retiring)
    ∧ (∀ a, (¬ ∃ k, k < hdrLen hdr ∧ a + 8 = t.sec + 8 + 12 * k) → a ∈ t.peers t.sec →
        (t.move (.core c) u rep b time (.jump (a + 8))).pc = a + 8 ∧ (t.move (.core c) u rep b time (.jump (a + 8))).sec = a
        ∧ (t.move (.core c) u rep b time (.jump (a + 8))).base = b + 2 ∧ (t.move (.core c) u rep b time (.jump (a + 8))).fresh = true
        ∧ (t.move (.core c) u rep b time (.jump (a + 8))).left = 1 ∧ leaves (t.move (.core c) u rep b time (.jump (a + 8))))
    ∧ (∀ a, (¬ ∃ k, k < hdrLen hdr ∧ a = t.sec + 8 + 12 * k) → (¬ ∃ x, x ∈ t.peers t.sec ∧ a = x + 8) →
        let out := t.pc = u.lastWord t.sec ∨ ∃ x, x ∈ t.secs ++ t.hooks ∧ x ≠ t.sec ∧ x + 8 ≤ a ∧ a < u.lastWord x + 12
        (t.move (.core c) u rep b time (.jump a)).bad = some a ∧ (t.move (.core c) u rep b time (.jump a)).base = b + 2
        ∧ (out → leaves (t.move (.core c) u rep b time (.jump a)))
        ∧ (¬ out → (t.move (.core c) u rep b time (.jump a)).retiring = t.retiring))
    ∧ (t.pc = u.lastWord t.sec → hdrRpt hdr = true → 1 < m →
        (t.move (.core c) u rep b time .next).pc = t.sec + 8 ∧ (t.move (.core c) u rep b time .next).left = m - 1
        ∧ (t.move (.core c) u rep b time .next).repn = t.repn + 1 ∧ (t.move (.core c) u rep b time .next).base = b + 1
        ∧ (t.move (.core c) u rep b time .next).repEnd = some (b, t.sec)
        ∧ (t.move (.core c) u rep b time .next).retiring = t.retiring)
    ∧ (t.pc = u.lastWord t.sec → hdrRpt hdr = false ∨ m ≤ 1 →
        leaves (t.move (.core c) u rep b time .next)
        ∧ (t.move (.core c) u rep b time .next).base = b + 1 ∧ (t.move (.core c) u rep b time .next).fresh = true
        ∧ (t.move (.core c) u rep b time .next).left = 1
        ∧ (t.move (.core c) u rep b time .next).repEnd = (if hdrRpt hdr then some (b, t.sec) else t.repEnd)
        ∧ (∀ x, x ∈ t.peers t.sec → t.sec < x → (∀ y, y ∈ t.peers t.sec → t.sec < y → x ≤ y) →
            (t.move (.core c) u rep b time .next).pc = x + 8 ∧ (t.move (.core c) u rep b time .next).sec = x
            ∧ (t.move (.core c) u rep b time .next).past = t.past)
        ∧ ((∀ x, x ∈ t.peers t.sec → x ≤ t.sec) →
            (t.move (.core c) u rep b time .next).past = true ∧ (t.move (.core c) u rep b time .next).pc = t.pc + 12))
    ∧ (t.move (.core c) u rep b time .stop).ended = true ∧ leaves (t.move (.core c) u rep b time .stop))
  ∧ (∀ (t : Stream) (u : Cpu) (rep b time n a : Nat),
    (t.move .harbour u rep b time .next).pc = t.pc + 12 ∧ (t.move .harbour u rep b time .next).base = b + 1
    ∧ ((t.move .harbour u rep b time .next).past = true ↔ 0x7FFFC < t.pc + 12)
    ∧ (t.move .harbour u rep b time (.nop n)).pc = t.pc + 12 ∧ (t.move .harbour u rep b time (.nop n)).base = b + 1 + n
    ∧ (t.move .harbour u rep b time (.jump a)).base = b + 2
    ∧ (a % 4 = 0 ∧ a ≤ 0x7FFFC → (t.move .harbour u rep b time (.jump a)).pc = a ∧ (t.move .harbour u rep b time (.jump a)).bad = t.bad)
    ∧ (a % 4 ≠ 0 ∨ 0x7FFFC < a → (t.move .harbour u rep b time (.jump a)).bad = some a)
    ∧ (t.move .harbour u rep b time .stop).parked = true)

/-! ### Traps -/

namespace Sys2Proof.Machine

/-- A byte, and the value of n bytes at a, as an observer sees them (R118): memory's own, where no write is on its way to it. -/
def State.byteAs (s : State) (o : Hart) (a : Nat) : Byte := seeByte s.time s.free o a s.wins (s.mem.read a)
def State.leAs (s : State) (o : Hart) (a n : Nat) : Nat := ofLE ((List.range n).map fun k => s.byteAs o (a + k))

/-- What a trap raised at issue leaves on a compute core (R12, R59, R338, R339): one record waiting to be posted, stop points on every core of the domain, and no other change of a core, of memory, of the harbour core or of a partition. -/
def State.trapRecorded (s u : State) (c : CoreId) (l : Launch) (t : TrapInfo) (w : BitVec 96) : Prop :=
  let st := s.stream (.core c) s.cur.strm
  let at_ := match (s.core c).stop with | some x => Nat.min x (s.now (.core c)) | none => s.now (.core c)
  (∃ r : Rec, u.waitRecs = s.waitRecs ++ [r] ∧ r.trap = t ∧ r.c = c ∧ r.lid = (s.core c).lid ∧ r.ptn = l.ptn ∧ r.strm = s.cur.strm
    ∧ r.after = false ∧ r.word = w ∧ r.ima = st.pc ∧ r.sec = hdrSec ((s.core c).cpu.header st.sec) ∧ r.repn = st.repn ∧ r.sfc = at_
    ∧ r.vprog = (s.core c).vprog ∧ r.cyc = s.cyc (islandOf c) ∧ r.disp = none)
  ∧ (∀ d, d ∈ l.members → (s.core d).stopped = false →
      (u.core d).stop = some (match (s.core d).stop with
        | some x => Nat.min x (if d = c then at_ else at_ + 16)
        | none => if d = c then at_ else at_ + 16))
  ∧ (∀ d, { u.core d with stop := none } = { s.core d with stop := none })
  ∧ u.mem = s.mem ∧ u.harbour = s.harbour ∧ u.parts = s.parts

/-- The trap of a check that fails: its own cause, or SCHEDULE_MISS for an unmet condition of a locked word (R40, R53, R340). -/
def State.failsWith (s : State) (i : Instr) (t : TrapInfo) : Prop :=
  s.verdict i (planOf i s) = .trap t
  ∨ ∃ k n, s.verdict i (planOf i s) = .miss k n ∧ s.locked s.cur.hart s.cur.strm = true ∧ t = ⟨0x06, 0, k + n * 2 ^ 16⟩

end Sys2Proof.Machine

/-- On a compute core outside a hook, a word that fails a check of R53 with a cause raises it, and an unmet condition of a locked word raises SCHEDULE_MISS; the record carries the word, and the domain freezes. -/
def Obligations.TrapsOnCores : Prop :=
  ∀ (s : State) (c : CoreId) (l : Launch) (i : Instr) (t : TrapInfo), i.isWord = true → s.cur.hart = .core c → s.launchOf c = some l →
    (s.core c).hook = none → s.failsWith i t →
    ∃ u, exec i s = .next u ∧ s.trapRecorded u c l t (encode i)

/-- BRK and TRAP, at check 6 with a true guard, raise BREAK and SYSCALL with IMM, sign-extended (R147); a false guard raises nothing (R176). An unassigned code raises ILLEGAL_OP in every stream and on the harbour core (R160, R239, R258). -/
def Obligations.BreakTrapAndIllegal : Prop :=
  ∀ (h : Head) (p : PR) (op : Byte) (s : State),
    (s.verdict (.brk h p) {} = .ok → s.guard h = true → s.failsWith (.brk h p) ⟨0x15, 0, (p.imm.signExtend 64).toNat⟩)
    ∧ (s.verdict (.trap h p) {} = .ok → s.guard h = true → s.failsWith (.trap h p) ⟨0x16, 0, (p.imm.signExtend 64).toNat⟩)
    ∧ (s.verdict (.brk h p) {} = .ok → s.guard h = false → s.verdict (.brk h p) (planOf (.brk h p) s) = .ok)
    ∧ (s.verdict (.trap h p) {} = .ok → s.guard h = false → s.verdict (.trap h p) (planOf (.trap h p) s) = .ok)
    ∧ (s.me.imemBad = [] → s.failsWith (.ill h op p) ⟨0x01, 0, 0⟩ ∧
        exec (.ill h op p) s = .next ((s.freezeBuf 0).raise ⟨0x01, 0, 0⟩ (encode (.ill h op p))))

/-- The system instructions and TALIGN, which need a level above U, raise PRIVILEGE on every compute core once checks 1 and 2 and, in a gated section, the dependences have passed (R160, R185); TALIGN inside a recovery hook raises ILLEGAL_OPERAND (R266). -/
def Obligations.PrivilegeOnCores : Prop :=
  ∀ (s : State) (c : CoreId) (i : Instr), s.cur.hart = .core c → privileged i = true → s.check12 i = .ok →
    (s.locked s.cur.hart s.cur.strm = true ∨ s.depsOk = true) →
    ((s.core c).hook = none ∨ (∀ h p, i ≠ .talign h p) → exec i s = .next ((s.freezeBuf 0).raise ⟨0x05, 0, 0⟩ (encode i)))
    ∧ ((s.core c).hook.isSome = true → (∃ h p, i = .talign h p) → exec i s = .next ((s.freezeBuf 0).raise ⟨0x04, 0, 0⟩ (encode i)))

/-- A trap of the harbour core's own code (R337): the level it is taken at, PPL and EXL, HCAUSE, HVAL, HINFO, EPCS and EPCA, both streams at the vectors two cycles after the last issued instruction has completed, a walk, a TLBI or a HINVA still in progress holding them longer; a TRANSLATION_S2 is taken at M (R356); a second trap under EXL halts the core; nothing else changes. -/
def Obligations.HarbourTrapEntry : Prop :=
  ∀ (s : State) (q : Strm) (t : TrapInfo), q = .s ∨ q = .a → s.harbour.pl = 1 ∨ s.harbour.pl = 2 →
    (s.harbour.exl = true → exec (.harbourTrap q t) s = .next { s with harbour := { s.harbour with halted := true } })
    ∧ (s.harbour.exl = false → ∃ u, exec (.harbourTrap q t) s = .next u
        ∧ (let lvl := if s.harbour.pl = 1 ∧ s.harbour.hdeleg.getLsbD t.cause = true ∧ t.cause ≠ 0x0A then 1 else 2
           let vec := if lvl = 1 then s.harbour.vecs else s.harbour.vecm
           let d := (s.harbour.cpu.pend.map (·.land) ++ s.harbour.cpu.strm.toList.map (·.doneMax)).foldl Nat.max s.time
           fld u.harbour.hstat 1 0 = lvl ∧ fld u.harbour.hstat 3 2 = s.harbour.pl ∧ fld u.harbour.hstat 4 4 = 1
           ∧ fld u.harbour.hstat 10 8 = fld s.harbour.hstat 10 8
           ∧ u.harbour.hcause = BitVec.ofNat 64 ((if q = .a then 256 else 0) + t.cause)
           ∧ u.harbour.hval = BitVec.ofNat 64 t.va ∧ u.harbour.hinfo = BitVec.ofNat 64 t.info
           ∧ u.harbour.epcs = (s.stream .harbour .s).pc % 2 ^ 19 ∧ u.harbour.epca = (s.stream .harbour .a).pc % 2 ^ 19
           ∧ (u.stream .harbour .s).pc = fld vec 18 0 / 4 * 4 ∧ (u.stream .harbour .a).pc = fld vec 50 32 / 4 * 4
           ∧ (u.harbour.entered = true ↔ s.harbour.cpu.pend ≠ [] ∨ s.harbour.cpu.walks ≠ [] ∨ s.harbour.drain ≠ [] ∨ s.time < s.harbour.hold)
           ∧ (∀ k, k = .s ∨ k = .a → (u.stream .harbour k).base = d + 2 ∧ (u.stream .harbour k).parked = false))
        ∧ u.harbour.cpu.g = s.harbour.cpu.g ∧ u.harbour.cpu.gt = s.harbour.cpu.gt ∧ u.harbour.cpu.p = s.harbour.cpu.p
        ∧ u.harbour.cpu.h = s.harbour.cpu.h ∧ u.harbour.cpu.pend = s.harbour.cpu.pend
        ∧ u.harbour.vecm = s.harbour.vecm ∧ u.harbour.vecs = s.harbour.vecs ∧ u.harbour.hevent = s.harbour.hevent
        ∧ { u with harbour := s.harbour } = s)

/-- ERET (R346): the level becomes PPL and EXL clears, both streams go to EPCS and EPCA two cycles on, the A stream unparked; it needs EXL, a PPL of S or M, and a parked A stream with every issued instruction complete. -/
def Obligations.ReturnFromTrap : Prop :=
  ∀ (h : Head) (p : PR) (s : State), s.cur = ⟨.harbour, .s⟩ → s.goes (.eret h p) →
    s.harbour.exl = true ∧ (fld s.harbour.hstat 3 2 = 1 ∨ fld s.harbour.hstat 3 2 = 2) ∧ (s.stream .harbour .a).parked = true
    ∧ s.harbour.cpu.pend = [] ∧ s.harbour.cpu.walks = [] ∧ (∀ k, k = .s ∨ k = .a → (s.stream .harbour k).doneMax < s.time)
    ∧ ∃ u, exec (.eret h p) s = .next u
      ∧ fld u.harbour.hstat 1 0 = fld s.harbour.hstat 3 2 ∧ fld u.harbour.hstat 4 4 = 0 ∧ fld u.harbour.hstat 10 8 = fld s.harbour.hstat 10 8
      ∧ (u.stream .harbour .s).pc = s.harbour.epcs ∧ (u.stream .harbour .a).pc = s.harbour.epca
      ∧ (∀ k, k = .s ∨ k = .a → (u.stream .harbour k).base = s.time + 2 ∧ (u.stream .harbour k).parked = false ∧ (u.stream .harbour k).ended = false)
      ∧ u.harbour.cpu.g = s.harbour.cpu.g ∧ u.harbour.cpu.p = s.harbour.cpu.p ∧ u.harbour.epcs = s.harbour.epcs ∧ u.harbour.epca = s.harbour.epca
      ∧ u.harbour.hcause = s.harbour.hcause ∧ u.harbour.hval = s.harbour.hval ∧ u.harbour.hinfo = s.harbour.hinfo
      ∧ u.mem = s.mem ∧ u.cores = s.cores ∧ u.launches = s.launches ∧ u.parts = s.parts

/-! ### System instructions -/

/-- SYSR gives g[D] the register's value, its taint clear, in 2 cycles for the harbour core's own registers and a time that the spec leaves open for the numbers from 0x100 on (DESIGN CHOICE, log 42); SYSW, which releases, writes g[A] to the register (R335, R345). Of a register that only holds what is written, reading back gives its written fields, reserved bits zero: the harbour core's own (R336), a PC's low two bits discarded and a level 0 or 3 to HSTAT too; BISTCTL (R392); LCARG, LCAGE, LCSHB, LCSHS and LCREMAP (R373); S1ROOT and HOTSEL (R367); ENGA and ENGB (R363); MSCCFG and XCLRNG while no partition is enabled (R364); LDOCFG's VOUT_MV within its range, and DROOP where a boost of the cycle does not stand over it (R402, R335); PSINJ (R408). CTXSV and CTXLD complete: a launch saved is on the module no more, and one restored stands on it frozen (R350, R384). -/
def Obligations.SystemRegisters : Prop :=
  (∀ (h : Head) (p : PR) (s : State) (n : Nat), n = (s.me.getG p.a.toNat).toNat % 65536 →
    (s.goes (.ctxsv h p) → ∃ t, exec (.ctxsv h p) s = .next t
      ∧ (s.draw.saveStatus n (s.me.getG p.b.toNat).toNat = 0 → ∀ l, l ∈ t.launches → l.lid ≠ n)
      ∧ (s.draw.saveStatus n (s.me.getG p.b.toNat).toNat ≠ 0 → t.launches = s.launches ∧ t.mem = s.mem))
    ∧ (s.goes (.ctxld h p) → ∀ st, st = s.draw.loadStatus (s.me.getG p.a.toNat).toNat ((s.me.getG p.b.toNat).toNat % 32) ((s.me.getG p.b.toNat).toNat / 256 % 8) →
      ∃ t, exec (.ctxld h p) s = .next t
      ∧ (st = 0 → (∀ e k, e ∈ s.saved → k ∈ e.cores → k.hook = none) → ∃ l, l ∈ t.launches ∧ l.frozen = true ∧ l.loading = true)
      ∧ (st ≠ 0 → t.launches = s.launches ∧ t.mem = s.mem)))
  ∧
  (∀ (h : Head) (p : PR) (s : State) (n : Nat), n = (if p.x.getLsbD 0 then p.imm.toNat else (s.me.getG p.b.toNat).toNat) % 65536 →
    (s.goes (.sysr h p) →
      s.completes (.sysr h p) (if n < 0x100 then 2 else Config.freeNat s.free) .next
        (s.draw.post (if n < 0x100 then 2 else Config.freeNat s.free) [.g p.d.toNat (s.sysRead n) false]))
    ∧ (s.goes (.sysw h p) → s.completes (.sysw h p) 1 .next ((s.draw.settle .harbour 4).sysWrite n (s.me.getG p.a.toNat))))
  ∧ (∀ (s : State) (v : Dword),
    ((s.sysWrite 0x000 v).sysRead 0x000 = if fld v 1 0 = 1 ∨ fld v 1 0 = 2 then v &&& 0x71F else s.harbour.hstat)
    ∧ (s.sysWrite 0x001 v).sysRead 0x001 = v &&& 0x1FF
    ∧ (s.sysWrite 0x002 v).sysRead 0x002 = v &&& 0x7FFFC ∧ (s.sysWrite 0x003 v).sysRead 0x003 = v &&& 0x7FFFC
    ∧ (s.sysWrite 0x004 v).sysRead 0x004 = v ∧ (s.sysWrite 0x005 v).sysRead 0x005 = v
    ∧ (s.sysWrite 0x006 v).sysRead 0x006 = v &&& 0x7FFFC0007FFFC ∧ (s.sysWrite 0x007 v).sysRead 0x007 = v &&& 0x7FFFC0007FFFC
    ∧ (s.sysWrite 0x008 v).sysRead 0x008 = v ∧ (s.sysWrite 0x009 v).sysRead 0x009 = v ∧ (s.sysWrite 0x00A v).sysRead 0x00A = v
    ∧ (s.sysWrite 0x011 v).sysRead 0x011 = v ∧ (s.sysWrite 0x030 v).sysRead 0x030 = v &&& 0xFFFFFFFF
    ∧ (s.sysWrite 0x031 v).sysRead 0x031 = v &&& 0xFFFF
    ∧ (s.sysWrite 0x009 v).mem = s.mem ∧ (s.sysWrite 0x009 v).harbour.scrb = s.harbour.scrb)
  ∧ (∀ (s : State) (v : Dword),
    (s.sysWrite 0x180 v).sysRead 0x180 = v &&& 0xFFFF0001
    ∧ (∀ p, p < 8 →
        (s.sysWrite (0x201 + 0x40 * p) v).sysRead (0x201 + 0x40 * p) = v &&& 0x0000FFFFFFFFFFC0
        ∧ (s.sysWrite (0x205 + 0x40 * p) v).sysRead (0x205 + 0x40 * p) = v &&& 0xFFFFFFFF
        ∧ (s.sysWrite (0x206 + 0x40 * p) v).sysRead (0x206 + 0x40 * p) = v &&& 0x0000FFFFFFFF0000
        ∧ (s.sysWrite (0x207 + 0x40 * p) v).sysRead (0x207 + 0x40 * p) = v &&& 0xFFFF
        ∧ (s.sysWrite (0x208 + 0x40 * p) v).sysRead (0x208 + 0x40 * p) = v &&& 0x0000FFFFFFF00000
        ∧ (s.sysWrite (0x405 + 0x10 * p) v).sysRead (0x405 + 0x10 * p) = v &&& 0x0000FFFFFFFFE000
        ∧ (s.sysWrite (0x407 + 0x10 * p) v).sysRead (0x407 + 0x10 * p) = v &&& 0xFFFFFF
        ∧ (s.sysWrite (0x201 + 0x40 * p) v).parts = vmod s.parts p fun q => { q with lcarg := v &&& 0x0000FFFFFFFFFFC0 })
    ∧ (∀ n, n ∈ [0x500, 0x508, 0x510, 0x518, 0x540, 0x548] →
        (s.sysWrite n v).sysRead n = v &&& 0x0007FFFFFFFF0003
        ∧ (s.sysWrite (n + 1) v).sysRead (n + 1) = v &&& 0x0000FFFFFFFF0000)
    ∧ ((∀ p, p < 8 → (s.part p).en = false) →
        (fld v 5 0 ≤ 32 → (s.sysWrite 0x580 v).sysRead 0x580 = BitVec.ofNat 64 (fld v 5 0))
        ∧ ∀ k, k < 4 → (s.sysWrite (0x581 + k) v).sysRead (0x581 + k) = v)
    ∧ (∀ a, a < 32 →
        (550 ≤ fld v 9 0 → fld v 9 0 ≤ 950 → fld ((s.sysWrite (0x803 + 8 * a) v).sysRead (0x803 + 8 * a)) 9 0 = fld v 9 0)
        ∧ (s.harbour.hwNow.contains (0x806 + 8 * a) = false →
            (s.sysWrite (0x806 + 8 * a) v).sysRead (0x806 + 8 * a) = v &&& 0xFFFF000F))
    ∧ ∀ k, k < 12 → (s.sysWrite (0x904 + 16 * k) v).sysRead (0x904 + 16 * k) = v &&& 0x0000FFFFFFFF0701)

/-- WFI waits for an event of its mask, and then gives HEVENT AND mask, clearing no event (R347). -/
def Obligations.WaitForEvent : Prop :=
  ∀ (h : Head) (p : PR) (s : State) (m : BitVec 8), m = (s.harbour.hevent ||| s.asserting) &&& p.imm.truncate 8 →
    (s.goes (.wfi h p) → m ≠ 0 ∧ s.completes (.wfi h p) 1 .next (s.draw.post 1 [.g p.d.toNat (m.zeroExtend 64) false]))
    ∧ (p.imm = 0 ∨ p.d = 0 → idxOk (.wfi h p) = false)

/-- TLBI drops the walker-cache entries of its form on every core that runs and on the harbour core, for an address all that the same table leaf gave (DEDUCED, log 37), and holds the S stream for an open time (DESIGN CHOICE, log 66; R348, R357). HINVA clears valid and taint of the handles of its form in every launch of the partition, gives their number, and has the S stream wait for the accesses issued under them (R349, R358). -/
def Obligations.Invalidations : Prop :=
  (∀ (h : Head) (p : PR) (s : State), s.cur.hart = .harbour → s.goes (.tlbi h p) →
    let ptn := (s.me.getG p.b.toNat).toNat % 8
    let a := (s.me.getG p.a.toNat).toNat
    ∃ u, exec (.tlbi h p) s = .next u
      ∧ (∀ x : Hart, (x = .harbour ∨ ∃ l c, l ∈ s.launches ∧ c ∈ l.members ∧ x = .core c) → ∀ e, e ∈ (u.cpu x).wcache →
          e ∈ (s.cpu x).wcache ∧ (h.fn = 0 → False) ∧ (h.fn = 2 ∨ h.fn = 4 → e.ptn ≠ ptn)
          ∧ (h.fn = 1 → ¬ (e.ptn = ptn ∧ e.page.base / 2 ^ e.used.lg1 = a / 2 ^ e.used.lg1))
          ∧ (h.fn = 3 → e.ptn = ptn → ∀ g, g ∈ e.used.gpas → g.1 / 2 ^ g.2 ≠ a / 2 ^ g.2))
      ∧ (∀ x e, e ∈ (s.cpu x).wcache → e.ptn ≠ ptn → h.fn ≠ 0 → e ∈ (u.cpu x).wcache)
      ∧ u.harbour.hold = s.time + Config.freeNat s.free ∧ u.mem = s.mem
      ∧ (∀ x, (u.cpu x).g = (s.cpu x).g ∧ (u.cpu x).h = (s.cpu x).h ∧ (u.cpu x).p = (s.cpu x).p))
  ∧ (∀ (h : Head) (p : PR) (s : State), s.cur.hart = .harbour → s.goes (.hinva h p) →
    let ptn := (s.me.getG p.b.toNat).toNat % 8
    let a := (s.me.getG p.a.toNat).toNat
    let hit (x : Handle) : Prop := x.valid = true ∧
      ((h.fn = 0 ∧ (x.pg.holds a = true ∨ x.cy.holds a = true)) ∨ (h.fn = 1 ∧ (x.pg.maps a = true ∨ x.cy.maps a = true)) ∨ h.fn = 2)
    s.completes (.hinva h p) 1 .next ((s.draw.hinva h.fn.toNat a ptn).2.post 1 [.g p.d.toNat (BitVec.ofNat 64 (s.draw.hinva h.fn.toNat a ptn).1) false])
    ∧ (∀ l c i, l ∈ s.launches → l.ptn = ptn → c ∈ l.members → i < 32 →
        (hit ((s.core c).cpu.getH i) → (((s.draw.hinva h.fn.toNat a ptn).2.core c).cpu.getH i).valid = false
          ∧ vget ((s.draw.hinva h.fn.toNat a ptn).2.core c).cpu.ht i false = false)
        ∧ (¬ hit ((s.core c).cpu.getH i) → ((s.draw.hinva h.fn.toNat a ptn).2.core c).cpu.getH i = (s.core c).cpu.getH i))
    ∧ (s.draw.hinva h.fn.toNat a ptn).2.mem = s.mem)

/-- CTXSV and CTXLD complete (R350, R383 to R386): status, and bytes written or new LID, in g[D] after a time that the spec leaves open and that holds the S stream (DESIGN CHOICE, log 4), at whose end a restore forwards the old LID's arrivals; a status other than 0 leaves the machine as it was otherwise. A save that succeeds writes the area's record, with the launch's LID, takes the launch off the module and releases its cores; a restore puts a frozen launch under a new LID on the cores at the given origin, each with the pool and the g registers that the area holds for its place. -/
def Obligations.SaveAndRestore : Prop :=
  ∀ (h : Head) (p : PR) (s : State) (a b t : Nat), a = (s.me.getG p.a.toNat).toNat → b = (s.me.getG p.b.toNat).toNat → t = Config.freeNat s.free →
    (s.goes (.ctxsv h p) → ∀ l u, s.draw.saveStatus (a % 65536) b = 0 → s.draw.launch (a % 65536) = some l → u = s.draw.contextSave (a % 65536) b →
      s.completes (.ctxsv h p) t .next (u.ctxResult p.d.toNat t 0 (0x10000 + l.w * l.hh * 0x900000))
      ∧ (∀ k, k ∈ u.launches → k.lid ≠ a % 65536) ∧ (∀ c, c ∈ l.members → (u.core c).lid = 0)
      ∧ (∀ r, r = fld (s.part l.ptn).lcremap 47 20 * 2 ^ 20 → (r + 2 ^ 20 ≤ b ∨ b + 0x10000 ≤ r) → (∀ c, c ∈ l.members → (s.core c).cpu.pend = []) → s.memOk →
          u.mem.le b 4 = 0x5641534B ∧ u.mem.le (b + 8) 2 = a % 65536))
    ∧ (s.goes (.ctxsv h p) → s.draw.saveStatus (a % 65536) b ≠ 0 →
      s.completes (.ctxsv h p) t .next (s.draw.ctxResult p.d.toNat t (s.draw.saveStatus (a % 65536) b) 0))
    ∧ (s.goes (.ctxld h p) → s.draw.loadStatus a (b % 32) (b / 256 % 8) = 0 → ∀ n u l, (n, u) = s.draw.contextLoad a (b % 32) (b / 256 % 8) →
      l = s.draw.savedLaunch a (b % 32) (b / 256 % 8) →
      s.completes (.ctxld h p) t .next ((u.ctxResult p.d.toNat t 0 n).post t [.forward l.ptn (s.mem.le (a + 8) 2) a n])
      ∧ ((∀ e k, e ∈ s.saved → k ∈ e.cores → k.hook = none) → l.members.Nodup →
          (∃ k, k ∈ u.launches ∧ k.lid = n ∧ k.ptn = l.ptn ∧ k.frozen = true ∧ k.loading = true ∧ k.members = l.members)
          ∧ ∀ c m, l.members[m]? = some c → (u.core c).lid = n ∧ (u.core c).stopped = true
            ∧ (∀ x, x < 2 ^ 23 → s.memOk → (u.core c).pool.read x = s.mem.read (a + 0x10000 + m * 0x900000 + x))
            ∧ ∀ i, i < 64 → vget (u.core c).cpu.g i 0 = BitVec.ofNat 64 (s.mem.le (a + 0x10000 + m * 0x900000 + 0x800000 + 8 * i) 8)))
    ∧ (s.goes (.ctxld h p) → s.draw.loadStatus a (b % 32) (b / 256 % 8) ≠ 0 →
      s.completes (.ctxld h p) t .next (s.draw.ctxResult p.d.toNat t (s.draw.loadStatus a (b % 32) (b / 256 % 8)) 0))

/-- TALIGN reads its table at issue, an address without memory or in a poisoned line being no cause (DESIGN CHOICE, log 77), and takes effect 2,048 CYC cycles of island 12 later, when the masked islands' CYC become the table's values together, no other island's changes, and HEVENT.TALIGN is set (R65, R177). The TSC of R409: a write of V to TSALIGN with a port trained and none outstanding clears DONE (DEDUCED, log 63) and sets TSC to V at the edge 4,096 reference periods later, TSC counting modulo 2^64, with DONE and HEVENT.LINK; the timer event of R336 is set while CYC of island 12 has reached HTCMP. -/
def Obligations.TimeBases : Prop :=
  ((∀ (h : Head) (p : PR) (s : State), s.goes (.talign h p) →
    s.completes (.talign h p) 1 .next { s.draw with
      talign := some (p.imm.toNat, (List.range 14).map fun j => s.leAs .harbour ((s.me.getG p.a.toNat).toNat + 8 * j) 8, s.cyc 12 + 2048) })
  ∧ (∀ (s : State) (mask at_ : Nat) (table : List Nat), s.talign = some (mask, table, at_) → s.cyc 12 = at_ % 2 ^ 64 →
    ∃ u, exec .talignApply s = .next u ∧ u.talign = none ∧ u.harbour.hevent = s.harbour.hevent ||| 0x80
      ∧ (∀ j, j < 14 → u.island j = if mask.testBit j then { s.island j with cyc := table.getD j 0 } else s.island j)
      ∧ u.mem = s.mem ∧ u.cores = s.cores ∧ u.launches = s.launches ∧ u.harbour.cpu = s.harbour.cpu))
  ∧ (∀ (s : State) (v : Dword),
    ((s.tsalign.isSome = true ∨ (∀ k, k < 12 → (s.port k).link ≠ 2)) → exec (.tsalign v) s = .next s)
    ∧ (s.tsalign = none → (∃ k, k < 12 ∧ (s.port k).link = 2) →
        exec (.tsalign v) s = .next { s with tsalign := some (v.toNat, (s.tsc + 4096) % 2 ^ 64), tsdone := false })
    ∧ (∀ x e, s.tsalign = some (x, e) → e = s.tsc →
        exec .tscAlignApply s = .next { s with tsc := x, tsalign := none, tsdone := true, harbour := { s.harbour with hevent := s.harbour.hevent ||| 0x20, evNow := s.harbour.evNow ||| 0x20 } })
    ∧ (s.harbour.htcmp.toNat ≤ s.cyc 12 →
        exec .timer s = .next { s with harbour := { s.harbour with hevent := s.harbour.hevent ||| 0x08, evNow := s.harbour.evNow ||| 0x08 } }))

/-! ### Domain queries, timelines and configuration registers -/

/-- DOMQ gives the quantity of R46 for its selector, taint clear (R178); TLREAD gives VAL, ISS or a checksum slot (R291), VAL as it stands before the completions of its cycle (DEDUCED, log 50); a TLWAIT that issues has found VAL at n or above, acquires, and contains a FENCE at the scope of the copies counted, the widest that the timeline keeps (DEDUCED, log 49; R134, R290). -/
def Obligations.DomainAndTimelineReads : Prop :=
  ∀ (h : Head) (p : PR) (s : State) (l : Launch), s.myLaunch = some l →
    (s.goes (.domq h p) → s.completes (.domq h p) 1 .next (s.draw.post 1 [.g p.d.toNat (BitVec.ofNat 64
        (match p.imm.toNat with
         | 0 => s.kc.dom.toNat | 1 => s.kc.rx | 2 => s.kc.ry | 3 => l.hdr 28 1 | 4 => l.hdr 29 1
         | 5 => if l.hdr 2 2 % 2 = 1 then l.hdr 32 4 else l.hdr 28 1 * l.hdr 29 1 * (l.fbn + 1)
         | 6 => l.fbix | 7 => l.fbn + 1
         | n => Nat.max 1 (l.hdr (36 + 4 * (n - 8)) 4))) false]))
    ∧ (s.goes (.tlread h p) → s.completes (.tlread h p) 1 .next (s.draw.post 1 [.g p.d.toNat
        (if h.fn = 0 then BitVec.ofNat 64 (vget s.kc.tl p.a.toNat {}).val
         else if h.fn = 1 then BitVec.ofNat 64 (vget s.kc.tl p.a.toNat {}).iss
         else (vget s.kc.ck p.a.toNat 0).zeroExtend 64) false]))
    ∧ (s.goes (.tlwait h p) →
        let t := s.kc.tlNow p.a.toNat (s.now s.cur.hart)
        (if p.x.getLsbD 0 then p.imm.toNat else (s.me.getG p.b.toNat).toNat) ≤ t.val ∧ s.me.acc ≤ s.t0
        ∧ s.completes (.tlwait h p) 4 .next (s.draw.settle s.cur.hart t.scope)
        ∧ ∀ u, exec (.tlwait h p) s = .next u → s.t0 + 5 ≤ (u.cpu s.cur.hart).acq ∧ s.t0 + 5 ≤ (u.cpu s.cur.hart).fence)

/-- STSET writes one whole dword of a stream register with its reserved bits zero, or a repeat register (R103, R179); STGET reads them and the status registers, taint clear (R180); STSTEP adds to BASE modulo 2^23 and changes no other bit (R181). -/
def Obligations.StreamRegisters : Prop :=
  ∀ (h : Head) (p : PR) (s : State) (v : Dword), v = (if p.x.getLsbD 0 then p.imm.signExtend 64 else s.me.getG p.a.toNat) →
    (s.goes (.stset h p) → h.fn.toNat < 4 → s.completes (.stset h p) 1 .next (s.draw.post 1 [.st p.d.toNat h.fn.toNat
        (v &&& if h.fn = 0 then 0xFFFFFFFF0FFFFFFF else if h.fn = 1 then 0x03FFFFFFFFFFFFFF else if h.fn = 2 then 0xFF7FFFFFFFFFFFFF else 0xFFFFFF)]))
    ∧ (∀ q : Strm, s.goes (.stset h p) → h.fn.toNat = 4 + q.idx →
        s.completes (.stset h p) 1 .next (s.draw.post 1 [.rep q (v.toNat % 65536)]))
    ∧ (s.goes (.stget h p) → s.completes (.stget h p) 1 .next (s.draw.post 1 [.g p.d.toNat
        (if h.fn.toNat < 4 then s.kc.stw p.a.toNat h.fn.toNat
         else if h.fn.toNat < 8 then BitVec.ofNat 64 (vget s.kc.rep (h.fn.toNat - 4) 1)
         else if h.fn = 8 then BitVec.ofNat 64 s.kc.vprog else if h.fn = 9 then s.kc.vflags.zeroExtend 64 else s.kc.part.zeroExtend 64) false]))
    ∧ (∀ w : Dword, s.goes (.ststep h p) →
        fld w 22 0 = (fld (s.kc.stw p.d.toNat 0) 22 0 + (if p.x.getLsbD 0 then (p.imm.signExtend 64).toNat else fld (s.kc.stw p.d.toNat 3) 23 0)) % 2 ^ 23 →
        w.toNat / 2 ^ 23 = (s.kc.stw p.d.toNat 0).toNat / 2 ^ 23 →
        s.completes (.ststep h p) 1 .next (s.draw.post 1 [.st p.d.toNat 0 w]))

/-- QCONF takes a control word that passes R183, whose cursors it clears after 4 cycles, and QCONF.REL clears VALID, both only of a queue that is not valid or drained; RCONF takes a descriptor that passes R184, of a ring unconfigured or drained. -/
def Obligations.QueueAndRingConfiguration : Prop :=
  ∀ (h : Head) (p : PR) (s : State) (c : CoreId), s.cur.hart = .core c →
    (s.goes (.qconf h p) → s.inflightPool c = [] →
      let a := (s.me.getG p.a.toNat + p.imm.signExtend 64).toNat
      let b (k n : Nat) : Nat := ofLE ((s.core c).pool.bytes (a + k) n)
      a % 16 = 0 ∧ a ≤ 0x7FFFF0 ∧ b 4 2 = 0 ∧ b 0 4 < 2 ^ 23 ∧ b 6 1 ≤ 9 ∧ b 0 4 % 2 ^ b 6 1 = 0 ∧ b 0 4 + 2 ^ (b 7 1 + b 6 1) ≤ 2 ^ 23
      ∧ s.completes (.qconf h p) 4 .next (s.draw.post 4 [.queue p.d.toNat
          { valid := true, addr := a, base := b 0 4, lge := b 6 1, lgd := b 7 1, head := 0, tail := 0, qc := 0, pc := 0 }]))
    ∧ (s.goes (.qconfRel h p) → s.completes (.qconfRel h p) 1 .next
        (s.draw.post 1 [.queue p.d.toNat { vget (s.core c).queues p.d.toNat {} with valid := false }]))
    ∧ (s.goes (.qconf h p) ∨ s.goes (.qconfRel h p) →
        let q := vget (s.core c).queues p.d.toNat {}
        q.valid = false ∨ (q.qc = q.head ∧ q.pc = q.tail))
    ∧ (s.goes (.rconf h p) →
        let d := if p.x.getLsbD 0 then p.imm else (s.me.getG p.a.toNat).extractLsb' 0 32
        let lgn := (d.extractLsb' 29 3).toNat
        let slotb := (d.extractLsb' 14 15).toNat
        let baseb := (d.extractLsb' 0 14).toNat
        let r := vget (s.core c).rings p.d.toNat {}
        (r.slotb = 0 ∨ (r.rc = r.head ∧ r.fc = r.tail)) ∧ (slotb = 0 → lgn = 0) ∧ (slotb ≠ 0 → 512 * (baseb + slotb * 2 ^ lgn) ≤ 2 ^ 23)
        ∧ s.completes (.rconf h p) 1 .next (s.draw.post 1 [.ring p.d.toNat
            { baseb := baseb, slotb := slotb, lgn := lgn, fc := 0, head := 0, tail := 0, rc := 0 }]))

/-! ### Translation and scalar accesses -/

namespace Sys2Proof.Machine

/-- The virtual address of LD, ST and the atomics with an offset (R187, R192): v + s64(g[B]) + the signed displacement. -/
def scalarVa (s : State) (p : PR) : Int :=
  ((s.me.getH p.a.toNat).v : Int) + (s.me.getG p.b.toNat).toInt + (p.imm.extractLsb' 0 29).toInt
/-- All n bytes from va lie on page q of the handle (R86). -/
def onPage (h : Handle) (va : Int) (n : Nat) (q : Page) : Prop := ∀ k : Nat, k < n → h.pageOf (va + k) = some q
/-- The first byte's physical address (R86). -/
def physOf (q : Page) (va : Int) : Nat := q.frame + (va - q.base).toNat
/-- The Time of a scalar global access: 340 + hop_N for timed memory on a compute core, open otherwise (R188, R192). -/
def scalarTime (s : State) (q : Page) : Nat := if q.tier = 0 ∧ s.cur.hart ≠ .harbour then 340 + s.hopN else Config.freeNat s.free
/-- A loaded value by its size suffix (R186). -/
def extended (fn : BitVec 4) (n v : Nat) : Dword := if fn.toNat < 4 then BitVec.ofInt 64 (sgn (8 * n) v) else BitVec.ofNat 64 v

/-- ORD rel and acq-rel release (R127, R192). -/
def ordReleases (p : PR) : Bool := p.x.toNat % 8 == 3 || p.x.toNat % 8 == 4
/-- The atomics with their operation on the word: old value, g[D] and g[B] modulo the word; none when nothing is written (R201). -/
def atomicOf : Instr → Option (Head × PR × (Nat → Nat → Nat → Option Nat))
  | .aadd h p => some (h, p, fun w old x => some ((old + x) % 2 ^ w))
  | .aand h p => some (h, p, fun _ old x => some (old &&& x))
  | .aor h p => some (h, p, fun _ old x => some (old ||| x))
  | .axor h p => some (h, p, fun _ old x => some (old ^^^ x))
  | .amin h p => some (h, p, fun w old x => some (if h.fn.toNat < 4 then (if sgn w x < sgn w old then x else old) else Nat.min old x))
  | .amax h p => some (h, p, fun w old x => some (if h.fn.toNat < 4 then (if sgn w old < sgn w x then x else old) else Nat.max old x))
  | .aswp h p => some (h, p, fun _ _ x => some x)
  | _ => none

end Sys2Proof.Machine

/-- XLAT leaves the handle 24 cycles on, its taint that of the address register: at M, with translation off, the 64 KiB physical pages of v and v + 64 KiB (R332); from a walker cache, the page and its carry page, where no engine has marked the way to that one (R189, R357, R361); otherwise a walk is taken up, with the roots of its partition, and, on a compute core outside a hook, the domain stops 16 cycles on (R59). -/
def Obligations.Translation : Prop :=
  ∀ (h : Head) (p : PR) (s : State) (v : Nat), v = (s.me.getG p.a.toNat + p.imm.signExtend 64).toNat → s.goes (.xlat h p) →
    (s.ctx s.cur.hart = none → s.completes (.xlat h p) 24 .next
      (s.draw.post 24 [.h p.d.toNat { valid := true, v := v, pg := s.pageM v, cy := s.pageM (v + 65536) } (s.me.getT p.a.toNat)]))
    ∧ (∀ n pg, s.ctx s.cur.hart = some n → cached s.me n v = some pg →
      s.carryBarred (s.part n).s1root (s.part n).s2root s.me n pg = false → s.completes (.xlat h p) 24 .next
      (s.draw.post 24 [.h p.d.toNat { valid := true, v := v, pg := pg, cy := s.carry s.me n pg } (s.me.getT p.a.toNat)]))
    ∧ (∀ n, s.ctx s.cur.hart = some n → (∀ pg, cached s.me n v = some pg → s.carryBarred (s.part n).s1root (s.part n).s2root s.me n pg = true) → ∃ t w, exec (.xlat h p) s = .next t
        ∧ (t.cpu s.cur.hart).walks = s.me.walks ++ [w] ∧ w.ptn = n ∧ w.root1 = (s.part n).s1root ∧ w.root2 = (s.part n).s2root ∧ w.d = p.d.toNat ∧ w.v = v ∧ w.t = s.me.getT p.a.toNat ∧ w.land = s.t0 + 24
        ∧ (∀ c l, s.cur.hart = .core c → s.launchOf c = some l → (s.core c).hook = none → ∀ d, d ∈ l.members → (s.core d).stopped = false →
            (t.core d).stop = some (match (s.core d).stop with | some x => Nat.min x (s.t0 + 16) | none => s.t0 + 16)))

/-- HINV clears a handle's valid bit, HINV.ALL every one's (R190); HQRY gives v, or a page's word with an absent page zero (R191); PREF.m changes nothing but elapsed time, and PREF.x at most a walker cache (R208). -/
def Obligations.HandleInstructions : Prop :=
  ∀ (h : Head) (p : PR) (s : State),
    (s.goes (.hinv h p) → s.completes (.hinv h p) 1 .next (s.draw.post 1 [.hclr p.d.toNat]))
    ∧ (s.goes (.hinvAll h p) → s.completes (.hinvAll h p) 1 .next (s.draw.post 1 ((List.range 32).map Eff.hclr)))
    ∧ (s.goes (.hqry h p) → (s.me.getH p.a.toNat).valid = true ∧ s.completes (.hqry h p) 1 .next (s.draw.post 1 [.g p.d.toNat (BitVec.ofNat 64
        (if h.fn = 0 then (s.me.getH p.a.toNat).v else if h.fn = 1 then (s.me.getH p.a.toNat).pg.word else (s.me.getH p.a.toNat).cy.word)) false]))
    ∧ (s.goes (.prefM h p) → (s.me.getH p.a.toNat).valid = true ∧ s.completes (.prefM h p) 1 .next s.draw)
    ∧ (s.goes (.prefX h p) → ∃ ws, s.completes (.prefX h p) 1 .next (s.draw.modCpu s.cur.hart fun u => { u with wcache := u.wcache ++ ws })
        ∧ ∀ w, w ∈ ws → s.ctx s.cur.hart = some w.ptn
            ∧ s.translate w.ptn (s.me.getG p.a.toNat + p.imm.signExtend 64).toNat = .ok w.page w.used)

/-- LD: the bytes at the translated address as the core sees them in the cycle of issue (R118; DEDUCED, log 41), extended by the size suffix, land in g[D] at the end of the Time, tainted for ORD con; one access's bytes are counted for buffer 0 and one cycle of the share is taken; a poisoned line raises DATA_POISON at the end of the Time in place of the value (R131, R186 to R193, R416). ST: the low bytes of g[D] stand at the translated address from issue on (DESIGN CHOICE, log 13), and every other byte of memory reads as before (R186 to R193). An access to an SO page follows the core's SO writes, and a release shows the writes before it in its scope (R119, R120, R127). -/
def Obligations.GlobalAccesses : Prop :=
  (∀ (h : Head) (p : PR) (s : State) (va : Int) (n : Nat) (q : Page), s.goes (.ld h p) → va = scalarVa s p → n = 2 ^ (h.fn.toNat % 4) →
    onPage (s.me.getH p.a.toNat) va n q →
    let e := s.draw.before (q.kind == 0) false 0
    ((∀ k, k < n → s.linePoisoned (physOf q va + k) = false) →
      s.completes (.ld h p) (scalarTime s q) .next
        ((e.post (scalarTime s q) [.g p.d.toNat (extended h.fn n (e.leAs s.cur.hart (physOf q va) n)) (p.x.toNat % 8 == 1), .hot 0 n 0,
          s.draw.via (.ld h p) (va % 2 ^ 64).toNat ((List.range n).map (physOf q va + ·))]).takeShare (q.tier == 0) 1))
    ∧ ((∃ k, k < n ∧ s.linePoisoned (physOf q va + k) = true) →
      s.completes (.ld h p) (scalarTime s q) .next
        ((e.postDetect (.ld h p) (scalarTime s q) ⟨0x0E, (va % 2 ^ 64).toNat, 31 * 2 ^ 16⟩ 0 false [.keep p.d.toNat]).takeShare (q.tier == 0) 1))
    ∧ (s.wins = [] → e.leAs s.cur.hart (physOf q va) n = s.mem.le (physOf q va) n))
  ∧ (∀ (h : Head) (p : PR) (s : State) (va : Int) (n : Nat) (q : Page), s.goes (.st h p) → va = scalarVa s p → n = 2 ^ (h.fn.toNat % 4) →
    onPage (s.me.getH p.a.toNat) va n q →
    s.completes (.st h p) (scalarTime s q) .next
      (((s.draw.before (q.kind == 0) (q.kind == 0 || ordReleases p) (p.imm.toNat / 2 ^ 29)).store (scalarTime s q)
        (placeLE (physOf q va) n (s.me.getG p.d.toNat).toNat) (List.replicate n q.kind) [] [.hot 0 0 n]).takeShare (q.tier == 0) 1)
    ∧ (∀ t, s.memOk → exec (.st h p) s = .next t →
        (∀ k, k < n → t.mem.read (physOf q va + k) = (s.me.getG p.d.toNat).extractLsb' (8 * k) 8)
        ∧ ∀ b, (b < physOf q va ∨ physOf q va + n ≤ b) → t.mem.read b = s.mem.read b))

/-- The atomics (R200, R201): the old word, extended, lands in g[D] with its taint clear, and the new one is in memory at once (DESIGN CHOICE, log 13); every byte outside the word reads as before. ACAS writes g[B] when the word equals g[D], and otherwise nothing, counting no byte written (R91); AQADD adds the integer of R202 modulo the word. Neither takes an offset register; g[D] becomes the old word (R200 to R202). -/
def Obligations.AtomicAccesses : Prop :=
  (∀ (i : Instr) (h : Head) (p : PR) (f : Nat → Nat → Nat → Option Nat) (s : State) (va : Int) (n m : Nat) (q : Page),
    atomicOf i = some (h, p, f) → s.goes i → va = scalarVa s p → n = 2 ^ (h.fn.toNat % 4) → onPage (s.me.getH p.a.toNat) va n q →
    (∀ k, k < n → s.linePoisoned (physOf q va + k) = false) →
    f (8 * n) (s.mem.le (physOf q va) n) ((s.me.getG p.d.toNat).toNat % 2 ^ (8 * n)) = some m →
    let e := s.draw.before (q.kind == 0) (q.kind == 0 || ordReleases p) (p.imm.toNat / 2 ^ 29)
    s.completes i (scalarTime s q) .next ((e.store (scalarTime s q) (placeLE (physOf q va) n m) (List.replicate n q.kind) []
      [.g p.d.toNat (extended h.fn n (s.mem.le (physOf q va) n)) false, .hot 0 n n,
       s.draw.via i (va % 2 ^ 64).toNat ((List.range n).map (physOf q va + ·))]).takeShare (q.tier == 0) 1)
    ∧ (∀ t, s.memOk → exec i s = .next t → ∀ b, (b < physOf q va ∨ physOf q va + n ≤ b) → t.mem.read b = s.mem.read b))
  ∧ (∀ (h : Head) (p : PR) (s : State) (va : Int) (n : Nat) (q : Page),
    va = ((s.me.getH p.a.toNat).v : Int) + (p.imm.extractLsb' 0 29).toInt → n = 2 ^ (h.fn.toNat % 4) → onPage (s.me.getH p.a.toNat) va n q →
    (∀ k, k < n → s.linePoisoned (physOf q va + k) = false) →
    let old := s.mem.le (physOf q va) n
    let e := s.draw.before (q.kind == 0) (q.kind == 0 || ordReleases p) (p.imm.toNat / 2 ^ 29)
    let res (i : Instr) (w : Nat) : List Eff := [.g p.d.toNat (extended h.fn n old) false, .hot 0 n w,
      s.draw.via i (va % 2 ^ 64).toNat ((List.range n).map (physOf q va + ·))]
    (s.goes (.acas h p) → old = (s.me.getG p.d.toNat).toNat % 2 ^ (8 * n) →
      s.completes (.acas h p) (scalarTime s q) .next ((e.store (scalarTime s q)
        (placeLE (physOf q va) n (s.me.getG p.b.toNat).toNat) (List.replicate n q.kind) [] (res (.acas h p) n)).takeShare (q.tier == 0) 1))
    ∧ (s.goes (.acas h p) → old ≠ (s.me.getG p.d.toNat).toNat % 2 ^ (8 * n) → ∃ t, exec (.acas h p) s = .next t ∧ t.mem = s.mem
      ∧ (t.cpu s.cur.hart).pend.map (·.effs) = s.me.pend.map (·.effs) ++ [.shut s.draw.free :: res (.acas h p) 0])
    ∧ (s.goes (.aqadd h p) →
      s.completes (.aqadd h p) (scalarTime s q) .next ((e.store (scalarTime s q)
        (placeLE (physOf q va) n (((old : Int) + aqK (8 * n) (s.me.getG p.d.toNat) (s.me.getG p.b.toNat)) % 2 ^ (8 * n)).toNat) (List.replicate n q.kind) []
        (res (.aqadd h p) n)).takeShare (q.tier == 0) 1)))

/-- FENCE holds every later access until its Time has elapsed: 1, 18, 40, 96 or 1,024 cycles by scope, and in gated code at system scope at least until the core's untimed copies to memory whose start comes before it are acknowledged; what its core has written or read is shown in the scope (R133, R203). An access after it that issues before then fails check 5. The FERRY words, whose wait contains a FENCE (R135), complete too: an arrive form opens its instance, a wait form closes it (R296). -/
def Obligations.Fences : Prop :=
  (∀ (h : Head) (p : PR) (s : State) (c : CoreId), s.cur.hart = .core c → 1 ≤ p.x.toNat → p.x.toNat ≤ 5 →
    (s.goes (.ferryArr h p) → ∃ t, exec (.ferryArr h p) s = .next t ∧ ((t.core c).fer p.x.toNat).open_ = true ∧ ((t.core c).fer p.x.toNat).count = ((s.core c).fer p.x.toNat).count + 1)
    ∧ (s.goes (.ferryWait h p) → ∃ t, exec (.ferryWait h p) s = .next t ∧ ((t.core c).fer p.x.toNat).open_ = false ∧ ((t.core c).fer p.x.toNat).count = ((s.core c).fer p.x.toNat).count)
    ∧ (s.goes (.ferryArrw h p) → ((s.core c).fer p.x.toNat).arrw = true → ∃ t, exec (.ferryArrw h p) s = .next t ∧ ((t.core c).fer p.x.toNat).open_ = false))
  ∧ ∀ (h : Head) (p : PR) (s : State) (sc n : Nat), sc = p.imm.toNat / 2 ^ 29 → n = (match sc with | 0 => 1 | 1 => 18 | 2 => 40 | 3 => 96 | _ => 1024) →
    s.goes (.fence h p) → s.me.acc ≤ s.t0
      ∧ ∃ t, s.completes (.fence h p) t .next (s.draw.settle s.cur.hart sc) ∧ n ≤ t
        ∧ (s.locked s.cur.hart s.cur.strm = true ∨ sc ≠ 4 ∨ s.kc.copies = [] → t = n)
        ∧ (s.locked s.cur.hart s.cur.strm = false → sc = 4 → ∀ e, e ∈ s.kc.copies → e.t < s.t0 → e.pub = false → e.dk = 2 → e.due ≤ s.t0 + t)
        ∧ (∀ u, exec (.fence h p) s = .next u → s.t0 + t + 1 ≤ (u.cpu s.cur.hart).fence)
        ∧ (∀ (w : State) (pl : Plan), w.cur.hart = s.cur.hart → w.t0 ≤ s.t0 + t → s.t0 + t + 1 ≤ w.me.fence → pl.acc = true →
          w.ordered pl = .miss 11 0)

/-! ### The pool: local and spill forms, queues, landings, checker -/

/-- LLD from the pool: the bytes at g[A] + IMM, extended, land in g[D] 4 cycles on, taint clear; LST writes the low bytes of g[D] there at issue (DEDUCED, log 46) and no other byte of the pool (R76, R194). The spill forms reach the spill window at SPILLBASE + o while the offset lies in it, and the pinned overflow area beyond (R76, R77), whose load reads in the cycle of issue (DEDUCED, log 41) and whose store stands from then on (DESIGN CHOICE, log 13). -/
def Obligations.LocalScalars : Prop :=
  ∀ (h : Head) (p : PR) (s : State) (c : CoreId) (n a : Nat), s.cur.hart = .core c → s.inflightPool c = [] →
    (a = (s.me.getG p.a.toNat + p.imm.signExtend 64).toNat → n = 2 ^ (h.fn.toNat % 4) →
      (s.goes (.lld h p) → (s.core c).poisonIn a n = none →
        s.completes (.lld h p) 4 .next (s.draw.post 4 [.g p.d.toNat (extended h.fn n ((s.core c).pool.le a n)) false]))
      ∧ (s.goes (.lst h p) → s.completes (.lst h p) 4 .next (s.draw.poolStore c none (placeLE a n (s.me.getG p.d.toNat).toNat) [] [])
          ∧ ∀ t, s.poolsOk → exec (.lst h p) s = .next t → (∀ k, k < n → (t.core c).pool.read (a + k) = (s.me.getG p.d.toNat).extractLsb' (8 * k) 8)
            ∧ ∀ b, (b < a ∨ a + n ≤ b) → (t.core c).pool.read b = (s.core c).pool.read b))
    ∧ (∀ o : Nat, (o : Int) = (s.me.getG 62).toInt + p.imm.toInt → n = 2 ^ (h.fn.toNat % 4) → o + n ≤ fld ((s.core c).part.zeroExtend 64) 15 8 * 65536 →
      a = (128 - fld ((s.core c).part.zeroExtend 64) 7 0 - fld ((s.core c).part.zeroExtend 64) 15 8) * 65536 + o →
      (s.goes (.lldS h p) → (s.core c).poisonIn a n = none →
        s.completes (.lldS h p) 4 .next (s.draw.post 4 [.g p.d.toNat (extended (h.fn &&& 7) n ((s.core c).pool.le a n)) false]))
      ∧ (s.goes (.lstS h p) → s.completes (.lstS h p) 4 .next (s.draw.poolStore c none (placeLE a n (s.me.getG p.d.toNat).toNat) [] [])))
    ∧ (∀ o va : Nat, (o : Int) = (s.me.getG 62).toInt + p.imm.toInt → n = 2 ^ (h.fn.toNat % 4) → (s.core c).spillBytes ≤ o →
      va = (s.core c).ovfptr + (o - (s.core c).spillBytes) →
      ∀ q : Page, (∀ k, k < n → ((s.core c).pin.find? fun q => q.base ≤ va + k && va + k < q.base + 2 ^ q.lg) = some q) →
      let e := s.draw.before (q.kind == 0) false 0
      (s.goes (.lldS h p) → (∀ k, k < n → s.linePoisoned (physOf q va + k) = false) →
        s.completes (.lldS h p) (340 + s.hopN) .next ((e.post (340 + s.hopN)
          [.g p.d.toNat (extended (h.fn &&& 7) n (e.leAs s.cur.hart (physOf q va) n)) false, .hot 0 n 0,
           s.draw.via (.lldS h p) va ((List.range n).map (physOf q va + ·))]).takeShare true 1))
      ∧ (s.goes (.lstS h p) →
        s.completes (.lstS h p) (340 + s.hopN) .next (((s.draw.before (q.kind == 0) (q.kind == 0) 4).store (340 + s.hopN)
          (placeLE (physOf q va) n (s.me.getG p.d.toNat).toNat) (List.replicate n q.kind) [] [.hot 0 0 n]).takeShare true 1)))

/-- QPUSH copies k elements from the pool into the entries from PC on at issue (DEDUCED, log 46) and claims them, TAIL following at the end of the Time, and meanwhile holds its source banks (DESIGN CHOICE, log 75); QPOP copies k filled entries from QC on to the pool by the end of its Time, HEAD following there (R80 to R82, R204). -/
def Obligations.QueueTransfers : Prop :=
  ∀ (h : Head) (p : PR) (s : State) (c : CoreId) (q : Queue) (a k nb : Nat), s.cur.hart = .core c → q = vget (s.core c).queues p.d.toNat {} →
    a = (s.me.getG p.a.toNat).toNat → k = p.imm.toNat → nb = k * 2 ^ q.lge → s.inflightPool c = [] → (s.core c).poison = [] →
    let at_ (cur m : Nat) : Nat := q.base + 2 ^ q.lge * ((cur + m / 2 ^ q.lge) % 2 ^ q.lgd) + m % 2 ^ q.lge
    (s.goes (.qpush h p) →
      let bs := (List.range nb).map fun m => (at_ q.pc m, (s.core c).pool.read (a + m))
      q.valid = true ∧ k ≤ (q.head + 2 ^ q.lgd + 65536 - q.pc) % 65536
      ∧ s.completes (.qpush h p) (4 + ceilDiv nb 512) .next
          (((s.draw.poolStore c none bs [] (wholeGranules bs)).modCore c fun x => x.setQueue p.d.toNat { q with pc := (q.pc + k) % 65536 }).post
            (4 + ceilDiv nb 512) [.qTail p.d.toNat k, .redo bs] [⟨a, nb, s.t0 + ceilDiv nb 512, s.t0, false⟩]))
    ∧ (s.goes (.qpop h p) →
      let bs := (List.range nb).map fun m => (a + m, (s.core c).pool.read (at_ q.qc m))
      q.valid = true ∧ k ≤ (q.tail + 65536 - q.qc) % 65536
      ∧ s.completes (.qpop h p) (4 + ceilDiv nb 512) .next
          ((s.draw.modCore c fun x => x.setQueue p.d.toNat { q with qc := (q.qc + k) % 65536 }).post
            (4 + ceilDiv nb 512) [.pool bs [] (wholeGranules bs), .qHead p.d.toNat k]))

/-- LARM sets TARGET and clears COUNT, FLAGS and CHK, leaving GEN (R205); LPOLL gives GEN, FLAGS and CHK 4 cycles on (R206); an LWAIT that issues has found GEN at g or up to 32,767 past it (R207); both contain a FENCE at the scope of the copies whose credits they find, the widest that the advances of GEN have counted (R134; DEDUCED, log 49), a LARM starting the count of the next advance anew. ECHK arms and ECHK.OFF disarms the granules of its range at issue (R209; DEDUCED, log 46), and a local read of an armed granule raises EARLY_READ with the lowest of them. -/
def Obligations.LandingsAndEarlyReads : Prop :=
  (∀ (h : Head) (p : PR) (s : State) (c : CoreId) (a : Nat), s.cur.hart = .core c → a = (s.me.getG p.a.toNat).toNat →
    let arm (t : Nat) := placeLE a 4 t ++ placeLE (a + 4) 4 0 ++ placeLE (a + 10) 2 0 ++ placeLE (a + 12) 4 0
    (s.goes (.larm h p) → s.completes (.larm h p) 1 .next ((s.draw.poolStore c none (arm p.imm.toNat) [] []).modCore c fun k => k.setScopes a ((k.scopes a).1, 0)))
    ∧ (s.goes (.larmG h p) → s.completes (.larmG h p) 1 .next ((s.draw.poolStore c none (arm ((s.me.getG p.b.toNat).toNat % 2 ^ 32)) [] []).modCore c fun k => k.setScopes a ((k.scopes a).1, 0)))
    ∧ (s.goes (.lpoll h p) → s.me.acc ≤ s.t0 ∧ s.completes (.lpoll h p) 4 .next ((s.draw.settle s.cur.hart (s.landingScope c a)).post 4 [.g p.d.toNat (BitVec.ofNat 64 (s.landingNow c a / 2 ^ 64)) false]))
    ∧ (s.goes (.lwait h p) → (s.landingNow c a / 2 ^ 64 % 65536 + 65536 - p.imm.toNat % 65536) % 65536 < 32768
        ∧ s.me.acc ≤ s.t0 ∧ s.completes (.lwait h p) 4 .next (s.draw.settle s.cur.hart (s.landingScope c a)))
    ∧ (∀ m, s.transit = [] → s.inflightPool c = [] → m = (s.core c).pool → a + 16 ≤ 2 ^ 23 → s.landingNow c a = m.le a 16))
  ∧ (∀ (h : Head) (p : PR) (s : State) (c : CoreId), s.cur.hart = .core c →
    let a := (s.me.getG p.a.toNat).toNat
    let gs := (List.range (p.imm.toNat / 64)).map fun k => a + 64 * k
    (s.goes (.echk h p) → s.completes (.echk h p) 1 .next (s.draw.modCore c fun k => { k with
        echk := gs ++ k.echk.filter fun g => !gs.contains g }))
    ∧ (s.goes (.echkOff h p) → s.completes (.echkOff h p) 1 .next (s.draw.modCore c fun k => { k with echk := k.echk.filter fun g => !gs.contains g }))
    ∧ (∀ (rs : List (Nat × Nat)) (g : Nat), g ∈ (s.core c).echk → (∃ r, r ∈ rs ∧ g < r.1 + r.2 ∧ r.1 < g + 64) →
        ∃ g', g' ≤ g ∧ g' ∈ (s.core c).echk ∧ s.earlyRead rs = .trap ⟨0x0D, g', 0⟩)
    ∧ (∀ rs : List (Nat × Nat), (∀ g r, g ∈ (s.core c).echk → r ∈ rs → r.1 + r.2 ≤ g ∨ g + 64 ≤ r.1) → s.earlyRead rs = .ok))

/-! ### Tiles, gathers, split words -/

namespace Sys2Proof.Machine

/-- Bytes of element (i, j) of a region whose elements are not Q4N: BASE + i × RSTR + j × ESTR × size (R154). -/
def elementAt (r : Region) (i j : Nat) : Int := (r.base : Int) + i * r.rstr + j * r.estr * (fmtBytes r.fmt : Int)

end Sys2Proof.Machine

/-- TLD, whose bytes are read in the cycle of issue (DEDUCED, log 41), moves a tile into its region, or into the next slot of its ring, by the end of 340 + hop_N + c cycles; a ring form advances FC at issue and TAIL at the end; the destination's banks are locked over the Time (R75, R195 to R197); of a Q4N row of odd count the last high nibble stays (R196). Element (i, j) of an unclipped tile that is not Q4N comes from v + s64(g[B]) + i × GSTR + j × size. TST moves a region's tile to memory, where it stands from issue on (DESIGN CHOICE, log 13), holding its banks against writes while it reads them (DESIGN CHOICE, log 75; R195 to R197). Element (i, j) of a tile that is not Q4N goes to v + s64(g[B]) + i × GSTR + j × size, and nothing is stored outside the tile's bytes. -/
def Obligations.TileTransfers : Prop :=
  (∀ (h : Head) (p : PR) (s : State) (c : CoreId), s.cur.hart = .core c → s.goes (.tld h p) →
    let r := (tileRegion h p s).1
    let ri := p.imm.toNat / 2 ^ 25 % 16
    let fill := h.fn.getLsbD 1
    let a := s.resolve (s.me.getH p.a.toNat) p.a.toNat ((tileAddrs p r r.rows r.cnt s).map fun x => (x, r.eb)) { r := true, ord := p.ord, clip := h.fn.getLsbD 0 }
    let e := s.draw.before a.so false 0
    let ps := pairUp (r.unitAddrs r.rows r.cnt) a
    let gone (k : Nat) : Nat := if fill then ((ps.take k).filter (·.bs.isEmpty)).length else 0
    let odd := ((r.oddEnds r.rows r.cnt).filter fun k => !(fill && (ps[k]?).any (·.bs.isEmpty))).map fun k => k - gone k
    let w := splitOdd odd (loadBytes e r.eb fill ps)
    let effs : List Eff := [.pool w.1 (loadBad s r.eb ps) (wholeGranules w.1), .nib w.2, .hot r.buf (moved r.eb ps) 0, viaOf ps]
    let cy := Nat.max 1 (ceilDiv (r.bytes r.rows r.cnt) (s.core c).share)
    let t := s.globalTime a.timed cy
    (h.fn.getLsbD 2 = false → s.completes (.tld h p) t .next ((e.post t effs).takeShare a.timed cy))
    ∧ (h.fn.getLsbD 2 = true → s.completes (.tld h p) t .next
        (((e.modCore c fun k => { k with rings := vmod k.rings ri fun x => { x with fc := (x.fc + 1) % 256 } }).post t (effs ++ [.ringTail ri 1])).takeShare a.timed cy))
    ∧ (a.timed = true → t = 340 + s.hopN + cy)
    ∧ (h.fn.toNat % 4 = 0 → isQ4 r.fmt = false → ∀ (i j k : Nat) (q : Page), i < r.rows → j < r.cnt → k < r.eb →
        (∀ m : Nat, m < r.eb → (s.me.getH p.a.toNat).pageOf (((s.me.getH p.a.toNat).v : Int) + (s.me.getG p.b.toNat).toInt + i * (p.imm.extractLsb' 0 25).toInt + j * r.eb + m) = some q) →
        ((elementAt r i j).toNat + k,
          e.byteAs s.cur.hart (physOf q (((s.me.getH p.a.toNat).v : Int) + (s.me.getG p.b.toNat).toInt + i * (p.imm.extractLsb' 0 25).toInt + j * r.eb) + k)) ∈ w.1))
  ∧ (∀ (h : Head) (p : PR) (s : State) (c : CoreId), s.cur.hart = .core c → s.goes (.tst h p) →
    let r := (s.core c).region p.d.toNat
    let a := tstAcc h p r s
    let ps := pairUp (r.unitAddrs r.rows r.cnt) a
    let bs := tstBytes r r.rows r.cnt ps s.draw
    let cy := Nat.max 1 (ceilDiv (r.bytes r.rows r.cnt) (s.core c).share)
    let t := s.globalTime a.timed cy
    s.completes (.tst h p) t .next
      (((s.draw.before a.so (a.so || ordReleases p) (p.imm.toNat / 2 ^ 29)).store t bs (storeKinds ps) (storeBad (s.core c) r.eb ps) [.hot r.buf 0 (moved r.eb ps)]
        (srcsOf (r.ranges r.rows r.cnt) s.t0 (s.t0 + ceilDiv (r.bytes r.rows r.cnt) 512))).takeShare a.timed cy)
    ∧ (∀ u, s.memOk → exec (.tst h p) s = .next u → ∀ b, (∀ x, x ∈ a.bytes → x.2 ≠ b) → u.mem.read b = s.mem.read b)
    ∧ (isQ4 r.fmt = false → s.inflightPool c = [] → ∀ (i j k : Nat) (q : Page), i < r.rows → j < r.cnt → k < r.eb →
        (∀ m : Nat, m < r.eb → (s.me.getH p.a.toNat).pageOf (((s.me.getH p.a.toNat).v : Int) + (s.me.getG p.b.toNat).toInt + i * (p.imm.extractLsb' 0 25).toInt + j * r.eb + m) = some q) →
        (physOf q (((s.me.getH p.a.toNat).v : Int) + (s.me.getG p.b.toNat).toInt + i * (p.imm.extractLsb' 0 25).toInt + j * r.eb) + k,
          (s.core c).pool.read ((elementAt r i j).toNat + k)) ∈ bs))

/-- GATH and SCAT move the elements that their index region names, element (i, j) at v + displacement + index × size; a poisoned index stops the transfer at the beat of its read with DATA_POISON (R198, R416), the cycle and what is resolved before it being log 79's (DESIGN CHOICE) and the elements before it moving or not (DESIGN CHOICE, log 4); reads are made and stores stand as of issue (DEDUCED, log 41; DESIGN CHOICE, log 13). LDSW joins an upper half and a lower half of 2 bytes into words of the pool, LDSW.H leaves the lower half zero, and STSW writes both halves, element by element, the upper half of each first (R90, R199). -/
def Obligations.GathersScattersSplitWords : Prop :=
  (∀ (h : Head) (p : PR) (s : State) (c : CoreId), s.cur.hart = .core c →
    let q := gsOf p s.draw
    let cy := Nat.max (Nat.max 1 (q.r.rows * q.r.cnt)) (ceilDiv (q.r.bytes q.r.rows q.r.cnt) (s.core c).share)
    let xs := srcsOf (q.x.ranges q.r.rows q.r.cnt) s.t0 (s.t0 + ceilDiv (q.x.bytes q.r.rows q.r.cnt) 512)
    let al := gsAcc h p q false s
    let el := s.draw.before al.so false 0
    let pl := pairUp q.els al
    let bl := loadBytes el q.r.eb (h.fn.getLsbD 1) pl
    let as := gsAcc h p q true s
    let es := s.draw.before as.so (as.so || ordReleases p) (p.imm.toNat / 2 ^ 29)
    let pst := pairUp q.els as
    (s.goes (.gath h p) → q.stop = none → s.completes (.gath h p) (s.globalTime al.timed cy) .next
      ((el.post (s.globalTime al.timed cy) [.pool bl (loadBad s q.r.eb pl) (wholeGranules bl), .hot q.r.buf (moved q.r.eb pl) 0, viaOf pl] xs).takeShare al.timed cy))
    ∧ (s.goes (.scat h p) → q.stop = none → s.completes (.scat h p) (s.globalTime as.timed cy) .next
      ((es.store (s.globalTime as.timed cy) (storeBytes s.draw c q.r.eb pst) (storeKinds pst) (storeBad (s.core c) q.r.eb pst) [.hot q.r.buf 0 (moved q.r.eb pst)]
        (xs ++ srcsOf (q.r.ranges q.r.rows q.r.cnt) s.t0 (s.t0 + ceilDiv (q.r.bytes q.r.rows q.r.cnt) 512))).takeShare as.timed cy))
    ∧ (∀ j g, s.goes (.gath h p) → q.stop = some (j, g) → s.completes (.gath h p) (s.globalTime al.timed cy) .next
      (((el.post (j * q.x.eb / 512) [.pool (loadBytes el q.r.eb (h.fn.getLsbD 1) (mayMove s.draw.free pl)) (loadBad s q.r.eb (mayMove s.draw.free pl)) [], viaOf (mayMove s.draw.free pl)]).postDetect
        (.gath h p) (j * q.x.eb / 512) ⟨0x0E, g, 31 * 2 ^ 16⟩ 0 false).takeShare al.timed cy))
    ∧ (∀ j g, s.goes (.scat h p) → q.stop = some (j, g) → s.completes (.scat h p) (s.globalTime as.timed cy) .next
      (((es.store (j * q.x.eb / 512) (storeBytes s.draw c q.r.eb (mayMove s.draw.free pst)) (storeKinds (mayMove s.draw.free pst))
        (storeBad (s.core c) q.r.eb (mayMove s.draw.free pst)) []).postDetect
        (.scat h p) (j * q.x.eb / 512) ⟨0x0E, g, 31 * 2 ^ 16⟩ 0 false).takeShare as.timed cy)))
  ∧ (∀ (h : Head) (p : PR) (s : State) (c : CoreId), s.cur.hart = .core c →
    let r := (s.core c).region p.d.toNat
    let cy := Nat.max 1 (ceilDiv (2 * (r.rows * r.cnt)) (s.core c).share)
    let els := r.unitAddrs r.rows r.cnt
    let joined (hi lo : List (Nat × Byte)) := (List.range (r.rows * r.cnt)).flatMap fun k => (lo.drop (2 * k)).take 2 ++ (hi.drop (2 * k)).take 2
    (s.goes (.ldsw h p) →
      let q := swOf p false false s
      let e := s.draw.before q.so false 0
      let bs := joined (loadBytes e 2 false ((pairUp els q.up).map fun x => { x with a := x.a + 2 })) (loadBytes e 2 false (pairUp els q.lo))
      let t := s.globalTime (q.up.timed && q.lo.timed) cy
      s.completes (.ldsw h p) t .next ((e.post t [.pool bs (loadBad s 4 (pairUp els q.up) ++ loadBad s 4 (pairUp els q.lo)) (wholeGranules bs),
        .hot r.buf (2 * (r.rows * r.cnt) * 2) 0, viaOf (pairUp els q.up ++ pairUp els q.lo)]).takeShare (q.up.timed && q.lo.timed) cy))
    ∧ (s.goes (.ldswH h p) →
      let q := swOf p true false s
      let e := s.draw.before q.up.so false 0
      let bs := joined (loadBytes e 2 false ((pairUp els q.up).map fun x => { x with a := x.a + 2 })) (els.flatMap fun a => [(a, 0), (a + 1, 0)])
      let t := s.globalTime q.up.timed cy
      s.completes (.ldswH h p) t .next ((e.post t [.pool bs (loadBad s 4 (pairUp els q.up)) (wholeGranules bs),
        .hot r.buf (2 * (r.rows * r.cnt)) 0, viaOf (pairUp els q.up)]).takeShare q.up.timed cy))
    ∧ (s.goes (.stsw h p) →
      let q := swOf p false true s
      let ps := ((pairUp els q.up).zip (pairUp els q.lo)).flatMap fun x => [{ x.1 with a := x.1.a + 2 }, x.2]
      let t := s.globalTime (q.up.timed && q.lo.timed) cy
      s.completes (.stsw h p) t .next (((s.draw.before q.so (q.so || ordReleases p) (p.imm.toNat / 2 ^ 29)).store t (storeBytes s.draw c 2 ps) (storeKinds ps)
        (storeBad (s.core c) 2 ps) [.hot r.buf 0 (4 * (r.rows * r.cnt))]
        (srcsOf (r.ranges r.rows r.cnt) s.t0 (s.t0 + ceilDiv (r.bytes r.rows r.cnt) 512))).takeShare (q.up.timed && q.lo.timed) cy)))

/-! ### Floating-point results -/

namespace Sys2Proof.Machine

/-! What a floating-point result is, from the exact values that bits stand for (FFmt.read, R95) and one rounding (FFmt.roundQ, R99), written apart from the model's element functions. Values are multiples of 2^-149. -/

/-- An exact v / den rounded once to a format; z says whether an exact zero is negative (R99). -/
def exactTo (f : FFmt) (rm : Nat) (sat : Bool) (v : Int) (den : Nat) (z : Bool) : Nat :=
  if v = 0 then f.sign z 0 else (f.roundQ rm sat (v < 0) v.natAbs den).1
/-- An infinity in a format, FP8E4 having none (R99). -/
def infTo (f : FFmt) (sat n : Bool) : Nat := if f.noInf then (if sat then f.sign n f.maxBits else f.canon) else f.sign n f.infBits
/-- x + y (R99, R221): infinities of one sign, a finite sum exact and rounded once, a zero of two signs by the mode. -/
def sumTo (f : FFmt) (rm : Nat) (sat : Bool) (x y : FV) : Nat :=
  match x, y with
  | .fin a _, .fin b _ => exactTo f rm sat (x.int + y.int) (2 ^ 149) (if a = b then a else rm == 3)
  | .inf a, .inf b => if a = b then infTo f sat a else f.canon
  | .inf a, .fin _ _ => infTo f sat a
  | .fin _ _, .inf b => infTo f sat b
  | _, _ => f.canon
/-- x × y (R221). -/
def productTo (f : FFmt) (rm : Nat) (sat : Bool) (x y : FV) : Nat :=
  if x.isNan || y.isNan then f.canon
  else match x, y with
    | .fin a _, .fin b _ => exactTo f rm sat (x.int * y.int) (2 ^ 298) (a != b)
    | _, _ => if x.isZero || y.isZero then f.canon else infTo f sat (x.neg != y.neg)
/-- x × y + z with one rounding (R221). -/
def fusedTo (f : FFmt) (rm : Nat) (sat : Bool) (x y z : FV) : Nat :=
  if x.isNan || y.isNan || z.isNan then f.canon
  else match x, y, z with
    | .fin a _, .fin b _, .fin c _ => exactTo f rm sat (x.int * y.int + z.int * 2 ^ 149) (2 ^ 298) (if (a != b) = c then c else rm == 3)
    | .fin _ _, .fin _ _, w => infTo f sat w.neg
    | _, _, w =>
      if x.isZero || y.isZero then f.canon
      else match w with
        | .inf c => if c = (x.neg != y.neg) then infTo f sat c else f.canon
        | _ => infTo f sat (x.neg != y.neg)
/-- A value in another format (R96, R99, R228). -/
def valueTo (f : FFmt) (rm : Nat) (sat : Bool) (x : FV) : Nat :=
  match x with
  | .nan _ => f.canon
  | .inf n => infTo f sat n
  | .fin n _ => exactTo f rm sat x.int (2 ^ 149) n
/-- v / den rounded to an integer (R98). -/
def nearestInt (rm : Nat) (v : Int) (den : Nat) : Int := if v < 0 then -(roundDiv rm true v.natAbs den : Int) else roundDiv rm false v.natAbs den
/-- A value below another, infinities and both zeros ordered; no NaN orders (R222, R225). -/
def valueBelow (x y : FV) : Bool :=
  match x, y with
  | .nan _, _ | _, .nan _ => false
  | .inf a, .inf b => a && !b
  | .inf a, .fin _ _ => a
  | .fin _ _, .inf b => !b
  | .fin a _, .fin b _ => decide (x.int < y.int) || (decide (x.int = y.int) && a && !b)
/-- Two values equal, the two zeros equal too, no NaN (R225). -/
def valueSame (x y : FV) : Bool :=
  match x, y with
  | .inf a, .inf b => a == b
  | .fin _ _, .fin _ _ => decide (x.int = y.int)
  | _, _ => false
/-- 1 / x and 1 / sqrt(x) to 12 significant bits and then to a format, subnormals of the source format read as zeros (R97, R229); the square root is carried as log 51 says (DESIGN CHOICE). -/
def approxTo (fa f : FFmt) (rsq : Bool) (rm : Nat) (sat : Bool) (x : FV) : Nat :=
  match x with
  | .nan _ => f.canon
  | .inf n => if rsq && n then f.canon else f.sign n 0
  | .fin n k =>
    if k < 2 ^ (150 - fa.bias) then f.sign n f.infBits
    else if rsq && n then f.canon
    else let q := if rsq then rsqrtQ k else (2 ^ 149, k); let y := sig12 q.1 q.2; (f.roundQ rm sat (n && !rsq) y.1 y.2).1
/-- One Newton step from y, whose bits are b (R230). -/
def newtonTo (rsq : Bool) (rm : Nat) (sat : Bool) (x y : FV) (b : Nat) : Nat :=
  match x, y with
  | _, .nan _ | _, .inf _ | _, .fin _ 0 => b
  | .nan _, _ => fp32.canon
  | .inf n, .fin m _ => fp32.sign (if rsq then n == m else !n) fp32.infBits
  | x, y => if rsq then exactTo fp32 rm sat (y.int * (3 * 2 ^ 447 - x.int * y.int * y.int)) (2 ^ 597) (rm == 3)
    else exactTo fp32 rm sat (y.int * (2 ^ 299 - x.int * y.int)) (2 ^ 447) (rm == 3)
/-- 2^x, log2 x and tanh x rounded once (R231); what is not exact is carried as log 51 says (DESIGN CHOICE). -/
def exp2To (f : FFmt) (rm : Nat) (sat : Bool) (x : FV) : Nat :=
  match x with
  | .nan _ => f.canon
  | .inf n => if n then 0 else f.infBits
  | y => (f.roundQ rm sat false (exp2Q y.int).1 (exp2Q y.int).2).1
def log2To (f : FFmt) (rm : Nat) (sat : Bool) (x : FV) : Nat :=
  match x with
  | .nan _ => f.canon
  | .inf n => if n then f.canon else f.infBits
  | .fin n k => if k = 0 then f.sign true f.infBits else if n then f.canon
    else exactTo f rm sat (if (log2Q k).1 then -((log2Q k).2.1 : Int) else (log2Q k).2.1) (log2Q k).2.2 false
def tanhTo (f : FFmt) (rm : Nat) (sat : Bool) (x : FV) : Nat :=
  match x with
  | .nan _ => f.canon
  | .inf n => (f.roundQ rm sat n 1 1).1
  | .fin n k => if k = 0 then f.sign n 0 else (f.roundQ rm sat n (tanhQ k).1 (tanhQ k).2).1

/-! The pairwise tree of R113 and the running sums of R114, in FP32. -/

def joined (rm : Nat) : Option Nat → Option Nat → Option Nat
  | x, none => x
  | none, y => y
  | some a, some b => some (sumTo fp32 rm false (fp32.read a) (fp32.read b))
def pairTree (rm : Nat) (leaf : Nat → Option Nat) : Nat → Nat → Option Nat
  | 0, j => leaf j
  | L + 1, j => joined rm (pairTree rm leaf L (2 * j)) (pairTree rm leaf L (2 * j + 1))
def runningSum (rm : Nat) (leaf : Nat → Option Nat) : Nat → Nat
  | 0 => (leaf 0).getD 0
  | j + 1 => match leaf (j + 1) with
    | none => runningSum rm leaf j
    | some x => sumTo fp32 rm false (fp32.read (runningSum rm leaf j)) (fp32.read x)

/-! Quantisation (R108 to R110, R237, R238). -/

/-- The grid of R108 in 64ths. -/
def grid64 (i : Nat) : Nat := [0, 5, 11, 17, 25, 33, 45, 64].getD i 0
/-- j / k on the grid (R98, R109): nearest, a tie to the larger value, or in RNE to the even index (DESIGN CHOICE, log 81); the directed modes by the sign. -/
def gridIndex (rm : Nat) (neg : Bool) (j k i : Nat) : Prop :=
  let far (t : Nat) : Nat := ((64 * j : Int) - grid64 t * k).natAbs
  let below : Prop := grid64 i * k ≤ 64 * j ∧ ∀ t, t < 8 → grid64 t * k ≤ 64 * j → t ≤ i
  let above : Prop := 64 * j ≤ grid64 i * k ∧ ∀ t, t < 8 → 64 * j ≤ grid64 t * k → i ≤ t
  i < 8 ∧ if k < j then i = 7
    else match rm with
      | 0 => ∀ t, t < 8 → t ≠ i → far i < far t ∨ (far i = far t ∧ i % 2 = 0)
      | 1 => ∀ t, t < 8 → t ≠ i → far i < far t ∨ (far i = far t ∧ t < i)
      | 2 => below
      | 3 => if neg then above else below
      | _ => if neg then below else above
/-- A Q4N code of x under scale s; none is named under a NaN scale (DESIGN CHOICE, log 16). -/
def codeIs (rm : Nat) (x s : FV) (c : Nat) : Prop :=
  match x, s with
  | .nan _, _ => c = 0
  | _, .nan _ => True
  | .inf a, .inf b => c = if a = b then 7 else 15
  | .inf a, .fin b k => c = if k = 0 then 0 else if a = b then 7 else 15
  | .fin _ _, .inf _ => c = 0
  | .fin a j, .fin b k => if k = 0 then c = 0 else ∃ i, gridIndex rm (a != b) j k i ∧ c = if i = 0 then 0 else if a = b then i else 8 + i
/-- x / s in FP8E4, saturated (R237). -/
def ratioTo (rm : Nat) (x s : FV) : Nat :=
  match x, s with
  | .nan _, _ => fp8e4.canon
  | _, .fin _ 0 => 0
  | _, .nan _ => fp8e4.canon
  | .fin a _, .inf b => fp8e4.sign (a != b) 0
  | .inf a, .inf b | .inf a, .fin b _ => fp8e4.sign (a != b) fp8e4.maxBits
  | .fin a j, .fin b k => exactTo fp8e4 rm true (if a = b then j else -(j : Int)) k (a != b)
/-- A Q4N code under a scale in a format (R110). -/
def codeTo (f : FFmt) (rm : Nat) (sat : Bool) (c : Nat) (s : FV) : Nat :=
  if c % 8 = 0 then 0 else productTo f rm sat (.fin (8 ≤ c) (grid64 (c % 8) * 2 ^ 143)) s

/-- Byte k of a number. -/
def byteOf (v k : Nat) : Byte := BitVec.ofNat 8 (v / 2 ^ (8 * k))

/-! The row computations of R293 in FP32, every rounding RNE. -/

/-- m is the maximum of a row, NaN when an element is. -/
def rowTop (xs : List FV) (m : Nat) : Prop :=
  ((∃ x, x ∈ xs ∧ x.isNan = true) ∧ m = fp32.canon)
  ∨ ((∀ x, x ∈ xs → x.isNan = false) ∧ ∃ x, x ∈ xs ∧ m = valueTo fp32 0 false x ∧ ∀ y, y ∈ xs → valueBelow x y = false)
def sum32 (a b : Nat) : Nat := sumTo fp32 0 false (fp32.read a) (fp32.read b)
/-- exp(x) for x not above 0; carried as log 51 says (DESIGN CHOICE). -/
def expTo (x : FV) : Nat :=
  match x with
  | .nan _ => fp32.canon
  | .inf n => if n then 0 else fp32.infBits
  | .fin _ k => if k = 0 then 0x3F800000 else (fp32.roundQ 0 false false (expNegQ k).1 (expNegQ k).2).1
/-- 1 / x and 1 / sqrt(x), rounded once. -/
def overTo (x : FV) : Nat :=
  match x with
  | .nan _ => fp32.canon
  | .inf n => fp32.sign n 0
  | .fin n k => if k = 0 then fp32.sign n fp32.infBits else (fp32.roundQ 0 false n (2 ^ 149) k).1
def overRootTo (x : FV) : Nat :=
  match x with
  | .nan _ => fp32.canon
  | .inf n => if n then fp32.canon else 0
  | .fin n k => if k = 0 then fp32.sign n fp32.infBits else if n then fp32.canon else (fp32.roundQ 0 false false (rsqrtQ k).1 (rsqrtQ k).2).1
/-- x / n for a count. -/
def shareTo (x : FV) (n : Nat) : Nat :=
  match x with
  | .nan _ => fp32.canon
  | .inf s => fp32.sign s fp32.infBits
  | .fin s _ => exactTo fp32 0 false x.int (n * 2 ^ 149) s
/-- SMAX of a row with maximum m: the exponentials, their sum, and the results in a format. -/
def smaxExps (xs : List FV) (m : Nat) : List Nat := xs.map fun x => expTo (fp32.read (sumTo fp32 0 false x (fp32.read m).flip))
def smaxSum (xs : List FV) (m : Nat) : Nat := (smaxExps xs m).foldl sum32 0
def smaxAt (f : FFmt) (xs : List FV) (m j : Nat) : Nat :=
  productTo f 0 false (fp32.read ((smaxExps xs m).getD j 0)) (fp32.read (overTo (fp32.read (smaxSum xs m))))
/-- RMS of a row: the sum of squares, the factor, and the results. -/
def rmsSum (xs : List FV) : Nat := xs.foldl (fun t x => fusedTo fp32 0 false x x (fp32.read t)) 0
def rmsFactor (xs : List FV) (eps : Nat) : Nat := overRootTo (fp32.read (sum32 (shareTo (fp32.read (rmsSum xs)) xs.length) eps))
def rmsAt (f : FFmt) (xs : List FV) (eps j : Nat) : Nat := productTo f 0 false (xs.getD j (.fin false 0)) (fp32.read (rmsFactor xs eps))

end Sys2Proof.Machine

/-! ### Copies, the row engine, the ferry -/

namespace Sys2Proof.Machine

/-- The four copy commands: payload, start cycle, and MODE and checksum slot of a checked one (R282, R287). -/
def copyOf (s : State) : Instr → Option (PR × Nat × Option (Nat × Nat))
  | .cpy _ p => some (p, s.t0 + p.imm.toNat, none)
  | .cpyAbs _ p => some (p, (s.me.getG p.b.toNat).toNat % 2 ^ 48, none)
  | .cpyx h p => some (p, s.t0 + p.imm.toNat, some (h.fn.toNat % 4, p.x.toNat % 4))
  | .cpyxAbs h p => some (p, (s.me.getG p.b.toNat).toNat % 2 ^ 48, some (h.fn.toNat % 4, p.x.toNat % 4))
  | _ => none

/-- What two ferry states of a level share but for its open wait. -/
def Ferry.closed (f : Ferry) : Ferry := { f with open_ := false, arrw := false }

end Sys2Proof.Machine

/-- A copy command takes one of 32 entries, in ascending order of T and issue order among equals, with its descriptor's bytes and the handles as they stand; an enabled timeline counter gives it the next ticket; a checked copy's slot is pending to the end of its interval, and a timed one reserves the share over it (R280 to R285, R289). The interval begins at T or later, where it meets no interval of the core's earlier copies, nor, for one that takes the share, a reservation of it (R284). T lies ahead modulo 2^48 or, for a late one, is the next cycle. -/
def Obligations.CopyCommands : Prop :=
  ∀ (i : Instr) (p : PR) (start da : Nat) (crc : Option (Nat × Nat)) (s : State) (c : CoreId) (bs : List Byte) (q : CopyPlan) (d : Desc),
    copyOf s i = some (p, start, crc) → s.cur.hart = .core c → s.goes i → s.inflightPool c = [] → da = (s.me.getG p.a.toNat).toNat →
    bs = (s.core c).pool.bytes da (Nat.min (32 + 16 * (((s.core c).pool.read (da + 16)).toNat % 16)) (2 ^ 23 - da)) → d = descOf bs → q = copyPlan d s.t0 start s →
    da % 64 = 0 ∧ (s.core c).copies.length < 32
    ∧ (∀ k, start = s.t0 + k → 0 < k → k < 2 ^ 47 → q.t = s.t0 + k)
    ∧ q.t ≤ q.u ∧ (q.n ≠ 0 → ∀ r, r ∈ (s.core c).spans ∨ (q.share = true ∧ r ∈ (s.core c).shares) → q.u + q.n ≤ r.1 ∨ r.2 ≤ q.u)
    ∧ (∃ e : Copy, s.completes i 1 .next (s.draw.modCore c fun k => { k with
          copies := (k.copies.filter (·.t ≤ q.t)) ++ e :: k.copies.filter (q.t < ·.t)
          tl := if d.tle then vmod k.tl d.tlix fun x => { x with iss := x.iss + 1 } else k.tl
          ckBusy := (match crc with | some (_, slot) => vset k.ckBusy slot (q.u + Nat.max 1 q.n) | none => k.ckBusy)
          spans := if q.n != 0 then k.spans ++ [(q.u, q.u + q.n)] else k.spans
          shares := if q.share && q.n != 0 then k.shares ++ [(q.u, q.u + q.n)] else k.shares })
        ∧ e.desc = bs ∧ e.word = encode i ∧ e.issue = s.t0 ∧ e.t = q.t ∧ e.u = q.u ∧ e.n = q.n ∧ e.crc = crc ∧ e.started = false
        ∧ e.ticket = (if d.tle then some (d.tlix, (vget (s.core c).tl d.tlix {}).iss + 1) else none)
        ∧ (d.sk = true → e.sh = s.me.getH d.sh) ∧ (d.dk = 2 → e.dh = s.me.getH d.dh)
        ∧ (∀ n, q.pub = some n → e.land = q.u + n ∧ e.pub = true))

/-- ROWE completes (R292 to R294): it takes (r + 2) b + 26 cycles for SMAX and (r + 1) b + 12 for RMS, where a row of n elements takes b = ceil(n / 128) beats; it occupies the row engine over its Time and clears ROWPROG. The results of beat u of row j are pending to the cycle of that beat in the row's SCALE pass, the statistics with the row's last beat; where no source is poisoned, every row has its entries. Their values are R293's: SMAX gives exp(x - m) / s with m and s as statistics, RMS x / sqrt(t / n + eps) with t and the factor, sums in order of the elements and every step rounded to FP32 by RNE, the result to D's format. -/
def Obligations.RowEngine : Prop :=
  ∀ (i : Instr) (p : PR) (smax : Bool) (s : State) (c : CoreId), (∃ h, (i = .roweSmax h p ∧ smax = true) ∨ (i = .roweRms h p ∧ smax = false)) → s.cur.hart = .core c → s.goes i →
    let a := opndOf (s.core c) p.a.toNat 0
    let d := opndOf (s.core c) p.d.toNat 0
    let b := ceilDiv a.n 128
    let time := if smax then (a.rows + 2) * b + 26 else (a.rows + 1) * b + 12
    let e := rowePost i (roweOf smax p s) 0 ((s.draw.occupy 3 time).modCore c fun k => { k with rowProg := 0, rowBad := if smax then k.rowBad.filter (a.n ≤ ·) else k.rowBad })
    vget (s.core c).occ 3 0 ≤ s.t0 ∧ s.completes i time .next e
    ∧ vget (e.core c).occ 3 0 = s.t0 + time ∧ (e.core c).rowProg = 0 ∧ (e.core c).pool = (s.core c).pool ∧ (e.core c).st = (s.core c).st ∧ e.mem = s.mem
    ∧ (∀ x, x ∈ (e.cpu (.core c)).pend → x ∈ (s.cpu (.core c)).pend ∨ (x.strm = s.cur.strm ∧ x.issue = s.t0))
    ∧ ((∀ x, (s.core c).poisonIn x 1 = none) → ∀ j u, j < a.rows → u < b → ∃ x bs bad w, x ∈ (e.cpu (.core c)).pend ∧ x.strm = s.cur.strm ∧ x.issue = s.t0
        ∧ x.land + (b - 1 - u) = s.t0 + (if smax then (j + 3) * b + 26 else (j + 2) * b + 12) ∧ x.effs = [.pool bs bad w] ∧ bad = []
        ∧ (∀ k m, 128 * u ≤ k → k < 128 * (u + 1) → k < a.n → m < d.r.eb → ∃ v, ((d.r.addr j k).toNat + m, v) ∈ bs)
        ∧ (s.inflightPool c = [] → ∀ fa fd, fmtF a.r.fmt = some fa → fmtF d.r.fmt = some fd → ∀ m o,
            let xs := (List.range a.n).map fun y => fa.read ((s.core c).pool.le (a.r.addr j y).toNat a.r.eb)
            let st := opndOf (s.core c) p.b.toNat 0
            let stat (l v : Nat) : Prop := o < 4 → p.b ≠ 0x1FF → u + 1 = b → ((st.r.addr j l).toNat + o, byteOf v o) ∈ bs
            (smax = true → rowTop xs m →
              (∀ y, 128 * u ≤ y → y < 128 * (u + 1) → y < a.n → o < d.r.eb → ((d.r.addr j y).toNat + o, byteOf (smaxAt fd xs m y) o) ∈ bs)
              ∧ stat 0 m ∧ stat 1 (smaxSum xs m))
            ∧ (smax = false →
              (∀ y, 128 * u ≤ y → y < 128 * (u + 1) → y < a.n → o < d.r.eb → ((d.r.addr j y).toNat + o, byteOf (rmsAt fd xs p.imm.toNat y) o) ∈ bs)
              ∧ stat 0 (rmsSum xs) ∧ stat 1 (rmsFactor xs p.imm.toNat))))

/-- FERRY completes: an arrive form counts one more instance and opens it with its section fields; a wait form, issued once its member has resumed, closes it and orders what the core has read and written at its level's scope (R135); ARRW, in gated code, arrives at its first cycle and issues when its wait does (R296 to R299). All need a level of the domain and an instance closed, or open. A member's arrival is complete when its sections, its accesses and, for the copy form, its earlier copies are (R297), and the last of a part's at level 5 is announced to the fabric (R31); a domain all of whose members have arrived is released Δ cycles after the latest arrival, at levels 1 to 4 each member, atoll, island or the whole part by itself; level 5 takes the cycle at which the fabric's release reaches the part, which for a frozen part is the smallest stop point (DEDUCED, log 67); a member resumes at its sailing (R298), and each frozen level-5 wait at the end of the count owed to it (R62), the others going on. How writes are shown at a scope is log 13's. -/
def Obligations.FerryProtocol : Prop :=
  (∀ (h : Head) (p : PR) (s : State) (c : CoreId) (f : Ferry), s.cur.hart = .core c → f = (s.core c).fer p.x.toNat →
    let arrived (cp arrw : Bool) : Ferry := {
      count := f.count + 1, open_ := true, arrw := arrw, sa := p.imm.toNat % 1024, sv := p.imm.toNat / 1024 % 1024
      sm := p.imm.toNat / 2 ^ 20 % 1024, cp := cp, issued := s.t0, bits := 1, accs := (s.core c).cpu.acc, arrived := none, trel := none, resumed := false }
    (s.goes (.ferryArr h p) → p.x.toNat ≤ (s.core c).dom.toNat % 8 ∧ f.open_ = false
      ∧ s.completes (.ferryArr h p) 1 .next (s.draw.modCore c (·.modFer p.x.toNat fun _ => arrived (h.fn == 4) false)))
    ∧ (s.goes (.ferryWait h p) → p.x.toNat ≤ (s.core c).dom.toNat % 8 ∧ f.open_ = true ∧ f.resumed = true
      ∧ s.completes (.ferryWait h p) 1 .next ((s.draw.settle (.core c) (p.x.toNat - 1)).modCore c (·.modFer p.x.toNat Ferry.closed)))
    ∧ (s.goes (.ferryArrw h p) → f.arrw = true → f.resumed = true
      ∧ s.completes (.ferryArrw h p) 1 .next ((s.draw.settle (.core c) (p.x.toNat - 1)).modCore c (·.modFer p.x.toNat Ferry.closed)))
    ∧ (s.goes (.ferryArrw h p) → f.arrw = false → 1 ≤ p.x.toNat → p.x.toNat ≤ 5 → s.locked s.cur.hart s.cur.strm = false ∧ f.open_ = false
      ∧ ∃ t, exec (.ferryArrw h p) s = .next t ∧ (t.core c).fer p.x.toNat = arrived (h.fn == 6) true
        ∧ t.mem = s.mem ∧ (t.core c).pool = (s.core c).pool ∧ (t.core c).cpu.g = (s.core c).cpu.g ∧ (t.core c).cpu.pend = (s.core c).cpu.pend
        ∧ (t.stream (.core c) s.cur.strm).pc = (s.stream (.core c) s.cur.strm).pc ∧ (t.stream (.core c) s.cur.strm).tried = some s.t0))
  ∧ (∀ (s : State) (c : CoreId) (lvl : Nat) (l : Launch), s.launchOf c = some l →
    (s.memberReady c lvl = true → ∃ t u, t = (s.settle (.core c) (lvl - 1)).modCore c (·.modFer lvl fun f => { f with arrived := some (s.now (.core c) - 1) })
        ∧ exec (.memberArrival c lvl) s = .next u
        ∧ u = if lvl = 5 ∧ l.fbn ≠ 0 ∧ (∀ d, d ∈ l.members → ((t.core d).fer 5).arrived.isSome = true ∧ ((t.core d).fer 5).trel = none)
              then { t with out := s.out ++ [.release 5 l.lid] } else t)
    ∧ (s.memberReady c lvl = false → exec (.memberArrival c lvl) s = .next s)
    ∧ (s.memberReady c lvl = true ↔ ((s.core c).fer lvl).open_ = true ∧ ((s.core c).fer lvl).arrived = none ∧ ((s.core c).fer lvl).issued < s.now (.core c)
        ∧ (s.core c).ferryBits ((s.core c).fer lvl) = 15 ∧ ((s.core c).fer lvl).accs ≤ s.now (.core c)
        ∧ (((s.core c).fer lvl).cp = true → ∀ e, e ∈ (s.core c).copies → ((s.core c).fer lvl).issued ≤ e.issue))
    ∧ (∀ r, s.resumeAt c lvl = some r → r ≤ s.now (.core c) → exec (.memberResume c lvl) s = .next (s.modCore c (·.modFer lvl fun f => { f with resumed := true })))
    ∧ (∀ k, 1 ≤ lvl → lvl ≤ 4 → s.launch l.lid = some l →
        let mate (d e : CoreId) : Prop := e ∈ l.members ∧ (match lvl with | 1 => e = d | 2 => atollOf e = atollOf d | 3 => islandOf e = islandOf d | _ => True)
        let delta := match lvl with | 1 => 1 | 2 => 18 | 3 => 40 | _ => 96
        ∃ t, exec (.ferryRelease l.lid lvl k) s = .next t ∧ t.mem = s.mem
          ∧ (∀ d a, d ∈ l.members → (∀ e, mate d e → ((s.core e).fer lvl).trel = none ∧ ∃ x, ((s.core e).fer lvl).arrived = some x ∧ x ≤ a) →
              (∃ e, mate d e ∧ ((s.core e).fer lvl).arrived = some a) → a + delta ≤ l.sfc →
              t.core d = (s.core d).modFer lvl fun f => { f with trel := some (a + delta) })
          ∧ (∀ d, d ∈ l.members → (∃ e, mate d e ∧ (((s.core e).fer lvl).arrived = none ∨ ((s.core e).fer lvl).trel.isSome = true)) → t.core d = s.core d)
          ∧ (∀ d, d ∉ l.members → t.core d = s.core d))
    ∧ (∀ k, s.launch l.lid = some l → ∃ t, exec (.ferryRelease l.lid 5 k) s = .next t ∧ t.mem = s.mem
        ∧ ∀ d, d ∈ l.members → ((s.core d).fer 5).count = k → ((s.core d).fer 5).arrived.isSome = true → ((s.core d).fer 5).trel = none →
          ∃ n, ((t.core d).fer 5).trel = some n ∧ (l.frozen = false → n = l.sfc)
            ∧ (l.frozen = true → n ≤ l.sfc ∧ ∀ e x, e ∈ l.members → (s.core e).stop = some x → n ≤ x))
    ∧ (s.launch l.lid = some l → ∃ t, exec (.fabricWaitCountDone l.lid) s = .next t ∧ t.mem = s.mem
        ∧ (∀ d n x, Cause.ferry d n (some x) ∈ l.causes → x ≤ s.time → ((t.core d).fer 5).resumed = true)
        ∧ (∀ d, (∀ n x, Cause.ferry d n (some x) ∈ l.causes → s.time < x) → t.core d = s.core d)
        ∧ (∀ l', t.launch l.lid = some l' → ∀ x, x ∈ l'.causes ↔ x ∈ l.causes ∧ ∀ d n y, x = .ferry d n y → ∀ m z, Cause.ferry d m (some z) ∈ l.causes → s.time < z)))

/-- A copy begins (R281, R284, R286, R288): it is marked started, its places fixed; data for this part's pools travels to the core at its destination place with the landing's credit, data for global memory is written at once, its bytes on their way to the observers (log 13), and data for another part leaves over its passage port, as does a peer window's (R351), one bit of it inverted where PSINJ asks (R408). Bytes that the core has written since the copy's start stand over the copy's own (R117, R134), and the data leaves out what an earlier copy still to land would put over it. A copy clipped whole completes at its start. A checked copy's slot takes the checksum of what was sent at the end of its interval. -/
def Obligations.CopyStarts : Prop :=
  ∀ (s : State) (c : CoreId) (n : Nat) (e : Copy) (l : Launch), (s.core c).copies[n]? = some e → s.launchOf c = some l → e.started = false →
    let d := descOf e.desc
    let m := movedBy s c e
    let s1 := if d.sk then s.draw.closeRead (.core c) (e.units.flatMap fun u => u.src.getD []) else s.draw
    let begun (e' : Copy) (space : Nat) : State := s1.modCore c fun k => (k.setCopy n fun _ => e').overtake space e.t e.issue (m.bytes.map (·.1))
    let kept (space : Nat) (bs : List (Nat × Byte)) : List (Nat × Byte) := bs.filter fun b => !e.newer.contains (space, b.1)
    let written (u : State) (bytes : List (Nat × Byte)) : State :=
      let bs := (bytes.zip m.kinds).filter fun b => !e.newer.contains (0, b.1.1)
      (u.openWins (.core c) s.free true (bs.map (·.1)) (bs.map (·.2))).memPut (bs.map (·.1)) (m.bad.filter fun x => bs.any (·.1.1 == x))
    let armed (p o : Nat) : Prop := (s.port p).inj.getLsbD 0 = true ∧ o = fld (s.port p).inj 47 16 ∧ o < m.sent.length
    let struck (p o : Nat) : List Byte := m.sent.set o (m.sent.getD o 0 ^^^ BitVec.twoPow 8 (fld (s.port p).inj 10 8))
    (e.void = true → e.crc = none → exec (.copyStart c n) s = .next (s.modCore c fun k => (k.ticket e).dropCopy n))
    ∧ (e.void = false → d.dk = 2 → e.crc = none → (∀ v, v ∈ s.portsOf d m → (s.port v.1).inj.getLsbD 0 = false) → ∃ e',
        exec (.copyStart c n) s = .next (written (begun e' 0) m.bytes)
        ∧ e'.started = true ∧ e'.fr = s.free ∧ e'.dsts = m.dsts ∧ e'.land = e.land ∧ e'.ticket = e.ticket)
    ∧ (∀ p o, e.void = false → d.dk = 2 → e.crc = none → s.portsOf d m = (List.range m.sent.length).map (p, ·) → armed p o → ∃ e',
        exec (.copyStart c n) s = .next (written ((begun e' 0).modPort p fun q => { q with inj := (s.port p).inj &&& ~~~1 }) (m.resent (struck p o)))
        ∧ e'.started = true ∧ e'.land = e.land)
    ∧ (e.void = false → d.dk = 0 → e.crc = none → ∀ x y, destOf (s.core c) l d = some (x, y) → ∃ e' a,
        (let u := begun e' (1 + x + 256 * y)
         exec (.copyStart c n) s = .next { u with
          transit := giveWay u.transit c (fun t => (u.copyOfTransit t).all (·.before e)) a e.land ++ [⟨a, e.land, c, e.u, false⟩] })
        ∧ e'.started = true ∧ e'.land = e.land ∧ a.lid = l.lid ∧ a.rx = x ∧ a.ry = y ∧ a.bytes = kept (1 + x + 256 * y) m.bytes ∧ a.poison = m.bad ∧ a.sent = m.sent
        ∧ (d.le = true → a.credit = some ⟨d.land, d.e * d.count, if m.clipped then 2 else 0, none, d.scope⟩) ∧ (d.le = false → a.credit = none))
    ∧ (e.void = false → d.dk = 1 → ∀ k x y, s.route d.dpart = some k → destOf (s.core c) l d = some (x, y) →
        let space := 2 ^ 24 * (d.dpart + 1) + 1 + x + 256 * y
        ∃ t a, exec (.copyStart c n) s = .next t ∧ t.out = s.out ++ [.passage d.dpart a] ∧ t.mem = s.mem ∧ t.transit = s.transit
        ∧ a.lid = l.job ∧ a.rx = x ∧ a.ry = y ∧ (∀ b, b ∈ a.bytes → ∃ v, (b.1, v) ∈ m.bytes)
        ∧ ((s.port k).inj.getLsbD 0 = false → a.bytes = kept space m.bytes ∧ a.sent = m.sent)
        ∧ (∀ o, armed k o → m.dsts.map (·.2) = (List.range m.sent.length).map some →
            a.sent = struck k o ∧ a.bytes = kept space (m.resent (struck k o)) ∧ (t.port k).inj = (s.port k).inj &&& ~~~1))
    ∧ (∀ mode slot, e.crc = some (mode, slot) → (d.dk = 0 ∨ d.dk = 1) → ∃ t, exec (.copyStart c n) s = .next t
        ∧ ∃ x, x ∈ (t.cpu (.core c)).pend ∧ x.issue = e.issue ∧ x.land = e.u + e.n - 1
          ∧ x.effs = [.ck slot (BitVec.ofNat 32 (crc32c (if mode = 0 ∨ mode = 3 then 0 else (vget (s.core c).ck slot 0).toNat) (if e.void then [] else m.sent)))])

/-- Copy data arrives at a core's pool with its credit (R74, R84); at an atoll closed to arrivals, or a core in reset, or of no launch, it is refused, the landing's FLAGS take REFUSED where it survives, and the sender learns it (R286). A copy lands: its ticket completes, VAL following in ticket order, what it wrote is visible to all, its bytes are counted for its buffer, and its entry is freed, at its published landing where it has one, when the granules that it wrote lose their ECHK marks (R91, R118, R209, R283, R285, R286, R289); a refusal that reaches the sender completes the ticket too and raises DELIVERY_REFUSED, with LAND, destination place and part in INFO (R286, R340). -/
def Obligations.CopyDeliveries : Prop :=
  (∀ (s : State) (a : Arrival), s.launch a.lid = none → exec (.copyArrival a) s = .next ((s.endTransit a).refuseTo a (s.transitOf a)))
  ∧ (∀ (s : State) (a : Arrival) (l : Launch) (c : CoreId), s.launch a.lid = some l → c = l.coreOf a.rx a.ry →
    (s.refuses a = false → a.last = true → ∀ cr, a.credit = some cr → cr.crc = none → ∃ t, exec (.copyArrival a) s = .next t
        ∧ (t.core c).pool = creditMem ((s.core c).pool.writes a.bytes) cr.land cr.count cr.flags none ∧ (∀ d, d ≠ c → (t.core d).pool = (s.core d).pool)
        ∧ (∀ x, x ∈ (t.core c).poison ↔ (∃ b, b ∈ a.poison ∧ x = b / 64 * 64) ∨ (x ∈ (s.core c).poison ∧ x ∉ wholeGranules a.bytes)))
    ∧ (s.refuses a = false → a.credit = none → ∃ t, exec (.copyArrival a) s = .next t ∧ (t.core c).pool = (s.core c).pool.writes a.bytes)
    ∧ (s.refuses a = true → a.credit = none → (∀ t, s.transitOf a = some t → exec (.copyArrival a) s = .next ((s.endTransit a).modCore t.from_ fun k =>
          { k with copies := k.copies.map fun e => if e.started && e.u == t.u then { e with refused := true } else e }))
        ∧ (s.transitOf a = none → exec (.copyArrival a) s = .next { s.endTransit a with out := s.out ++ [.refused a] }))
    ∧ (s.refuses a = true → ∀ cr, a.credit = some cr → (s.island (islandOf c)).rst = 0 → ∃ t, exec (.copyArrival a) s = .next t
        ∧ (t.core c).pool = creditMem (s.core c).pool cr.land 0 8 none))
  ∧ (∀ (s : State) (c : CoreId) (n : Nat) (e : Copy), (s.core c).copies[n]? = some e → e.started = true →
    (e.done = false → exec (.copyLanding c n) s = .next (((s.shut e.fr).modCore c fun k =>
          if e.pub && s.now (.core c) ≤ e.land then (k.ticket e).setCopy n fun x => { x with done := true } else (k.ticket e).dropCopy n).modLaunch (s.core c).lid
        fun l => { l with hot := updCount l.hot (descOf e.desc).buf e.rd e.wr 0 }))
    ∧ (e.done = true → (descOf e.desc).dk ≠ 0 → exec (.copyLanding c n) s = .next (s.modCore c (·.dropCopy n)))
    ∧ (∀ l x y, e.done = true → (descOf e.desc).dk = 0 → s.launchOf c = some l → destOf (s.core c) l (descOf e.desc) = some (x, y) → ∃ t, exec (.copyLanding c n) s = .next t
        ∧ (t.core c).copies = (s.core c).copies.eraseIdx n ∧ t.mem = s.mem ∧ (∀ d, (t.core d).pool = (s.core d).pool)
        ∧ ∀ g, g ∈ (t.core (l.coreOf x y)).echk ↔ g ∈ (s.core (l.coreOf x y)).echk ∧ ∀ b, b ∈ e.dsts → g ≠ b.1 / 64 * 64)
    ∧ (∀ l, s.launchOf c = some l → ∃ u, exec (.deliveryRefused c n) s = .next u
        ∧ u = ((s.modCore c fun k => (k.ticket e).dropCopy n).freezeOf c (descOf e.desc).buf).coreTrap c .s
          ⟨0x13, 0, (descOf e.desc).land * 2 ^ 16 + (descOf e.desc).dplace * 2 ^ 6 + (if (descOf e.desc).dk = 1 then (descOf e.desc).dpart else l.fbix)⟩
          true false e.word e.pc e.sec e.repn)
    ∧ (∀ (t : Timeline) (k sc : Nat), t.early = [] → (t.complete k sc).val = if k = t.val + 1 then t.val + 1 else t.val))

/-! ### The ends of Times, sections and kernels -/

/-- At the end of a Time the pending result is written and its entry goes; a result of a g or h register brings its taint, a write of g0 or p0 is discarded, the register's error goes (R400), and nothing else of the machine changes (R30, R131). Accumulator writes land the same way (R245). An entry with several effects lands them in order; a ring's or queue's configuration and cursors, a queue's with the write-back to its control word (R82), a checksum slot, the sort array and its configuration, VPROG, the flags, the byte counts (R91), pool bytes with their poison (R264) and lone nibbles (R108) each take their new value. A result whose sources another write met while they were read is computed anew, over bytes each of which is the one read or one that met it, the choice being free (R61, R197, R214; DESIGN CHOICE, log 4). An instruction that meets poison stops at its stream's turn: what it did stands, its stream keeps it stopped, and its trap is raised after issue with AFTER set (R12, R59, R218, R416). -/
def Obligations.ResultsLandOrStop : Prop :=
  (∀ (s : State) (x : Hart) (k : Nat) (e : Pend), (s.cpu x).pend[k]? = some e → e.met = [] → e.newer = [] → e.land < s.now x → (x = .harbour → s.harbour.entered = false) →
    (∀ i v t, e.effs = [.g i v t] → i < 64 → exec (.resultLands x k) s = .next (s.modCpu x fun u => { u with
        pend := u.pend.eraseIdx k, g := if i = 0 then u.g else vset u.g i v, gt := if i = 0 then u.gt else vset u.gt i t,
        regBad := if i = 0 then u.regBad else u.regBad.filter (· != (0, i)) }))
    ∧ (∀ i b, e.effs = [.p i b] → i < 16 → ∃ t, exec (.resultLands x k) s = .next t
        ∧ (∀ j, j < 16 → (t.cpu x).getP j = if j = i ∧ i ≠ 0 then b else (s.cpu x).getP j) ∧ (t.cpu x).pend = (s.cpu x).pend.eraseIdx k
        ∧ (t.cpu x).g = (s.cpu x).g ∧ t.mem = s.mem)
    ∧ (∀ i v t, e.effs = [.h i v t] → exec (.resultLands x k) s = .next (s.modCpu x fun u => { u with
        pend := u.pend.eraseIdx k, h := vset u.h i v, ht := vset u.ht i t, regBad := u.regBad.filter (· != (2, i)) }))
    ∧ (∀ c, x = .core c →
        (∀ r w v, e.effs = [.st r w v] → exec (.resultLands x k) s = .next (s.modCore c fun z => { z with
          cpu := { z.cpu with pend := z.cpu.pend.eraseIdx k, regBad := z.cpu.regBad.filter (· != (3, 4 * r + w)) }, st := vmod z.st r fun y => vset y w v }))
        ∧ (∀ q v, e.effs = [.rep q v] → exec (.resultLands x k) s = .next (s.modCore c fun z => { z with
          cpu := { z.cpu with pend := z.cpu.pend.eraseIdx k, regBad := z.cpu.regBad.filter (· != (9, q.idx)) }, rep := vset z.rep q.idx v }))
        ∧ (∀ bs w, e.effs = [.pool bs [] w] → ∃ t, exec (.resultLands x k) s = .next t ∧ (t.core c).pool = (s.core c).pool.writes bs
            ∧ (∀ g, g ∈ (t.core c).poison ↔ g ∈ (s.core c).poison ∧ g ∉ w) ∧ ∀ d, d ≠ c → t.core d = s.core d)
        ∧ (∀ f, e.effs = [.flags f] → exec (.resultLands x k) s = .next (s.modCore c fun z => { z with
          cpu := { z.cpu with pend := z.cpu.pend.eraseIdx k }, vflags := z.vflags ||| f }))
        ∧ (∀ bs w ch, e.effs = [.acc bs w ch] → ∃ t, exec (.accumulatorWriteLands c k) s = .next t
            ∧ (t.core c).pool = (s.core c).pool.writes bs ∧ (t.core c).cpu.g = (s.core c).cpu.g ∧ (t.core c).st = (s.core c).st))
    ∧ ((∀ f, f ∈ e.effs → (∀ t el hk, f ≠ .detect t el hk) ∧ ∀ bs w ch, f ≠ .acc bs w ch) → exec (.resultLands x k) s = .next
        (e.effs.foldl (fun u f => u.land1 x (some (e.strm, e.issue, e.land)) f) (s.modCpu x fun u => { u with pend := u.pend.eraseIdx k }))))
  ∧ (∀ (s : State) (c : CoreId) (by_ : Writer) (i : Nat),
    let mended (z : Core) (n : Nat) : Cpu := { z.cpu with regBad := z.cpu.regBad.filter (· != (n, i)) }
    let queued (z : Core) (q : Queue) : Core := { z with
      queues := vset z.queues i q
      pool := if q.valid then z.pool.writes (placeLE (q.addr + 8) 2 q.head ++ placeLE (q.addr + 10) 2 q.tail ++ placeLE (q.addr + 12) 2 q.qc ++ placeLE (q.addr + 14) 2 q.pc) else z.pool }
    (∀ v, s.land1 (.core c) by_ (.ring i v) = s.modCore c fun z => { z with rings := vset z.rings i v, cpu := mended z 8 })
    ∧ (∀ n, s.land1 (.core c) by_ (.ringTail i n) = s.modCore c fun z => { z with rings := vmod z.rings i fun r => { r with tail := (r.tail + n) % 256 } })
    ∧ (∀ n, s.land1 (.core c) by_ (.ringHead i n) = s.modCore c fun z => { z with rings := vmod z.rings i fun r => { r with head := (r.head + n) % 256 } })
    ∧ (∀ v, s.land1 (.core c) by_ (.queue i v) = s.modCore c fun z => { queued z v with cpu := mended z 7 })
    ∧ (∀ n, s.land1 (.core c) by_ (.qTail i n) = s.modCore c fun z => queued z { vget z.queues i {} with tail := ((vget z.queues i {}).tail + n) % 65536 })
    ∧ (∀ n, s.land1 (.core c) by_ (.qHead i n) = s.modCore c fun z => queued z { vget z.queues i {} with head := ((vget z.queues i {}).head + n) % 65536 })
    ∧ (∀ v, s.land1 (.core c) by_ (.ck i v) = s.modCore c fun z => { z with ck := vset z.ck i v, cpu := mended z 6 })
    ∧ (∀ n, s.land1 (.core c) by_ (.scfg n) = s.modCore c fun z => { z with scfg := n })
    ∧ (∀ n, s.land1 (.core c) by_ (.vprog n) = s.modCore c fun z => { z with vprog := n })
    ∧ (∀ f, s.land1 (.core c) by_ (.flags f) = s.modCore c fun z => { z with vflags := z.vflags ||| f })
    ∧ (∀ f, s.land1 (.core c) by_ (.clrFlags f) = s.modCore c fun z => { z with vflags := z.vflags &&& ~~~f })
    ∧ (∀ y n, s.land1 (.core c) by_ (.sort y n) = s.modCore c fun z => { z with sort := if y.valid then y.advance (128 * y.pl) else y })
    ∧ (∀ rd wr, s.land1 (.core c) by_ (.hot i rd wr) = s.modLaunch (s.core c).lid fun l => { l with hot := updCount l.hot i rd wr 0 })
    ∧ (∀ bs bad w, (∀ d, d ≠ c → ((s.land1 (.core c) by_ (.pool bs bad w)).core d) = s.core d)
        ∧ ((s.land1 (.core c) by_ (.pool bs bad w)).core c).pool = (s.core c).pool.writes bs
        ∧ ∀ g, g ∈ ((s.land1 (.core c) by_ (.pool bs bad w)).core c).poison ↔ (∃ y, y ∈ bad ∧ g = y / 64 * 64) ∨ (g ∈ (s.core c).poison ∧ g ∉ w))
    ∧ (∀ a high n, (s.core c).pool.wf = true →
        ((s.land1 (.core c) by_ (.nib [(a, high, n)])).core c).pool.read a =
          BitVec.ofNat 8 (if high then ((s.core c).pool.read a).toNat % 16 + 16 * (n % 16) else ((s.core c).pool.read a).toNat / 16 * 16 + n % 16)))
  ∧ (∀ (s : State) (c : CoreId) (o : Origin) (e : Pend) (b : Nat × Byte), (s.core c).pool.wf = true → (e.seen.map (·.1)).Nodup → b ∈ e.seen →
    (((s.scratch c o e).core c).pool.read b.1 = b.2 ∨ ∃ m, m ∈ e.met ∧ m.a = b.1 ∧ m.b = ((s.scratch c o e).core c).pool.read b.1)
    ∧ ((s.scratch c o e).core c).cpu.g = o.g ∧ ((s.scratch c o e).core c).st = o.st)
  ∧ (∀ (s : State) (c : CoreId) (k : Nat) (e : Pend) (o : Origin) (t : TrapInfo) (el : Nat) (hk : Bool) (l : Launch), (s.core c).cpu.pend[k]? = some e →
    e.effs = [.detect t el hk] → e.origin = some o → o.hooked = false → e.land ≤ s.now (.core c) → s.turn (.core c) e.strm = true →
    s.launchOf c = some l → (s.core c).hook = none →
    ∃ u r, exec (.resultLands (.core c) k) s = .next u ∧ u.waitRecs = s.waitRecs ++ [r] ∧ r.trap = t ∧ r.after = true ∧ r.hookable = hk
      ∧ r.strm = e.strm ∧ r.word = encode o.instr ∧ r.ima = o.pc ∧ r.sec = o.sec ∧ r.repn = o.repn
      ∧ (u.core c).pool = (s.core c).pool ∧ (u.core c).cpu.g = (s.core c).cpu.g ∧ (u.core c).st = (s.core c).st ∧ u.mem = s.mem
      ∧ (∀ h p, o.instr = .roweSmax h p ∨ o.instr = .roweRms h p → (u.core c).rowProg = el)
      ∧ (∃ z, z ∈ (u.stream (.core c) e.strm).stopped ∧ z.origin = o ∧ z.issue = e.issue ∧ z.el = el))

/-- A repetition's end moves each region register that its section names by STEP, once (R157); the oldest section whose Times have elapsed retires (R52); a stream with no next section raises ILLEGAL_OP where it would issue, once the streams ahead of it have issued in that cycle (R26, R59). A launch completes when on every member core all streams have ended, every Time has elapsed, every copy has landed and every timeline has VAL = ISS (R28): its cores are released, its hotness set is kept and a completion record with outcome 0 is appended (R370, R377). A ferry arrival that is due is made, its domain's release falls with the last one, and the member resumes (R297, R298); a level-5 wait whose count is over goes on (R62). -/
def Obligations.SectionsAndKernelsEnd : Prop :=
  (∀ (s : State) (c : CoreId) (l : Launch) (lvl : Nat), s.launchOf c = some l → s.launch l.lid = some l → 1 ≤ lvl → lvl ≤ 5 →
    (s.memberReady c lvl = true → ∃ t, exec (.memberArrival c lvl) s = .next t ∧ ((t.core c).fer lvl).arrived = some (s.now (.core c) - 1) ∧ t.mem = s.mem)
    ∧ (∀ r, s.resumeAt c lvl = some r → r ≤ s.now (.core c) → ∃ t, exec (.memberResume c lvl) s = .next t ∧ ((t.core c).fer lvl).resumed = true ∧ t.mem = s.mem)
    ∧ (∀ a k, c ∈ l.members → lvl ≤ 4 → s.allArrived (l.domain c lvl) lvl = some a → a + (match lvl with | 1 => 1 | 2 => 18 | 3 => 40 | _ => 96) ≤ l.sfc →
        ∃ t, exec (.ferryRelease l.lid lvl k) s = .next t ∧ t.mem = s.mem
          ∧ ∀ d, d ∈ l.domain c lvl → ((t.core d).fer lvl).trel = some (a + (match lvl with | 1 => 1 | 2 => 18 | 3 => 40 | _ => 96)))
    ∧ (∀ n x, Cause.ferry c n (some x) ∈ l.causes → x ≤ s.time → ∃ t, exec (.fabricWaitCountDone l.lid) s = .next t ∧ ((t.core c).fer 5).resumed = true ∧ t.mem = s.mem))
  ∧
  (∀ (s : State) (c : CoreId) (q : Strm) (l : Launch), s.launchOf c = some l →
    (∀ b a, (s.stream (.core c) q).repEnd = some (b, a) → b < s.now (.core c) → ∃ t, exec (.repetitionEnd (.core c) q) s = .next t
        ∧ (t.stream (.core c) q).repEnd = none
        ∧ (∀ r, r < 320 → r ∈ (s.core c).cpu.advanceSet a →
            fld ((t.core c).stw r 0) 22 0 = (fld ((s.core c).stw r 0) 22 0 + fld ((s.core c).stw r 3) 23 0) % 2 ^ 23
            ∧ ((t.core c).stw r 0).toNat / 2 ^ 23 = ((s.core c).stw r 0).toNat / 2 ^ 23)
        ∧ (∀ r w, r ∉ (s.core c).cpu.advanceSet a ∨ (1 ≤ w ∧ w < 4) → (t.core c).stw r w = (s.core c).stw r w))
    ∧ (∀ n d r, (s.stream (.core c) q).retiring = (n, d) :: r → d < s.now (.core c) → exec (.sectionRetire (.core c) q) s = .next
        (s.modStream (.core c) q fun t => { t with retired := some n, retiring := r }))
    ∧ ((s.stream (.core c) q).past = true → (s.stream (.core c) q).ended = false → (s.stream (.core c) q).base ≤ s.now (.core c) →
        s.canIssue c = true → s.turn (.core c) q = true → exec (.sectionRunPast (.core c) q) s = .next (s.coreTrap c q ⟨0x01, 0, 0⟩ false false 0 (s.stream (.core c) q).pc
          (hdrSec ((s.core c).cpu.header (s.stream (.core c) q).sec)) (s.stream (.core c) q).repn)))
  ∧ (∀ (s : State) (l : Launch), s.launch l.lid = some l → l.state = .run → l.frozen = false → l.ptn < 8 →
    (∀ c, c ∈ l.members → (∀ q, (s.stream (.core c) q).ended = true ∧ (s.stream (.core c) q).retiring = [] ∧ (s.stream (.core c) q).stopped = [])
      ∧ (s.core c).cpu.pend = [] ∧ (s.core c).cpu.walks = [] ∧ (s.core c).copies = [] ∧ ∀ i, i < 8 → (vget (s.core c).tl i {}).val = (vget (s.core c).tl i {}).iss) →
    ∃ t, exec (.kernelComplete l.lid) s = .next t ∧ t.launch l.lid = none ∧ (∀ c, c ∈ l.members → (t.core c).lid = 0)
      ∧ (∀ c, c ∈ l.members → (t.core c).pool = (s.core c).pool)
      ∧ ((s.part l.ptn).done.length < 256 → (t.part l.ptn).done = (s.part l.ptn).done ++ [(l.lid, 0, 0)])
      ∧ (∀ n, n < 8 → n ≠ l.ptn → (t.part n) = s.part n))

/-! ### Freezes, records and dispositions -/

/-- A core reaches its stop point (R58, R59): issued instructions run to completion, but for a sort still in the array (R278), its locks and holds end while reservations of cycles still to come stand (R213; DEDUCED, log 89), it stands stopped; the last core of the domain stills SFC. A walk goes on in the context and from the roots with which it began (R346, R367): when it completes its handle lands and its result may be cached (R354, R357), when it faults its trap is raised after issue; one through a range that an engine has marked waits (R361). -/
def Obligations.FreezesAndWalks : Prop :=
  ∀ (s : State) (c : CoreId) (l : Launch), s.launchOf c = some l → s.launch l.lid = some l →
    (∀ n, (s.core c).stop = some n → (s.core c).stopped = false → (s.core c).hook = none → n ≤ l.sfc →
        ∃ t, exec (.freezeStopPoint c) s = .next t ∧ ∀ x, x ∈ (t.core c).cpu.pend → x.isSort = true)
    ∧ (∀ n, (s.core c).stop = some n → (s.core c).stopped = false → (s.core c).hook = none → n ≤ l.sfc → (s.core c).cpu.pend = [] →
        (∀ q, (s.stream (.core c) q).repEnd = none) →
        ∃ t, exec (.freezeStopPoint c) s = .next t ∧ (t.core c).stopped = true ∧ (t.core c).stop = some n ∧ (t.core c).claims = (s.core c).claims.filter (fun x => x.kind == .use || x.kind == .put)
          ∧ (t.core c).pool = (s.core c).pool ∧ (t.core c).cpu.g = (s.core c).cpu.g ∧ t.mem = s.mem
          ∧ (∀ k, t.launch l.lid = some k → (k.frozen = true ↔ l.frozen = true ∨ ∀ d, d ∈ l.members → d = c ∨ (s.core d).stopped = true)))
    ∧ (∀ w ws, (s.core c).cpu.walks = w :: ws → s.walkDue (.core c) w = true →
        (s.barred w.root1 w.root2 (s.core c).cpu w.ptn w.v = true → exec (.walkComplete (.core c)) s = .next s)
        ∧ (∀ pg gs, s.barred w.root1 w.root2 (s.core c).cpu w.ptn w.v = false → s.translateFrom w.root1 w.root2 w.ptn w.v = .ok pg gs →
          ∃ t, exec (.walkComplete (.core c)) s = .next t ∧ (t.core c).cpu.walks = ws
            ∧ (t.core c).cpu.pend = (s.core c).cpu.pend ++ [{ strm := .a, issue := w.issue, land := w.land, effs := [.h w.d { valid := true, v := w.v, pg := pg, cy := (s.carryOf w.root1 w.root2 (s.core c).cpu w.ptn pg).1 } w.t] }]
            ∧ (t.core c).cpu.wcache = (s.core c).cpu.wcache ++ (if w.keep then [⟨w.ptn, pg, gs⟩] else []))
        ∧ (∀ tr, s.barred w.root1 w.root2 (s.core c).cpu w.ptn w.v = false → s.translateFrom w.root1 w.root2 w.ptn w.v = .trap tr → (s.core c).hook = none →
          ∃ t r, exec (.walkComplete (.core c)) s = .next t ∧ t.waitRecs = s.waitRecs ++ [r] ∧ r.trap = tr ∧ r.after = true ∧ r.strm = .a
            ∧ r.word = encode w.origin.instr ∧ (t.core c).cpu.walks = ws ∧ (t.core c).cpu.h = (s.core c).cpu.h ∧ t.mem = s.mem))

/-- The oldest waiting record that may be posted enters a fault queue with a free slot, takes the next SEQ modulo 65,536 and sets FAULT (R338); one of a launch that its hook killed goes to the host too (R341). FQPOP removes the head record, and FAULT stays set after any pop, the last record's too (R336; DEDUCED, log 19); a write of HEVENT clears the bits written 1, but for those whose source asserts and those that the hardware sets in that cycle (R335; which those are is log 19's, DEDUCED). A record's 64 bytes as R339 lays them out: cause, stream, AFTER and HOOKABLE flags, SEQ, LID, VA, INFO and the word at their places. -/
def Obligations.FaultRecords : Prop :=
  (∀ s : State,
    (∀ q r rs, s.waitRecs = q ++ r :: rs → (∀ x, x ∈ q → s.postable x = false) → s.postable r = true → s.fq.length < 64 → exec .faultRecordPost s = .next { s with
        waitRecs := q ++ rs
        recs := s.recs ++ [{ s.describe r with seq := (s.seq + 1) % 65536 }]
        fq := s.fq ++ [(s.seq + 1) % 65536]
        seq := (s.seq + 1) % 65536
        out := if r.settled = true ∧ r.disp = some 4 then s.out ++ [.record ({ s.describe r with seq := (s.seq + 1) % 65536 } : Rec).bytes] else s.out
        harbour := { s.harbour with hevent := s.harbour.hevent ||| 1, evNow := s.harbour.evNow ||| 1 } })
    ∧ (64 ≤ s.fq.length → exec .faultRecordPost s = .next s)
    ∧ (∀ n ns, s.fq = n :: ns → ∃ t, exec .fqpop s = .next t ∧ t.fq = ns ∧ t.harbour.hevent.getLsbD 0 = true ∧ t.mem = s.mem ∧ t.launches = s.launches ∧ t.cores = s.cores
        ∧ (∀ r, r ∈ s.recs → r.seq = n → r.popped = false → r.settled = false → { r with popped := true } ∈ t.recs))
    ∧ (s.fq = [] → exec .fqpop s = .next s)
    ∧ (∀ v : Dword, exec (.heventClear v) s = .next { s with harbour := { s.harbour with hevent := (s.harbour.hevent &&& ~~~(v.truncate 8 &&& ~~~s.harbour.evNow)) ||| s.asserting, evNow := s.harbour.evNow ||| s.asserting } }))
  ∧ (∀ r : Rec, r.bytes.length = 64
    ∧ ofLE (r.bytes.take 1) = r.trap.cause % 256 ∧ ofLE ((r.bytes.drop 2).take 2) = r.seq % 65536 ∧ ofLE ((r.bytes.drop 4).take 2) = r.lid % 65536
    ∧ ofLE ((r.bytes.drop 1).take 1) = r.strm.idx + 4 * r.after.toNat + 8 * r.hookable.toNat
    ∧ ofLE ((r.bytes.drop 16).take 4) = r.ima % 2 ^ 32 ∧ ofLE ((r.bytes.drop 20).take 2) = r.sec % 65536 ∧ ofLE ((r.bytes.drop 22).take 2) = r.repn % 65536
    ∧ ofLE ((r.bytes.drop 24).take 8) = r.trap.va % 2 ^ 64 ∧ ofLE ((r.bytes.drop 32).take 8) = r.trap.info % 2 ^ 64
    ∧ ofLE ((r.bytes.drop 40).take 12) = r.word.toNat ∧ ofLE ((r.bytes.drop 56).take 8) = r.cyc % 2 ^ 64)

/-- A write of DISP (R341): status 1 when no undisposed record has the SEQ, 3 at S for another partition's launch, 2 when the cause does not allow the action (R340), and TRANSLATION_S2 at S is never S's to dispose (R356); else 0, and the record takes the action. A freeze ends once every record of it is disposed (R58, R60, R341, R342): with no PREEMPT, HOOK or KILL the domain thaws, SFC at the smallest stop point and the other cores held to theirs, and a skipped word's stream goes on at t + 1; PREEMPT leaves it to be saved; HOOK starts the recovery hook with its four arguments (R265, R266); KILL ends the launch with outcome 2 and gives the host the record, or, of TRAP service EXIT, with outcome 1 and the status of g1 (R344); that such a record disposed KILL is the EXIT is log 23 (DEDUCED). -/
def Obligations.DispositionsAndThaws : Prop :=
  (∀ (s : State) (seq k : Nat) (i : Instr), (k = 0 ∧ i = .dispResume seq) ∨ (k = 1 ∧ i = .dispSkip seq) ∨ (k = 2 ∧ i = .dispHook seq)
      ∨ (k = 3 ∧ i = .dispPreempt seq) ∨ (k = 4 ∧ i = .dispKill seq) →
    ((∀ r, r ∈ s.recs → r.seq = seq → r.disp = none → r.settled = true) → exec i s = .next { s with harbour := { s.harbour with dispStat := 1 } })
    ∧ (∀ a r b, s.recs = a ++ r :: b → r.seq = seq → r.disp = none → r.settled = false → (∀ x, x ∈ a ++ b → x.seq = seq → x.disp.isSome = true ∨ x.settled = true) →
        let done := a ++ { r with disp := some k } :: b
        (s.harbour.pl = 1 → r.ptn ≠ s.harbour.ptn → exec i s = .next { s with harbour := { s.harbour with dispStat := 3 } })
        ∧ (s.harbour.pl = 1 → r.ptn = s.harbour.ptn → r.trap.cause = 0x0A → exec i s = .next { s with harbour := { s.harbour with dispStat := 2 } })
        ∧ (s.harbour.pl = 2 → k ≠ 4 → (∀ x, x ∈ a ++ b → x.lid = r.lid → x.settled = true ∨ x.disp ≠ some 4) → (k = 0 → r.trap.cause ∈ [0x08, 0x09, 0x0A, 0x0E, 0x13, 0x15, 0x16, 0x18, 0x19]) →
            (k = 1 → r.trap.cause ∈ [0x15, 0x16]) → (k = 2 → r.trap.cause = 0x0E ∧ r.hookable = true) →
            exec i s = .next { s with recs := done, harbour := { s.harbour with dispStat := 0 } })
        ∧ (s.harbour.pl = 2 → (k = 0 → r.trap.cause ∈ [0x08, 0x09, 0x0A, 0x0E, 0x13, 0x15, 0x16, 0x18, 0x19]) →
            (k = 1 → r.trap.cause ∈ [0x15, 0x16]) → (k = 2 → r.trap.cause = 0x0E ∧ r.hookable = true) →
            ∃ t, exec i s = .next t ∧ t.harbour.dispStat = 0 ∧ t.recs = done ∧ t.mem = s.mem ∧ t.cores = s.cores)
        ∧ (s.harbour.pl = 2 → (k = 0 ∧ r.trap.cause ∉ [0x08, 0x09, 0x0A, 0x0E, 0x13, 0x15, 0x16, 0x18, 0x19]) ∨ (k = 1 ∧ r.trap.cause ∉ [0x15, 0x16])
              ∨ (k = 2 ∧ (r.trap.cause ≠ 0x0E ∨ r.hookable = false)) →
            exec i s = .next { s with harbour := { s.harbour with dispStat := 2 } })))
  ∧ (∀ (s : State) (l : Launch), s.launch l.lid = some l → s.thawDue l = true → l.members.Nodup → l.ptn < 8 →
    let rs := s.recsOf l.lid
    (∀ m, (∀ r, r ∈ rs → r.disp = some 0 ∨ r.disp = some 1) → (∀ d, d ∈ l.members → (s.core d).lid = l.lid ∧ ∀ q, (s.stream (.core d) q).stopped = []) →
        m ≤ l.sfc → (∀ d x, d ∈ l.members → (s.core d).stop = some x → m ≤ x) → (m = l.sfc ∨ ∃ d, d ∈ l.members ∧ (s.core d).stop = some m) →
        ∃ t, exec (.thaw l.lid) s = .next t ∧ t.mem = s.mem
        ∧ (∀ k, t.launch l.lid = some k → k.sfc = m ∧ k.frozen = false ∧ k.causes = [])
        ∧ ∀ d, d ∈ l.members → (t.core d).hold = ((s.core d).stop).getD m ∧ (t.core d).stop = none ∧ (t.core d).stopped = false
          ∧ (t.core d).pool = (s.core d).pool ∧ (t.core d).cpu.g = (s.core d).cpu.g
          ∧ (∀ q, (∀ r, r ∈ rs → r.disp = some 1 → r.c = d → r.strm ≠ q) → t.stream (.core d) q = s.stream (.core d) q)
          ∧ (∀ r, rs.filter (fun x => x.disp == some 1 && x.c == d && x.strm == r.strm) = [r] →
              t.stream (.core d) r.strm = (s.stream (.core d) r.strm).move (.core d) (s.core d).cpu (vget (s.core d).rep r.strm.idx 1) r.sfc 0 .next))
    ∧ ((∃ r, r ∈ rs ∧ r.disp = some 3) → (∀ r, r ∈ rs → r.disp ≠ some 4) →
        ∃ t, exec (.thaw l.lid) s = .next t ∧ (∀ k, t.launch l.lid = some k → k.state = .preempting ∧ k.frozen = true) ∧ t.cores = s.cores)
    ∧ (∀ a r b, rs = a ++ r :: b → (∀ x, x ∈ a → x.disp ≠ some 2) → r.disp = some 2 → (∀ x, x ∈ rs → x.disp ≠ some 3 ∧ x.disp ≠ some 4) → (s.core r.c).cpu.pend = [] →
        ∃ t, exec (.thaw l.lid) s = .next t ∧ (t.core r.c).hook.isSome = true ∧ (t.core r.c).hfc = 0
        ∧ (t.core r.c).cpu.getG 1 = BitVec.ofNat 64 r.trap.va ∧ (t.core r.c).cpu.getG 2 = BitVec.ofNat 64 (r.trap.info / 2 ^ 16 % 32)
        ∧ (t.core r.c).cpu.getG 3 = BitVec.ofNat 64 (r.trap.info % 2 ^ 11)
        ∧ (t.core r.c).cpu.getG 4 = BitVec.ofNat 64 (if r.strm = .v then r.vprog else 0)
        ∧ (t.core r.c).pool = (s.core r.c).pool ∧ (t.core r.c).st = (s.core r.c).st ∧ t.mem = s.mem ∧ (∀ k, t.launch l.lid = some k → k.state = .hookRun))
    ∧ (∀ a r b, rs = a ++ r :: b → (∀ x, x ∈ a → x.disp ≠ some 4) → r.disp = some 4 →
        ∃ t, exec (.thaw l.lid) s = .next t ∧ t.launch l.lid = none ∧ (∀ d, d ∈ l.members → (t.core d).lid = 0)
        ∧ (r.trap.cause = 0x16 ∧ r.trap.info = 2 → t.out = s.out ++ [.exit l.lid ((s.core r.c).cpu.getG 1).toNat]
          ∧ ((s.part l.ptn).done.length < 256 → (t.part l.ptn).done = (s.part l.ptn).done ++ [(l.lid, 1, ((s.core r.c).cpu.getG 1).toNat % 2 ^ 32)]))
        ∧ (¬ (r.trap.cause = 0x16 ∧ r.trap.info = 2) → t.out = s.out ++ [.record r.bytes]
          ∧ ((s.part l.ptn).done.length < 256 → (t.part l.ptn).done = (s.part l.ptn).done ++ [(l.lid, 2, 0)]))))

/-- A hook (R265 to R267): at its end what its entry saved returns, pools and stream registers keep what the hook left, and the launch runs on; one that runs beyond its limit, or changes the shape of the stopped instruction's registers, kills the launch, its record posted already disposed KILL (DEDUCED, log 70). The core window reaches a drained core's registers by file and index (R343): a write of a g or p register, or of a dword of a stream register with its reserved bits zero, changes that register alone. -/
def Obligations.HooksAndCoreWindow : Prop :=
  (∀ (s : State) (c : CoreId) (l : Launch) (v : HookSave), (s.core c).hook = some v → s.launchOf c = some l → s.launch l.lid = some l →
    ((s.core c).hookDone = true → v.shapes = [] → ∃ t, exec (.hookEnd c) s = .next t
        ∧ (t.core c).hook = none ∧ (t.core c).cpu.g = v.g ∧ (t.core c).cpu.gt = v.gt ∧ (t.core c).cpu.p = v.p ∧ (t.core c).cpu.h = v.h ∧ (t.core c).cpu.ht = v.ht
        ∧ (t.core c).rings = v.rings ∧ (t.core c).queues = v.queues ∧ (t.core c).vflags = v.vflags ∧ (t.core c).vprog = v.vprog
        ∧ (t.core c).pool = (s.core c).pool ∧ (t.core c).st = (s.core c).st ∧ t.mem = s.mem
        ∧ (∀ q, (t.stream (.core c) q).pc = (vget v.strm q.idx {}).pc) ∧ (∀ k, t.launch l.lid = some k → k.state = .run))
    ∧ ((s.core c).hookDone = true → (∃ x, x ∈ v.shapes ∧ x.2.1 < 4 ∧ (s.core c).stw x.1 x.2.1 ≠ x.2.2) → ∃ t, exec (.hookEnd c) s = .next t ∧ t.launch l.lid = none)
    ∧ (l.hdr 60 4 < s.cyc (islandOf c) - v.start → ∃ t r, exec (.hookLimitExpire c) s = .next t ∧ t.launch l.lid = none
        ∧ t.waitRecs = (s.waitRecs.filter (·.lid != r.lid)) ++ [r] ∧ r.trap.cause = 0x17 ∧ r.disp = some 4))
  ∧ (∀ (s : State) (c : CoreId) (v : Dword) (i f : Nat), s.windowCore = some c → (s.core c).stopped = true →
    fld s.harbour.cwidx 11 0 = i → fld s.harbour.cwidx 15 12 = f →
    (f = 0 → 1 ≤ i → i ≤ 63 → exec (.cwdata (some v)) s = .next (s.modCore c fun k => { k with cpu := { k.cpu with
        g := vset k.cpu.g i v, gt := vset k.cpu.gt i false, regBad := (k.cpu.regBad.filter (· != (0, i))).filter (· != (0, i)) } }))
    ∧ (f = 3 → i < 1280 → exec (.cwdata (some v)) s = .next (s.modCore c fun k => { k with
        cpu := { k.cpu with regBad := k.cpu.regBad.filter (· != (3, i)) }
        st := vmod k.st (i / 4) fun x => vset x (i % 4) (v &&& stMask (i % 4)) }))
    ∧ (f = 1 → 1 ≤ i → i ≤ 15 → ∃ t, exec (.cwdata (some v)) s = .next t ∧ t.mem = s.mem ∧ (t.core c).cpu.g = (s.core c).cpu.g
        ∧ ∀ j, j < 16 → (t.core c).cpu.getP j = if j = i then v.getLsbD 0 else (s.core c).cpu.getP j)
    ∧ (∀ l, f = 2 → i < 32 → s.launchOf c = some l → s.windowReady true = true → ∃ t, exec (.cwdata (some v)) s = .next t ∧ t.mem = s.mem
        ∧ ((t.core c).cpu.getH i).v = ((s.core c).cpu.getH i).v ∧ vget (t.core c).cpu.ht i true = false
        ∧ (((t.core c).cpu.getH i).valid = true ↔ ∃ pg us, s.translate l.ptn ((s.core c).cpu.getH i).v = .ok pg us))
    ∧ (f = 0 → s.windowRead = (s.core c).cpu.getG i) ∧ (f = 2 → s.windowRead = BitVec.ofNat 64 ((s.core c).cpu.getH i).v)
    ∧ (f = 3 → s.windowRead = (s.core c).stw (i / 4) (i % 4))
    ∧ exec (.cwdata none) s = .next s)


/-! ### Number formats -/

/-- Rounding of R98 and R99, for every floating-point format: a non-negative rational n / d that does not overflow rounds, to nearest, to a finite value of the format at least as close as any other, a tie to the even bit pattern; towards zero, to the largest value not above it; and NX is set exactly when the result differs from n / d. Values are multiples of 2^-149. A quotient rounded to an integer, by each of the five modes. -/
def Obligations.FloatRounding : Prop :=
  ∀ (f : FFmt) (sat : Bool) (n d : Nat), f ∈ [fp8e4, fp8e5, fp16, bf16, fp32] → 0 < n → 0 < d →
    (∀ r fl, f.roundQ 0 sat false n d = (r, fl) → fl &&& fOF = 0 → ∃ k, f.read r = .fin false k
      ∧ (∀ b j, f.read b = .fin false j → ((k * d : Int) - n * 2 ^ 149).natAbs ≤ ((j * d : Int) - n * 2 ^ 149).natAbs)
      ∧ (∀ b j, f.read b = .fin false j → j ≠ k → ((k * d : Int) - n * 2 ^ 149).natAbs = ((j * d : Int) - n * 2 ^ 149).natAbs → r % 2 = 0)
      ∧ (fl &&& fNX = 0 ↔ k * d = n * 2 ^ 149))
    ∧ (∀ r fl, f.roundQ 2 sat false n d = (r, fl) → fl &&& fOF = 0 → ∃ k, f.read r = .fin false k ∧ k * d ≤ n * 2 ^ 149
      ∧ (∀ b j, f.read b = .fin false j → j * d ≤ n * 2 ^ 149 → j ≤ k) ∧ (fl &&& fNX = 0 ↔ k * d = n * 2 ^ 149))
    ∧ (∀ (rm : Nat) (v q : Int), nearestInt rm v d = q →
      (rm = 0 → 2 * (v - q * d).natAbs ≤ d ∧ (2 * (v - q * d).natAbs = d → q % 2 = 0)) ∧ (rm = 1 → 2 * (v - q * d).natAbs ≤ d ∧ (2 * (v - q * d).natAbs = d → v.natAbs ≤ q.natAbs * d))
      ∧ (rm = 2 → q.natAbs = v.natAbs / d ∧ (v < 0 → q ≤ 0) ∧ (0 ≤ v → 0 ≤ q)) ∧ (rm = 3 → q * d ≤ v ∧ v < (q + 1) * d) ∧ (rm = 4 → (q - 1) * d < v ∧ v ≤ q * d))

/-! ### The vector engine -/

namespace Sys2Proof.Machine

/-- The elementwise words (R220): payload, data sources, whether C is a mask, and the cycles of the Time beside the beats. -/
def mapWord : Instr → Option (PV × List (BitVec 9) × Bool × Nat)
  | .vadd _ p | .vsub _ p | .vmul _ p | .vmin _ p | .vmax _ p | .vand _ p | .vor _ p | .vxor _ p | .vshl _ p | .vshr _ p | .vcmp _ p | .vnr _ p =>
    some (p, [p.a, p.b], true, 6)
  | .vfma _ p | .vsel _ p => some (p, [p.a, p.b, p.c], false, 6)
  | .vabs _ p | .vneg _ p | .vmov _ p | .vcvt _ p | .vdqn _ p => some (p, [p.a], true, 6)
  | .vfillK _ p | .vfillIota _ p => some (p, [], true, 6)
  | .vrcp _ p | .vrsq _ p | .vexp2 _ p | .vlog2 _ p | .vtanh _ p => some (p, [p.a], true, 12)
  | _ => none

/-- The registers that a word names, with its mask (0x1FF names none). -/
def maskReg (p : PV) : List (BitVec 9) := if p.c = 0x1FF then [] else [p.c]
/-- Count and rows of an operand (R211). -/
def countOf (k : Core) (p : PV) (r : BitVec 9) : Nat := if p.cnt ≠ 0 then p.cnt.toNat else (k.region r.toNat).cnt
def rowsOf (k : Core) (r : BitVec 9) : Nat := (k.region r.toNat).rows
/-- Beats of n elements in each of so many rows (R212): 64 lanes when an operand has 8-byte elements, else 128. -/
def vecBeats (k : Core) (rs : List (BitVec 9)) (n rows : Nat) : Nat :=
  rows * ceilDiv n (if rs.any (fun r => fmtBits (k.region r.toNat).fmt == 64) then 64 else 128)

/-- A vector word's work on the registers and pool as its issue finds them. -/
def vrAt (i : Instr) (s : State) : Option VR := (vrOf i).map fun f => f s.draw

/-- What an unpoisoned vector word leaves pending: one entry a result beat, a lone nibble as such, and at the end of the Time the flags, VPROG 0 and the queue moves (R101, R213, R215, R218). -/
def vectorEntries (s : State) (v : VR) : List Pend :=
  let bs := (v.outs 0 v.m).1
  let whole := wholeGranules (bs.flatMap (·.bs))
  let entry (off : Nat) (effs : List Eff) (srcs : List Src) : Pend := { strm := s.cur.strm, issue := s.t0, land := s.t0 + off, effs := effs, srcs := srcs }
  (bs.zipIdx.map fun b => entry b.1.off (.pool b.1.bs [] (if b.2 == bs.length - 1 then whole else []) :: (if b.1.ns = [] then [] else [.nib b.1.ns])) (b.1.srcs.map (SrcEl.toSrc s.t0 v.time)))
  ++ [entry v.time ([.flags (BitVec.ofNat 32 (v.outs 0 v.m).2), .vprog 0] ++ v.pops.map (fun q => .qHead q.1 q.2) ++ v.pushes.map fun q => .qTail q.1 q.2)
    (v.srcs.map (SrcEl.toSrc s.t0 v.time))]

/-- The least L with n ≤ 2^L. -/
def ceilLog (n L : Nat) : Prop := n ≤ 2 ^ L ∧ ∀ m, n ≤ 2 ^ m → L ≤ m

/-! What an element's result is, written apart from the model's element functions. -/

/-- The integer in the low bits of an element of a Z format or X32: I formats and X32 signed, N formats not (R93). -/
def intOf (c x : Nat) : Int := if c % 2 = 1 then (BitVec.ofNat (fmtBits c) x).toInt else (BitVec.ofNat (fmtBits c) x).toNat
/-- An exact integer narrowed to a format: saturated under SAT, else wrapped (R100, R221). -/
def narrowed (c : Nat) (sat : Bool) (v : Int) : Nat :=
  let lo : Int := if c % 2 = 1 then -2 ^ (fmtBits c - 1) else 0
  let hi : Int := if c % 2 = 1 then 2 ^ (fmtBits c - 1) - 1 else 2 ^ fmtBits c - 1
  (BitVec.ofInt (fmtBits c) (if sat then Max.max lo (Min.min hi v) else v)).toNat

/-- The result bits of one element, from the registers of D and the sources, the source bits and the element's number; none where nothing is claimed. Formats are those that the word accepts. -/
def elementOf (i : Instr) (p : PV) (d : Region) (as : List Region) (e : Nat) (xs : List Nat) : Option Nat :=
  let bits (n : Nat) : Nat := xs.getD n 0
  let int (n : Nat) : Int := intOf d.fmt (bits n)
  let a := as.headD d
  let ff := (fmtF d.fmt).getD fp32
  let fa := (fmtF a.fmt).getD fp32
  let v (n : Nat) : FV := ff.read (bits n)
  let av (n : Nat) : FV := fa.read (bits n)
  let fl := isF d.fmt
  let fixed := isZ d.fmt || isX d.fmt
  let fracOf (r : Region) : Nat := if isX r.fmt then r.frac else 0
  let put (x : Int) : Option Nat := if fixed then some (narrowed d.fmt p.sat x) else none
  let pick (x : Nat) (y : Int) : Option Nat := if fl then some x else put y
  let on (b : Bool) (v : Nat) : Option Nat := if b then some v else none
  match i with
  | .vadd _ _ => pick (sumTo ff p.rm p.sat (v 0) (v 1)) (int 0 + int 1)
  | .vsub _ _ => pick (sumTo ff p.rm p.sat (v 0) (v 1).flip) (int 0 - int 1)
  | .vmul _ _ => pick (productTo ff p.rm p.sat (v 0) (v 1)) (nearestInt p.rm (int 0 * int 1) (2 ^ fracOf d))
  | .vfma h _ => pick (fusedTo ff p.rm p.sat (v 0) (v 1) (if h.fn = 1 then (v 2).flip else v 2))
      (nearestInt p.rm (if h.fn = 1 then int 0 * int 1 - int 2 * 2 ^ fracOf d else int 0 * int 1 + int 2 * 2 ^ fracOf d) (2 ^ fracOf d))
  | .vmin _ _ =>
    if fl then some (if (v 0).isNan && (v 1).isNan then ff.canon else if (v 0).isNan || valueBelow (v 1) (v 0) then bits 1 else bits 0)
    else on fixed (narrowed d.fmt false (Min.min (int 0) (int 1)))
  | .vmax _ _ =>
    if fl then some (if (v 0).isNan && (v 1).isNan then ff.canon else if (v 0).isNan || valueBelow (v 0) (v 1) then bits 1 else bits 0)
    else on fixed (narrowed d.fmt false (Max.max (int 0) (int 1)))
  | .vabs _ _ => pick (bits 0 % 2 ^ (ff.w - 1)) (int 0).natAbs
  | .vneg _ _ => pick ((bits 0 + 2 ^ (ff.w - 1)) % 2 ^ ff.w) (-int 0)
  | .vand _ _ => some (bits 0 &&& bits 1)
  | .vor _ _ => some (bits 0 ||| bits 1)
  | .vxor _ _ => some (bits 0 ^^^ bits 1)
  | .vshl _ _ => put (int 0 * 2 ^ (bits 1 % 64))
  | .vshr h _ => on fixed (if h.fn = 1 then narrowed d.fmt false ((BitVec.ofNat (fmtBits d.fmt) (bits 0)).toInt / 2 ^ (bits 1 % 64)) else bits 0 / 2 ^ (bits 1 % 64))
  | .vcmp h _ =>
    let x := intOf a.fmt (bits 0)
    let y := intOf a.fmt (bits 1)
    let f := isF a.fmt
    let same := if f then valueSame (av 0) (av 1) else x == y
    let less := if f then valueBelow (av 0) (av 1) && !same else decide (x < y)
    let more := if f then valueBelow (av 1) (av 0) && !same else decide (y < x)
    let un := f && ((av 0).isNan || (av 1).isNan)
    on (f || isZ a.fmt || isX a.fmt) (if (match h.fn.toNat with
      | 0 => same | 1 => !same | 2 => less | 3 => less || same | 4 => more | 5 => more || same | 6 => un | _ => !un) then 1 else 0)
  | .vsel _ _ => some (if bits 2 ≠ 0 then bits 0 else bits 1)
  | .vmov _ _ => some (bits 0)
  | .vcvt _ _ =>
    match fmtF a.fmt, fmtF d.fmt with
    | some fa, some fd => some (valueTo fd p.rm p.sat (fa.read (bits 0)))
    | some fa, none => on fixed (match fa.read (bits 0) with
        | .nan _ => 0
        | .inf n => narrowed d.fmt true (if n then -2 ^ 64 else 2 ^ 64)
        | x => narrowed d.fmt true (nearestInt p.rm (x.int * 2 ^ fracOf d) (2 ^ 149)))
    | none, some fd => on (isZ a.fmt || isX a.fmt) (exactTo fd p.rm p.sat (intOf a.fmt (bits 0)) (2 ^ fracOf a) false)
    | none, none => if isZ a.fmt || isX a.fmt then put (nearestInt p.rm (intOf a.fmt (bits 0) * 2 ^ fracOf d) (2 ^ fracOf a)) else none
  | .vrcp _ _ => on fl (approxTo fa ff false p.rm p.sat (av 0))
  | .vrsq _ _ => on fl (approxTo fa ff true p.rm p.sat (av 0))
  | .vnr h _ => some (newtonTo (h.fn == 1) p.rm p.sat (fp32.read (bits 0)) (fp32.read (bits 1)) (bits 1))
  | .vexp2 _ _ => on fl (exp2To ff p.rm p.sat (av 0))
  | .vlog2 _ _ => on fl (log2To ff p.rm p.sat (av 0))
  | .vtanh _ _ => on fl (tanhTo ff p.rm p.sat (av 0))
  | .vfillIota _ _ => pick (exactTo ff p.rm p.sat e 1 false) (e * 2 ^ fracOf d)
  | .vfillK _ _ =>
    let one := exactTo ff 0 false 1 1 false
    let big := if ff.noInf then ff.maxBits else ff.infBits
    if (fmtF d.fmt).isSome then some ([0, one, ff.sign true one, big, ff.sign true big, ff.canon, ff.maxBits, ff.sign true ff.maxBits].getD (p.mx % 8) 0)
    else on fixed (narrowed d.fmt true (([0, 2 ^ fracOf d, -2 ^ fracOf d, 2 ^ 64, -2 ^ 64, 0, 2 ^ 64, 1 - 2 ^ (fmtBits d.fmt - 1)] : List Int).getD (p.mx % 8) 0))
  | _ => none

/-- A result beat of the list writes all bytes of a value at an address. -/
def writesAt (bs : List OutBeat) (a n v : Nat) : Prop := ∃ b, b ∈ bs ∧ ∀ k, k < n → (a + k, byteOf v k) ∈ b.bs
/-- One writes a nibble, alone or with the other of its byte (R108). -/
def writesHalf (bs : List OutBeat) (a : Nat) (high : Bool) (c : Nat) : Prop :=
  ∃ b, b ∈ bs ∧ ((a, high, c) ∈ b.ns ∨ ∃ v : Byte, (a, v) ∈ b.bs ∧ (if high then v.toNat / 16 else v.toNat % 16) = c)

end Sys2Proof.Machine

/-- Every vector and causeway word with unpoisoned sources completes with its beats pending; its Time and the engine's occupancy by its class (R212, R217, R220, R229, R232, R234 to R237, R261, R263); VFILL.fc clears flags and VPROG without the engine (R218, R227). ROWE completes likewise on the row engine, ROWPROG 0 (R292 to R294). -/
def Obligations.VectorWords : Prop :=
  ∀ (i : Instr) (h : Head) (p : PV) (s : State) (c : CoreId), s.cur.hart = .core c →
    (∀ v, vrAt i s = some v → s.goes i → (s.core c).poison = [] →
      s.completes i v.time .next ((claimQueues v (s.draw.occupy 0 v.occ)).modCpu s.cur.hart fun u => { u with pend := u.pend ++ vectorEntries s v })
      ∧ vget (s.core c).occ 0 0 ≤ s.t0)
    ∧ (∀ srcs m t v, mapWord i = some (p, srcs, m, t) → vrAt i s = some v → s.goes i →
        let rs := p.d :: srcs ++ (if m then maskReg p else [])
        let b := vecBeats (s.core c) rs (countOf (s.core c) p p.d) (rowsOf (s.core c) p.d)
        v.time = t + b ∧ v.occ = b ∧ ∀ r, r ∈ rs → countOf (s.core c) p r = countOf (s.core c) p p.d ∧ rowsOf (s.core c) r = rowsOf (s.core c) p.d)
    ∧ (∀ v L, vrAt i s = some v → (i = .vred h p ∨ i = .vdot h p ∨ i = .vamax h p) → ceilLog (countOf (s.core c) p p.a) L →
        let rs := p.d :: p.a :: (if i = .vdot h p then [p.b] else []) ++ maskReg p
        let b := vecBeats (s.core c) rs (countOf (s.core c) p p.a) (rowsOf (s.core c) p.a)
        v.time = 8 + b + L ∧ v.occ = b)
    ∧ (∀ v, vrAt (.vscan h p) s = some v →
        v.time = 6 + countOf (s.core c) p p.d * ceilDiv (rowsOf (s.core c) p.d) 128 ∧ v.occ = countOf (s.core c) p p.d * ceilDiv (rowsOf (s.core c) p.d) 128)
    ∧ (∀ v, vrAt (.vtrn h p) s = some v →
        let b := vecBeats (s.core c) [p.d, p.a] ((s.core c).region p.a.toNat).cnt (rowsOf (s.core c) p.a)
        v.time = 6 + 2 * b ∧ v.occ = 2 * b)
    ∧ (∀ v, vrAt (.vperm h p) s = some v →
        let b := vecBeats (s.core c) (p.d :: p.a :: p.b :: maskReg p) (countOf (s.core c) p p.d) (rowsOf (s.core c) p.d)
        v.time = 6 + 2 * b ∧ v.occ = 2 * b)
    ∧ (∀ v, vrAt (.vqnt h p) s = some v →
        let b := vecBeats (s.core c) (p.d :: p.a :: maskReg p) (countOf (s.core c) p p.d) (rowsOf (s.core c) p.d)
        v.time = 6 + (if h.fn = 0 then 2 * b else b) ∧ v.occ = if h.fn = 0 then 2 * b else b)
    ∧ (∀ v, (vrAt (.cwadd h p) s = some v ∨ vrAt (.cwsub h p) s = some v) →
        v.time = 6 + rowsOf (s.core c) p.d * ceilDiv (countOf (s.core c) p p.d) 128 ∧ v.occ = rowsOf (s.core c) p.d * ceilDiv (countOf (s.core c) p p.d) 128)
    ∧ (∀ v, vrAt (.cwsum h p) s = some v →
        let b := vecBeats (s.core c) (p.a :: maskReg p) (countOf (s.core c) p p.a) (rowsOf (s.core c) p.a)
        v.time = 8 + b ∧ v.occ = b)
    ∧ (s.goes (.vfillFc h p) → s.completes (.vfillFc h p) 1 .next (s.draw.post 1 [.clrFlags (BitVec.ofNat 32 (p.mode.toNat / 32)), .vprog 0]))
    ∧ (∀ r : PR, (i = .roweSmax h r ∨ i = .roweRms h r) → s.goes i →
        let b := ceilDiv (opndOf (s.core c) r.a.toNat 0).n 128
        let n := (opndOf (s.core c) r.a.toNat 0).rows
        ∃ t, exec i s = .next t ∧ (t.core c).rowProg = 0 ∧ t.mem = s.mem ∧ (t.core c).cpu.g = (s.core c).cpu.g
          ∧ vget (t.core c).occ 3 0 = s.t0 + if i = .roweSmax h r then (n + 2) * b + 26 else (n + 1) * b + 12)

/-- Results of the elementwise words on operands that are regions: where the mask lane is not 0 the element of D takes the word's result, elsewhere zero under ZERO and otherwise no byte; no byte is written that is no element's (R216, R221 to R231). Integer and fixed-point arithmetic is exact and then narrowed; floating-point results come from the exact values by one rounding (R95 to R100), those of VRCP, VRSQ and VNR as R229 and R230 say, the irrational ones carried as log 51 says (DESIGN CHOICE). VDQN multiplies each code by its scale; VQNT divides by the scale of the block, in the .auto form its largest magnitude, which it stores, and gives the nearest code of R109 or the FP8E4 value (R237, R238; ties in RNE, log 81, codes under a NaN scale, log 16, both DESIGN CHOICE). -/
def Obligations.VectorElements : Prop :=
  (∀ (i : Instr) (p : PV) (srcs : List (BitVec 9)) (m : Bool) (t : Nat) (s : State) (c : CoreId) (v : VR), mapWord i = some (p, srcs, m, t) →
    s.cur.hart = .core c → s.goes i → s.inflightPool c = [] → vrAt i s = some v →
    let k := s.core c
    let d := k.region p.d.toNat
    let n := countOf k p p.d
    let rs := p.d :: srcs ++ (if m then maskReg p else [])
    let at_ (r : BitVec 9) (e : Nat) : Nat := ((k.region r.toNat).addr (e / n) (e % n)).toNat
    let bits (r : BitVec 9) (e : Nat) : Nat := k.pool.le (at_ r e) (fmtBytes (k.region r.toNat).fmt)
    let lane (e : Nat) : Prop := ∀ r, m = true → r ∈ maskReg p → bits r e ≠ 0
    (∀ r, r ∈ rs → (k.region r.toNat).qb = 31 ∧ isQ4 (k.region r.toNat).fmt = false) →
    (∀ e w, e < n * d.rows → lane e → elementOf i p d (srcs.map fun r => k.region r.toNat) e (srcs.map (bits · e)) = some w →
        writesAt (v.outs 0 v.m).1 (at_ p.d e) (fmtBytes d.fmt) w)
    ∧ (∀ e, e < n * d.rows → ¬ lane e → p.zero = true → writesAt (v.outs 0 v.m).1 (at_ p.d e) (fmtBytes d.fmt) 0)
    ∧ (∀ b x, b ∈ (v.outs 0 v.m).1 → x ∈ b.bs → ∃ e, e < n * d.rows ∧ (lane e ∨ p.zero = true) ∧ at_ p.d e ≤ x.1 ∧ x.1 < at_ p.d e + fmtBytes d.fmt))
  ∧ (∀ (h : Head) (p : PV) (s : State) (c : CoreId) (v : VR), s.cur.hart = .core c → s.inflightPool c = [] →
    let k := s.core c
    let d := k.region p.d.toNat
    let a := k.region p.a.toNat
    let n := countOf k p p.d
    let fa := (fmtF a.fmt).getD fp32
    let at_ (r : Region) (e : Nat) : Nat := (r.addr (e / n) (e % n)).toNat
    let lane (e : Nat) : Prop := ∀ r, r ∈ maskReg p → k.pool.le (at_ (k.region r.toNat) e) (fmtBytes (k.region r.toNat).fmt) ≠ 0
    let x (e : Nat) : FV := fa.read (k.pool.le (at_ a e) (fmtBytes a.fmt))
    (vrAt (.vdqn h p) s = some v → s.goes (.vdqn h p) → (∀ r, r ∈ p.d :: p.a :: maskReg p → (k.region r.toNat).qb = 31) → ∀ e, e < n * d.rows → lane e →
      let fd := (fmtF d.fmt).getD fp32
      let sc := fp32.read (k.pool.le (a.scaleAddr (e / n) (e % n)) 4)
      let byte := k.pool.le (at_ a e) 1
      writesAt (v.outs 0 v.m).1 (at_ d e) (fmtBytes d.fmt)
        (if a.fmt = 14 then codeTo fd p.rm p.sat (if e % n % 2 = 1 then byte / 16 else byte % 16) sc else productTo fd p.rm p.sat (fp8e4.read byte) sc))
    ∧ (∀ sc : Nat → FV, vrAt (.vqnt h p) s = some v → s.goes (.vqnt h p) →
      let mates (e : Nat) : Nat → Prop := fun u => u < n * d.rows ∧ lane u ∧ (x u).isNan = false
        ∧ e / n / 2 ^ d.blkr = u / n / 2 ^ d.blkr ∧ e % n / 2 ^ d.blkc = u % n / 2 ^ d.blkc
      -- the scale of each block, its own largest magnitude or the one that is given
      (∀ e, e < n * d.rows →
        (h.fn = 1 → sc e = fp32.read (k.pool.le (d.scaleAddr (e / n) (e % n)) 4))
        ∧ (h.fn = 0 → ((∃ u, mates e u ∧ ∃ g, x u = .inf g) ∧ sc e = .inf false)
          ∨ ((∀ u, mates e u → ∀ g, x u ≠ .inf g) ∧ ∃ m, (∀ u, mates e u → (x u).int.natAbs ≤ m) ∧ (m = 0 ∨ ∃ u, mates e u ∧ (x u).int.natAbs = m)
            ∧ sc e = if d.fmt = 14 then .fin false m else fp32.read (exactTo fp32 0 false m (448 * 2 ^ 149) false)))) →
      ∀ e, e < n * d.rows →
        (h.fn = 0 → writesAt (v.outs 0 v.m).1 (d.scaleAddr (e / n) (e % n)) 4 (valueTo fp32 0 false (sc e)))
        ∧ (lane e → d.fmt = 8 → writesAt (v.outs 0 v.m).1 (at_ d e) 1 (ratioTo p.rm (x e) (sc e)))
        ∧ (lane e → d.fmt = 14 → ∃ q, writesHalf (v.outs 0 v.m).1 (at_ d e) (e % n % 2 = 1) q ∧ codeIs p.rm (x e) (sc e) q)
        ∧ (¬ lane e → p.zero = true → d.fmt = 14 → writesHalf (v.outs 0 v.m).1 (at_ d e) (e % n % 2 = 1) 0)))

/-- Results of the reductions, scans, rearrangements and causeway words (R113, R114, R232 to R236, R260 to R263): over integers and X32 VRED.sum, VDOT and VSCAN give the wrapped sums of the lanes that are on, over floating-point formats the pairwise tree and the running sums in FP32, each node rounded; VRED.max and .min a leaf's bits, the canonical NaN when every leaf is NaN and 0 of no leaf; VAMAX the largest magnitude, NaN aside; VTRN element (i, j) of A at (j, i), VPERM the element that the index names or 0, CWADD and CWSUB the half with the branch added or taken away, CWSUM the position-weighted checksum. -/
def Obligations.VectorRows : Prop :=
  ∀ (h : Head) (p : PV) (s : State) (c : CoreId) (v : VR), s.cur.hart = .core c → s.inflightPool c = [] →
    let k := s.core c
    let d := k.region p.d.toNat
    let a := k.region p.a.toNat
    let na := countOf k p p.a
    let nd := countOf k p p.d
    let bits (r : BitVec 9) (n e : Nat) : Nat := k.pool.le ((k.region r.toNat).addr (e / n) (e % n)).toNat (fmtBytes (k.region r.toNat).fmt)
    let on (n e : Nat) : Bool := (maskReg p).all fun r => bits r n e != 0
    let elem (i j : Nat) : Nat := (d.addr i j).toNat
    let sum (n i j : Nat) (f : Nat → Int) : Int := (((List.range j).filter fun x => on n (i * n + x)).map fun x => f (i * n + x)).sum
    let fa := (fmtF a.fmt).getD fp32
    let fixed (r : Region) : Bool := isZ r.fmt || isX r.fmt
    -- a lane of row i that is on, and the leaves of R113
    let leafAt (i e : Nat) : Prop := i * na ≤ e ∧ e < i * na + na ∧ on na e = true
    let value (r : BitVec 9) (e : Nat) : FV := fa.read (bits r na e)
    let leaf (n i : Nat) (f : Nat → Nat) (j : Nat) : Option Nat := if j < n ∧ on n (i * n + j) = true then some (f (i * n + j)) else none
    (∀ i, vrAt (.vred h p) s = some v → s.goes (.vred h p) → h.fn = 0 → fixed d = true → i < a.rows → 0 < na →
        writesAt (v.outs 0 v.m).1 (elem i 0) (fmtBytes d.fmt) (narrowed d.fmt false (sum na i na fun e => intOf a.fmt (bits p.a na e))))
    ∧ (∀ i L, vrAt (.vred h p) s = some v → s.goes (.vred h p) → h.fn = 0 → isF a.fmt = true → i < a.rows → ceilLog na L → 0 < na →
        writesAt (v.outs 0 v.m).1 (elem i 0) 4 ((pairTree p.rm (leaf na i fun e => valueTo fp32 0 false (value p.a e)) L 0).getD 0))
    ∧ (∀ i L, vrAt (.vdot h p) s = some v → s.goes (.vdot h p) → isF a.fmt = true → i < a.rows → ceilLog na L → 0 < na →
        writesAt (v.outs 0 v.m).1 (elem i 0) 4 ((pairTree p.rm (leaf na i fun e => productTo fp32 p.rm false (value p.a e) (value p.b e)) L 0).getD 0))
    ∧ (∀ i e, vrAt (.vred h p) s = some v → s.goes (.vred h p) → h.fn = 1 ∨ h.fn = 2 → i < a.rows → 0 < na →
        ((∀ u, ¬ leafAt i u) → writesAt (v.outs 0 v.m).1 (elem i 0) (fmtBytes d.fmt) 0)
        ∧ (fixed a = true → leafAt i e → (∀ u, leafAt i u → if h.fn = 1 then intOf a.fmt (bits p.a na u) ≤ intOf a.fmt (bits p.a na e) else intOf a.fmt (bits p.a na e) ≤ intOf a.fmt (bits p.a na u)) →
          writesAt (v.outs 0 v.m).1 (elem i 0) (fmtBytes d.fmt) (bits p.a na e))
        ∧ (isF a.fmt = true → leafAt i e → (∀ u, leafAt i u → (value p.a u).isNan = true) → writesAt (v.outs 0 v.m).1 (elem i 0) (fmtBytes d.fmt) fa.canon)
        ∧ (isF a.fmt = true → leafAt i e → (value p.a e).isNan = false →
          (∀ u, leafAt i u → (if h.fn = 1 then valueBelow (value p.a e) (value p.a u) else valueBelow (value p.a u) (value p.a e)) = false) →
          writesAt (v.outs 0 v.m).1 (elem i 0) (fmtBytes d.fmt) (bits p.a na e)))
    ∧ (∀ i m, vrAt (.vamax h p) s = some v → s.goes (.vamax h p) → i < a.rows → 0 < na →
        let ok_ (e : Nat) : Prop := leafAt i e ∧ (value p.a e).isNan = false
        ((∃ e g, ok_ e ∧ value p.a e = .inf g) → writesAt (v.outs 0 v.m).1 (elem i 0) 4 fp32.infBits)
        ∧ ((∀ e g, ok_ e → value p.a e ≠ .inf g) → (∀ e, ok_ e → (value p.a e).int.natAbs ≤ m) → (m = 0 ∨ ∃ e, ok_ e ∧ (value p.a e).int.natAbs = m) →
          writesAt (v.outs 0 v.m).1 (elem i 0) 4 (exactTo fp32 0 false m (2 ^ 149) false)))
    ∧ (∀ i j, vrAt (.vscan h p) s = some v → s.goes (.vscan h p) → isF a.fmt = true → i < d.rows → j < nd →
        writesAt (v.outs 0 v.m).1 (elem i j) 4 (runningSum p.rm (leaf nd i fun e => valueTo fp32 0 false (fa.read (bits p.a nd e))) j))
    ∧ (∀ i, vrAt (.vdot h p) s = some v → s.goes (.vdot h p) → isZ d.fmt = true → i < a.rows → 0 < na →
        writesAt (v.outs 0 v.m).1 (elem i 0) (fmtBytes d.fmt)
          (narrowed d.fmt false (sum na i na fun e => intOf a.fmt (bits p.a na e) * intOf a.fmt (bits p.b na e))))
    ∧ (∀ i j, vrAt (.vscan h p) s = some v → s.goes (.vscan h p) → fixed d = true → i < d.rows → j < nd →
        writesAt (v.outs 0 v.m).1 (elem i j) (fmtBytes d.fmt) (narrowed d.fmt false (sum nd i (j + 1) fun e => intOf a.fmt (bits p.a nd e))))
    ∧ (∀ i j, vrAt (.vtrn h p) s = some v → s.goes (.vtrn h p) → i < a.cnt → j < a.rows →
        writesAt (v.outs 0 v.m).1 (elem i j) (fmtBytes d.fmt) (k.pool.le (a.addr j i).toNat (fmtBytes a.fmt)))
    ∧ (∀ i j x, vrAt (.vperm h p) s = some v → s.goes (.vperm h p) → i < d.rows → j < nd → on nd (i * nd + j) = true →
        x = intOf (k.region p.b.toNat).fmt (bits p.b nd (i * nd + j)) →
        writesAt (v.outs 0 v.m).1 (elem i j) (fmtBytes d.fmt) (if 0 ≤ x ∧ x < na then bits p.a na (i * na + x.toNat) else 0))
    ∧ (∀ i j, vrAt (.cwadd h p) s = some v → s.goes (.cwadd h p) → h.fn ≠ 0 → a.qb = 31 → (∀ r, r ∈ maskReg p → (k.region r.toNat).qb = 31) → i < d.rows → j < nd → on nd (i * nd + j) = true →
        writesAt (v.outs 0 v.m).1 (elem i j) 4 (narrowed 13 false (intOf 13 (bits p.d nd (i * nd + j)) + intOf 13 (bits p.a nd (i * nd + j)))))
    ∧ (∀ i j, vrAt (.cwsub h p) s = some v → s.goes (.cwsub h p) → h.fn ≠ 0 → a.qb = 31 → (∀ r, r ∈ maskReg p → (k.region r.toNat).qb = 31) → i < d.rows → j < nd → on nd (i * nd + j) = true →
        writesAt (v.outs 0 v.m).1 (elem i j) 4 (narrowed 13 false (intOf 13 (bits p.d nd (i * nd + j)) - intOf 13 (bits p.a nd (i * nd + j)))))
    ∧ (∀ i j, vrAt (.cwadd h p) s = some v → s.goes (.cwadd h p) → h.fn = 0 → a.qb = 31 → (∀ r, r ∈ maskReg p → (k.region r.toNat).qb = 31) → i < d.rows → j < nd → on nd (i * nd + j) = true →
        ∀ g x, fp32.read (bits p.a nd (i * nd + j)) = .fin g x →
        let q : Int := ((2 * x * 2 ^ d.frac + 2 ^ 149) / 2 ^ 150 : Nat)
        let r : Int := Max.max (-2 ^ 31) (Min.min (2 ^ 31 - 1) (if g then -q else q))
        writesAt (v.outs 0 v.m).1 (elem i j) 4 (narrowed 13 false (intOf 13 (bits p.d nd (i * nd + j)) + r)))
    ∧ (vrAt (.cwsum h p) s = some v → s.goes (.cwsum h p) →
        writesAt (v.outs 0 v.m).1 d.base 4 (narrowed 5 false ((if h.fn = 1 then intOf 13 (k.pool.le d.base 4) else 0)
          + (((List.range (na * a.rows)).filter (on na)).map fun (e : Nat) => (2 * (e : Int) + 1) * intOf 13 (bits p.a na e)).sum)))

/-! ### The sort array -/

namespace Sys2Proof.Machine

/-- The phase limit of SORT and SORTC: PL of MODE, 0 meaning 15 (R273, R274). -/
def phaseLimit (p : PV) : Nat := if p.mode.toNat / 32 % 16 = 0 then 15 else p.mode.toNat / 32 % 16
/-- Steps left to a phase limit (R274). -/
def stepsTo (x : SortState) (pl : Nat) : Nat := if x.p < pl then 128 * (pl - x.p) - x.s else 0
/-- Element e of a region register read with its own count, and how many it has. -/
def elemAt (k : Core) (r : BitVec 9) (e : Nat) : Nat :=
  ((k.region r.toNat).addr (e / (k.region r.toNat).cnt) (e % (k.region r.toNat).cnt)).toNat
def elemCount (k : Core) (r : BitVec 9) : Nat := (k.region r.toNat).cnt * (k.region r.toNat).rows

end Sys2Proof.Machine

/-- SKEY, SORT, SORTC, SORTC.ld, SORTU, SORTU.dump and SMRG complete with their Times and the array occupied (R272 to R279): a load takes the region's pairs in order as tags 0 on, with sentinels behind them; a continuation sets the phase limit; an unload writes the real pairs in boustrophedon order; a merge writes both runs merged, a beat of 64 pairs a cycle, the last in the last cycle (of more beats than the Time has cycles the first ones in the issue cycle; DESIGN CHOICE, log 99), and leaves the resident state invalid. -/
def Obligations.SortWords : Prop :=
  ∀ (h : Head) (p : PV) (s : State) (c : CoreId), s.cur.hart = .core c → s.inflightPool c = [] → (s.core c).poison = [] →
    let k := s.core c
    let x := k.sort
    let base (r : BitVec 9) : Nat := (k.region r.toNat).base
    (s.goes (.skey h p) → s.completes (.skey h p) 1 .next (s.draw.post 0 [.scfg (h.fn.toNat + 8 * (p.mode.toNat / 32 % 8))]))
    ∧ (s.goes (.sort h p) → elemCount k p.a ≤ 16384 ∧ ∃ y xs, s.completes (.sort h p) (132 + 128 * phaseLimit p) .next
        (((s.draw.occupy 2 (132 + 128 * phaseLimit p)).modCore c fun k => { k with sortBad := [] }).post (131 + 128 * phaseLimit p) [.sort y (s.t0 + 128)] xs)
        ∧ y.valid = true ∧ y.n = elemCount k p.a ∧ y.p = 0 ∧ y.s = 0 ∧ y.pl = phaseLimit p ∧ y.cfg = k.scfg ∧ y.cells.length = 16384
        ∧ (∀ e, e < elemCount k p.a → y.cells[e]? = some { pair := BitVec.ofNat 64 (k.pool.le (elemAt k p.a e) 8), tag := e, sent := false })
        ∧ (∀ e, elemCount k p.a ≤ e → e < 16384 → ∃ z, y.cells[e]? = some z ∧ z.sent = true))
    ∧ (s.goes (.sortc h p) → x.valid = true ∧ (k.sortBad = [] → s.completes (.sortc h p) (4 + stepsTo x (phaseLimit p)) .next
        ((s.draw.occupy 2 (4 + stepsTo x (phaseLimit p))).post (3 + stepsTo x (phaseLimit p)) [.sort { x with pl := phaseLimit p } s.t0] [] (some (s.origin (.sortc h p))))))
    ∧ (s.goes (.sortcLd h p) → ∀ y, y = undump (fun a n => k.pool.le a n) (base p.a) → dumpOk (fun a n => k.pool.le a n) (base p.a) y.n = true → ∃ xs,
        s.completes (.sortcLd h p) (165 + stepsTo y (phaseLimit p)) .next
          (((s.draw.occupy 2 (165 + stepsTo y (phaseLimit p))).modCore c fun k => { k with sortBad := [] }).post (164 + stepsTo y (phaseLimit p))
            [.sort { y with pl := phaseLimit p } (s.t0 + 161)] xs))
    ∧ (s.goes (.sortu h p) → x.valid = true ∧ elemCount k p.d = x.n ∧ (k.sortBad = [] → ∃ bs,
        s.completes (.sortu h p) 134 .next ((s.draw.occupy 2 128).post 134 [.pool bs [] (wholeGranules bs)] [] (some (s.origin (.sortu h p))))
        ∧ ∀ e z, x.unload[e]? = some z → ∀ j, j < 8 → (elemAt k p.d e + j, byteOf z.pair.toNat j) ∈ bs))
    ∧ (s.goes (.sortuDump h p) → x.valid = true ∧ base p.d % 64 = 0 ∧ (k.sortBad = [] →
        s.completes (.sortuDump h p) 167 .next ((s.draw.occupy 2 161).post 167 [.pool (x.dump (base p.d)) [] (wholeGranules (x.dump (base p.d)))] [] (some (s.origin (.sortuDump h p))))))
    ∧ (s.goes (.smrg h p) → elemCount k p.d = elemCount k p.a + elemCount k p.b
        ∧ (let run (r : BitVec 9) : List Cell := (List.range (elemCount k r)).map fun e => { pair := BitVec.ofNat 64 (k.pool.le (elemAt k r e) 8), sent := false }
          let n := (k.region p.d.toNat).cnt
          ∃ u, s.completes (.smrg h p) 326 .next u ∧ (u.core c).sort = { x with valid := false } ∧ (u.core c).sortBad = []
            ∧ vget (u.core c).occ 2 0 = s.t0 + 320 ∧ (u.core c).pool = k.pool ∧ u.mem = s.mem
            ∧ ∀ e z, (mergeRuns (k.scfg % 32) (elemCount k p.a + elemCount k p.b) (run p.a) (run p.b))[e]? = some z →
              ∃ y bs bad w, y ∈ (u.core c).cpu.pend ∧ y.issue = s.t0 ∧ y.effs = [.pool bs bad w] ∧ bad = []
                ∧ y.land = s.t0 + (326 - ((k.region p.d.toNat).rows * ceilDiv n 64 - 1 - (e / n * ceilDiv n 64 + e % n / 64)))
                ∧ ∀ j, j < 8 → (elemAt k p.d e + j, byteOf z.pair.toNat j) ∈ bs))

/-- The compare-exchange network loses and makes no cell (R271); a merge of two runs holds the pairs of both, and is in order when they are (R270, R277); a dumped state loads back as it was (R274, R276). -/
def Obligations.SortNetwork : Prop :=
  (∀ (x : SortState) (n : Nat), x.cells.length = 16384 → (x.advance n).cells.length = 16384 ∧ (x.advance n).cells.Perm x.cells)
  ∧ (∀ (cfg n : Nat) (xs ys : List Cell), xs.length + ys.length ≤ n → (mergeRuns cfg n xs ys).Perm (xs ++ ys)
      ∧ ((∀ z, z ∈ xs ++ ys → z.sent = false) → cfg < 32 →
          xs.Pairwise (fun a b => b.before cfg a = false) → ys.Pairwise (fun a b => b.before cfg a = false) →
          (mergeRuns cfg n xs ys).Pairwise (fun a b => b.before cfg a = false)))
  ∧ (∀ (x : SortState) (a : Nat) (m : Mem), m.wf = true → x.valid = true → x.cells.length = 16384 → (∀ z, z ∈ x.cells → z.tag < 2 ^ 14) →
      x.n < 2 ^ 16 → x.p < 256 → x.s < 256 → x.pl < 256 → x.cfg < 256 →
      undump (fun b n => (m.writes (x.dump a)).le b n) a = x)

/-! ### The matrix engine -/

namespace Sys2Proof.Machine

/-- The multiplying words with their kind (R240). -/
def mulWord : Instr → Option (MKind × Head × PM)
  | .mma h p => some (.mma, h, p)
  | .mmah h p => some (.mmah, h, p)
  | .mmat h p => some (.mmat, h, p)
  | .mma16 h p => some (.m16, h, p)
  | .mmas h p => some (.mmas, h, p)
  | .mq4 h p => some (.mq4, h, p)
  | _ => none

/-- Address of element (i, j) of an accumulator result of tc tile columns whose first tile is t (R72, R243). -/
def accAt (k : Core) (t tc i j : Nat) : Nat :=
  2 ^ 23 - fld (k.part.zeroExtend 64) 7 0 * 2 ^ 16 + (t + i / 128 * tc + j / 128) * 2 ^ 16 + 512 * (i % 128) + 4 * (j % 128)
/-- One chunk's exact sum, in units of 2^-298, added into an FP32 accumulator and rounded once to nearest even (R112). -/
def chunkStep (acc : Nat) (sum : Int) : Nat :=
  if sum = 0 then acc else match fp32.read acc with
    | .fin _ _ => (fp32.roundI 0 false ((fp32.read acc).int * 2 ^ 149 + sum) (2 ^ 298)).1
    | .inf n => fp32.sign n fp32.infBits
    | .nan _ => fp32.canon
/-- An entry pending on the core that lands at a cycle and writes an accumulator value. -/
def accPending (k : Core) (land a v : Nat) : Prop :=
  ∃ e bs w ch, e ∈ k.cpu.pend ∧ e.land = land ∧ Eff.acc bs w ch ∈ e.effs ∧ ∀ j, j < 4 → (a + j, byteOf v j) ∈ bs

end Sys2Proof.Machine

/-- The multiplying words (R240 to R252): with no poison met and no accumulator write pending, every result element's value lands in its tile at the end of the Time, 12 + tiles × K × ρ cycles (8 for MMA16, K/2 for MMAS), the engine is occupied over the product, RC moves on at issue and HEAD at the end; a non-scaled MMA or MMAH adds K/16 exact chunks, each rounded once. MZERO, MDRN, MLDA and MRPOP (R248, R253 to R255). -/
def Obligations.MatrixWords : Prop :=
  ∀ (h : Head) (p : PM) (s : State) (c : CoreId), s.cur.hart = .core c → s.inflightPool c = [] → (s.core c).poison = [] →
    let k := s.core c
    let rd (a n : Nat) : Nat := k.pool.le a n
    (∀ i kind, mulWord i = some (kind, h, p) → s.goes i →
      let q := mulOf kind h p s
      let time := if kind = .m16 then 8 else 12 + q.tr * q.tc * (if kind = .mmas then q.k / 2 else q.k) * q.rho
      ∃ t, exec i s = .next t ∧ vget (t.core c).occ 1 0 = Nat.max (vget k.occ 1 0) (s.t0 + if kind = .m16 then 1 else time - 12)
        ∧ (kind ≠ .m16 → ∀ i j, i < q.rows → j < q.cols →
            accPending (t.core c) (s.t0 + time) (accAt k p.acc.toNat q.tc i j) (q.value rd i j (if kind = .mmah then 0 else rd (accAt k p.acc.toNat q.tc i j) 4)))
        ∧ (kind = .m16 → ∀ i j, i ≤ p.mm.toNat → j ≤ p.nn.toNat →
            accPending (t.core c) (s.t0 + 8) (accAt k p.acc.toNat 1 (16 * p.tm.toNat + i) (16 * p.tn.toNat + j))
              (q.value rd i j (rd (accAt k p.acc.toNat 1 (16 * p.tm.toNat + i) (16 * p.tn.toNat + j)) 4)))
        ∧ (p.ra ≠ p.rb → ∀ r, r = p.ra ∨ r = p.rb → (vget (t.core c).rings r.toNat {}).rc = ((vget k.rings r.toNat {}).rc + 1) % 256
            ∧ ∃ e, e ∈ (t.core c).cpu.pend ∧ e.land = s.t0 + time ∧ Eff.ringHead r.toNat 1 ∈ e.effs)
        ∧ (p.ra = p.rb → (vget (t.core c).rings p.ra.toNat {}).rc = ((vget k.rings p.ra.toNat {}).rc + 2) % 256)
        ∧ (t.core c).pool = k.pool ∧ (t.core c).cpu.g = k.cpu.g ∧ t.mem = s.mem)
    ∧ (∀ kind, kind = .mma ∨ kind = .mmah → h.fn.toNat % 8 < 6 →
      let q := mulOf kind h p s
      let fa := (fmtF q.fa).getD fp32
      let fb := (fmtF q.fb).getD fp32
      let a (i x : Nat) : FV := fa.read (rd (q.a + (i * q.k + x) * fmtBytes q.fa) (fmtBytes q.fa))
      let b (x j : Nat) : FV := fb.read (rd (q.b + (x * q.n + j) * fmtBytes q.fb) (fmtBytes q.fb))
      ∀ i j acc, (∀ x, x < q.k → ∃ u v y z, a i x = .fin u v ∧ b x j = .fin y z) →
        q.value rd i j acc = (List.range (q.k / 16)).foldl (fun v u =>
          chunkStep v (((List.range 16).map fun x => (a i (16 * u + x)).int * (b (16 * u + x) j).int).sum)) acc)
    ∧ (s.goes (.mzero h p) → let q := mulOf .mma h p s
        ∃ t, exec (.mzero h p) s = .next t ∧ (∀ i j, i < q.rows → j < q.cols → accPending (t.core c) (s.t0 + 4 + q.tr * q.tc) (accAt k p.acc.toNat q.tc i j) 0)
          ∧ (t.core c).pool = k.pool ∧ (t.core c).rings = k.rings ∧ t.mem = s.mem)
    ∧ (s.goes (.mdrn h p) → let r := k.region p.mta.toNat
        let time := 4 + ceilDiv (r.rows * r.cnt * fmtBytes r.fmt) 512
        ∃ t, exec (.mdrn h p) s = .next t ∧ (t.core c).pool = k.pool ∧ t.mem = s.mem
          ∧ ∀ i j, i < r.rows → j < r.cnt →
            let a := if h.fn.toNat.testBit 0 then accAt k p.acc.toNat 1 (16 * p.tm.toNat + j) (16 * p.tn.toNat + i) else accAt k p.acc.toNat 1 (16 * p.tm.toNat + i) (16 * p.tn.toNat + j)
            (∃ e bs w, e ∈ (t.core c).cpu.pend ∧ e.land = s.t0 + time ∧ Eff.pool bs [] w ∈ e.effs ∧ ∀ x, x < fmtBytes r.fmt →
              ((r.addr i j).toNat + x, byteOf (((fmtF r.fmt).getD fp32).conv 0 (h.fn.toNat.testBit 1) (fp32.read (rd a 4))).1 x) ∈ bs)
            ∧ (h.fn.toNat.testBit 2 = true → accPending (t.core c) (s.t0 + time) a 0))
    ∧ (s.goes (.mlda h p) → let r := k.region p.mta.toNat
        ∃ t, exec (.mlda h p) s = .next t ∧ (t.core c).pool = k.pool ∧ t.mem = s.mem
          ∧ ∀ i j, i < r.rows → j < r.cnt → accPending (t.core c) (s.t0 + 4 + ceilDiv (r.rows * r.cnt * 4) 512)
              (accAt k p.acc.toNat 1 (16 * p.tm.toNat + i) (16 * p.tn.toNat + j))
              (fp32.conv 0 false (((fmtF r.fmt).getD fp32).read (rd (r.addr i j).toNat (fmtBytes r.fmt)))).1)
    ∧ (s.goes (.mrpop h p) → s.completes (.mrpop h p) 1 .next
        ((s.draw.modCore c fun k => { k with rings := vmod k.rings p.ra.toNat fun r => { r with rc := (r.rc + p.tm.toNat) % 256 } }).post 1 [.ringHead p.ra.toNat p.tm.toNat]))

/-! ### Launch controllers -/

/-- LCSTAT with a command's status, the LID of the last SUBMIT kept (R373). -/
def Sys2Proof.Machine.Part.statusIs (q : Part) (st : Nat) : Dword := BitVec.ofNat 64 (fld q.lcstat 63 48 * 2 ^ 48 + st)

/-- The launch controller's commands and events (R56, R57, R373 to R381, R384, R396, R403): a SUBMIT is refused with its status and a completion record, or queued under a LID that no one holds; PREEMPT posts a record and stops the domain at least 16 cycles on; ABANDON, RERUN, QHOLD and QRUN; a start takes the highest-ranked head and loads its cores, at the least multiplier of its atolls' loops and without pulses while one of them relocks (R57, R403); RERUN starts anew a launch that a KILL other than EXIT's ends (what counts as EXIT: DEDUCED, log 23), which stands until an open edge (DESIGN CHOICE, log 22); a budget posts its record once; a domain retargets all its atolls together at a reference edge, every 52nd edge of the model (DESIGN CHOICE, log 1); late arrivals reach a save area, and stale packets, responses to accesses of cores that a reset killed among them, are dropped and counted. -/
def Obligations.LaunchControl : Prop :=
  (∀ (s : State) (p : Nat), p < 8 →
    (s.submitStatus p ≠ 0 → ∃ t, exec (.submit p) s = .next t ∧ (t.part p).lcstat = BitVec.ofNat 64 (s.submitStatus p)
      ∧ ((s.part p).done.length < 256 → (t.part p).done = (s.part p).done ++ [(0, 3, 0)])
      ∧ (t.part p).queues = (s.part p).queues ∧ t.launches = s.launches ∧ t.mem = s.mem ∧ t.cores = s.cores)
    ∧ (∀ r, s.submitStatus p = 0 → s.requestOf p = some r → r.queue < 16 → (∃ m, 1 ≤ m ∧ m ≤ 65535 ∧ s.lidHeld m = false) → ∃ t n, exec (.submit p) s = .next t
      ∧ 1 ≤ n ∧ n ≤ 65535 ∧ s.lidHeld n = false ∧ (t.part p).lcstat = BitVec.ofNat 64 (n * 2 ^ 48)
      ∧ vget (t.part p).queues r.queue [] = vget (s.part p).queues r.queue [] ++ [{ r with lid := n }]
      ∧ (∀ q, q ≠ r.queue → vget (t.part p).queues q [] = vget (s.part p).queues q []) ∧ t.launches = s.launches ∧ t.mem = s.mem)
    ∧ (∀ l, s.launch (fld (s.part p).lccmd 31 16) = some l → l.ptn = p → l.state = .run → l.frozen = false → l.lid = fld (s.part p).lccmd 31 16 →
        ∃ t r, exec (.preempt p) s = .next t ∧ (t.part p).lcstat = (s.part p).statusIs 0 ∧ t.waitRecs = s.waitRecs ++ [r] ∧ r.trap.cause = 0x18 ∧ r.c = l.coreOf 0 0 ∧ r.disp = none
        ∧ t.mem = s.mem ∧ ∀ d, d ∈ l.members → (s.core d).stopped = false →
            ∃ x, (t.core d).stop = some x ∧ (l.sfc + 16 ≤ x ∨ (s.core d).stop = some x))
    ∧ ((∀ l, s.launch (fld (s.part p).lccmd 31 16) = some l → l.ptn ≠ p ∨ l.state = .preempting) →
        exec (.preempt p) s = .next (s.modPart p fun q => { q with lcstat := q.statusIs 6 }))
    ∧ (∀ r, (s.part p).preload = some r → r.lid = fld (s.part p).lccmd 31 16 → ∃ t, exec (.abandon p) s = .next t ∧ (t.part p).preload = none ∧ (t.part p).lcstat = (s.part p).statusIs 0
        ∧ ((s.part p).done.length < 256 → (t.part p).done = (s.part p).done ++ [(r.lid, 4, 0)]) ∧ t.launches = s.launches)
    ∧ ((s.part p).preload = none → (∀ k, k < 16 → ∀ r, r ∈ vget (s.part p).queues k [] → r.lid ≠ fld (s.part p).lccmd 31 16) →
        exec (.abandon p) s = .next (s.modPart p fun q => { q with lcstat := q.statusIs 6 }))
    ∧ exec (.qhold p) s = .next (s.modPart p fun q => { q with holds := q.holds ||| BitVec.twoPow 16 (fld (s.part p).lccmd 7 4), lcstat := q.statusIs 0 })
    ∧ exec (.qrun p) s = .next (s.modPart p fun q => { q with holds := q.holds &&& ~~~(BitVec.twoPow 16 (fld (s.part p).lccmd 7 4)), lcstat := q.statusIs 0 })
    ∧ (∃ t, exec (.lcdpop p) s = .next t ∧ (t.part p).done = (s.part p).done.drop 1 ∧ (∀ q, q ≠ p → t.part q = s.part q) ∧ t.launches = s.launches ∧ t.mem = s.mem)
    ∧ (s.startable p = none → exec (.launchStart p) s = .next s)
    ∧ (∀ r x y pin l, s.startable p = some (r, x, y, false) → s.pinPages p (ofLE ((r.khdr.drop 16).take 8)) (ofLE ((r.khdr.drop 12).take 2)) = some pin →
        l = ({ lid := r.lid, ptn := p, job := r.job, fbn := r.fbn, fbix := r.fbix, x0 := x, y0 := y, khdr := r.khdr, image := r.image, imlen := r.imlen,
               prio := r.prio, queue := r.queue, budget := r.budget } : Launch) →
        ∃ t cur off at_, exec (.launchStart p) s = .next t ∧ t.launches = s.launches ++ [{ l with cur := cur, relock := off, lockAt := at_ }] ∧ t.mem = s.mem
        ∧ (∀ a, a ∈ l.atolls → cur ≤ (s.atoll a).cur) ∧ (off = true ↔ ∃ a, a ∈ l.atolls ∧ (s.atoll a).locked = false)
        ∧ ∀ d, d ∈ l.members → (t.core d).lid = r.lid ∧ (t.core d).pool = Mem.writes [] (spadBytes (s.imageAt r.image) none)
            ∧ (t.core d).cpu.imem = Rd.imem (s.imageAt r.image) ∧ (t.core d).pin = pin ∧ (∀ i, (t.core d).cpu.getG i = 0) ∧ (t.core d).stop = none
            ∧ (∀ q, t.stream (.core d) q = Rd.start (s.imageAt r.image) q))
    ∧ (∀ r x y b, s.startable p = none → s.preloadable p = some (r, x, y, b) → r.queue < 16 → ∃ t, exec (.preload p) s = .next t
        ∧ (t.part p).preload = some { r with place := some (x, y), behind := b } ∧ t.launches = s.launches
        ∧ (∀ d, (t.core d).pool = (s.core d).pool ∧ (t.core d).cpu = (s.core d).cpu))
    ∧ (∀ l, s.launch (fld (s.part p).lccmd 31 16) = some l → l.lid = fld (s.part p).lccmd 31 16 → l.ptn = p → l.killAt.isSome = true → (s.part p).tdisp ≠ 1 → (s.part p).tdisp ≠ 3 →
        ∀ r, s.killRec l = some r → r.isExit = false → ((s.endLaunch l.lid 2 0).pinPages p (l.hdr 16 8) (l.hdr 12 2)).isSome = true → ∃ t k, exec (.rerun p) s = .next t ∧ (t.part p).lcstat = (s.part p).statusIs 0 ∧ k ∈ t.launches
        ∧ k.x0 = l.x0 ∧ k.y0 = l.y0 ∧ k.image = l.image ∧ k.sfc = 0 ∧ k.state = .run ∧ t.launches.length = (s.launches.filter (·.lid != l.lid)).length + 1)
    ∧ (((s.part p).tdisp = 1 ∨ (s.part p).tdisp = 3) → (s.launch (fld (s.part p).lccmd 31 16)).isSome = true →
        exec (.rerun p) s = .next (s.modPart p fun q => { q with lcstat := q.statusIs 5 }))
    ∧ ((s.part p).tdisp ≠ 1 → (s.part p).tdisp ≠ 3 → (∀ l, s.launch (fld (s.part p).lccmd 31 16) = some l → l.ptn ≠ p ∨ l.killAt = none ∨ s.exits l = true) →
        exec (.rerun p) s = .next (s.modPart p fun q => { q with lcstat := q.statusIs 6 })))
  ∧ (∀ (s : State) (l : Launch), s.launch l.lid = some l →
      (l.budget ≠ 0 → l.budget ≤ l.used → l.expired = false → l.state ≠ .hookRun → ∃ t r, exec (.budgetExpired l.lid) s = .next t
        ∧ t.waitRecs = s.waitRecs ++ [r] ∧ r.trap.cause = 0x17 ∧ r.trap.info = l.budget ∧ r.c = l.coreOf 0 0 ∧ (∀ k, t.launch l.lid = some k → k.expired = true))
      ∧ (l.budget = 0 ∨ l.used < l.budget ∨ l.expired = true ∨ l.state = .hookRun → exec (.budgetExpired l.lid) s = .next s)
      ∧ exec (.pulseSwallow l.lid) s = .next (s.modLaunch l.lid fun k => { k with swallow := k.swallow + 1 })
      ∧ (s.time % 52 = 0 → (l.cur ≠ s.wantedCur l ∨ ∃ a, a ∈ l.atolls ∧ (s.atoll a).cur ≠ s.wantedCur l) → ∃ t, exec (.frequencyRetarget l.lid) s = .next t
        ∧ (∀ a, a ∈ l.atolls → a < 32 → (t.atoll a).cur = s.wantedCur l ∧ s.wantedCur l ≤ (s.atoll a).mult ∧ (t.atoll a).locked = false)
        ∧ (∀ k, t.launch l.lid = some k → k.relock = true ∧ k.cur = s.wantedCur l)
        ∧ (s.wantedCur l * (s.launches.map Launch.share).sum ≤ 27648 * 52 ∨ (s.launches.map Launch.share).sum = 0) ∧ t.cores = s.cores ∧ t.mem = s.mem)
      ∧ ((s.time % 52 ≠ 0 ∨ (l.cur = s.wantedCur l ∧ ∀ a, a ∈ l.atolls → (s.atoll a).cur = s.wantedCur l)) → exec (.frequencyRetarget l.lid) s = .next s)
      ∧ (l.relock = true → l.lockAt ≤ s.time → ∃ t, exec (.loopLocked l.lid) s = .next t ∧ (∀ a, a ∈ l.atolls → a < 32 → (t.atoll a).locked = true)
        ∧ (∀ k, t.launch l.lid = some k → k.relock = false) ∧ t.cores = s.cores))
  ∧ (∀ (s : State) (a : Arrival) (e : Saved), s.launch a.lid = none → s.savedOf a.lid = some e → s.stale a = false → s.transitOf a = none →
      (e.newlid = none → s.memOk → a.credit = none → ∃ t, exec (.lateArrival a) s = .next t
        ∧ (∀ (n x : Nat) (v : Byte), a.bytes[n]? = some (x, v) → (∀ (m : Nat) y, n < m → a.bytes[m]? = some y → y.1 ≠ x) →
            t.mem.read (e.area + 0x10000 + (a.ry * e.w + a.rx) * 0x900000 + x) = v)
        ∧ t.mem.le (e.area + 0x28) 8 = (s.mem.le (e.area + 0x28) 8 + if (256, a.copy) ∈ e.late then 0 else 1) % 2 ^ 64 ∧ t.cores = s.cores)
      ∧ (∀ n l, e.newlid = some n → s.launch n = some l → exec (.lateArrival a) s = exec (.copyArrival { a with lid := n }) (s.endTransit a)))
  ∧ (∀ (s : State) (a : Arrival) (i : Nat), s.arrivalIsland a = some i →
      (a.inc ≠ (s.island a.isl).inc → exec (.staleDrop a) s = .next ((s.endTransit a).modIsland i fun x => { x with stale := (x.stale + 1) % 2 ^ 32 }))
      ∧ (a.inc = (s.island a.isl).inc → exec (.staleDrop a) s = .next s))
  ∧ (∀ (s : State) (i : Nat), i < 14 → s.strayDue i = true → s.arrivalIsland (strayArrival i (s.island i).inc) = none →
      ∃ t, exec (.staleDrop (strayArrival i (s.island i).inc)) s = .next t ∧ (t.island i).stale = ((s.island i).stale + 1) % 2 ^ 32
        ∧ (t.island i).strays.length + 1 = (s.island i).strays.length ∧ t.mem = s.mem ∧ t.cores = s.cores ∧ t.launches = s.launches)

/-! ### Engines -/

/-- Promotion and migration complete (R360 to R363, R371): ENGCMD latches a request and refuses it with its RESULT, or begins it with the range's walks dropped everywhere; CANCEL acts in phase 1 alone; the copy waits for every holder of the range, and so does its end (DEDUCED, log 53: which holders count); the ends of phases 2 and 3 fall at edges that the spec leaves open (DESIGN CHOICE, log 4); at that of phase 2 each unit of the destination holds its frame's bytes and nothing else of memory changes, at that of phase 3 one dword of the table is stored, no other byte; an abort stores no table dword and leaves an open part of the destination written (DESIGN CHOICE, log 54); HOTREL drops one counter set. -/
def Obligations.EngineMoves : Prop :=
  ∀ (s : State) (n : Nat), n < 6 →
    (∀ tag, (s.engine n).phase ≠ 0 → exec (.engStart n tag) s = .next s)
    ∧ (∀ tag, (s.engine n).phase = 0 → ∃ t, exec (.engStart n tag) s = .next t ∧ (t.engine n).la = (s.engine n).a ∧ (t.engine n).lb = (s.engine n).b
        ∧ (t.engine n).tag = tag ∧ (t.engine n).poisoned = 0 ∧ t.mem = s.mem
        ∧ ((∃ r, (t.engine n).phase = 0 ∧ (t.engine n).result = r ∧ (r = 2 ∨ r = 3))
          ∨ ((t.engine n).phase = 1 ∧ ∀ x : Hart, (x = .harbour ∨ ∃ l c, l ∈ s.launches ∧ c ∈ l.members ∧ x = .core c) → ∀ w, w ∈ (t.cpu x).wcache →
              w.ptn = (t.engine n).ptn → ∀ g, g ∈ w.used.gpas → g.1 < (t.engine n).base ∨ (t.engine n).base + (t.engine n).size ≤ g.1)))
    ∧ ((s.engine n).phase = 1 → exec (.engCancel n) s = .next (s.modEngine n fun e => { e with phase := 0, result := 1 }))
    ∧ ((s.engine n).phase ≠ 1 → exec (.engCancel n) s = .next s)
    ∧ (∀ m, s.moveOf n = some m → (s.engine n).phase = 1 →
        (s.rangeHeld (s.engine n) = true → exec (.engCopyBegin n) s = .next s)
        ∧ (s.rangeHeld (s.engine n) = false → ∃ t, exec (.engCopyBegin n) s = .next t ∧ (t.engine n).phase = 2 ∧ t.mem = s.mem))
    ∧ ((s.engine n).phase ≠ 1 → exec (.engCopyBegin n) s = .next s)
    ∧ (∀ m, s.moveOf n = some m → s.rangeHeld (s.engine n) = true → exec (.engRewrite n) s = .next s)
    ∧ (∀ m b, s.memOk → s.moveOf n = some m → (s.engine n).phase = 2 → s.rangeHeld (s.engine n) = false → s.engineFault n = none → b = m.unit * m.frames.length →
        (∀ f, f ∈ m.frames → f + m.unit ≤ (s.engine n).dest ∨ (s.engine n).dest + b ≤ f) →
        ∃ t, exec (.engRewrite n) s = .next t ∧ (t.engine n).phase = 3
        ∧ (∀ i f k, m.frames[i]? = some f → k < m.unit → t.mem.read ((s.engine n).dest + m.unit * i + k) = s.mem.read (f + k))
        ∧ (∀ x, (x < (s.engine n).dest ∨ (s.engine n).dest + b ≤ x) → t.mem.read x = s.mem.read x))
    ∧ (∀ m, s.memOk → s.moveOf n = some m → (s.engine n).phase = 3 → s.rangeHeld (s.engine n) = false →
        ∃ t, exec (.engRewrite n) s = .next t ∧ (t.engine n).phase = 0 ∧ (t.engine n).result = 0 ∧ t.mem.le m.entry 8 = m.new % 2 ^ 64
        ∧ (∀ x, (x < m.entry ∨ m.entry + 8 ≤ x) → t.mem.read x = s.mem.read x))
    ∧ (∀ m r, s.memOk → s.moveOf n = some m → (s.engine n).phase = 2 → s.engineFault n = some r → ∃ t, exec (.engAbort n) s = .next t ∧ (t.engine n).phase = 0
        ∧ (t.engine n).result = r ∧ ∀ x, (x < (s.engine n).dest ∨ (s.engine n).dest + m.unit * m.frames.length ≤ x) → t.mem.read x = s.mem.read x)
    ∧ (∀ p lid, exec (.hotrel p lid) s = .next (s.modPart p fun q => { q with hotsets := q.hotsets.filter (·.1 != lid) }))

/-! ### Partitions and links -/

/-- Partition registers, TDISP, function resets, ports and the host link (R365 to R369, R395, R401, R407, R410, R411): a write under TDISP LOCKED or RUN enters ERROR and kills the partition's launches; an FLR empties the queues and resets the islands; a port that trains, fails or is taken down shows it in LINK and READY; doorbells, posted writes, what the host reads in BAR0 (R389, R392, R405, R410), attestation and plain register writes. That an FLR enters ERROR from every TDISP state is log 35 (DEDUCED), REJ's handling log 61 (DEDUCED), which posted writes land and which bytes the host reads in each STAGE log 68 (DEDUCED), the SPDM answer's form log 15 (DESIGN CHOICE). An engine's commands and phases complete (R360 to R363), and HOTREL drops its set (R371). -/
def Obligations.PartitionsAndLinks : Prop :=
  (∀ (s : State) (n tag : Nat) (m : Move), n < 6 →
    ((s.engine n).phase = 0 → ∃ t, exec (.engStart n tag) s = .next t ∧ (t.engine n).tag = tag ∧ (t.engine n).la = (s.engine n).a ∧ (t.engine n).lb = (s.engine n).b ∧ t.mem = s.mem)
    ∧ ((s.engine n).phase = 1 → ∃ t, exec (.engCancel n) s = .next t ∧ (t.engine n).phase = 0 ∧ (t.engine n).result = 1 ∧ t.mem = s.mem)
    ∧ (s.moveOf n = some m → s.rangeHeld (s.engine n) = false → (s.engine n).phase = 1 → ∃ t, exec (.engCopyBegin n) s = .next t ∧ (t.engine n).phase = 2 ∧ t.mem = s.mem)
    ∧ (s.moveOf n = some m → s.rangeHeld (s.engine n) = false → (s.engine n).phase = 2 → s.engineFault n = none → ∃ t, exec (.engRewrite n) s = .next t ∧ (t.engine n).phase = 3)
    ∧ (s.moveOf n = some m → s.rangeHeld (s.engine n) = false → (s.engine n).phase = 3 → ∃ t, exec (.engRewrite n) s = .next t ∧ (t.engine n).phase = 0 ∧ (t.engine n).result = 0)
    ∧ (∀ r, s.moveOf n = some m → (s.engine n).phase = 2 → s.engineFault n = some r → ∃ t, exec (.engAbort n) s = .next t ∧ (t.engine n).phase = 0 ∧ (t.engine n).result = r)
    ∧ (∀ p lid, p < 8 → ∃ t, exec (.hotrel p lid) s = .next t ∧ (∀ x, x ∈ (t.part p).hotsets → x.1 ≠ lid) ∧ t.mem = s.mem))
  ∧
  (∀ (s : State) (n : Nat) (v : Dword), 0x400 ≤ n → n < 0x480 → n % 16 ≤ 4 → let p := n / 16 % 8
      ((s.part p).tdisp = 1 ∨ (s.part p).tdisp = 2 → ∃ t, exec (.ptcfgWrite n v) s = .next t ∧ (t.part p).tdisp = 3 ∧ (t.part p).cfg.getLsbD 31 = true
        ∧ (∀ l, l ∈ t.launches → l.ptn ≠ p) ∧ (t.part p).hbm = (s.part p).hbm ∧ (t.part p).s2root = (s.part p).s2root)
      ∧ ((s.part p).tdisp = 0 ∨ (s.part p).tdisp = 3 → s.ptDiscard p (n % 16) v = true →
          exec (.ptcfgWrite n v) s = .next (s.modPart p fun q => { q with cfg := q.cfg ||| BitVec.twoPow 64 31 }))
      ∧ ((s.part p).tdisp = 0 ∨ (s.part p).tdisp = 3 → s.ptDiscard p (n % 16) v = false → ∃ t, exec (.ptcfgWrite n v) s = .next t ∧ t.launches = s.launches
          ∧ (n % 16 = 0 → fld (t.part p).cfg 8 0 = fld v 8 0) ∧ (n % 16 = 1 → (t.part p).hbm = v &&& 0xFFFFFFFF) ∧ (n % 16 = 2 → (t.part p).far = v &&& 0xFFFFFFFF)
          ∧ (n % 16 = 3 → (t.part p).ext = v &&& 0x3F) ∧ (n % 16 = 4 → (t.part p).s2root = v &&& 0xFFFFFFFFE000)
          ∧ ∀ q, q ≠ p → t.part q = s.part q))
  ∧ (∀ (s : State) (p : Nat), p < 8 →
      (((s.part p).tdisp = 0 ∧ (s.part p).en = true) → exec (.tdispLock p) s = .next (s.modPart p fun q => { q with tdisp := 1 }))
      ∧ ((s.part p).tdisp = 1 → exec (.tdispStart p) s = .next (s.modPart p fun q => { q with tdisp := 2 }))
      ∧ ((s.part p).tdisp ≠ 1 → exec (.tdispStart p) s = .next (s.modPart p fun q => { q with cfg := q.cfg ||| BitVec.twoPow 64 31 }))
      ∧ ((s.part p).tdisp ≠ 0 ∨ (s.part p).en = false → exec (.tdispLock p) s = .next (s.modPart p fun q => { q with cfg := q.cfg ||| BitVec.twoPow 64 31 }))
      ∧ (∃ t, exec (.tdispStop p) s = .next t ∧ (t.part p).tdisp = 0 ∧ (∀ l, l ∈ t.launches → l.ptn ≠ p) ∧ ∀ l, l ∈ s.launches → (∀ k, k ∈ s.launches → k.lid = l.lid → k.ptn ≠ p) → l ∈ t.launches)
      ∧ ((s.part p).en = false → exec (.functionLevelReset p) s = .next s)
      ∧ ((s.part p).en = true → ∃ t, exec (.functionLevelReset p) s = .next t ∧ (t.part p).tdisp = 3 ∧ (t.part p).preload = none
          ∧ (∀ k, vget (t.part p).queues k [] = []) ∧ (∀ l, l ∈ t.launches → l.ptn ≠ p)
          ∧ ∀ i, i < 8 → (s.part p).mask.testBit i = true → (s.island i).rst = 0 → (t.island i).rst = 2 ∧ (t.island i).inc = ((s.island i).inc + 1) % 256))
  ∧ (∀ (s : State) (k : Nat), k < 12 →
      (∀ i b, (i = .passageTrain k ∧ b = 1) ∨ (i = .passageTakeDown k ∧ b = 0) → ∃ t, exec i s = .next t ∧ (t.port k).link = b ∧ (t.port k).lanes = 0
        ∧ t.readyBit (8 + k / 3) (5 + k % 3) = false ∧ (∀ j, j ≠ k → t.port j = s.port j) ∧ t.launches = s.launches)
      ∧ (∀ lanes lp peer, (s.port k).link = 1 → ∃ t, exec (.trainingDone k lanes lp peer) s = .next t ∧ (t.port k).link = 2 ∧ (t.port k).lanes = lanes % 256 ∧ (t.port k).lp = lp % 65536
        ∧ t.readyBit (8 + k / 3) (5 + k % 3) = true ∧ t.harbour.hevent = s.harbour.hevent ||| 0x20 ∧ t.cores = s.cores ∧ t.mem = s.mem)
      ∧ (∀ lanes lp peer, (s.port k).link ≠ 1 → exec (.trainingDone k lanes lp peer) s = .next s)
      ∧ ((s.port k).link = 2 → exec (.flitRetry k) s = .next (s.modPort k fun q => { q with retry := (q.retry + 1) % 2 ^ 64 }))
      ∧ ((s.port k).link ≠ 2 → exec (.flitRetry k) s = .next s))
  ∧ (∀ (s : State) (v : Dword) (a : Nat) (bs : List Byte) (msg : List Byte),
      exec (.hdbin v) s = .next { s with hdbin := v, harbour := { s.harbour with hevent := s.harbour.hevent ||| 0x02, evNow := s.harbour.evNow ||| 0x02, hwNow := 0xA01 :: s.harbour.hwNow } }
      ∧ exec (.hdbout v) s = .next { s with out := s.out ++ [.msix 0] }
      ∧ (a + bs.length ≤ 0x200000 → (s.stage = 1 ∨ (s.stage = 3 ∧ 0x1FF000 ≤ a)) → a < 0x200000 → ∃ t, exec (.hostPostedWrite a bs) s = .next t
          ∧ t.mem = s.mem.writes (bs.zipIdx.map fun b => (a + b.2, b.1)) ∧ t.cores = s.cores ∧ t.harbour = s.harbour)
      ∧ (0x200000 ≤ a → (∀ k, k < bs.length → (s.tierOf (a + k)).isSome = true ∧ s.unready (a + k) = none) → ∃ t, exec (.hostPostedWrite a bs) s = .next t
          ∧ t.mem = s.mem.writes (bs.zipIdx.map fun b => (a + b.2, b.1)) ∧ t.cores = s.cores ∧ t.harbour = s.harbour)
      ∧ (0x200000 ≤ a → (∃ k, k < bs.length ∧ (s.tierOf (a + k) = none ∨ (s.unready (a + k)).isSome = true)) → exec (.hostPostedWrite a bs) s = .next s)
      ∧ (a < 0x200000 → (s.stage = 2 ∨ (s.stage = 3 ∧ a < 0x1FF000)) → exec (.hostPostedWrite a bs) s = .next s)
      ∧ (∀ k, s.stage = 3 → (msg.headD 0) = 0 → s.akey = some k → exec (.spdmRequest msg) s = .next { s with out := s.out ++ [.spdm (spdmAnswer k msg (s.measurements 0))] })
      ∧ (s.stage ≠ 3 ∨ s.akey = none → exec (.spdmRequest msg) s = .next s))
  ∧ (∀ (s : State) (off : Nat),
      (off < 0x200000 → s.barByte off = if s.stage = 1 then s.mem.read off else 0)
      ∧ (∀ k, k < 8 → s.err < 2 ^ 8 → s.stage < 2 ^ 8 → s.barByte (0x200000 + k) = BitVec.ofNat 8 ([s.stage, s.attempts, 0, s.err, 0, 0, 0, 0].getD k 0))
      ∧ (∀ a, a < 32 → s.barByte (0x201000 + 8 * a) = if (s.atoll a).wake = true then 1 else 0)
      ∧ (∀ k, k < 0x1000 → s.barByte (0x210000 + k) = if s.stage = 3 then s.mem.read (0x1FF000 + k) else 0)
      ∧ (∀ k n, k < n → (s.barRead off n)[k]? = some (s.barByte (off + k))) ∧ ∀ n, (s.barRead off n).length = n)
  ∧ (∀ (s : State) (v : Dword) (p : Nat), p < 8 →
      exec (.registerWrite (0x201 + 0x40 * p) v) s = .next (s.modPart p fun q => { q with lcarg := v &&& 0x0000FFFFFFFFFFC0 })
      ∧ exec (.registerWrite (0x205 + 0x40 * p) v) s = .next (s.modPart p fun q => { q with lcage := v &&& 0xFFFFFFFF })
      ∧ exec (.registerWrite (0x405 + 0x10 * p) v) s = .next (s.modPart p fun q => { q with s1root := v &&& 0x0000FFFFFFFFE000 })
      ∧ exec (.registerWrite 0x180 v) s = .next { s with bistctl := v &&& 0xFFFF0001 }
      ∧ exec (.registerWrite 0x009 v) s = .next { s with harbour := { s.harbour with scra := v } })

/-! ### Bring-up -/

/-- Power-up, verification, readiness, resets, spares, self-test, soft errors and the log (R389 to R401). Retired cores are kept over POWER_UP and MODULE_RESET (DESIGN CHOICE, log 9); VERIFY leaves the image's digest in FWDIG and derives the alias key from it (R391, R401; how, log 15, DESIGN CHOICE); when STATE of a reset returns to 0, and that passage ports go down with their islands, is log 57 (DEDUCED); that LOGPOP lets the sources that assert set HEVENT again is log 19 (DEDUCED). -/
def Obligations.BringUp : Prop :=
  (∀ s : State,
    (∀ i, i = .powerUp ∨ i = .moduleReset → exec i s = .next { State.reset with hops := s.hops, atolls := s.atolls.map fun a => { retired := a.retired, map := (atmapOf a.retired).1, spare := (atmapOf a.retired).2 }, inputs := s.inputs, out := s.out, free := s.free })
    ∧ (∀ n, s.stage = 1 → exec (.bootdb n) s = .next { s with stage := 2, attempts := s.attempts + 1, bootLen := n })
    ∧ (∀ n, s.stage ≠ 1 → exec (.bootdb n) s = .next s)
    ∧ (s.stage = 2 → s.imageErr ≠ 0 → exec .verifyDone s = .next { s with mem := s.mem.clear 0 0x200000, stage := 1, err := s.imageErr })
    ∧ (s.mem.le 0 4 ≠ 0x59425246 → s.imageErr = 1)
    ∧ (s.stage = 2 → s.imageErr = 0 → ∃ t, exec .verifyDone s = .next t ∧ t.stage = 3 ∧ fld t.harbour.hstat 1 0 = 2 ∧ fld t.harbour.hstat 4 4 = 0
        ∧ (t.stream .harbour .s).pc = s.mem.le 16 4 ∧ (t.stream .harbour .s).parked = false
        ∧ (s.mem.le 20 4 = 0xFFFFFFFF → (t.stream .harbour .a).parked = true)
        ∧ (s.mem.le 20 4 ≠ 0xFFFFFFFF → (t.stream .harbour .a).pc = s.mem.le 20 4 ∧ (t.stream .harbour .a).parked = false)
        ∧ fld t.harbour.vecm 18 0 = s.mem.le 16 4 % 2 ^ 19
        ∧ t.akey = some (Config.aliasKey (sha512 s.signedBytes))
        ∧ (∀ i, i < 8 → vget t.fwdig i 0 = BitVec.ofNat 64 (ofLE (((sha512 s.signedBytes).drop (8 * i)).take 8)))
        ∧ t.launches = s.launches ∧ t.cores = s.cores)
    ∧ exec .logpop s = .next { s with log := s.log.drop 1, harbour := { s.harbour with hevent := s.harbour.hevent ||| s.asserting, evNow := s.harbour.evNow ||| s.asserting } })
  ∧ (∀ (s : State) (isl b : Nat), isl < 14 → b < 13 →
    (∀ i cmd, (i = .coreReset isl ∧ cmd = 1) ∨ (i = .islandReset isl ∧ cmd = 2) →
      (s.resetOk isl cmd = false → exec i s = .next s)
      ∧ (s.resetOk isl cmd = true → ∃ t, exec i s = .next t ∧ (t.island isl).rst = cmd ∧ (t.island isl).inc = ((s.island isl).inc + 1) % 256
          ∧ t.readyBit isl 1 = false ∧ (cmd = 2 → (t.island isl).ready = 0 ∧ (t.island isl).cyc = 0)
          ∧ (isl < 8 → ∀ c, islandOf c = isl → t.core c = {}) ∧ (∀ l a, l ∈ t.launches → a ∈ l.atolls → a / 4 ≠ isl)))
    ∧ (s.readyBit isl b = true → exec (.functionReady isl b) s = .next s)
    ∧ ((resetMask isl).getLsbD b = true → s.readyBit isl b = false → ∃ t, exec (.functionReady isl b) s = .next t
        ∧ (t.island isl).ready = (s.island isl).ready ||| BitVec.twoPow 13 b
        ∧ ((∀ k, (resetMask isl).getLsbD k = true → k = b ∨ s.readyBit isl k = true) → (t.island isl).rst = 0))
    ∧ (s.readyBit isl b = false → exec (.functionFail isl b) s = .next s)
    ∧ (s.readyBit isl b = true → ∃ t, exec (.functionFail isl b) s = .next t ∧ (t.island isl).ready = (s.island isl).ready &&& ~~~(BitVec.twoPow 13 b) ∧ t.launches = s.launches
        ∧ (8 ≤ isl → isl < 12 → 5 ≤ b → b < 8 → (t.port (3 * (isl - 8) + (b - 5))).link = 0 ∧ t.harbour.hevent.getLsbD 5 = true)))
  ∧ (∀ (s : State) (a m : Nat), a < 32 → m < 512 →
    ((s.atoll a).retired.toNat &&& m ≠ (s.atoll a).retired.toNat → exec (.atmapRetire a m) s = .next s)
    ∧ ((s.atoll a).retired.toNat &&& m = (s.atoll a).retired.toNat → ∃ t, exec (.atmapRetire a m) s = .next t ∧ (t.atoll a).retired.toNat = m ∧ t.cores = s.cores
        ∧ ∀ k, k < 8 → (s.atoll a).map.toNat / 16 ^ k % 16 < 9 → (t.atoll a).map.toNat / 16 ^ k % 16 =
            if m.testBit ((s.atoll a).map.toNat / 16 ^ k % 16) = true ∧ (s.atoll a).retired.getLsbD ((s.atoll a).map.toNat / 16 ^ k % 16) = false then 0xF
            else (s.atoll a).map.toNat / 16 ^ k % 16)
    ∧ (s.bistMay a = false → exec (.bistStart a) s = .next s)
    ∧ (s.bistMay a = true → ∃ t, exec (.bistStart a) s = .next t ∧ (t.atoll a).bist = true ∧ (t.atoll a).bistPos < 9 ∧ t.cores = s.cores)
    ∧ ((s.atoll a).bist = true →
        (∃ t, exec (.bistAbort a) s = .next t ∧ (t.atoll a).bist = false ∧ (t.atoll a).retired = (s.atoll a).retired ∧ t.launches = s.launches)
        ∧ (∃ t, exec (.bistFail a) s = .next t ∧ (t.atoll a).bist = false ∧ ((s.atoll a).bistPos < 9 → (t.atoll a).retired.getLsbD (s.atoll a).bistPos = true))
        ∧ exec (.bistPass a) s = .next (s.modAtoll a fun t => { t with bist := false, idle := 0 })))
  ∧ (∀ (s : State) (e : ErrSite) (c : CoreId) (x : Nat),
    exec (.softError e true) s = .next s
    ∧ (∃ t, exec (.softError (.pool c x) false) s = .next t ∧ x / 64 * 64 ∈ (t.core c).poison ∧ (t.core c).pool = (s.core c).pool
        ∧ (s.log.length < 128 → t.log.length = s.log.length + 1 ∧ t.harbour.hevent.getLsbD 6 = true))
    ∧ (∃ t, exec (.softError (.word c x) false) s = .next t ∧ x ∈ (t.core c).cpu.imemBad ∧ (t.core c).cpu.imem = (s.core c).cpu.imem)
    ∧ (s.tierOf x = some 0 → ∃ t, exec (.softError (.line x) false) s = .next t ∧ t.linePoisoned x = true ∧ t.mem = s.mem ∧ t.cores = s.cores))

/-! ### Atoll power -/

/-- The gating machine and the clock of an atoll (R402 to R406, R412): each command acts in its state alone and sets REJ elsewhere; a save writes the pools of the living places into the image and gates the atoll; a restore brings them back. That the regulator is good and the loop locked together, and how the bits of one ATCTL write act, is log 62 (DEDUCED); that one droop counts as one event over the CYC cycles that it lasts, each of which takes duty, and swallows a pulse of the whole domain once the window's duty is used, is log 62 too. -/
def Obligations.AtollPower : Prop :=
  ∀ (s : State) (a : Nat), a < 32 →
    let t0 := s.atoll a
    let rej : Host.Outcome State Fault Refusal := .next (s.modAtoll a fun t => { t with rej := true })
    (t0.state = 0 → t0.launchHold = true → t0.arrivalClose = true → exec (.quiesce a) s = .next (s.modAtoll a fun t => { t with state := 1, rej := false }))
    ∧ (t0.state ≠ 0 ∨ t0.launchHold = false ∨ t0.arrivalClose = false → exec (.quiesce a) s = rej)
    ∧ (t0.state = 1 → s.atollHeld a = false → t0.bist = false → s.pendingArrivals a = 0 → exec (.quiesced a) s = .next (s.modAtoll a fun t => { t with state := 2, idleAll := true }))
    ∧ (t0.state ≠ 1 ∨ s.atollHeld a = true → exec (.quiesced a) s = .next s)
    ∧ (t0.state = 2 → s.retbaseOk a = true → ∃ t, exec (.gate a) s = .next t ∧ (t.atoll a).state = 3 ∧ (t.atoll a).retainOk = false ∧ (t.atoll a).rej = false ∧ t.cores = s.cores ∧ t.mem = s.mem)
    ∧ (t0.state ≠ 2 ∨ s.retbaseOk a = false → exec (.gate a) s = rej)
    ∧ (t0.state = 1 ∨ t0.state = 2 → exec (.atollWake a) s = .next (s.modAtoll a fun t => { t with state := 0, idleAll := false, rej := false }))
    ∧ (t0.state = 4 → ∃ t, exec (.atollWake a) s = .next t ∧ (t.atoll a).state = 5 ∧ (t.atoll a).en = true ∧ t.cores = s.cores ∧ t.mem = s.mem)
    ∧ (t0.state = 0 ∨ t0.state = 3 ∨ t0.state = 5 ∨ t0.state = 6 → exec (.atollWake a) s = rej)
    ∧ (∀ v : Dword, fld v 1 0 = 0 → ∃ t, exec (.atctlBits a v) s = .next t
        ∧ (t.atoll a).launchHold = (if t0.state = 0 then v.getLsbD 8 else t0.launchHold || v.getLsbD 8)
        ∧ (t.atoll a).arrivalClose = (if t0.state = 0 then v.getLsbD 9 else t0.arrivalClose || v.getLsbD 9) ∧ (t.atoll a).state = t0.state ∧ t.cores = s.cores ∧ t.mem = s.mem)
    ∧ (∃ t, exec (.wake a) s = .next t ∧ t.harbour.hevent = s.harbour.hevent ||| 0x04 ∧ (t.atoll a).state = (if t0.state = 4 then 5 else t0.state)
        ∧ (t0.state = 3 ∨ t0.state = 4 → (t.atoll a).wake = true) ∧ (t0.state ≠ 3 → t0.state ≠ 4 → (t.atoll a).rej = true) ∧ t.cores = s.cores)
    ∧ (t0.state = 3 → t0.due ≤ s.time → t0.wake = false → s.memOk → s.poolsOk →
        (∀ c : CoreId, (∀ x, x ∈ (s.core c).pool → x.1 < 2 ^ 23) ∧ (∀ x, x ∈ (s.core c).shadow → x.1 < 2 ^ 19) ∧ ∀ g, g ∈ (s.core c).poison → g < 2 ^ 23) →
        ∃ t, exec (.saveDone a) s = .next t ∧ (t.atoll a).state = 4 ∧ (t.atoll a).retainOk = true ∧ (t.atoll a).en = false
        ∧ ∀ k c, (k, c) ∈ s.places a → t.core c = {} ∧ ∀ x, x < 2 ^ 23 → t.mem.read (t0.retbase + k * 0x800000 + x) = (s.core c).pool.read x)
    ∧ (t0.state ≠ 3 → exec (.saveDone a) s = .next s ∧ exec (.saveFail a) s = .next s)
    ∧ (t0.state = 3 → ∃ t, exec (.saveFail a) s = .next t ∧ (t.atoll a).state = 2 ∧ (t.atoll a).result = 2 ∧ t.cores = s.cores ∧ t.mem = s.mem)
    ∧ (t0.state = 5 → t0.due ≤ s.time → ∃ t, exec (.restoring a) s = .next t ∧ (t.atoll a).state = 6 ∧ (t.atoll a).good = true ∧ (t.atoll a).locked = true ∧ (t.atoll a).cur = t0.mult)
    ∧ (t0.state = 6 → t0.due ≤ s.time → s.memOk → ∃ t, exec (.restoreDone a []) s = .next t ∧ (t.atoll a).state = 2 ∧ (t.atoll a).wake = false ∧ t.mem = s.mem
        ∧ ∀ k c, (k, c) ∈ s.places a → ∀ x, x < 2 ^ 23 → (t.core c).pool.read x = s.mem.read (t0.retbase + k * 0x800000 + x))
    ∧ (∀ v : Dword, (3 ≤ t0.state ∧ t0.state ≤ 6 → exec (.retbaseWrite a v) s = rej)
        ∧ (t0.state < 3 → exec (.retbaseWrite a v) s = .next (s.modAtoll a fun t => { t with retbase := fld v 47 16 * 2 ^ 16 }))
        ∧ (24 ≤ fld v 6 0 → fld v 6 0 ≤ 65 → exec (.fllcfgWrite a v) s = .next (s.modAtoll a fun t => { t with mult := fld v 6 0 }))
        ∧ (fld v 6 0 < 24 ∨ 65 < fld v 6 0 → exec (.fllcfgWrite a v) s = rej))
    ∧ (t0.en = false → exec (.droopBoost a) s = .next s)
    ∧ (t0.en = true → (if t0.win = s.cyc (a / 4) / 64 then t0.dutyUsed else 0) < t0.duty → ∃ t, exec (.droopBoost a) s = .next t
        ∧ (t.atoll a).dutyUsed = (if t0.win = s.cyc (a / 4) / 64 then t0.dutyUsed else 0) + 1 ∧ t.launches = s.launches
        ∧ (t.atoll a).boost = if t0.win = s.cyc (a / 4) / 64 ∧ t0.dutyUsed ≠ 0 ∧ t0.lastBoost = s.cyc (a / 4) then t0.boost else Nat.min 65535 (t0.boost + 1))
    ∧ (∀ l, t0.en = true → t0.duty ≤ (if t0.win = s.cyc (a / 4) / 64 then t0.dutyUsed else 0) → s.launches = [l] → a ∈ l.atolls → ∃ t, exec (.droopBoost a) s = .next t
        ∧ t.launches = [{ l with swallow := l.swallow + 1 }])
end

