-- ==== Sys2Proof/Laws/State.lean ====
section
/-! SUPPORT. One lemma for each field of the state that an update leaves alone, and what a named update leaves where it acts: later proofs rewrite with these and unfold no record update. -/

namespace Sys2Proof.Machine

/-! ### Vectors by number -/

@[simp] theorem vget_vset_self {α : Type} {n : Nat} (v : Vector α n) (i : Nat) (x d : α) (h : i < n) : vget (vset v i x) i d = x := by
  simp [vget, vset, h]
theorem vget_vset_ne {α : Type} {n : Nat} (v : Vector α n) (i j : Nat) (x d : α) (h : i ≠ j) : vget (vset v i x) j d = vget v j d := by
  by_cases hi : i < n <;> by_cases hj : j < n <;> simp [vget, vset, hi, hj, h]
@[simp] theorem vget_vmod_self {α : Type} {n : Nat} (v : Vector α n) (i : Nat) (f : α → α) (d : α) (h : i < n) :
    vget (vmod v i f) i d = f (vget v i d) := by simp [vget, vmod, h]
theorem vget_vmod_ne {α : Type} {n : Nat} (v : Vector α n) (i j : Nat) (f : α → α) (d : α) (h : i ≠ j) :
    vget (vmod v i f) j d = vget v j d := by
  by_cases hi : i < n <;> by_cases hj : j < n <;> simp [vget, vmod, hi, hj, h]

/-! ### Cores, harts and streams -/

@[simp] theorem core_modCore_self (s : State) (c : CoreId) (f : Core → Core) : (s.modCore c f).core c = f (s.core c) := by
  simp [State.core, State.modCore]
theorem core_modCore_ne (s : State) (c d : CoreId) (f : Core → Core) (h : c ≠ d) : (s.modCore c f).core d = s.core d := by
  have : c.val ≠ d.val := fun e => h (Fin.ext e)
  simp [State.core, State.modCore, this]
@[simp] theorem modCore_modCore (s : State) (c : CoreId) (f g : Core → Core) :
    (s.modCore c f).modCore c g = s.modCore c fun k => g (f k) := by
  simp [State.modCore]
theorem modCore_congr (s : State) (c : CoreId) (f g : Core → Core) (h : f (s.core c) = g (s.core c)) : s.modCore c f = s.modCore c g := by
  simp only [State.modCore, State.core] at h ⊢; rw [h]
@[simp] theorem cpu_modCpu_self (s : State) (x : Hart) (f : Cpu → Cpu) : (s.modCpu x f).cpu x = f (s.cpu x) := by
  cases x <;> simp [State.cpu, State.modCpu]
theorem cpu_modCpu_ne (s : State) (x y : Hart) (f : Cpu → Cpu) (h : x ≠ y) : (s.modCpu x f).cpu y = s.cpu y := by
  cases x with
  | harbour => cases y with
    | harbour => exact absurd rfl h
    | core d => rfl
  | core c => cases y with
    | harbour => rfl
    | core d => exact congrArg Core.cpu (core_modCore_ne s c d _ fun e => h (e ▸ rfl))
@[simp] theorem modCpu_modCpu (s : State) (x : Hart) (f g : Cpu → Cpu) : (s.modCpu x f).modCpu x g = s.modCpu x fun u => g (f u) := by
  cases x <;> simp [State.modCpu]

/-! ### modCore -/

@[simp] theorem modCore_time (s : State) (c : CoreId) (f : Core → Core) : (s.modCore c f).time = s.time := rfl
@[simp] theorem modCore_cur (s : State) (c : CoreId) (f : Core → Core) : (s.modCore c f).cur = s.cur := rfl
@[simp] theorem modCore_inputs (s : State) (c : CoreId) (f : Core → Core) : (s.modCore c f).inputs = s.inputs := rfl
@[simp] theorem modCore_free (s : State) (c : CoreId) (f : Core → Core) : (s.modCore c f).free = s.free := rfl
@[simp] theorem modCore_harbour (s : State) (c : CoreId) (f : Core → Core) : (s.modCore c f).harbour = s.harbour := rfl
@[simp] theorem modCore_mem (s : State) (c : CoreId) (f : Core → Core) : (s.modCore c f).mem = s.mem := rfl
@[simp] theorem modCore_lines (s : State) (c : CoreId) (f : Core → Core) : (s.modCore c f).lines = s.lines := rfl
@[simp] theorem modCore_islands (s : State) (c : CoreId) (f : Core → Core) : (s.modCore c f).islands = s.islands := rfl
@[simp] theorem modCore_atolls (s : State) (c : CoreId) (f : Core → Core) : (s.modCore c f).atolls = s.atolls := rfl
@[simp] theorem modCore_ports (s : State) (c : CoreId) (f : Core → Core) : (s.modCore c f).ports = s.ports := rfl
@[simp] theorem modCore_parts (s : State) (c : CoreId) (f : Core → Core) : (s.modCore c f).parts = s.parts := rfl
@[simp] theorem modCore_engines (s : State) (c : CoreId) (f : Core → Core) : (s.modCore c f).engines = s.engines := rfl
@[simp] theorem modCore_launches (s : State) (c : CoreId) (f : Core → Core) : (s.modCore c f).launches = s.launches := rfl
@[simp] theorem modCore_saved (s : State) (c : CoreId) (f : Core → Core) : (s.modCore c f).saved = s.saved := rfl
@[simp] theorem modCore_recs (s : State) (c : CoreId) (f : Core → Core) : (s.modCore c f).recs = s.recs := rfl
@[simp] theorem modCore_waitRecs (s : State) (c : CoreId) (f : Core → Core) : (s.modCore c f).waitRecs = s.waitRecs := rfl
@[simp] theorem modCore_fq (s : State) (c : CoreId) (f : Core → Core) : (s.modCore c f).fq = s.fq := rfl
@[simp] theorem modCore_seq (s : State) (c : CoreId) (f : Core → Core) : (s.modCore c f).seq = s.seq := rfl
@[simp] theorem modCore_transit (s : State) (c : CoreId) (f : Core → Core) : (s.modCore c f).transit = s.transit := rfl
@[simp] theorem modCore_hops (s : State) (c : CoreId) (f : Core → Core) : (s.modCore c f).hops = s.hops := rfl
@[simp] theorem modCore_wins (s : State) (c : CoreId) (f : Core → Core) : (s.modCore c f).wins = s.wins := rfl
@[simp] theorem modCore_rivals (s : State) (c : CoreId) (f : Core → Core) : (s.modCore c f).rivals = s.rivals := rfl
@[simp] theorem modCore_orphans (s : State) (c : CoreId) (f : Core → Core) : (s.modCore c f).orphans = s.orphans := rfl
@[simp] theorem modCore_akey (s : State) (c : CoreId) (f : Core → Core) : (s.modCore c f).akey = s.akey := rfl
@[simp] theorem modCore_mscSteps (s : State) (c : CoreId) (f : Core → Core) : (s.modCore c f).mscSteps = s.mscSteps := rfl
@[simp] theorem modCore_xclrng (s : State) (c : CoreId) (f : Core → Core) : (s.modCore c f).xclrng = s.xclrng := rfl
@[simp] theorem modCore_cxl (s : State) (c : CoreId) (f : Core → Core) : (s.modCore c f).cxl = s.cxl := rfl
@[simp] theorem modCore_hlstat (s : State) (c : CoreId) (f : Core → Core) : (s.modCore c f).hlstat = s.hlstat := rfl
@[simp] theorem modCore_hdbin (s : State) (c : CoreId) (f : Core → Core) : (s.modCore c f).hdbin = s.hdbin := rfl
@[simp] theorem modCore_stage (s : State) (c : CoreId) (f : Core → Core) : (s.modCore c f).stage = s.stage := rfl
@[simp] theorem modCore_attempts (s : State) (c : CoreId) (f : Core → Core) : (s.modCore c f).attempts = s.attempts := rfl
@[simp] theorem modCore_err (s : State) (c : CoreId) (f : Core → Core) : (s.modCore c f).err = s.err := rfl
@[simp] theorem modCore_bootLen (s : State) (c : CoreId) (f : Core → Core) : (s.modCore c f).bootLen = s.bootLen := rfl
@[simp] theorem modCore_fwdig (s : State) (c : CoreId) (f : Core → Core) : (s.modCore c f).fwdig = s.fwdig := rfl
@[simp] theorem modCore_log (s : State) (c : CoreId) (f : Core → Core) : (s.modCore c f).log = s.log := rfl
@[simp] theorem modCore_logLost (s : State) (c : CoreId) (f : Core → Core) : (s.modCore c f).logLost = s.logLost := rfl
@[simp] theorem modCore_bistctl (s : State) (c : CoreId) (f : Core → Core) : (s.modCore c f).bistctl = s.bistctl := rfl
@[simp] theorem modCore_talign (s : State) (c : CoreId) (f : Core → Core) : (s.modCore c f).talign = s.talign := rfl
@[simp] theorem modCore_tsc (s : State) (c : CoreId) (f : Core → Core) : (s.modCore c f).tsc = s.tsc := rfl
@[simp] theorem modCore_tsalign (s : State) (c : CoreId) (f : Core → Core) : (s.modCore c f).tsalign = s.tsalign := rfl
@[simp] theorem modCore_tsdone (s : State) (c : CoreId) (f : Core → Core) : (s.modCore c f).tsdone = s.tsdone := rfl
@[simp] theorem modCore_out (s : State) (c : CoreId) (f : Core → Core) : (s.modCore c f).out = s.out := rfl

/-! ### modCpu -/

@[simp] theorem modCpu_time (s : State) (x : Hart) (f : Cpu → Cpu) : (s.modCpu x f).time = s.time := by cases x <;> rfl
@[simp] theorem modCpu_cur (s : State) (x : Hart) (f : Cpu → Cpu) : (s.modCpu x f).cur = s.cur := by cases x <;> rfl
@[simp] theorem modCpu_inputs (s : State) (x : Hart) (f : Cpu → Cpu) : (s.modCpu x f).inputs = s.inputs := by cases x <;> rfl
@[simp] theorem modCpu_free (s : State) (x : Hart) (f : Cpu → Cpu) : (s.modCpu x f).free = s.free := by cases x <;> rfl
@[simp] theorem modCpu_mem (s : State) (x : Hart) (f : Cpu → Cpu) : (s.modCpu x f).mem = s.mem := by cases x <;> rfl
@[simp] theorem modCpu_lines (s : State) (x : Hart) (f : Cpu → Cpu) : (s.modCpu x f).lines = s.lines := by cases x <;> rfl
@[simp] theorem modCpu_islands (s : State) (x : Hart) (f : Cpu → Cpu) : (s.modCpu x f).islands = s.islands := by cases x <;> rfl
@[simp] theorem modCpu_atolls (s : State) (x : Hart) (f : Cpu → Cpu) : (s.modCpu x f).atolls = s.atolls := by cases x <;> rfl
@[simp] theorem modCpu_ports (s : State) (x : Hart) (f : Cpu → Cpu) : (s.modCpu x f).ports = s.ports := by cases x <;> rfl
@[simp] theorem modCpu_parts (s : State) (x : Hart) (f : Cpu → Cpu) : (s.modCpu x f).parts = s.parts := by cases x <;> rfl
@[simp] theorem modCpu_engines (s : State) (x : Hart) (f : Cpu → Cpu) : (s.modCpu x f).engines = s.engines := by cases x <;> rfl
@[simp] theorem modCpu_launches (s : State) (x : Hart) (f : Cpu → Cpu) : (s.modCpu x f).launches = s.launches := by cases x <;> rfl
@[simp] theorem modCpu_saved (s : State) (x : Hart) (f : Cpu → Cpu) : (s.modCpu x f).saved = s.saved := by cases x <;> rfl
@[simp] theorem modCpu_recs (s : State) (x : Hart) (f : Cpu → Cpu) : (s.modCpu x f).recs = s.recs := by cases x <;> rfl
@[simp] theorem modCpu_waitRecs (s : State) (x : Hart) (f : Cpu → Cpu) : (s.modCpu x f).waitRecs = s.waitRecs := by cases x <;> rfl
@[simp] theorem modCpu_fq (s : State) (x : Hart) (f : Cpu → Cpu) : (s.modCpu x f).fq = s.fq := by cases x <;> rfl
@[simp] theorem modCpu_seq (s : State) (x : Hart) (f : Cpu → Cpu) : (s.modCpu x f).seq = s.seq := by cases x <;> rfl
@[simp] theorem modCpu_transit (s : State) (x : Hart) (f : Cpu → Cpu) : (s.modCpu x f).transit = s.transit := by cases x <;> rfl
@[simp] theorem modCpu_hops (s : State) (x : Hart) (f : Cpu → Cpu) : (s.modCpu x f).hops = s.hops := by cases x <;> rfl
@[simp] theorem modCpu_wins (s : State) (x : Hart) (f : Cpu → Cpu) : (s.modCpu x f).wins = s.wins := by cases x <;> rfl
@[simp] theorem modCpu_rivals (s : State) (x : Hart) (f : Cpu → Cpu) : (s.modCpu x f).rivals = s.rivals := by cases x <;> rfl
@[simp] theorem modCpu_orphans (s : State) (x : Hart) (f : Cpu → Cpu) : (s.modCpu x f).orphans = s.orphans := by cases x <;> rfl
@[simp] theorem modCpu_akey (s : State) (x : Hart) (f : Cpu → Cpu) : (s.modCpu x f).akey = s.akey := by cases x <;> rfl
@[simp] theorem modCpu_mscSteps (s : State) (x : Hart) (f : Cpu → Cpu) : (s.modCpu x f).mscSteps = s.mscSteps := by cases x <;> rfl
@[simp] theorem modCpu_xclrng (s : State) (x : Hart) (f : Cpu → Cpu) : (s.modCpu x f).xclrng = s.xclrng := by cases x <;> rfl
@[simp] theorem modCpu_cxl (s : State) (x : Hart) (f : Cpu → Cpu) : (s.modCpu x f).cxl = s.cxl := by cases x <;> rfl
@[simp] theorem modCpu_hlstat (s : State) (x : Hart) (f : Cpu → Cpu) : (s.modCpu x f).hlstat = s.hlstat := by cases x <;> rfl
@[simp] theorem modCpu_hdbin (s : State) (x : Hart) (f : Cpu → Cpu) : (s.modCpu x f).hdbin = s.hdbin := by cases x <;> rfl
@[simp] theorem modCpu_stage (s : State) (x : Hart) (f : Cpu → Cpu) : (s.modCpu x f).stage = s.stage := by cases x <;> rfl
@[simp] theorem modCpu_attempts (s : State) (x : Hart) (f : Cpu → Cpu) : (s.modCpu x f).attempts = s.attempts := by cases x <;> rfl
@[simp] theorem modCpu_err (s : State) (x : Hart) (f : Cpu → Cpu) : (s.modCpu x f).err = s.err := by cases x <;> rfl
@[simp] theorem modCpu_bootLen (s : State) (x : Hart) (f : Cpu → Cpu) : (s.modCpu x f).bootLen = s.bootLen := by cases x <;> rfl
@[simp] theorem modCpu_fwdig (s : State) (x : Hart) (f : Cpu → Cpu) : (s.modCpu x f).fwdig = s.fwdig := by cases x <;> rfl
@[simp] theorem modCpu_log (s : State) (x : Hart) (f : Cpu → Cpu) : (s.modCpu x f).log = s.log := by cases x <;> rfl
@[simp] theorem modCpu_logLost (s : State) (x : Hart) (f : Cpu → Cpu) : (s.modCpu x f).logLost = s.logLost := by cases x <;> rfl
@[simp] theorem modCpu_bistctl (s : State) (x : Hart) (f : Cpu → Cpu) : (s.modCpu x f).bistctl = s.bistctl := by cases x <;> rfl
@[simp] theorem modCpu_talign (s : State) (x : Hart) (f : Cpu → Cpu) : (s.modCpu x f).talign = s.talign := by cases x <;> rfl
@[simp] theorem modCpu_tsc (s : State) (x : Hart) (f : Cpu → Cpu) : (s.modCpu x f).tsc = s.tsc := by cases x <;> rfl
@[simp] theorem modCpu_tsalign (s : State) (x : Hart) (f : Cpu → Cpu) : (s.modCpu x f).tsalign = s.tsalign := by cases x <;> rfl
@[simp] theorem modCpu_tsdone (s : State) (x : Hart) (f : Cpu → Cpu) : (s.modCpu x f).tsdone = s.tsdone := by cases x <;> rfl
@[simp] theorem modCpu_out (s : State) (x : Hart) (f : Cpu → Cpu) : (s.modCpu x f).out = s.out := by cases x <;> rfl

/-! ### modStream -/

@[simp] theorem modStream_time (s : State) (x : Hart) (q : Strm) (f : Stream → Stream) : (s.modStream x q f).time = s.time := by cases x <;> rfl
@[simp] theorem modStream_cur (s : State) (x : Hart) (q : Strm) (f : Stream → Stream) : (s.modStream x q f).cur = s.cur := by cases x <;> rfl
@[simp] theorem modStream_inputs (s : State) (x : Hart) (q : Strm) (f : Stream → Stream) : (s.modStream x q f).inputs = s.inputs := by cases x <;> rfl
@[simp] theorem modStream_free (s : State) (x : Hart) (q : Strm) (f : Stream → Stream) : (s.modStream x q f).free = s.free := by cases x <;> rfl
@[simp] theorem modStream_mem (s : State) (x : Hart) (q : Strm) (f : Stream → Stream) : (s.modStream x q f).mem = s.mem := by cases x <;> rfl
@[simp] theorem modStream_lines (s : State) (x : Hart) (q : Strm) (f : Stream → Stream) : (s.modStream x q f).lines = s.lines := by cases x <;> rfl
@[simp] theorem modStream_islands (s : State) (x : Hart) (q : Strm) (f : Stream → Stream) : (s.modStream x q f).islands = s.islands := by cases x <;> rfl
@[simp] theorem modStream_atolls (s : State) (x : Hart) (q : Strm) (f : Stream → Stream) : (s.modStream x q f).atolls = s.atolls := by cases x <;> rfl
@[simp] theorem modStream_ports (s : State) (x : Hart) (q : Strm) (f : Stream → Stream) : (s.modStream x q f).ports = s.ports := by cases x <;> rfl
@[simp] theorem modStream_parts (s : State) (x : Hart) (q : Strm) (f : Stream → Stream) : (s.modStream x q f).parts = s.parts := by cases x <;> rfl
@[simp] theorem modStream_engines (s : State) (x : Hart) (q : Strm) (f : Stream → Stream) : (s.modStream x q f).engines = s.engines := by cases x <;> rfl
@[simp] theorem modStream_launches (s : State) (x : Hart) (q : Strm) (f : Stream → Stream) : (s.modStream x q f).launches = s.launches := by cases x <;> rfl
@[simp] theorem modStream_saved (s : State) (x : Hart) (q : Strm) (f : Stream → Stream) : (s.modStream x q f).saved = s.saved := by cases x <;> rfl
@[simp] theorem modStream_recs (s : State) (x : Hart) (q : Strm) (f : Stream → Stream) : (s.modStream x q f).recs = s.recs := by cases x <;> rfl
@[simp] theorem modStream_waitRecs (s : State) (x : Hart) (q : Strm) (f : Stream → Stream) : (s.modStream x q f).waitRecs = s.waitRecs := by cases x <;> rfl
@[simp] theorem modStream_fq (s : State) (x : Hart) (q : Strm) (f : Stream → Stream) : (s.modStream x q f).fq = s.fq := by cases x <;> rfl
@[simp] theorem modStream_seq (s : State) (x : Hart) (q : Strm) (f : Stream → Stream) : (s.modStream x q f).seq = s.seq := by cases x <;> rfl
@[simp] theorem modStream_transit (s : State) (x : Hart) (q : Strm) (f : Stream → Stream) : (s.modStream x q f).transit = s.transit := by cases x <;> rfl
@[simp] theorem modStream_hops (s : State) (x : Hart) (q : Strm) (f : Stream → Stream) : (s.modStream x q f).hops = s.hops := by cases x <;> rfl
@[simp] theorem modStream_wins (s : State) (x : Hart) (q : Strm) (f : Stream → Stream) : (s.modStream x q f).wins = s.wins := by cases x <;> rfl
@[simp] theorem modStream_rivals (s : State) (x : Hart) (q : Strm) (f : Stream → Stream) : (s.modStream x q f).rivals = s.rivals := by cases x <;> rfl
@[simp] theorem modStream_orphans (s : State) (x : Hart) (q : Strm) (f : Stream → Stream) : (s.modStream x q f).orphans = s.orphans := by cases x <;> rfl
@[simp] theorem modStream_akey (s : State) (x : Hart) (q : Strm) (f : Stream → Stream) : (s.modStream x q f).akey = s.akey := by cases x <;> rfl
@[simp] theorem modStream_mscSteps (s : State) (x : Hart) (q : Strm) (f : Stream → Stream) : (s.modStream x q f).mscSteps = s.mscSteps := by cases x <;> rfl
@[simp] theorem modStream_xclrng (s : State) (x : Hart) (q : Strm) (f : Stream → Stream) : (s.modStream x q f).xclrng = s.xclrng := by cases x <;> rfl
@[simp] theorem modStream_cxl (s : State) (x : Hart) (q : Strm) (f : Stream → Stream) : (s.modStream x q f).cxl = s.cxl := by cases x <;> rfl
@[simp] theorem modStream_hlstat (s : State) (x : Hart) (q : Strm) (f : Stream → Stream) : (s.modStream x q f).hlstat = s.hlstat := by cases x <;> rfl
@[simp] theorem modStream_hdbin (s : State) (x : Hart) (q : Strm) (f : Stream → Stream) : (s.modStream x q f).hdbin = s.hdbin := by cases x <;> rfl
@[simp] theorem modStream_stage (s : State) (x : Hart) (q : Strm) (f : Stream → Stream) : (s.modStream x q f).stage = s.stage := by cases x <;> rfl
@[simp] theorem modStream_attempts (s : State) (x : Hart) (q : Strm) (f : Stream → Stream) : (s.modStream x q f).attempts = s.attempts := by cases x <;> rfl
@[simp] theorem modStream_err (s : State) (x : Hart) (q : Strm) (f : Stream → Stream) : (s.modStream x q f).err = s.err := by cases x <;> rfl
@[simp] theorem modStream_bootLen (s : State) (x : Hart) (q : Strm) (f : Stream → Stream) : (s.modStream x q f).bootLen = s.bootLen := by cases x <;> rfl
@[simp] theorem modStream_fwdig (s : State) (x : Hart) (q : Strm) (f : Stream → Stream) : (s.modStream x q f).fwdig = s.fwdig := by cases x <;> rfl
@[simp] theorem modStream_log (s : State) (x : Hart) (q : Strm) (f : Stream → Stream) : (s.modStream x q f).log = s.log := by cases x <;> rfl
@[simp] theorem modStream_logLost (s : State) (x : Hart) (q : Strm) (f : Stream → Stream) : (s.modStream x q f).logLost = s.logLost := by cases x <;> rfl
@[simp] theorem modStream_bistctl (s : State) (x : Hart) (q : Strm) (f : Stream → Stream) : (s.modStream x q f).bistctl = s.bistctl := by cases x <;> rfl
@[simp] theorem modStream_talign (s : State) (x : Hart) (q : Strm) (f : Stream → Stream) : (s.modStream x q f).talign = s.talign := by cases x <;> rfl
@[simp] theorem modStream_tsc (s : State) (x : Hart) (q : Strm) (f : Stream → Stream) : (s.modStream x q f).tsc = s.tsc := by cases x <;> rfl
@[simp] theorem modStream_tsalign (s : State) (x : Hart) (q : Strm) (f : Stream → Stream) : (s.modStream x q f).tsalign = s.tsalign := by cases x <;> rfl
@[simp] theorem modStream_tsdone (s : State) (x : Hart) (q : Strm) (f : Stream → Stream) : (s.modStream x q f).tsdone = s.tsdone := by cases x <;> rfl
@[simp] theorem modStream_out (s : State) (x : Hart) (q : Strm) (f : Stream → Stream) : (s.modStream x q f).out = s.out := by cases x <;> rfl

/-! ### modLaunch -/

@[simp] theorem modLaunch_time (s : State) (n : Nat) (f : Launch → Launch) : (s.modLaunch n f).time = s.time := rfl
@[simp] theorem modLaunch_cur (s : State) (n : Nat) (f : Launch → Launch) : (s.modLaunch n f).cur = s.cur := rfl
@[simp] theorem modLaunch_inputs (s : State) (n : Nat) (f : Launch → Launch) : (s.modLaunch n f).inputs = s.inputs := rfl
@[simp] theorem modLaunch_free (s : State) (n : Nat) (f : Launch → Launch) : (s.modLaunch n f).free = s.free := rfl
@[simp] theorem modLaunch_cores (s : State) (n : Nat) (f : Launch → Launch) : (s.modLaunch n f).cores = s.cores := rfl
@[simp] theorem modLaunch_harbour (s : State) (n : Nat) (f : Launch → Launch) : (s.modLaunch n f).harbour = s.harbour := rfl
@[simp] theorem modLaunch_mem (s : State) (n : Nat) (f : Launch → Launch) : (s.modLaunch n f).mem = s.mem := rfl
@[simp] theorem modLaunch_lines (s : State) (n : Nat) (f : Launch → Launch) : (s.modLaunch n f).lines = s.lines := rfl
@[simp] theorem modLaunch_islands (s : State) (n : Nat) (f : Launch → Launch) : (s.modLaunch n f).islands = s.islands := rfl
@[simp] theorem modLaunch_atolls (s : State) (n : Nat) (f : Launch → Launch) : (s.modLaunch n f).atolls = s.atolls := rfl
@[simp] theorem modLaunch_ports (s : State) (n : Nat) (f : Launch → Launch) : (s.modLaunch n f).ports = s.ports := rfl
@[simp] theorem modLaunch_parts (s : State) (n : Nat) (f : Launch → Launch) : (s.modLaunch n f).parts = s.parts := rfl
@[simp] theorem modLaunch_engines (s : State) (n : Nat) (f : Launch → Launch) : (s.modLaunch n f).engines = s.engines := rfl
@[simp] theorem modLaunch_saved (s : State) (n : Nat) (f : Launch → Launch) : (s.modLaunch n f).saved = s.saved := rfl
@[simp] theorem modLaunch_recs (s : State) (n : Nat) (f : Launch → Launch) : (s.modLaunch n f).recs = s.recs := rfl
@[simp] theorem modLaunch_waitRecs (s : State) (n : Nat) (f : Launch → Launch) : (s.modLaunch n f).waitRecs = s.waitRecs := rfl
@[simp] theorem modLaunch_fq (s : State) (n : Nat) (f : Launch → Launch) : (s.modLaunch n f).fq = s.fq := rfl
@[simp] theorem modLaunch_seq (s : State) (n : Nat) (f : Launch → Launch) : (s.modLaunch n f).seq = s.seq := rfl
@[simp] theorem modLaunch_transit (s : State) (n : Nat) (f : Launch → Launch) : (s.modLaunch n f).transit = s.transit := rfl
@[simp] theorem modLaunch_hops (s : State) (n : Nat) (f : Launch → Launch) : (s.modLaunch n f).hops = s.hops := rfl
@[simp] theorem modLaunch_wins (s : State) (n : Nat) (f : Launch → Launch) : (s.modLaunch n f).wins = s.wins := rfl
@[simp] theorem modLaunch_rivals (s : State) (n : Nat) (f : Launch → Launch) : (s.modLaunch n f).rivals = s.rivals := rfl
@[simp] theorem modLaunch_orphans (s : State) (n : Nat) (f : Launch → Launch) : (s.modLaunch n f).orphans = s.orphans := rfl
@[simp] theorem modLaunch_akey (s : State) (n : Nat) (f : Launch → Launch) : (s.modLaunch n f).akey = s.akey := rfl
@[simp] theorem modLaunch_mscSteps (s : State) (n : Nat) (f : Launch → Launch) : (s.modLaunch n f).mscSteps = s.mscSteps := rfl
@[simp] theorem modLaunch_xclrng (s : State) (n : Nat) (f : Launch → Launch) : (s.modLaunch n f).xclrng = s.xclrng := rfl
@[simp] theorem modLaunch_cxl (s : State) (n : Nat) (f : Launch → Launch) : (s.modLaunch n f).cxl = s.cxl := rfl
@[simp] theorem modLaunch_hlstat (s : State) (n : Nat) (f : Launch → Launch) : (s.modLaunch n f).hlstat = s.hlstat := rfl
@[simp] theorem modLaunch_hdbin (s : State) (n : Nat) (f : Launch → Launch) : (s.modLaunch n f).hdbin = s.hdbin := rfl
@[simp] theorem modLaunch_stage (s : State) (n : Nat) (f : Launch → Launch) : (s.modLaunch n f).stage = s.stage := rfl
@[simp] theorem modLaunch_attempts (s : State) (n : Nat) (f : Launch → Launch) : (s.modLaunch n f).attempts = s.attempts := rfl
@[simp] theorem modLaunch_err (s : State) (n : Nat) (f : Launch → Launch) : (s.modLaunch n f).err = s.err := rfl
@[simp] theorem modLaunch_bootLen (s : State) (n : Nat) (f : Launch → Launch) : (s.modLaunch n f).bootLen = s.bootLen := rfl
@[simp] theorem modLaunch_fwdig (s : State) (n : Nat) (f : Launch → Launch) : (s.modLaunch n f).fwdig = s.fwdig := rfl
@[simp] theorem modLaunch_log (s : State) (n : Nat) (f : Launch → Launch) : (s.modLaunch n f).log = s.log := rfl
@[simp] theorem modLaunch_logLost (s : State) (n : Nat) (f : Launch → Launch) : (s.modLaunch n f).logLost = s.logLost := rfl
@[simp] theorem modLaunch_bistctl (s : State) (n : Nat) (f : Launch → Launch) : (s.modLaunch n f).bistctl = s.bistctl := rfl
@[simp] theorem modLaunch_talign (s : State) (n : Nat) (f : Launch → Launch) : (s.modLaunch n f).talign = s.talign := rfl
@[simp] theorem modLaunch_tsc (s : State) (n : Nat) (f : Launch → Launch) : (s.modLaunch n f).tsc = s.tsc := rfl
@[simp] theorem modLaunch_tsalign (s : State) (n : Nat) (f : Launch → Launch) : (s.modLaunch n f).tsalign = s.tsalign := rfl
@[simp] theorem modLaunch_tsdone (s : State) (n : Nat) (f : Launch → Launch) : (s.modLaunch n f).tsdone = s.tsdone := rfl
@[simp] theorem modLaunch_out (s : State) (n : Nat) (f : Launch → Launch) : (s.modLaunch n f).out = s.out := rfl

/-! ### modPart -/

@[simp] theorem modPart_time (s : State) (n : Nat) (f : Part → Part) : (s.modPart n f).time = s.time := rfl
@[simp] theorem modPart_cur (s : State) (n : Nat) (f : Part → Part) : (s.modPart n f).cur = s.cur := rfl
@[simp] theorem modPart_inputs (s : State) (n : Nat) (f : Part → Part) : (s.modPart n f).inputs = s.inputs := rfl
@[simp] theorem modPart_free (s : State) (n : Nat) (f : Part → Part) : (s.modPart n f).free = s.free := rfl
@[simp] theorem modPart_cores (s : State) (n : Nat) (f : Part → Part) : (s.modPart n f).cores = s.cores := rfl
@[simp] theorem modPart_harbour (s : State) (n : Nat) (f : Part → Part) : (s.modPart n f).harbour = s.harbour := rfl
@[simp] theorem modPart_mem (s : State) (n : Nat) (f : Part → Part) : (s.modPart n f).mem = s.mem := rfl
@[simp] theorem modPart_lines (s : State) (n : Nat) (f : Part → Part) : (s.modPart n f).lines = s.lines := rfl
@[simp] theorem modPart_islands (s : State) (n : Nat) (f : Part → Part) : (s.modPart n f).islands = s.islands := rfl
@[simp] theorem modPart_atolls (s : State) (n : Nat) (f : Part → Part) : (s.modPart n f).atolls = s.atolls := rfl
@[simp] theorem modPart_ports (s : State) (n : Nat) (f : Part → Part) : (s.modPart n f).ports = s.ports := rfl
@[simp] theorem modPart_engines (s : State) (n : Nat) (f : Part → Part) : (s.modPart n f).engines = s.engines := rfl
@[simp] theorem modPart_launches (s : State) (n : Nat) (f : Part → Part) : (s.modPart n f).launches = s.launches := rfl
@[simp] theorem modPart_saved (s : State) (n : Nat) (f : Part → Part) : (s.modPart n f).saved = s.saved := rfl
@[simp] theorem modPart_recs (s : State) (n : Nat) (f : Part → Part) : (s.modPart n f).recs = s.recs := rfl
@[simp] theorem modPart_waitRecs (s : State) (n : Nat) (f : Part → Part) : (s.modPart n f).waitRecs = s.waitRecs := rfl
@[simp] theorem modPart_fq (s : State) (n : Nat) (f : Part → Part) : (s.modPart n f).fq = s.fq := rfl
@[simp] theorem modPart_seq (s : State) (n : Nat) (f : Part → Part) : (s.modPart n f).seq = s.seq := rfl
@[simp] theorem modPart_transit (s : State) (n : Nat) (f : Part → Part) : (s.modPart n f).transit = s.transit := rfl
@[simp] theorem modPart_hops (s : State) (n : Nat) (f : Part → Part) : (s.modPart n f).hops = s.hops := rfl
@[simp] theorem modPart_wins (s : State) (n : Nat) (f : Part → Part) : (s.modPart n f).wins = s.wins := rfl
@[simp] theorem modPart_rivals (s : State) (n : Nat) (f : Part → Part) : (s.modPart n f).rivals = s.rivals := rfl
@[simp] theorem modPart_orphans (s : State) (n : Nat) (f : Part → Part) : (s.modPart n f).orphans = s.orphans := rfl
@[simp] theorem modPart_akey (s : State) (n : Nat) (f : Part → Part) : (s.modPart n f).akey = s.akey := rfl
@[simp] theorem modPart_mscSteps (s : State) (n : Nat) (f : Part → Part) : (s.modPart n f).mscSteps = s.mscSteps := rfl
@[simp] theorem modPart_xclrng (s : State) (n : Nat) (f : Part → Part) : (s.modPart n f).xclrng = s.xclrng := rfl
@[simp] theorem modPart_cxl (s : State) (n : Nat) (f : Part → Part) : (s.modPart n f).cxl = s.cxl := rfl
@[simp] theorem modPart_hlstat (s : State) (n : Nat) (f : Part → Part) : (s.modPart n f).hlstat = s.hlstat := rfl
@[simp] theorem modPart_hdbin (s : State) (n : Nat) (f : Part → Part) : (s.modPart n f).hdbin = s.hdbin := rfl
@[simp] theorem modPart_stage (s : State) (n : Nat) (f : Part → Part) : (s.modPart n f).stage = s.stage := rfl
@[simp] theorem modPart_attempts (s : State) (n : Nat) (f : Part → Part) : (s.modPart n f).attempts = s.attempts := rfl
@[simp] theorem modPart_err (s : State) (n : Nat) (f : Part → Part) : (s.modPart n f).err = s.err := rfl
@[simp] theorem modPart_bootLen (s : State) (n : Nat) (f : Part → Part) : (s.modPart n f).bootLen = s.bootLen := rfl
@[simp] theorem modPart_fwdig (s : State) (n : Nat) (f : Part → Part) : (s.modPart n f).fwdig = s.fwdig := rfl
@[simp] theorem modPart_log (s : State) (n : Nat) (f : Part → Part) : (s.modPart n f).log = s.log := rfl
@[simp] theorem modPart_logLost (s : State) (n : Nat) (f : Part → Part) : (s.modPart n f).logLost = s.logLost := rfl
@[simp] theorem modPart_bistctl (s : State) (n : Nat) (f : Part → Part) : (s.modPart n f).bistctl = s.bistctl := rfl
@[simp] theorem modPart_talign (s : State) (n : Nat) (f : Part → Part) : (s.modPart n f).talign = s.talign := rfl
@[simp] theorem modPart_tsc (s : State) (n : Nat) (f : Part → Part) : (s.modPart n f).tsc = s.tsc := rfl
@[simp] theorem modPart_tsalign (s : State) (n : Nat) (f : Part → Part) : (s.modPart n f).tsalign = s.tsalign := rfl
@[simp] theorem modPart_tsdone (s : State) (n : Nat) (f : Part → Part) : (s.modPart n f).tsdone = s.tsdone := rfl
@[simp] theorem modPart_out (s : State) (n : Nat) (f : Part → Part) : (s.modPart n f).out = s.out := rfl

/-! ### modIsland -/

@[simp] theorem modIsland_time (s : State) (n : Nat) (f : Island → Island) : (s.modIsland n f).time = s.time := rfl
@[simp] theorem modIsland_cur (s : State) (n : Nat) (f : Island → Island) : (s.modIsland n f).cur = s.cur := rfl
@[simp] theorem modIsland_inputs (s : State) (n : Nat) (f : Island → Island) : (s.modIsland n f).inputs = s.inputs := rfl
@[simp] theorem modIsland_free (s : State) (n : Nat) (f : Island → Island) : (s.modIsland n f).free = s.free := rfl
@[simp] theorem modIsland_cores (s : State) (n : Nat) (f : Island → Island) : (s.modIsland n f).cores = s.cores := rfl
@[simp] theorem modIsland_harbour (s : State) (n : Nat) (f : Island → Island) : (s.modIsland n f).harbour = s.harbour := rfl
@[simp] theorem modIsland_mem (s : State) (n : Nat) (f : Island → Island) : (s.modIsland n f).mem = s.mem := rfl
@[simp] theorem modIsland_lines (s : State) (n : Nat) (f : Island → Island) : (s.modIsland n f).lines = s.lines := rfl
@[simp] theorem modIsland_atolls (s : State) (n : Nat) (f : Island → Island) : (s.modIsland n f).atolls = s.atolls := rfl
@[simp] theorem modIsland_ports (s : State) (n : Nat) (f : Island → Island) : (s.modIsland n f).ports = s.ports := rfl
@[simp] theorem modIsland_parts (s : State) (n : Nat) (f : Island → Island) : (s.modIsland n f).parts = s.parts := rfl
@[simp] theorem modIsland_engines (s : State) (n : Nat) (f : Island → Island) : (s.modIsland n f).engines = s.engines := rfl
@[simp] theorem modIsland_launches (s : State) (n : Nat) (f : Island → Island) : (s.modIsland n f).launches = s.launches := rfl
@[simp] theorem modIsland_saved (s : State) (n : Nat) (f : Island → Island) : (s.modIsland n f).saved = s.saved := rfl
@[simp] theorem modIsland_recs (s : State) (n : Nat) (f : Island → Island) : (s.modIsland n f).recs = s.recs := rfl
@[simp] theorem modIsland_waitRecs (s : State) (n : Nat) (f : Island → Island) : (s.modIsland n f).waitRecs = s.waitRecs := rfl
@[simp] theorem modIsland_fq (s : State) (n : Nat) (f : Island → Island) : (s.modIsland n f).fq = s.fq := rfl
@[simp] theorem modIsland_seq (s : State) (n : Nat) (f : Island → Island) : (s.modIsland n f).seq = s.seq := rfl
@[simp] theorem modIsland_transit (s : State) (n : Nat) (f : Island → Island) : (s.modIsland n f).transit = s.transit := rfl
@[simp] theorem modIsland_hops (s : State) (n : Nat) (f : Island → Island) : (s.modIsland n f).hops = s.hops := rfl
@[simp] theorem modIsland_wins (s : State) (n : Nat) (f : Island → Island) : (s.modIsland n f).wins = s.wins := rfl
@[simp] theorem modIsland_rivals (s : State) (n : Nat) (f : Island → Island) : (s.modIsland n f).rivals = s.rivals := rfl
@[simp] theorem modIsland_orphans (s : State) (n : Nat) (f : Island → Island) : (s.modIsland n f).orphans = s.orphans := rfl
@[simp] theorem modIsland_akey (s : State) (n : Nat) (f : Island → Island) : (s.modIsland n f).akey = s.akey := rfl
@[simp] theorem modIsland_mscSteps (s : State) (n : Nat) (f : Island → Island) : (s.modIsland n f).mscSteps = s.mscSteps := rfl
@[simp] theorem modIsland_xclrng (s : State) (n : Nat) (f : Island → Island) : (s.modIsland n f).xclrng = s.xclrng := rfl
@[simp] theorem modIsland_cxl (s : State) (n : Nat) (f : Island → Island) : (s.modIsland n f).cxl = s.cxl := rfl
@[simp] theorem modIsland_hlstat (s : State) (n : Nat) (f : Island → Island) : (s.modIsland n f).hlstat = s.hlstat := rfl
@[simp] theorem modIsland_hdbin (s : State) (n : Nat) (f : Island → Island) : (s.modIsland n f).hdbin = s.hdbin := rfl
@[simp] theorem modIsland_stage (s : State) (n : Nat) (f : Island → Island) : (s.modIsland n f).stage = s.stage := rfl
@[simp] theorem modIsland_attempts (s : State) (n : Nat) (f : Island → Island) : (s.modIsland n f).attempts = s.attempts := rfl
@[simp] theorem modIsland_err (s : State) (n : Nat) (f : Island → Island) : (s.modIsland n f).err = s.err := rfl
@[simp] theorem modIsland_bootLen (s : State) (n : Nat) (f : Island → Island) : (s.modIsland n f).bootLen = s.bootLen := rfl
@[simp] theorem modIsland_fwdig (s : State) (n : Nat) (f : Island → Island) : (s.modIsland n f).fwdig = s.fwdig := rfl
@[simp] theorem modIsland_log (s : State) (n : Nat) (f : Island → Island) : (s.modIsland n f).log = s.log := rfl
@[simp] theorem modIsland_logLost (s : State) (n : Nat) (f : Island → Island) : (s.modIsland n f).logLost = s.logLost := rfl
@[simp] theorem modIsland_bistctl (s : State) (n : Nat) (f : Island → Island) : (s.modIsland n f).bistctl = s.bistctl := rfl
@[simp] theorem modIsland_talign (s : State) (n : Nat) (f : Island → Island) : (s.modIsland n f).talign = s.talign := rfl
@[simp] theorem modIsland_tsc (s : State) (n : Nat) (f : Island → Island) : (s.modIsland n f).tsc = s.tsc := rfl
@[simp] theorem modIsland_tsalign (s : State) (n : Nat) (f : Island → Island) : (s.modIsland n f).tsalign = s.tsalign := rfl
@[simp] theorem modIsland_tsdone (s : State) (n : Nat) (f : Island → Island) : (s.modIsland n f).tsdone = s.tsdone := rfl
@[simp] theorem modIsland_out (s : State) (n : Nat) (f : Island → Island) : (s.modIsland n f).out = s.out := rfl

/-! ### modAtoll -/

@[simp] theorem modAtoll_time (s : State) (n : Nat) (f : Atoll → Atoll) : (s.modAtoll n f).time = s.time := rfl
@[simp] theorem modAtoll_cur (s : State) (n : Nat) (f : Atoll → Atoll) : (s.modAtoll n f).cur = s.cur := rfl
@[simp] theorem modAtoll_inputs (s : State) (n : Nat) (f : Atoll → Atoll) : (s.modAtoll n f).inputs = s.inputs := rfl
@[simp] theorem modAtoll_free (s : State) (n : Nat) (f : Atoll → Atoll) : (s.modAtoll n f).free = s.free := rfl
@[simp] theorem modAtoll_cores (s : State) (n : Nat) (f : Atoll → Atoll) : (s.modAtoll n f).cores = s.cores := rfl
@[simp] theorem modAtoll_harbour (s : State) (n : Nat) (f : Atoll → Atoll) : (s.modAtoll n f).harbour = s.harbour := rfl
@[simp] theorem modAtoll_mem (s : State) (n : Nat) (f : Atoll → Atoll) : (s.modAtoll n f).mem = s.mem := rfl
@[simp] theorem modAtoll_lines (s : State) (n : Nat) (f : Atoll → Atoll) : (s.modAtoll n f).lines = s.lines := rfl
@[simp] theorem modAtoll_islands (s : State) (n : Nat) (f : Atoll → Atoll) : (s.modAtoll n f).islands = s.islands := rfl
@[simp] theorem modAtoll_ports (s : State) (n : Nat) (f : Atoll → Atoll) : (s.modAtoll n f).ports = s.ports := rfl
@[simp] theorem modAtoll_parts (s : State) (n : Nat) (f : Atoll → Atoll) : (s.modAtoll n f).parts = s.parts := rfl
@[simp] theorem modAtoll_engines (s : State) (n : Nat) (f : Atoll → Atoll) : (s.modAtoll n f).engines = s.engines := rfl
@[simp] theorem modAtoll_launches (s : State) (n : Nat) (f : Atoll → Atoll) : (s.modAtoll n f).launches = s.launches := rfl
@[simp] theorem modAtoll_saved (s : State) (n : Nat) (f : Atoll → Atoll) : (s.modAtoll n f).saved = s.saved := rfl
@[simp] theorem modAtoll_recs (s : State) (n : Nat) (f : Atoll → Atoll) : (s.modAtoll n f).recs = s.recs := rfl
@[simp] theorem modAtoll_waitRecs (s : State) (n : Nat) (f : Atoll → Atoll) : (s.modAtoll n f).waitRecs = s.waitRecs := rfl
@[simp] theorem modAtoll_fq (s : State) (n : Nat) (f : Atoll → Atoll) : (s.modAtoll n f).fq = s.fq := rfl
@[simp] theorem modAtoll_seq (s : State) (n : Nat) (f : Atoll → Atoll) : (s.modAtoll n f).seq = s.seq := rfl
@[simp] theorem modAtoll_transit (s : State) (n : Nat) (f : Atoll → Atoll) : (s.modAtoll n f).transit = s.transit := rfl
@[simp] theorem modAtoll_hops (s : State) (n : Nat) (f : Atoll → Atoll) : (s.modAtoll n f).hops = s.hops := rfl
@[simp] theorem modAtoll_wins (s : State) (n : Nat) (f : Atoll → Atoll) : (s.modAtoll n f).wins = s.wins := rfl
@[simp] theorem modAtoll_rivals (s : State) (n : Nat) (f : Atoll → Atoll) : (s.modAtoll n f).rivals = s.rivals := rfl
@[simp] theorem modAtoll_orphans (s : State) (n : Nat) (f : Atoll → Atoll) : (s.modAtoll n f).orphans = s.orphans := rfl
@[simp] theorem modAtoll_akey (s : State) (n : Nat) (f : Atoll → Atoll) : (s.modAtoll n f).akey = s.akey := rfl
@[simp] theorem modAtoll_mscSteps (s : State) (n : Nat) (f : Atoll → Atoll) : (s.modAtoll n f).mscSteps = s.mscSteps := rfl
@[simp] theorem modAtoll_xclrng (s : State) (n : Nat) (f : Atoll → Atoll) : (s.modAtoll n f).xclrng = s.xclrng := rfl
@[simp] theorem modAtoll_cxl (s : State) (n : Nat) (f : Atoll → Atoll) : (s.modAtoll n f).cxl = s.cxl := rfl
@[simp] theorem modAtoll_hlstat (s : State) (n : Nat) (f : Atoll → Atoll) : (s.modAtoll n f).hlstat = s.hlstat := rfl
@[simp] theorem modAtoll_hdbin (s : State) (n : Nat) (f : Atoll → Atoll) : (s.modAtoll n f).hdbin = s.hdbin := rfl
@[simp] theorem modAtoll_stage (s : State) (n : Nat) (f : Atoll → Atoll) : (s.modAtoll n f).stage = s.stage := rfl
@[simp] theorem modAtoll_attempts (s : State) (n : Nat) (f : Atoll → Atoll) : (s.modAtoll n f).attempts = s.attempts := rfl
@[simp] theorem modAtoll_err (s : State) (n : Nat) (f : Atoll → Atoll) : (s.modAtoll n f).err = s.err := rfl
@[simp] theorem modAtoll_bootLen (s : State) (n : Nat) (f : Atoll → Atoll) : (s.modAtoll n f).bootLen = s.bootLen := rfl
@[simp] theorem modAtoll_fwdig (s : State) (n : Nat) (f : Atoll → Atoll) : (s.modAtoll n f).fwdig = s.fwdig := rfl
@[simp] theorem modAtoll_log (s : State) (n : Nat) (f : Atoll → Atoll) : (s.modAtoll n f).log = s.log := rfl
@[simp] theorem modAtoll_logLost (s : State) (n : Nat) (f : Atoll → Atoll) : (s.modAtoll n f).logLost = s.logLost := rfl
@[simp] theorem modAtoll_bistctl (s : State) (n : Nat) (f : Atoll → Atoll) : (s.modAtoll n f).bistctl = s.bistctl := rfl
@[simp] theorem modAtoll_talign (s : State) (n : Nat) (f : Atoll → Atoll) : (s.modAtoll n f).talign = s.talign := rfl
@[simp] theorem modAtoll_tsc (s : State) (n : Nat) (f : Atoll → Atoll) : (s.modAtoll n f).tsc = s.tsc := rfl
@[simp] theorem modAtoll_tsalign (s : State) (n : Nat) (f : Atoll → Atoll) : (s.modAtoll n f).tsalign = s.tsalign := rfl
@[simp] theorem modAtoll_tsdone (s : State) (n : Nat) (f : Atoll → Atoll) : (s.modAtoll n f).tsdone = s.tsdone := rfl
@[simp] theorem modAtoll_out (s : State) (n : Nat) (f : Atoll → Atoll) : (s.modAtoll n f).out = s.out := rfl

/-! ### modEngine -/

@[simp] theorem modEngine_time (s : State) (n : Nat) (f : Engine → Engine) : (s.modEngine n f).time = s.time := rfl
@[simp] theorem modEngine_cur (s : State) (n : Nat) (f : Engine → Engine) : (s.modEngine n f).cur = s.cur := rfl
@[simp] theorem modEngine_inputs (s : State) (n : Nat) (f : Engine → Engine) : (s.modEngine n f).inputs = s.inputs := rfl
@[simp] theorem modEngine_free (s : State) (n : Nat) (f : Engine → Engine) : (s.modEngine n f).free = s.free := rfl
@[simp] theorem modEngine_cores (s : State) (n : Nat) (f : Engine → Engine) : (s.modEngine n f).cores = s.cores := rfl
@[simp] theorem modEngine_harbour (s : State) (n : Nat) (f : Engine → Engine) : (s.modEngine n f).harbour = s.harbour := rfl
@[simp] theorem modEngine_mem (s : State) (n : Nat) (f : Engine → Engine) : (s.modEngine n f).mem = s.mem := rfl
@[simp] theorem modEngine_lines (s : State) (n : Nat) (f : Engine → Engine) : (s.modEngine n f).lines = s.lines := rfl
@[simp] theorem modEngine_islands (s : State) (n : Nat) (f : Engine → Engine) : (s.modEngine n f).islands = s.islands := rfl
@[simp] theorem modEngine_atolls (s : State) (n : Nat) (f : Engine → Engine) : (s.modEngine n f).atolls = s.atolls := rfl
@[simp] theorem modEngine_ports (s : State) (n : Nat) (f : Engine → Engine) : (s.modEngine n f).ports = s.ports := rfl
@[simp] theorem modEngine_parts (s : State) (n : Nat) (f : Engine → Engine) : (s.modEngine n f).parts = s.parts := rfl
@[simp] theorem modEngine_launches (s : State) (n : Nat) (f : Engine → Engine) : (s.modEngine n f).launches = s.launches := rfl
@[simp] theorem modEngine_saved (s : State) (n : Nat) (f : Engine → Engine) : (s.modEngine n f).saved = s.saved := rfl
@[simp] theorem modEngine_recs (s : State) (n : Nat) (f : Engine → Engine) : (s.modEngine n f).recs = s.recs := rfl
@[simp] theorem modEngine_waitRecs (s : State) (n : Nat) (f : Engine → Engine) : (s.modEngine n f).waitRecs = s.waitRecs := rfl
@[simp] theorem modEngine_fq (s : State) (n : Nat) (f : Engine → Engine) : (s.modEngine n f).fq = s.fq := rfl
@[simp] theorem modEngine_seq (s : State) (n : Nat) (f : Engine → Engine) : (s.modEngine n f).seq = s.seq := rfl
@[simp] theorem modEngine_transit (s : State) (n : Nat) (f : Engine → Engine) : (s.modEngine n f).transit = s.transit := rfl
@[simp] theorem modEngine_hops (s : State) (n : Nat) (f : Engine → Engine) : (s.modEngine n f).hops = s.hops := rfl
@[simp] theorem modEngine_wins (s : State) (n : Nat) (f : Engine → Engine) : (s.modEngine n f).wins = s.wins := rfl
@[simp] theorem modEngine_rivals (s : State) (n : Nat) (f : Engine → Engine) : (s.modEngine n f).rivals = s.rivals := rfl
@[simp] theorem modEngine_orphans (s : State) (n : Nat) (f : Engine → Engine) : (s.modEngine n f).orphans = s.orphans := rfl
@[simp] theorem modEngine_akey (s : State) (n : Nat) (f : Engine → Engine) : (s.modEngine n f).akey = s.akey := rfl
@[simp] theorem modEngine_mscSteps (s : State) (n : Nat) (f : Engine → Engine) : (s.modEngine n f).mscSteps = s.mscSteps := rfl
@[simp] theorem modEngine_xclrng (s : State) (n : Nat) (f : Engine → Engine) : (s.modEngine n f).xclrng = s.xclrng := rfl
@[simp] theorem modEngine_cxl (s : State) (n : Nat) (f : Engine → Engine) : (s.modEngine n f).cxl = s.cxl := rfl
@[simp] theorem modEngine_hlstat (s : State) (n : Nat) (f : Engine → Engine) : (s.modEngine n f).hlstat = s.hlstat := rfl
@[simp] theorem modEngine_hdbin (s : State) (n : Nat) (f : Engine → Engine) : (s.modEngine n f).hdbin = s.hdbin := rfl
@[simp] theorem modEngine_stage (s : State) (n : Nat) (f : Engine → Engine) : (s.modEngine n f).stage = s.stage := rfl
@[simp] theorem modEngine_attempts (s : State) (n : Nat) (f : Engine → Engine) : (s.modEngine n f).attempts = s.attempts := rfl
@[simp] theorem modEngine_err (s : State) (n : Nat) (f : Engine → Engine) : (s.modEngine n f).err = s.err := rfl
@[simp] theorem modEngine_bootLen (s : State) (n : Nat) (f : Engine → Engine) : (s.modEngine n f).bootLen = s.bootLen := rfl
@[simp] theorem modEngine_fwdig (s : State) (n : Nat) (f : Engine → Engine) : (s.modEngine n f).fwdig = s.fwdig := rfl
@[simp] theorem modEngine_log (s : State) (n : Nat) (f : Engine → Engine) : (s.modEngine n f).log = s.log := rfl
@[simp] theorem modEngine_logLost (s : State) (n : Nat) (f : Engine → Engine) : (s.modEngine n f).logLost = s.logLost := rfl
@[simp] theorem modEngine_bistctl (s : State) (n : Nat) (f : Engine → Engine) : (s.modEngine n f).bistctl = s.bistctl := rfl
@[simp] theorem modEngine_talign (s : State) (n : Nat) (f : Engine → Engine) : (s.modEngine n f).talign = s.talign := rfl
@[simp] theorem modEngine_tsc (s : State) (n : Nat) (f : Engine → Engine) : (s.modEngine n f).tsc = s.tsc := rfl
@[simp] theorem modEngine_tsalign (s : State) (n : Nat) (f : Engine → Engine) : (s.modEngine n f).tsalign = s.tsalign := rfl
@[simp] theorem modEngine_tsdone (s : State) (n : Nat) (f : Engine → Engine) : (s.modEngine n f).tsdone = s.tsdone := rfl
@[simp] theorem modEngine_out (s : State) (n : Nat) (f : Engine → Engine) : (s.modEngine n f).out = s.out := rfl

/-! ### modPort -/

@[simp] theorem modPort_time (s : State) (n : Nat) (f : Port → Port) : (s.modPort n f).time = s.time := rfl
@[simp] theorem modPort_cur (s : State) (n : Nat) (f : Port → Port) : (s.modPort n f).cur = s.cur := rfl
@[simp] theorem modPort_inputs (s : State) (n : Nat) (f : Port → Port) : (s.modPort n f).inputs = s.inputs := rfl
@[simp] theorem modPort_free (s : State) (n : Nat) (f : Port → Port) : (s.modPort n f).free = s.free := rfl
@[simp] theorem modPort_cores (s : State) (n : Nat) (f : Port → Port) : (s.modPort n f).cores = s.cores := rfl
@[simp] theorem modPort_harbour (s : State) (n : Nat) (f : Port → Port) : (s.modPort n f).harbour = s.harbour := rfl
@[simp] theorem modPort_mem (s : State) (n : Nat) (f : Port → Port) : (s.modPort n f).mem = s.mem := rfl
@[simp] theorem modPort_lines (s : State) (n : Nat) (f : Port → Port) : (s.modPort n f).lines = s.lines := rfl
@[simp] theorem modPort_islands (s : State) (n : Nat) (f : Port → Port) : (s.modPort n f).islands = s.islands := rfl
@[simp] theorem modPort_atolls (s : State) (n : Nat) (f : Port → Port) : (s.modPort n f).atolls = s.atolls := rfl
@[simp] theorem modPort_parts (s : State) (n : Nat) (f : Port → Port) : (s.modPort n f).parts = s.parts := rfl
@[simp] theorem modPort_engines (s : State) (n : Nat) (f : Port → Port) : (s.modPort n f).engines = s.engines := rfl
@[simp] theorem modPort_launches (s : State) (n : Nat) (f : Port → Port) : (s.modPort n f).launches = s.launches := rfl
@[simp] theorem modPort_saved (s : State) (n : Nat) (f : Port → Port) : (s.modPort n f).saved = s.saved := rfl
@[simp] theorem modPort_recs (s : State) (n : Nat) (f : Port → Port) : (s.modPort n f).recs = s.recs := rfl
@[simp] theorem modPort_waitRecs (s : State) (n : Nat) (f : Port → Port) : (s.modPort n f).waitRecs = s.waitRecs := rfl
@[simp] theorem modPort_fq (s : State) (n : Nat) (f : Port → Port) : (s.modPort n f).fq = s.fq := rfl
@[simp] theorem modPort_seq (s : State) (n : Nat) (f : Port → Port) : (s.modPort n f).seq = s.seq := rfl
@[simp] theorem modPort_transit (s : State) (n : Nat) (f : Port → Port) : (s.modPort n f).transit = s.transit := rfl
@[simp] theorem modPort_hops (s : State) (n : Nat) (f : Port → Port) : (s.modPort n f).hops = s.hops := rfl
@[simp] theorem modPort_wins (s : State) (n : Nat) (f : Port → Port) : (s.modPort n f).wins = s.wins := rfl
@[simp] theorem modPort_rivals (s : State) (n : Nat) (f : Port → Port) : (s.modPort n f).rivals = s.rivals := rfl
@[simp] theorem modPort_orphans (s : State) (n : Nat) (f : Port → Port) : (s.modPort n f).orphans = s.orphans := rfl
@[simp] theorem modPort_akey (s : State) (n : Nat) (f : Port → Port) : (s.modPort n f).akey = s.akey := rfl
@[simp] theorem modPort_mscSteps (s : State) (n : Nat) (f : Port → Port) : (s.modPort n f).mscSteps = s.mscSteps := rfl
@[simp] theorem modPort_xclrng (s : State) (n : Nat) (f : Port → Port) : (s.modPort n f).xclrng = s.xclrng := rfl
@[simp] theorem modPort_cxl (s : State) (n : Nat) (f : Port → Port) : (s.modPort n f).cxl = s.cxl := rfl
@[simp] theorem modPort_hlstat (s : State) (n : Nat) (f : Port → Port) : (s.modPort n f).hlstat = s.hlstat := rfl
@[simp] theorem modPort_hdbin (s : State) (n : Nat) (f : Port → Port) : (s.modPort n f).hdbin = s.hdbin := rfl
@[simp] theorem modPort_stage (s : State) (n : Nat) (f : Port → Port) : (s.modPort n f).stage = s.stage := rfl
@[simp] theorem modPort_attempts (s : State) (n : Nat) (f : Port → Port) : (s.modPort n f).attempts = s.attempts := rfl
@[simp] theorem modPort_err (s : State) (n : Nat) (f : Port → Port) : (s.modPort n f).err = s.err := rfl
@[simp] theorem modPort_bootLen (s : State) (n : Nat) (f : Port → Port) : (s.modPort n f).bootLen = s.bootLen := rfl
@[simp] theorem modPort_fwdig (s : State) (n : Nat) (f : Port → Port) : (s.modPort n f).fwdig = s.fwdig := rfl
@[simp] theorem modPort_log (s : State) (n : Nat) (f : Port → Port) : (s.modPort n f).log = s.log := rfl
@[simp] theorem modPort_logLost (s : State) (n : Nat) (f : Port → Port) : (s.modPort n f).logLost = s.logLost := rfl
@[simp] theorem modPort_bistctl (s : State) (n : Nat) (f : Port → Port) : (s.modPort n f).bistctl = s.bistctl := rfl
@[simp] theorem modPort_talign (s : State) (n : Nat) (f : Port → Port) : (s.modPort n f).talign = s.talign := rfl
@[simp] theorem modPort_tsc (s : State) (n : Nat) (f : Port → Port) : (s.modPort n f).tsc = s.tsc := rfl
@[simp] theorem modPort_tsalign (s : State) (n : Nat) (f : Port → Port) : (s.modPort n f).tsalign = s.tsalign := rfl
@[simp] theorem modPort_tsdone (s : State) (n : Nat) (f : Port → Port) : (s.modPort n f).tsdone = s.tsdone := rfl
@[simp] theorem modPort_out (s : State) (n : Nat) (f : Port → Port) : (s.modPort n f).out = s.out := rfl

/-! ### memWrite -/

@[simp] theorem memWrite_time (s : State) (bs : List (Nat × Byte)) (bad : List Nat) : (s.memWrite bs bad).time = s.time := rfl
@[simp] theorem memWrite_cur (s : State) (bs : List (Nat × Byte)) (bad : List Nat) : (s.memWrite bs bad).cur = s.cur := rfl
@[simp] theorem memWrite_inputs (s : State) (bs : List (Nat × Byte)) (bad : List Nat) : (s.memWrite bs bad).inputs = s.inputs := rfl
@[simp] theorem memWrite_free (s : State) (bs : List (Nat × Byte)) (bad : List Nat) : (s.memWrite bs bad).free = s.free := rfl
@[simp] theorem memWrite_cores (s : State) (bs : List (Nat × Byte)) (bad : List Nat) : (s.memWrite bs bad).cores = s.cores := rfl
@[simp] theorem memWrite_harbour (s : State) (bs : List (Nat × Byte)) (bad : List Nat) : (s.memWrite bs bad).harbour = s.harbour := rfl
@[simp] theorem memWrite_islands (s : State) (bs : List (Nat × Byte)) (bad : List Nat) : (s.memWrite bs bad).islands = s.islands := rfl
@[simp] theorem memWrite_atolls (s : State) (bs : List (Nat × Byte)) (bad : List Nat) : (s.memWrite bs bad).atolls = s.atolls := rfl
@[simp] theorem memWrite_ports (s : State) (bs : List (Nat × Byte)) (bad : List Nat) : (s.memWrite bs bad).ports = s.ports := rfl
@[simp] theorem memWrite_parts (s : State) (bs : List (Nat × Byte)) (bad : List Nat) : (s.memWrite bs bad).parts = s.parts := rfl
@[simp] theorem memWrite_engines (s : State) (bs : List (Nat × Byte)) (bad : List Nat) : (s.memWrite bs bad).engines = s.engines := rfl
@[simp] theorem memWrite_launches (s : State) (bs : List (Nat × Byte)) (bad : List Nat) : (s.memWrite bs bad).launches = s.launches := rfl
@[simp] theorem memWrite_saved (s : State) (bs : List (Nat × Byte)) (bad : List Nat) : (s.memWrite bs bad).saved = s.saved := rfl
@[simp] theorem memWrite_recs (s : State) (bs : List (Nat × Byte)) (bad : List Nat) : (s.memWrite bs bad).recs = s.recs := rfl
@[simp] theorem memWrite_waitRecs (s : State) (bs : List (Nat × Byte)) (bad : List Nat) : (s.memWrite bs bad).waitRecs = s.waitRecs := rfl
@[simp] theorem memWrite_fq (s : State) (bs : List (Nat × Byte)) (bad : List Nat) : (s.memWrite bs bad).fq = s.fq := rfl
@[simp] theorem memWrite_seq (s : State) (bs : List (Nat × Byte)) (bad : List Nat) : (s.memWrite bs bad).seq = s.seq := rfl
@[simp] theorem memWrite_transit (s : State) (bs : List (Nat × Byte)) (bad : List Nat) : (s.memWrite bs bad).transit = s.transit := rfl
@[simp] theorem memWrite_hops (s : State) (bs : List (Nat × Byte)) (bad : List Nat) : (s.memWrite bs bad).hops = s.hops := rfl
@[simp] theorem memWrite_rivals (s : State) (bs : List (Nat × Byte)) (bad : List Nat) : (s.memWrite bs bad).rivals = s.rivals := rfl
@[simp] theorem memWrite_orphans (s : State) (bs : List (Nat × Byte)) (bad : List Nat) : (s.memWrite bs bad).orphans = s.orphans := rfl
@[simp] theorem memWrite_akey (s : State) (bs : List (Nat × Byte)) (bad : List Nat) : (s.memWrite bs bad).akey = s.akey := rfl
@[simp] theorem memWrite_mscSteps (s : State) (bs : List (Nat × Byte)) (bad : List Nat) : (s.memWrite bs bad).mscSteps = s.mscSteps := rfl
@[simp] theorem memWrite_xclrng (s : State) (bs : List (Nat × Byte)) (bad : List Nat) : (s.memWrite bs bad).xclrng = s.xclrng := rfl
@[simp] theorem memWrite_cxl (s : State) (bs : List (Nat × Byte)) (bad : List Nat) : (s.memWrite bs bad).cxl = s.cxl := rfl
@[simp] theorem memWrite_hlstat (s : State) (bs : List (Nat × Byte)) (bad : List Nat) : (s.memWrite bs bad).hlstat = s.hlstat := rfl
@[simp] theorem memWrite_hdbin (s : State) (bs : List (Nat × Byte)) (bad : List Nat) : (s.memWrite bs bad).hdbin = s.hdbin := rfl
@[simp] theorem memWrite_stage (s : State) (bs : List (Nat × Byte)) (bad : List Nat) : (s.memWrite bs bad).stage = s.stage := rfl
@[simp] theorem memWrite_attempts (s : State) (bs : List (Nat × Byte)) (bad : List Nat) : (s.memWrite bs bad).attempts = s.attempts := rfl
@[simp] theorem memWrite_err (s : State) (bs : List (Nat × Byte)) (bad : List Nat) : (s.memWrite bs bad).err = s.err := rfl
@[simp] theorem memWrite_bootLen (s : State) (bs : List (Nat × Byte)) (bad : List Nat) : (s.memWrite bs bad).bootLen = s.bootLen := rfl
@[simp] theorem memWrite_fwdig (s : State) (bs : List (Nat × Byte)) (bad : List Nat) : (s.memWrite bs bad).fwdig = s.fwdig := rfl
@[simp] theorem memWrite_log (s : State) (bs : List (Nat × Byte)) (bad : List Nat) : (s.memWrite bs bad).log = s.log := rfl
@[simp] theorem memWrite_logLost (s : State) (bs : List (Nat × Byte)) (bad : List Nat) : (s.memWrite bs bad).logLost = s.logLost := rfl
@[simp] theorem memWrite_bistctl (s : State) (bs : List (Nat × Byte)) (bad : List Nat) : (s.memWrite bs bad).bistctl = s.bistctl := rfl
@[simp] theorem memWrite_talign (s : State) (bs : List (Nat × Byte)) (bad : List Nat) : (s.memWrite bs bad).talign = s.talign := rfl
@[simp] theorem memWrite_tsc (s : State) (bs : List (Nat × Byte)) (bad : List Nat) : (s.memWrite bs bad).tsc = s.tsc := rfl
@[simp] theorem memWrite_tsalign (s : State) (bs : List (Nat × Byte)) (bad : List Nat) : (s.memWrite bs bad).tsalign = s.tsalign := rfl
@[simp] theorem memWrite_tsdone (s : State) (bs : List (Nat × Byte)) (bad : List Nat) : (s.memWrite bs bad).tsdone = s.tsdone := rfl
@[simp] theorem memWrite_out (s : State) (bs : List (Nat × Byte)) (bad : List Nat) : (s.memWrite bs bad).out = s.out := rfl

/-! ### draw -/

@[simp] theorem draw_time (s : State) : s.draw.time = s.time := rfl
@[simp] theorem draw_cur (s : State) : s.draw.cur = s.cur := rfl
@[simp] theorem draw_inputs (s : State) : s.draw.inputs = s.inputs := rfl
@[simp] theorem draw_cores (s : State) : s.draw.cores = s.cores := rfl
@[simp] theorem draw_harbour (s : State) : s.draw.harbour = s.harbour := rfl
@[simp] theorem draw_mem (s : State) : s.draw.mem = s.mem := rfl
@[simp] theorem draw_lines (s : State) : s.draw.lines = s.lines := rfl
@[simp] theorem draw_islands (s : State) : s.draw.islands = s.islands := rfl
@[simp] theorem draw_atolls (s : State) : s.draw.atolls = s.atolls := rfl
@[simp] theorem draw_ports (s : State) : s.draw.ports = s.ports := rfl
@[simp] theorem draw_parts (s : State) : s.draw.parts = s.parts := rfl
@[simp] theorem draw_engines (s : State) : s.draw.engines = s.engines := rfl
@[simp] theorem draw_launches (s : State) : s.draw.launches = s.launches := rfl
@[simp] theorem draw_saved (s : State) : s.draw.saved = s.saved := rfl
@[simp] theorem draw_recs (s : State) : s.draw.recs = s.recs := rfl
@[simp] theorem draw_waitRecs (s : State) : s.draw.waitRecs = s.waitRecs := rfl
@[simp] theorem draw_fq (s : State) : s.draw.fq = s.fq := rfl
@[simp] theorem draw_seq (s : State) : s.draw.seq = s.seq := rfl
@[simp] theorem draw_transit (s : State) : s.draw.transit = s.transit := rfl
@[simp] theorem draw_hops (s : State) : s.draw.hops = s.hops := rfl
@[simp] theorem draw_wins (s : State) : s.draw.wins = s.wins := rfl
@[simp] theorem draw_rivals (s : State) : s.draw.rivals = s.rivals := rfl
@[simp] theorem draw_orphans (s : State) : s.draw.orphans = s.orphans := rfl
@[simp] theorem draw_akey (s : State) : s.draw.akey = s.akey := rfl
@[simp] theorem draw_mscSteps (s : State) : s.draw.mscSteps = s.mscSteps := rfl
@[simp] theorem draw_xclrng (s : State) : s.draw.xclrng = s.xclrng := rfl
@[simp] theorem draw_cxl (s : State) : s.draw.cxl = s.cxl := rfl
@[simp] theorem draw_hlstat (s : State) : s.draw.hlstat = s.hlstat := rfl
@[simp] theorem draw_hdbin (s : State) : s.draw.hdbin = s.hdbin := rfl
@[simp] theorem draw_stage (s : State) : s.draw.stage = s.stage := rfl
@[simp] theorem draw_attempts (s : State) : s.draw.attempts = s.attempts := rfl
@[simp] theorem draw_err (s : State) : s.draw.err = s.err := rfl
@[simp] theorem draw_bootLen (s : State) : s.draw.bootLen = s.bootLen := rfl
@[simp] theorem draw_fwdig (s : State) : s.draw.fwdig = s.fwdig := rfl
@[simp] theorem draw_log (s : State) : s.draw.log = s.log := rfl
@[simp] theorem draw_logLost (s : State) : s.draw.logLost = s.logLost := rfl
@[simp] theorem draw_bistctl (s : State) : s.draw.bistctl = s.bistctl := rfl
@[simp] theorem draw_talign (s : State) : s.draw.talign = s.talign := rfl
@[simp] theorem draw_tsc (s : State) : s.draw.tsc = s.tsc := rfl
@[simp] theorem draw_tsalign (s : State) : s.draw.tsalign = s.tsalign := rfl
@[simp] theorem draw_tsdone (s : State) : s.draw.tsdone = s.tsdone := rfl
@[simp] theorem draw_out (s : State) : s.draw.out = s.out := rfl

/-! ### setEvent -/

@[simp] theorem setEvent_time (s : State) (m : BitVec 8) : (s.setEvent m).time = s.time := rfl
@[simp] theorem setEvent_cur (s : State) (m : BitVec 8) : (s.setEvent m).cur = s.cur := rfl
@[simp] theorem setEvent_inputs (s : State) (m : BitVec 8) : (s.setEvent m).inputs = s.inputs := rfl
@[simp] theorem setEvent_free (s : State) (m : BitVec 8) : (s.setEvent m).free = s.free := rfl
@[simp] theorem setEvent_cores (s : State) (m : BitVec 8) : (s.setEvent m).cores = s.cores := rfl
@[simp] theorem setEvent_mem (s : State) (m : BitVec 8) : (s.setEvent m).mem = s.mem := rfl
@[simp] theorem setEvent_lines (s : State) (m : BitVec 8) : (s.setEvent m).lines = s.lines := rfl
@[simp] theorem setEvent_islands (s : State) (m : BitVec 8) : (s.setEvent m).islands = s.islands := rfl
@[simp] theorem setEvent_atolls (s : State) (m : BitVec 8) : (s.setEvent m).atolls = s.atolls := rfl
@[simp] theorem setEvent_ports (s : State) (m : BitVec 8) : (s.setEvent m).ports = s.ports := rfl
@[simp] theorem setEvent_parts (s : State) (m : BitVec 8) : (s.setEvent m).parts = s.parts := rfl
@[simp] theorem setEvent_engines (s : State) (m : BitVec 8) : (s.setEvent m).engines = s.engines := rfl
@[simp] theorem setEvent_launches (s : State) (m : BitVec 8) : (s.setEvent m).launches = s.launches := rfl
@[simp] theorem setEvent_saved (s : State) (m : BitVec 8) : (s.setEvent m).saved = s.saved := rfl
@[simp] theorem setEvent_recs (s : State) (m : BitVec 8) : (s.setEvent m).recs = s.recs := rfl
@[simp] theorem setEvent_waitRecs (s : State) (m : BitVec 8) : (s.setEvent m).waitRecs = s.waitRecs := rfl
@[simp] theorem setEvent_fq (s : State) (m : BitVec 8) : (s.setEvent m).fq = s.fq := rfl
@[simp] theorem setEvent_seq (s : State) (m : BitVec 8) : (s.setEvent m).seq = s.seq := rfl
@[simp] theorem setEvent_transit (s : State) (m : BitVec 8) : (s.setEvent m).transit = s.transit := rfl
@[simp] theorem setEvent_hops (s : State) (m : BitVec 8) : (s.setEvent m).hops = s.hops := rfl
@[simp] theorem setEvent_wins (s : State) (m : BitVec 8) : (s.setEvent m).wins = s.wins := rfl
@[simp] theorem setEvent_rivals (s : State) (m : BitVec 8) : (s.setEvent m).rivals = s.rivals := rfl
@[simp] theorem setEvent_orphans (s : State) (m : BitVec 8) : (s.setEvent m).orphans = s.orphans := rfl
@[simp] theorem setEvent_akey (s : State) (m : BitVec 8) : (s.setEvent m).akey = s.akey := rfl
@[simp] theorem setEvent_mscSteps (s : State) (m : BitVec 8) : (s.setEvent m).mscSteps = s.mscSteps := rfl
@[simp] theorem setEvent_xclrng (s : State) (m : BitVec 8) : (s.setEvent m).xclrng = s.xclrng := rfl
@[simp] theorem setEvent_cxl (s : State) (m : BitVec 8) : (s.setEvent m).cxl = s.cxl := rfl
@[simp] theorem setEvent_hlstat (s : State) (m : BitVec 8) : (s.setEvent m).hlstat = s.hlstat := rfl
@[simp] theorem setEvent_hdbin (s : State) (m : BitVec 8) : (s.setEvent m).hdbin = s.hdbin := rfl
@[simp] theorem setEvent_stage (s : State) (m : BitVec 8) : (s.setEvent m).stage = s.stage := rfl
@[simp] theorem setEvent_attempts (s : State) (m : BitVec 8) : (s.setEvent m).attempts = s.attempts := rfl
@[simp] theorem setEvent_err (s : State) (m : BitVec 8) : (s.setEvent m).err = s.err := rfl
@[simp] theorem setEvent_bootLen (s : State) (m : BitVec 8) : (s.setEvent m).bootLen = s.bootLen := rfl
@[simp] theorem setEvent_fwdig (s : State) (m : BitVec 8) : (s.setEvent m).fwdig = s.fwdig := rfl
@[simp] theorem setEvent_log (s : State) (m : BitVec 8) : (s.setEvent m).log = s.log := rfl
@[simp] theorem setEvent_logLost (s : State) (m : BitVec 8) : (s.setEvent m).logLost = s.logLost := rfl
@[simp] theorem setEvent_bistctl (s : State) (m : BitVec 8) : (s.setEvent m).bistctl = s.bistctl := rfl
@[simp] theorem setEvent_talign (s : State) (m : BitVec 8) : (s.setEvent m).talign = s.talign := rfl
@[simp] theorem setEvent_tsc (s : State) (m : BitVec 8) : (s.setEvent m).tsc = s.tsc := rfl
@[simp] theorem setEvent_tsalign (s : State) (m : BitVec 8) : (s.setEvent m).tsalign = s.tsalign := rfl
@[simp] theorem setEvent_tsdone (s : State) (m : BitVec 8) : (s.setEvent m).tsdone = s.tsdone := rfl
@[simp] theorem setEvent_out (s : State) (m : BitVec 8) : (s.setEvent m).out = s.out := rfl

end Sys2Proof.Machine
end

