-- ==== Sys2Proof/Laws/Issue.lean ====
section
/-! SUPPORT. What the issue of a word does, said once: under passing checks and a true guard the state is that of the word's effect with its stream moved on; a failed check raises or waits. -/

namespace Sys2Proof.Machine

/-- A word that passes every check issues. -/
theorem issue_ok (i : Instr) (p : Plan) (s : State) (h : s.verdict i p = .ok) : issue i p s = s.commit i p := by
  simp [issue, h]

/-- A word that fails a check with a cause raises it. -/
theorem issue_trap (i : Instr) (p : Plan) (s : State) (t : TrapInfo) (h : s.verdict i p = .trap t) :
    issue i p s = (s.freezeBuf p.buf).raise t (encode i) := by
  simp [issue, h]

/-- An unmet condition makes a gated word wait. -/
theorem issue_wait (i : Instr) (p : Plan) (s : State) (c n : Nat) (h : s.verdict i p = .miss c n) (hl : s.locked s.cur.hart s.cur.strm = false) :
    issue i p s = s.wait := by
  simp [issue, h, hl]

/-- It makes a locked word raise SCHEDULE_MISS. -/
theorem issue_miss (i : Instr) (p : Plan) (s : State) (c n : Nat) (h : s.verdict i p = .miss c n) (hl : s.locked s.cur.hart s.cur.strm = true) :
    issue i p s = (s.freezeBuf p.buf).raise ⟨cScheduleMiss, 0, c + n * 2 ^ 16⟩ (encode i) := by
  simp [issue, h, hl]

theorem strm_idx_inj (q r : Strm) (h : q.idx = r.idx) : q = r := by cases q <;> cases r <;> first | rfl | (exact absurd h (by decide))
theorem strm_idx_lt (q : Strm) : q.idx < 4 := by cases q <;> decide

theorem stream_modStream (s : State) (x : Hart) (q r : Strm) (f : Stream → Stream) :
    (s.modStream x q f).stream x r = if r = q then f (s.stream x r) else s.stream x r := by
  simp only [State.stream, State.modStream, cpu_modCpu_self, Cpu.stream, Cpu.modStream]
  by_cases h : r = q
  · subst h; simp [vget_vmod_self _ _ _ _ (strm_idx_lt r)]
  · simp [h, vget_vmod_ne _ _ _ _ _ fun e => h (strm_idx_inj _ _ e.symm)]

/-- The parts of a state that rest erases may change freely. -/
theorem rest_modCpu (s : State) (x : Hart) (f : Cpu → Cpu)
    (h : ∀ u : Cpu, { f u with strm := Vector.replicate 4 {}, acc := 0, acq := 0, fence := 0 } = { u with strm := Vector.replicate 4 {}, acc := 0, acq := 0, fence := 0 }) :
    (s.modCpu x f).rest x = s.rest x := by
  unfold State.rest
  rw [modCpu_modCpu]
  simp only [h]
theorem rest_modStream (s : State) (x : Hart) (q : Strm) (f : Stream → Stream) : (s.modStream x q f).rest x = s.rest x :=
  rest_modCpu s x _ fun _ => rfl
theorem rest_draw (s : State) (x : Hart) : s.draw.rest x = s.rest x := by cases x <;> rfl
theorem rest_modCore (s : State) (c : CoreId) (f : Core → Core)
    (h : ∀ k : Core, { f k with cpu := { (f k).cpu with strm := Vector.replicate 4 {}, acc := 0, acq := 0, fence := 0 }, claims := [], shares := [], spans := [], rot := .s }
      = { k with cpu := { k.cpu with strm := Vector.replicate 4 {}, acc := 0, acq := 0, fence := 0 }, claims := [], shares := [], spans := [], rot := .s }) :
    (s.modCore c f).rest (.core c) = s.rest (.core c) := by
  have e : ∀ s : State, s.rest (.core c) = { s.modCore c fun k => { k with
      cpu := { k.cpu with strm := Vector.replicate 4 {}, acc := 0, acq := 0, fence := 0 }, claims := [], shares := [], spans := [], rot := .s } with free := 0 } := by
    intro s; simp [State.rest, State.modCpu, State.modCore]
  rw [e, e, modCore_modCore]
  simp only [h]

theorem rest_modOwn (s : State) (x : Hart) (f : Core → Core)
    (h : ∀ k : Core, { f k with cpu := { (f k).cpu with strm := Vector.replicate 4 {}, acc := 0, acq := 0, fence := 0 }, claims := [], shares := [], spans := [], rot := .s }
      = { k with cpu := { k.cpu with strm := Vector.replicate 4 {}, acc := 0, acq := 0, fence := 0 }, claims := [], shares := [], spans := [], rot := .s }) :
    (s.modOwn x f).rest x = s.rest x := by
  cases x with
  | harbour => rfl
  | core c => exact rest_modCore s c f h
theorem stream_modOwn (s : State) (x : Hart) (f : Core → Core) (q : Strm) (h : ∀ k, (f k).cpu = k.cpu) :
    (s.modOwn x f).stream x q = s.stream x q := by
  cases x with
  | harbour => rfl
  | core c => simp only [State.stream, State.cpu, State.modOwn, core_modCore_self, h]
theorem stream_modCpu (s : State) (x : Hart) (f : Cpu → Cpu) (q : Strm) (h : ∀ u, (f u).strm = u.strm) :
    (s.modCpu x f).stream x q = s.stream x q := by
  simp only [State.stream, cpu_modCpu_self, Cpu.stream, h]
theorem stream_draw (s : State) (x : Hart) (q : Strm) : s.draw.stream x q = s.stream x q := by cases x <;> rfl

/-- A word that passes every check with a true guard leaves the state of its effect, its stream moved on by its Time and control. -/
theorem issue_ran (i : Instr) (p : Plan) (s : State) (hv : s.verdict i p = .ok) (hg : s.guard (headOf i) = true) :
    s.ran (issue i p s) (s.entered (p.eff s.draw) i) p.time p.ctl := by
  rw [issue_ok i p s hv]
  unfold State.ran State.commit State.entered
  simp only [hg, if_true]
  constructor
  · rw [rest_modStream, rest_modCpu _ _ (·.order (p.when true) (s.now s.cur.hart)) fun _ => rfl, rest_modOwn _ _ (·.claim (p.when true) (s.now s.cur.hart) s.cur.strm !s.locked s.cur.hart s.cur.strm) fun _ => rfl, rest_draw]
  · intro q
    rw [stream_modStream, stream_modCpu _ _ (·.order (p.when true) (s.now s.cur.hart)) _ fun _ => rfl, stream_modOwn _ _ (·.claim (p.when true) (s.now s.cur.hart) s.cur.strm !s.locked s.cur.hart s.cur.strm) _ fun _ => rfl, stream_draw]
    rfl

/-- The word's meaning is its plan, but for SYSW, whose write through the core window may fail, and FERRY.ARRW, whose arrival leaves the word waiting. -/
theorem exec_planOf (i : Instr) (s : State) (h : i.isWord = true) (h1 : ∀ h p, i ≠ .sysw h p) (h2 : ∀ h p, i ≠ .ferryArrw h p) :
    exec i s = .next (issue i (planOf i s) s) := by
  cases i <;> first
    | rfl
    | exact absurd rfl (h1 _ _)
    | exact absurd rfl (h2 _ _)
    | exact absurd h (by simp [Instr.isWord, encode])

/-- A word that goes completes with its plan's effect. -/
theorem completes_of_goes (i : Instr) (s : State) (hx : exec i s = .next (issue i (planOf i s) s)) (h : s.goes i) :
    s.completes i (planOf i s).time (planOf i s).ctl ((planOf i s).eff s.draw) :=
  ⟨_, hx, issue_ran i _ s h.1 h.2⟩

end Sys2Proof.Machine
end

