-- ==== Sys2Proof/Laws/Memory.lean ====
section
/-! SUPPORT. The laws of memory: reading after writing, and the canonical form kept by every operation over memory. -/

namespace Sys2Proof.Machine

/-- Every address of a list lies above a bound. -/
def Mem.above (n : Nat) (m : Mem) : Prop := ∀ c ∈ m, n < c.1

theorem Mem.wf_cons (k : Nat) (b : Byte) (r : Mem) : Mem.wf ((k, b) :: r) = true ↔ b ≠ 0#8 ∧ Mem.above k r ∧ Mem.wf r = true := by
  induction r generalizing k b with
  | nil => simp [Mem.wf, Mem.above]
  | cons x r ih =>
    obtain ⟨l, c⟩ := x
    have hu : Mem.wf ((k, b) :: (l, c) :: r) = true ↔ (b ≠ 0#8 ∧ k < l) ∧ Mem.wf ((l, c) :: r) = true := by
      simp [Mem.wf]
    rw [hu, ih]
    constructor
    · rintro ⟨⟨h1, h2⟩, h3, h4, h5⟩
      refine ⟨h1, ?_, h3, h4, h5⟩
      intro y hy
      rcases List.mem_cons.1 hy with rfl | hy
      · exact h2
      · exact Nat.lt_trans h2 (h4 y hy)
    · rintro ⟨h1, h2, h3, h4, h5⟩
      exact ⟨⟨h1, h2 _ (List.mem_cons_self ..)⟩, h3, h4, h5⟩

theorem Mem.read_above (m : Mem) (n a : Nat) (h : Mem.above n m) (ha : a ≤ n) : m.read a = 0 := by
  cases m with
  | nil => rfl
  | cons x r =>
    obtain ⟨k, b⟩ := x
    have hk : n < k := h _ (List.mem_cons_self ..)
    have h1 : k ≠ a := by omega
    have h2 : a < k := by omega
    simp [Mem.read, h1, h2]

theorem Mem.above_write (m : Mem) (n a : Nat) (b : Byte) (h : Mem.above n m) (ha : n < a) : Mem.above n (m.write a b) := by
  induction m with
  | nil =>
    intro c hc
    simp only [Mem.write] at hc
    split at hc <;> simp_all
  | cons x r ih =>
    obtain ⟨k, v⟩ := x
    have hk : n < k := h _ (List.mem_cons_self ..)
    have hr : Mem.above n r := fun c hc => h c (List.mem_cons_of_mem _ hc)
    intro c hc
    by_cases h1 : k = a
    · by_cases hb : b = 0#8
      · exact hr c (by simpa [Mem.write, h1, hb] using hc)
      · have : c = (a, b) ∨ c ∈ r := by simpa [Mem.write, h1, hb] using hc
        rcases this with rfl | hc
        · exact ha
        · exact hr c hc
    · by_cases h2 : a < k
      · by_cases hb : b = 0#8
        · exact h c (by simpa [Mem.write, h1, h2, hb] using hc)
        · have : c = (a, b) ∨ c = (k, v) ∨ c ∈ r := by simpa [Mem.write, h1, h2, hb] using hc
          rcases this with rfl | rfl | hc
          · exact ha
          · exact hk
          · exact hr c hc
      · have : c = (k, v) ∨ c ∈ Mem.write r a b := by simpa [Mem.write, h1, h2] using hc
        rcases this with rfl | hc
        · exact hk
        · exact ih hr c hc

/-- A write keeps the canonical form. -/
theorem Mem.wf_write (m : Mem) (a : Nat) (b : Byte) (h : m.wf = true) : (m.write a b).wf = true := by
  induction m with
  | nil =>
    by_cases hb : b = 0#8 <;> simp [Mem.write, Mem.wf, hb]
  | cons x r ih =>
    obtain ⟨k, v⟩ := x
    have hw := (Mem.wf_cons k v r).1 h
    by_cases hk : k = a
    · subst hk
      by_cases hb : b = 0#8
      · simpa [Mem.write, hb] using hw.2.2
      · simpa [Mem.write, hb] using (Mem.wf_cons k b r).2 ⟨hb, hw.2⟩
    · by_cases hlt : a < k
      · by_cases hb : b = 0#8
        · simpa [Mem.write, hk, hlt, hb] using h
        · have : Mem.wf ((a, b) :: (k, v) :: r) = true := by
            refine (Mem.wf_cons ..).2 ⟨hb, ?_, h⟩
            intro c hc
            rcases List.mem_cons.1 hc with rfl | hc
            · exact hlt
            · exact Nat.lt_trans hlt (hw.2.1 c hc)
          simpa [Mem.write, hk, hlt, hb] using this
      · have : Mem.wf ((k, v) :: Mem.write r a b) = true :=
          (Mem.wf_cons ..).2 ⟨hw.1, Mem.above_write r k a b hw.2.1 (by omega), ih hw.2.2⟩
        simpa [Mem.write, hk, hlt] using this

/-- A list of writes keeps it. -/
theorem Mem.wf_writes (bs : List (Nat × Byte)) (m : Mem) (h : m.wf = true) : (m.writes bs).wf = true := by
  induction bs generalizing m with
  | nil => exact h
  | cons b bs ih => exact ih _ (Mem.wf_write m b.1 b.2 h)

theorem Mem.above_filter (m : Mem) (n : Nat) (p : Host.Cell → Bool) (h : Mem.above n m) : Mem.above n (m.filter p) :=
  fun c hc => h c (List.mem_filter.1 hc).1

/-- Dropping entries keeps it. -/
theorem Mem.wf_filter (m : Mem) (p : Host.Cell → Bool) (h : m.wf = true) : Mem.wf (m.filter p) = true := by
  induction m with
  | nil => rfl
  | cons x r ih =>
    obtain ⟨k, v⟩ := x
    have hw := (Mem.wf_cons k v r).1 h
    by_cases hp : p (k, v) = true
    · rw [List.filter_cons_of_pos hp]
      exact (Mem.wf_cons ..).2 ⟨hw.1, Mem.above_filter r k p hw.2.1, ih hw.2.2⟩
    · rw [List.filter_cons_of_neg hp]
      exact ih hw.2.2

/-- Clearing a range keeps it. -/
theorem Mem.wf_clear (m : Mem) (a n : Nat) (h : m.wf = true) : (m.clear a n).wf = true := Mem.wf_filter _ _ h

/-- A byte reads as it was written. -/
theorem Mem.read_write_self (m : Mem) (a : Nat) (b : Byte) (h : m.wf = true) : (m.write a b).read a = b := by
  induction m with
  | nil => by_cases hb : b = 0#8 <;> simp [Mem.write, Mem.read, hb]
  | cons x r ih =>
    obtain ⟨k, v⟩ := x
    have hw := (Mem.wf_cons k v r).1 h
    by_cases hk : k = a
    · subst hk
      by_cases hb : b = 0#8
      · simp [Mem.write, hb, Mem.read_above r k k hw.2.1 (Nat.le_refl _)]
      · simp [Mem.write, Mem.read, hb]
    · by_cases hlt : a < k
      · by_cases hb : b = 0#8 <;> simp [Mem.write, Mem.read, hk, hlt, hb]
      · simp [Mem.write, Mem.read, hk, hlt, ih hw.2.2]

/-- A write leaves every other byte alone. -/
theorem Mem.read_write_ne (m : Mem) (a c : Nat) (b : Byte) (h : m.wf = true) (hc : c ≠ a) : (m.write a b).read c = m.read c := by
  induction m with
  | nil =>
    by_cases hb : b = 0#8
    · simp [Mem.write, hb]
    · by_cases h1 : c < a <;> simp [Mem.write, Mem.read, hb, Ne.symm hc, h1]
  | cons x r ih =>
    obtain ⟨k, v⟩ := x
    have hw := (Mem.wf_cons k v r).1 h
    by_cases hk : k = a
    · subst hk
      by_cases hlt : c < k
      · by_cases hb : b = 0#8
        · simp [Mem.write, hb, Mem.read, Ne.symm hc, hlt, Mem.read_above r k c hw.2.1 (by omega)]
        · simp [Mem.write, hb, Mem.read, Ne.symm hc, hlt]
      · by_cases hb : b = 0#8 <;> simp [Mem.write, hb, Mem.read, Ne.symm hc, hlt]
    · by_cases hlt : a < k
      · by_cases hb : b = 0#8
        · simp [Mem.write, hk, hlt, hb]
        · by_cases h1 : c < a
          · have h2 : k ≠ c := by omega
            have h3 : c < k := by omega
            simp [Mem.write, hk, hlt, hb, Mem.read, Ne.symm hc, h1, h2, h3]
          · simp [Mem.write, hk, hlt, hb, Mem.read, Ne.symm hc, h1]
      · simp [Mem.write, hk, hlt, Mem.read, ih hw.2.2]

/-- Writes leave every byte that none of them names. -/
theorem Mem.read_writes_other (bs : List (Nat × Byte)) (m : Mem) (c : Nat) (h : m.wf = true) (hc : ∀ b ∈ bs, b.1 ≠ c) :
    (m.writes bs).read c = m.read c := by
  induction bs generalizing m with
  | nil => rfl
  | cons b bs ih =>
    show (Mem.writes (m.write b.1 b.2) bs).read c = _
    rw [ih _ (Mem.wf_write m b.1 b.2 h) fun x hx => hc x (List.mem_cons_of_mem _ hx)]
    exact Mem.read_write_ne m b.1 c b.2 h (Ne.symm (hc b (List.mem_cons_self ..)))

/-- Reset's memory has the canonical form, as has an empty one. -/
theorem reset_mem_wf : State.reset.mem.wf = true := rfl

/-- A physical write keeps it. -/
theorem memWrite_wf (s : State) (bs : List (Nat × Byte)) (bad : List Nat) (h : s.mem.wf = true) : (s.memWrite bs bad).mem.wf = true :=
  Mem.wf_writes bs s.mem h

/-- A write of the pool keeps it. -/
theorem poolWrite_wf (k : Core) (bs : List (Nat × Byte)) (bad whole : List Nat) (h : k.pool.wf = true) : (k.poolWrite bs bad whole).pool.wf = true :=
  Mem.wf_writes bs k.pool h

end Sys2Proof.Machine
end

