-- ==== Sys2Proof/Laws/PerInstr.lean ====
section
/-! SUPPORT. A law of each instruction as syntax: its common head stands in its word where R144 puts it, so that a decoder reads it back before it knows the opcode. -/

namespace Sys2Proof.Laws.WordHead

open Sys2Proof Sys2Proof.Machine

/-- Read from an instruction's word by the fields of R144, the head is the instruction's own. -/
def Statement (i : Instr) : Prop := i.isWord = true → decHead (encode i) = headOf i

/-- The head lies in the low parcel, whatever the payload over it. -/
theorem decHead_low (q : BitVec 64) (op : Byte) (h : Head) : decHead (q ++ encHead op h) = h := by
  obtain ⟨i, n, g, f⟩ := h
  simp only [decHead, encHead, Head.mk.injEq]
  refine ⟨BitVec.eq_of_getLsbD_eq fun k hk => ?_, ?_, BitVec.eq_of_getLsbD_eq fun k hk => ?_, BitVec.eq_of_getLsbD_eq fun k hk => ?_⟩
  · simp only [BitVec.getLsbD_extractLsb', BitVec.getLsbD_append, BitVec.getLsbD_ofBool, hk, decide_true, Bool.true_and, show 17 + k < 32 by omega, if_true,
      show ¬ 17 + k < 8 by omega, show ¬ 17 + k - 8 < 4 by omega, show ¬ 17 + k - 8 - 4 < 4 by omega, show ¬ 17 + k - 8 - 4 - 4 < 1 by omega, if_false]
    congr 1; omega
  · simp only [BitVec.getLsbD_append, BitVec.getLsbD_ofBool]; rfl
  · simp only [BitVec.getLsbD_extractLsb', BitVec.getLsbD_append, BitVec.getLsbD_ofBool, hk, decide_true, Bool.true_and, show 12 + k < 32 by omega, if_true,
      show ¬ 12 + k < 8 by omega, show ¬ 12 + k - 8 < 4 by omega, show 12 + k - 8 - 4 < 4 by omega, if_false]
    congr 1; omega
  · simp only [BitVec.getLsbD_extractLsb', BitVec.getLsbD_append, BitVec.getLsbD_ofBool, hk, decide_true, Bool.true_and, show 8 + k < 32 by omega, if_true,
      show ¬ 8 + k < 8 by omega, show 8 + k - 8 < 4 by omega, if_false]
    congr 1; omega

theorem nop (h : Head) (p : PR) : Statement (.nop h p) := fun _ => decHead_low _ _ _
theorem ill (h : Head) (op : Byte) (p : PR) : Statement (.ill h op p) := fun _ => decHead_low _ _ _
theorem add (h : Head) (p : PR) : Statement (.add h p) := fun _ => decHead_low _ _ _
theorem sub (h : Head) (p : PR) : Statement (.sub h p) := fun _ => decHead_low _ _ _
theorem mul (h : Head) (p : PR) : Statement (.mul h p) := fun _ => decHead_low _ _ _
theorem mulh (h : Head) (p : PR) : Statement (.mulh h p) := fun _ => decHead_low _ _ _
theorem div (h : Head) (p : PR) : Statement (.div h p) := fun _ => decHead_low _ _ _
theorem rem (h : Head) (p : PR) : Statement (.rem h p) := fun _ => decHead_low _ _ _
theorem and (h : Head) (p : PR) : Statement (.and h p) := fun _ => decHead_low _ _ _
theorem or (h : Head) (p : PR) : Statement (.or h p) := fun _ => decHead_low _ _ _
theorem xor (h : Head) (p : PR) : Statement (.xor h p) := fun _ => decHead_low _ _ _
theorem shl (h : Head) (p : PR) : Statement (.shl h p) := fun _ => decHead_low _ _ _
theorem shr (h : Head) (p : PR) : Statement (.shr h p) := fun _ => decHead_low _ _ _
theorem sar (h : Head) (p : PR) : Statement (.sar h p) := fun _ => decHead_low _ _ _
theorem min (h : Head) (p : PR) : Statement (.min h p) := fun _ => decHead_low _ _ _
theorem max (h : Head) (p : PR) : Statement (.max h p) := fun _ => decHead_low _ _ _
theorem cmp (h : Head) (p : PR) : Statement (.cmp h p) := fun _ => decHead_low _ _ _
theorem sel (h : Head) (p : PR) : Statement (.sel h p) := fun _ => decHead_low _ _ _
theorem li (h : Head) (p : PR) : Statement (.li h p) := fun _ => decHead_low _ _ _
theorem liZ (h : Head) (p : PR) : Statement (.liZ h p) := fun _ => decHead_low _ _ _
theorem lih (h : Head) (p : PR) : Statement (.lih h p) := fun _ => decHead_low _ _ _
theorem plog (h : Head) (p : PR) : Statement (.plog h p) := fun _ => decHead_low _ _ _
theorem popc (h : Head) (p : PR) : Statement (.popc h p) := fun _ => decHead_low _ _ _
theorem clz (h : Head) (p : PR) : Statement (.clz h p) := fun _ => decHead_low _ _ _
theorem br (h : Head) (p : PR) : Statement (.br h p) := fun _ => decHead_low _ _ _
theorem jmp (h : Head) (p : PR) : Statement (.jmp h p) := fun _ => decHead_low _ _ _
theorem call (h : Head) (p : PR) : Statement (.call h p) := fun _ => decHead_low _ _ _
theorem callR (h : Head) (p : PR) : Statement (.callR h p) := fun _ => decHead_low _ _ _
theorem ret (h : Head) (p : PR) : Statement (.ret h p) := fun _ => decHead_low _ _ _
theorem loop (h : Head) (p : PR) : Statement (.loop h p) := fun _ => decHead_low _ _ _
theorem endS (h : Head) (p : PR) : Statement (.endS h p) := fun _ => decHead_low _ _ _
theorem brk (h : Head) (p : PR) : Statement (.brk h p) := fun _ => decHead_low _ _ _
theorem trap (h : Head) (p : PR) : Statement (.trap h p) := fun _ => decHead_low _ _ _
theorem talign (h : Head) (p : PR) : Statement (.talign h p) := fun _ => decHead_low _ _ _
theorem tlwait (h : Head) (p : PR) : Statement (.tlwait h p) := fun _ => decHead_low _ _ _
theorem tlread (h : Head) (p : PR) : Statement (.tlread h p) := fun _ => decHead_low _ _ _
theorem cpy (h : Head) (p : PR) : Statement (.cpy h p) := fun _ => decHead_low _ _ _
theorem cpyAbs (h : Head) (p : PR) : Statement (.cpyAbs h p) := fun _ => decHead_low _ _ _
theorem cpyx (h : Head) (p : PR) : Statement (.cpyx h p) := fun _ => decHead_low _ _ _
theorem cpyxAbs (h : Head) (p : PR) : Statement (.cpyxAbs h p) := fun _ => decHead_low _ _ _
theorem roweSmax (h : Head) (p : PR) : Statement (.roweSmax h p) := fun _ => decHead_low _ _ _
theorem roweRms (h : Head) (p : PR) : Statement (.roweRms h p) := fun _ => decHead_low _ _ _
theorem ferryArr (h : Head) (p : PR) : Statement (.ferryArr h p) := fun _ => decHead_low _ _ _
theorem ferryWait (h : Head) (p : PR) : Statement (.ferryWait h p) := fun _ => decHead_low _ _ _
theorem ferryArrw (h : Head) (p : PR) : Statement (.ferryArrw h p) := fun _ => decHead_low _ _ _
theorem domq (h : Head) (p : PR) : Statement (.domq h p) := fun _ => decHead_low _ _ _
theorem stset (h : Head) (p : PR) : Statement (.stset h p) := fun _ => decHead_low _ _ _
theorem stget (h : Head) (p : PR) : Statement (.stget h p) := fun _ => decHead_low _ _ _
theorem ststep (h : Head) (p : PR) : Statement (.ststep h p) := fun _ => decHead_low _ _ _
theorem qconf (h : Head) (p : PR) : Statement (.qconf h p) := fun _ => decHead_low _ _ _
theorem qconfRel (h : Head) (p : PR) : Statement (.qconfRel h p) := fun _ => decHead_low _ _ _
theorem rconf (h : Head) (p : PR) : Statement (.rconf h p) := fun _ => decHead_low _ _ _
theorem sysr (h : Head) (p : PR) : Statement (.sysr h p) := fun _ => decHead_low _ _ _
theorem sysw (h : Head) (p : PR) : Statement (.sysw h p) := fun _ => decHead_low _ _ _
theorem eret (h : Head) (p : PR) : Statement (.eret h p) := fun _ => decHead_low _ _ _
theorem wfi (h : Head) (p : PR) : Statement (.wfi h p) := fun _ => decHead_low _ _ _
theorem tlbi (h : Head) (p : PR) : Statement (.tlbi h p) := fun _ => decHead_low _ _ _
theorem hinva (h : Head) (p : PR) : Statement (.hinva h p) := fun _ => decHead_low _ _ _
theorem ctxsv (h : Head) (p : PR) : Statement (.ctxsv h p) := fun _ => decHead_low _ _ _
theorem ctxld (h : Head) (p : PR) : Statement (.ctxld h p) := fun _ => decHead_low _ _ _
theorem xlat (h : Head) (p : PR) : Statement (.xlat h p) := fun _ => decHead_low _ _ _
theorem hinv (h : Head) (p : PR) : Statement (.hinv h p) := fun _ => decHead_low _ _ _
theorem hinvAll (h : Head) (p : PR) : Statement (.hinvAll h p) := fun _ => decHead_low _ _ _
theorem hqry (h : Head) (p : PR) : Statement (.hqry h p) := fun _ => decHead_low _ _ _
theorem ld (h : Head) (p : PR) : Statement (.ld h p) := fun _ => decHead_low _ _ _
theorem st (h : Head) (p : PR) : Statement (.st h p) := fun _ => decHead_low _ _ _
theorem lld (h : Head) (p : PR) : Statement (.lld h p) := fun _ => decHead_low _ _ _
theorem lldS (h : Head) (p : PR) : Statement (.lldS h p) := fun _ => decHead_low _ _ _
theorem lst (h : Head) (p : PR) : Statement (.lst h p) := fun _ => decHead_low _ _ _
theorem lstS (h : Head) (p : PR) : Statement (.lstS h p) := fun _ => decHead_low _ _ _
theorem tld (h : Head) (p : PR) : Statement (.tld h p) := fun _ => decHead_low _ _ _
theorem tst (h : Head) (p : PR) : Statement (.tst h p) := fun _ => decHead_low _ _ _
theorem gath (h : Head) (p : PR) : Statement (.gath h p) := fun _ => decHead_low _ _ _
theorem scat (h : Head) (p : PR) : Statement (.scat h p) := fun _ => decHead_low _ _ _
theorem ldsw (h : Head) (p : PR) : Statement (.ldsw h p) := fun _ => decHead_low _ _ _
theorem ldswH (h : Head) (p : PR) : Statement (.ldswH h p) := fun _ => decHead_low _ _ _
theorem stsw (h : Head) (p : PR) : Statement (.stsw h p) := fun _ => decHead_low _ _ _
theorem aadd (h : Head) (p : PR) : Statement (.aadd h p) := fun _ => decHead_low _ _ _
theorem aand (h : Head) (p : PR) : Statement (.aand h p) := fun _ => decHead_low _ _ _
theorem aor (h : Head) (p : PR) : Statement (.aor h p) := fun _ => decHead_low _ _ _
theorem axor (h : Head) (p : PR) : Statement (.axor h p) := fun _ => decHead_low _ _ _
theorem amin (h : Head) (p : PR) : Statement (.amin h p) := fun _ => decHead_low _ _ _
theorem amax (h : Head) (p : PR) : Statement (.amax h p) := fun _ => decHead_low _ _ _
theorem aswp (h : Head) (p : PR) : Statement (.aswp h p) := fun _ => decHead_low _ _ _
theorem acas (h : Head) (p : PR) : Statement (.acas h p) := fun _ => decHead_low _ _ _
theorem aqadd (h : Head) (p : PR) : Statement (.aqadd h p) := fun _ => decHead_low _ _ _
theorem fence (h : Head) (p : PR) : Statement (.fence h p) := fun _ => decHead_low _ _ _
theorem qpush (h : Head) (p : PR) : Statement (.qpush h p) := fun _ => decHead_low _ _ _
theorem qpop (h : Head) (p : PR) : Statement (.qpop h p) := fun _ => decHead_low _ _ _
theorem larm (h : Head) (p : PR) : Statement (.larm h p) := fun _ => decHead_low _ _ _
theorem larmG (h : Head) (p : PR) : Statement (.larmG h p) := fun _ => decHead_low _ _ _
theorem lpoll (h : Head) (p : PR) : Statement (.lpoll h p) := fun _ => decHead_low _ _ _
theorem lwait (h : Head) (p : PR) : Statement (.lwait h p) := fun _ => decHead_low _ _ _
theorem prefX (h : Head) (p : PR) : Statement (.prefX h p) := fun _ => decHead_low _ _ _
theorem prefM (h : Head) (p : PR) : Statement (.prefM h p) := fun _ => decHead_low _ _ _
theorem echk (h : Head) (p : PR) : Statement (.echk h p) := fun _ => decHead_low _ _ _
theorem echkOff (h : Head) (p : PR) : Statement (.echkOff h p) := fun _ => decHead_low _ _ _
theorem vadd (h : Head) (p : PV) : Statement (.vadd h p) := fun _ => decHead_low _ _ _
theorem vsub (h : Head) (p : PV) : Statement (.vsub h p) := fun _ => decHead_low _ _ _
theorem vmul (h : Head) (p : PV) : Statement (.vmul h p) := fun _ => decHead_low _ _ _
theorem vfma (h : Head) (p : PV) : Statement (.vfma h p) := fun _ => decHead_low _ _ _
theorem vmin (h : Head) (p : PV) : Statement (.vmin h p) := fun _ => decHead_low _ _ _
theorem vmax (h : Head) (p : PV) : Statement (.vmax h p) := fun _ => decHead_low _ _ _
theorem vabs (h : Head) (p : PV) : Statement (.vabs h p) := fun _ => decHead_low _ _ _
theorem vneg (h : Head) (p : PV) : Statement (.vneg h p) := fun _ => decHead_low _ _ _
theorem vand (h : Head) (p : PV) : Statement (.vand h p) := fun _ => decHead_low _ _ _
theorem vor (h : Head) (p : PV) : Statement (.vor h p) := fun _ => decHead_low _ _ _
theorem vxor (h : Head) (p : PV) : Statement (.vxor h p) := fun _ => decHead_low _ _ _
theorem vshl (h : Head) (p : PV) : Statement (.vshl h p) := fun _ => decHead_low _ _ _
theorem vshr (h : Head) (p : PV) : Statement (.vshr h p) := fun _ => decHead_low _ _ _
theorem vcmp (h : Head) (p : PV) : Statement (.vcmp h p) := fun _ => decHead_low _ _ _
theorem vsel (h : Head) (p : PV) : Statement (.vsel h p) := fun _ => decHead_low _ _ _
theorem vmov (h : Head) (p : PV) : Statement (.vmov h p) := fun _ => decHead_low _ _ _
theorem vfillK (h : Head) (p : PV) : Statement (.vfillK h p) := fun _ => decHead_low _ _ _
theorem vfillIota (h : Head) (p : PV) : Statement (.vfillIota h p) := fun _ => decHead_low _ _ _
theorem vfillFc (h : Head) (p : PV) : Statement (.vfillFc h p) := fun _ => decHead_low _ _ _
theorem vcvt (h : Head) (p : PV) : Statement (.vcvt h p) := fun _ => decHead_low _ _ _
theorem vrcp (h : Head) (p : PV) : Statement (.vrcp h p) := fun _ => decHead_low _ _ _
theorem vrsq (h : Head) (p : PV) : Statement (.vrsq h p) := fun _ => decHead_low _ _ _
theorem vnr (h : Head) (p : PV) : Statement (.vnr h p) := fun _ => decHead_low _ _ _
theorem vexp2 (h : Head) (p : PV) : Statement (.vexp2 h p) := fun _ => decHead_low _ _ _
theorem vlog2 (h : Head) (p : PV) : Statement (.vlog2 h p) := fun _ => decHead_low _ _ _
theorem vtanh (h : Head) (p : PV) : Statement (.vtanh h p) := fun _ => decHead_low _ _ _
theorem vred (h : Head) (p : PV) : Statement (.vred h p) := fun _ => decHead_low _ _ _
theorem vscan (h : Head) (p : PV) : Statement (.vscan h p) := fun _ => decHead_low _ _ _
theorem vdot (h : Head) (p : PV) : Statement (.vdot h p) := fun _ => decHead_low _ _ _
theorem vtrn (h : Head) (p : PV) : Statement (.vtrn h p) := fun _ => decHead_low _ _ _
theorem vperm (h : Head) (p : PV) : Statement (.vperm h p) := fun _ => decHead_low _ _ _
theorem vamax (h : Head) (p : PV) : Statement (.vamax h p) := fun _ => decHead_low _ _ _
theorem vqnt (h : Head) (p : PV) : Statement (.vqnt h p) := fun _ => decHead_low _ _ _
theorem vdqn (h : Head) (p : PV) : Statement (.vdqn h p) := fun _ => decHead_low _ _ _
theorem cwadd (h : Head) (p : PV) : Statement (.cwadd h p) := fun _ => decHead_low _ _ _
theorem cwsub (h : Head) (p : PV) : Statement (.cwsub h p) := fun _ => decHead_low _ _ _
theorem cwsum (h : Head) (p : PV) : Statement (.cwsum h p) := fun _ => decHead_low _ _ _
theorem skey (h : Head) (p : PV) : Statement (.skey h p) := fun _ => decHead_low _ _ _
theorem sort (h : Head) (p : PV) : Statement (.sort h p) := fun _ => decHead_low _ _ _
theorem sortc (h : Head) (p : PV) : Statement (.sortc h p) := fun _ => decHead_low _ _ _
theorem sortcLd (h : Head) (p : PV) : Statement (.sortcLd h p) := fun _ => decHead_low _ _ _
theorem sortu (h : Head) (p : PV) : Statement (.sortu h p) := fun _ => decHead_low _ _ _
theorem sortuDump (h : Head) (p : PV) : Statement (.sortuDump h p) := fun _ => decHead_low _ _ _
theorem smrg (h : Head) (p : PV) : Statement (.smrg h p) := fun _ => decHead_low _ _ _
theorem mzero (h : Head) (p : PM) : Statement (.mzero h p) := fun _ => decHead_low _ _ _
theorem mma (h : Head) (p : PM) : Statement (.mma h p) := fun _ => decHead_low _ _ _
theorem mmah (h : Head) (p : PM) : Statement (.mmah h p) := fun _ => decHead_low _ _ _
theorem mmat (h : Head) (p : PM) : Statement (.mmat h p) := fun _ => decHead_low _ _ _
theorem mma16 (h : Head) (p : PM) : Statement (.mma16 h p) := fun _ => decHead_low _ _ _
theorem mmas (h : Head) (p : PM) : Statement (.mmas h p) := fun _ => decHead_low _ _ _
theorem mq4 (h : Head) (p : PM) : Statement (.mq4 h p) := fun _ => decHead_low _ _ _
theorem mdrn (h : Head) (p : PM) : Statement (.mdrn h p) := fun _ => decHead_low _ _ _
theorem mlda (h : Head) (p : PM) : Statement (.mlda h p) := fun _ => decHead_low _ _ _
theorem mrpop (h : Head) (p : PM) : Statement (.mrpop h p) := fun _ => decHead_low _ _ _
theorem resultLands (x : Hart) (k : Nat) : Statement (.resultLands x k) := fun h => (Bool.false_ne_true h).elim
theorem accumulatorWriteLands (c : CoreId) (k : Nat) : Statement (.accumulatorWriteLands c k) := fun h => (Bool.false_ne_true h).elim
theorem repetitionEnd (x : Hart) (s : Strm) : Statement (.repetitionEnd x s) := fun h => (Bool.false_ne_true h).elim
theorem sectionRetire (x : Hart) (s : Strm) : Statement (.sectionRetire x s) := fun h => (Bool.false_ne_true h).elim
theorem kernelComplete (lid : Nat) : Statement (.kernelComplete lid) := fun h => (Bool.false_ne_true h).elim
theorem copyStart (c : CoreId) (k : Nat) : Statement (.copyStart c k) := fun h => (Bool.false_ne_true h).elim
theorem copyArrival (a : Arrival) : Statement (.copyArrival a) := fun h => (Bool.false_ne_true h).elim
theorem copyLanding (c : CoreId) (k : Nat) : Statement (.copyLanding c k) := fun h => (Bool.false_ne_true h).elim
theorem deliveryRefused (c : CoreId) (k : Nat) : Statement (.deliveryRefused c k) := fun h => (Bool.false_ne_true h).elim
theorem memberArrival (c : CoreId) (l : Nat) : Statement (.memberArrival c l) := fun h => (Bool.false_ne_true h).elim
theorem ferryRelease (lid : Nat) (l : Nat) (inst : Nat) : Statement (.ferryRelease lid l inst) := fun h => (Bool.false_ne_true h).elim
theorem memberResume (c : CoreId) (l : Nat) : Statement (.memberResume c l) := fun h => (Bool.false_ne_true h).elim
theorem freezeStopPoint (c : CoreId) : Statement (.freezeStopPoint c) := fun h => (Bool.false_ne_true h).elim
theorem thaw (lid : Nat) : Statement (.thaw lid) := fun h => (Bool.false_ne_true h).elim
theorem fabricWaitCountDone (lid : Nat) : Statement (.fabricWaitCountDone lid) := fun h => (Bool.false_ne_true h).elim
theorem walkComplete (x : Hart) : Statement (.walkComplete x) := fun h => (Bool.false_ne_true h).elim
theorem pulseSwallow (lid : Nat) : Statement (.pulseSwallow lid) := fun h => (Bool.false_ne_true h).elim
theorem frequencyRetarget (lid : Nat) : Statement (.frequencyRetarget lid) := fun h => (Bool.false_ne_true h).elim
theorem loopLocked (lid : Nat) : Statement (.loopLocked lid) := fun h => (Bool.false_ne_true h).elim
theorem talignApply : Statement (.talignApply) := fun h => (Bool.false_ne_true h).elim
theorem faultRecordPost : Statement (.faultRecordPost) := fun h => (Bool.false_ne_true h).elim
theorem harbourTrap (s : Strm) (t : TrapInfo) : Statement (.harbourTrap s t) := fun h => (Bool.false_ne_true h).elim
theorem dispResume (seq : Nat) : Statement (.dispResume seq) := fun h => (Bool.false_ne_true h).elim
theorem dispSkip (seq : Nat) : Statement (.dispSkip seq) := fun h => (Bool.false_ne_true h).elim
theorem dispHook (seq : Nat) : Statement (.dispHook seq) := fun h => (Bool.false_ne_true h).elim
theorem dispPreempt (seq : Nat) : Statement (.dispPreempt seq) := fun h => (Bool.false_ne_true h).elim
theorem dispKill (seq : Nat) : Statement (.dispKill seq) := fun h => (Bool.false_ne_true h).elim
theorem hookEnd (c : CoreId) : Statement (.hookEnd c) := fun h => (Bool.false_ne_true h).elim
theorem hookLimitExpire (c : CoreId) : Statement (.hookLimitExpire c) := fun h => (Bool.false_ne_true h).elim
theorem fqpop : Statement (.fqpop) := fun h => (Bool.false_ne_true h).elim
theorem heventClear (v : Dword) : Statement (.heventClear v) := fun h => (Bool.false_ne_true h).elim
theorem timer : Statement (.timer) := fun h => (Bool.false_ne_true h).elim
theorem cwdata (w : Option Dword) : Statement (.cwdata w) := fun h => (Bool.false_ne_true h).elim
theorem submit (p : Nat) : Statement (.submit p) := fun h => (Bool.false_ne_true h).elim
theorem preempt (p : Nat) : Statement (.preempt p) := fun h => (Bool.false_ne_true h).elim
theorem abandon (p : Nat) : Statement (.abandon p) := fun h => (Bool.false_ne_true h).elim
theorem rerun (p : Nat) : Statement (.rerun p) := fun h => (Bool.false_ne_true h).elim
theorem qhold (p : Nat) : Statement (.qhold p) := fun h => (Bool.false_ne_true h).elim
theorem qrun (p : Nat) : Statement (.qrun p) := fun h => (Bool.false_ne_true h).elim
theorem lcdpop (p : Nat) : Statement (.lcdpop p) := fun h => (Bool.false_ne_true h).elim
theorem launchStart (p : Nat) : Statement (.launchStart p) := fun h => (Bool.false_ne_true h).elim
theorem preload (p : Nat) : Statement (.preload p) := fun h => (Bool.false_ne_true h).elim
theorem budgetExpired (lid : Nat) : Statement (.budgetExpired lid) := fun h => (Bool.false_ne_true h).elim
theorem lateArrival (a : Arrival) : Statement (.lateArrival a) := fun h => (Bool.false_ne_true h).elim
theorem staleDrop (a : Arrival) : Statement (.staleDrop a) := fun h => (Bool.false_ne_true h).elim
theorem engStart (e : Nat) (op : Nat) : Statement (.engStart e op) := fun h => (Bool.false_ne_true h).elim
theorem engCancel (e : Nat) : Statement (.engCancel e) := fun h => (Bool.false_ne_true h).elim
theorem engCopyBegin (e : Nat) : Statement (.engCopyBegin e) := fun h => (Bool.false_ne_true h).elim
theorem engRewrite (e : Nat) : Statement (.engRewrite e) := fun h => (Bool.false_ne_true h).elim
theorem engAbort (e : Nat) : Statement (.engAbort e) := fun h => (Bool.false_ne_true h).elim
theorem hotrel (p : Nat) (lid : Nat) : Statement (.hotrel p lid) := fun h => (Bool.false_ne_true h).elim
theorem ptcfgWrite (n : Nat) (v : Dword) : Statement (.ptcfgWrite n v) := fun h => (Bool.false_ne_true h).elim
theorem tdispLock (p : Nat) : Statement (.tdispLock p) := fun h => (Bool.false_ne_true h).elim
theorem tdispStart (p : Nat) : Statement (.tdispStart p) := fun h => (Bool.false_ne_true h).elim
theorem tdispStop (p : Nat) : Statement (.tdispStop p) := fun h => (Bool.false_ne_true h).elim
theorem functionLevelReset (p : Nat) : Statement (.functionLevelReset p) := fun h => (Bool.false_ne_true h).elim
theorem powerUp : Statement (.powerUp) := fun h => (Bool.false_ne_true h).elim
theorem moduleReset : Statement (.moduleReset) := fun h => (Bool.false_ne_true h).elim
theorem bootdb (len : Nat) : Statement (.bootdb len) := fun h => (Bool.false_ne_true h).elim
theorem verifyDone : Statement (.verifyDone) := fun h => (Bool.false_ne_true h).elim
theorem coreReset (isl : Nat) : Statement (.coreReset isl) := fun h => (Bool.false_ne_true h).elim
theorem islandReset (isl : Nat) : Statement (.islandReset isl) := fun h => (Bool.false_ne_true h).elim
theorem functionReady (isl : Nat) (b : Nat) : Statement (.functionReady isl b) := fun h => (Bool.false_ne_true h).elim
theorem functionFail (isl : Nat) (b : Nat) : Statement (.functionFail isl b) := fun h => (Bool.false_ne_true h).elim
theorem atmapRetire (a : Nat) (m : Nat) : Statement (.atmapRetire a m) := fun h => (Bool.false_ne_true h).elim
theorem bistStart (a : Nat) : Statement (.bistStart a) := fun h => (Bool.false_ne_true h).elim
theorem bistAbort (a : Nat) : Statement (.bistAbort a) := fun h => (Bool.false_ne_true h).elim
theorem bistFail (a : Nat) : Statement (.bistFail a) := fun h => (Bool.false_ne_true h).elim
theorem softError (e : ErrSite) (fixed : Bool) : Statement (.softError e fixed) := fun h => (Bool.false_ne_true h).elim
theorem logpop : Statement (.logpop) := fun h => (Bool.false_ne_true h).elim
theorem quiesce (a : Nat) : Statement (.quiesce a) := fun h => (Bool.false_ne_true h).elim
theorem gate (a : Nat) : Statement (.gate a) := fun h => (Bool.false_ne_true h).elim
theorem atollWake (a : Nat) : Statement (.atollWake a) := fun h => (Bool.false_ne_true h).elim
theorem atctlBits (a : Nat) (v : Dword) : Statement (.atctlBits a v) := fun h => (Bool.false_ne_true h).elim
theorem wake (a : Nat) : Statement (.wake a) := fun h => (Bool.false_ne_true h).elim
theorem quiesced (a : Nat) : Statement (.quiesced a) := fun h => (Bool.false_ne_true h).elim
theorem saveDone (a : Nat) : Statement (.saveDone a) := fun h => (Bool.false_ne_true h).elim
theorem saveFail (a : Nat) : Statement (.saveFail a) := fun h => (Bool.false_ne_true h).elim
theorem restoring (a : Nat) : Statement (.restoring a) := fun h => (Bool.false_ne_true h).elim
theorem restoreDone (a : Nat) (bad : List Nat) : Statement (.restoreDone a bad) := fun h => (Bool.false_ne_true h).elim
theorem retbaseWrite (a : Nat) (v : Dword) : Statement (.retbaseWrite a v) := fun h => (Bool.false_ne_true h).elim
theorem fllcfgWrite (a : Nat) (v : Dword) : Statement (.fllcfgWrite a v) := fun h => (Bool.false_ne_true h).elim
theorem droopBoost (a : Nat) : Statement (.droopBoost a) := fun h => (Bool.false_ne_true h).elim
theorem passageTrain (k : Nat) : Statement (.passageTrain k) := fun h => (Bool.false_ne_true h).elim
theorem passageTakeDown (k : Nat) : Statement (.passageTakeDown k) := fun h => (Bool.false_ne_true h).elim
theorem trainingDone (k : Nat) (lanes : Nat) (lp : Nat) (peer : Nat) : Statement (.trainingDone k lanes lp peer) := fun h => (Bool.false_ne_true h).elim
theorem flitRetry (k : Nat) : Statement (.flitRetry k) := fun h => (Bool.false_ne_true h).elim
theorem tsalign (v : Dword) : Statement (.tsalign v) := fun h => (Bool.false_ne_true h).elim
theorem tscAlignApply : Statement (.tscAlignApply) := fun h => (Bool.false_ne_true h).elim
theorem hdbin (v : Dword) : Statement (.hdbin v) := fun h => (Bool.false_ne_true h).elim
theorem hdbout (v : Dword) : Statement (.hdbout v) := fun h => (Bool.false_ne_true h).elim
theorem spdmRequest (msg : List Byte) : Statement (.spdmRequest msg) := fun h => (Bool.false_ne_true h).elim
theorem hostPostedWrite (addr : Nat) (data : List Byte) : Statement (.hostPostedWrite addr data) := fun h => (Bool.false_ne_true h).elim
theorem registerWrite (n : Nat) (v : Dword) : Statement (.registerWrite n v) := fun h => (Bool.false_ne_true h).elim
theorem sectionRunPast (x : Hart) (s : Strm) : Statement (.sectionRunPast x s) := fun h => (Bool.false_ne_true h).elim
theorem bistPass (a : Nat) : Statement (.bistPass a) := fun h => (Bool.false_ne_true h).elim

end Sys2Proof.Laws.WordHead
end

