-- ==== Sys2Proof/Laws/Windows.lean ====
section
/-! SUPPORT. What the write windows do to reads, said once: memory itself is what the writes made it, a read without windows gives it, a core sees its own newest write, and opening, showing and closing windows change no byte. -/

namespace Sys2Proof.Machine

/-! ### Memory under the operations over windows -/

@[simp] theorem openWins_mem (s : State) (h : Hart) (fr : Nat) (cp : Bool) (bs : List (Nat × Byte)) (ks : List Nat) : (s.openWins h fr cp bs ks).mem = s.mem := rfl
@[simp] theorem openWins_cores (s : State) (h : Hart) (fr : Nat) (cp : Bool) (bs : List (Nat × Byte)) (ks : List Nat) : (s.openWins h fr cp bs ks).cores = s.cores := rfl
@[simp] theorem settle_mem (s : State) (h : Hart) (sc : Nat) : (s.settle h sc).mem = s.mem := rfl
@[simp] theorem settle_cores (s : State) (h : Hart) (sc : Nat) : (s.settle h sc).cores = s.cores := rfl
@[simp] theorem closeSo_mem (s : State) (h : Hart) : (s.closeSo h).mem = s.mem := rfl
@[simp] theorem closeSo_cores (s : State) (h : Hart) : (s.closeSo h).cores = s.cores := rfl
@[simp] theorem shut_mem (s : State) (fr : Nat) : (s.shut fr).mem = s.mem := rfl
@[simp] theorem shut_cores (s : State) (fr : Nat) : (s.shut fr).cores = s.cores := rfl
@[simp] theorem memPut_mem (s : State) (bs : List (Nat × Byte)) (bad : List Nat) : (s.memPut bs bad).mem = s.mem.writes bs := rfl
@[simp] theorem memPut_wins (s : State) (bs : List (Nat × Byte)) (bad : List Nat) : (s.memPut bs bad).wins = s.wins := rfl
@[simp] theorem memPut_cores (s : State) (bs : List (Nat × Byte)) (bad : List Nat) : (s.memPut bs bad).cores = s.cores := rfl
@[simp] theorem memWrite_mem (s : State) (bs : List (Nat × Byte)) (bad : List Nat) : (s.memWrite bs bad).mem = s.mem.writes bs := rfl
@[simp] theorem memWrite_wins (s : State) (bs : List (Nat × Byte)) (bad : List Nat) : (s.memWrite bs bad).wins = stripWins s.wins (bs.map (·.1)) := rfl

theorem before_mem (s : State) (so rel : Bool) (sc : Nat) : (s.before so rel sc).mem = s.mem := by
  unfold State.before
  split
  · rfl
  · split <;> rfl
theorem shutOf_mem (s : State) (h : Hart) : (s.shutOf h).mem = s.mem := by
  suffices ∀ (l : List Nat) (s : State), (l.foldl State.shut s).mem = s.mem from this _ s
  intro l
  induction l with
  | nil => exact fun _ => rfl
  | cons n l ih => exact fun s => (ih (s.shut n)).trans rfl

/-- Every such operation over memory keeps the canonical form. -/
theorem memPut_wf (s : State) (bs : List (Nat × Byte)) (bad : List Nat) (h : s.mem.wf = true) : (s.memPut bs bad).mem.wf = true :=
  Mem.wf_writes bs s.mem h
theorem amend_wf (s : State) (fr : Nat) (bs : List (Nat × Byte)) (h : s.mem.wf = true) : (s.amend fr bs).mem.wf = true :=
  Mem.wf_writes _ s.mem h

/-! ### What an observer reads -/

/-- A byte that no window holds reads as memory has it. -/
theorem seeByte_none (time draw : Nat) (o : Hart) (a : Nat) (ws : List Win) (b : Byte) (h : ∀ w ∈ ws, ∀ x ∈ w.old, x.1 ≠ a) :
    seeByte time draw o a ws b = b := by
  induction ws with
  | nil => rfl
  | cons w ws ih =>
    have hw : w.old.find? (·.1 == a) = none := by
      simpa [List.find?_eq_none] using fun x y hx => h w (List.mem_cons_self ..) (x, y) hx
    simp only [seeByte, hw]
    exact ih fun v hv => h v (List.mem_cons_of_mem _ hv)
/-- With every write visible, a read gives memory's bytes. -/
theorem memBytesOf_calm (s : State) (o : Hart) (as : List Nat) (h : s.wins = []) : s.memBytesOf o as = as.map s.mem.read := by
  simp [State.memBytesOf, h, seeByte]
/-- A hart reads the bytes of its own newest write, other than a copy's or one on UO pages, as it wrote them. -/
theorem seeByte_own (time draw : Nat) (o : Hart) (a : Nat) (w : Win) (ws : List Win) (b : Byte) (h : w.own o = true) (ha : (w.old.find? (·.1 == a)).isSome = true) :
    seeByte time draw o a (w :: ws) b = b := by
  obtain ⟨p, hp⟩ := Option.isSome_iff_exists.1 ha
  simp [seeByte, hp, Win.seen, h]
/-- A closed window is gone, and with it every older one's hold on its bytes. -/
theorem shutWins_gone (fr : Nat) (gone : List Nat) (ws : List Win) : ∀ w ∈ shutWins fr gone ws, w.fr ≠ fr := by
  induction ws generalizing gone with
  | nil => exact fun w hw => absurd hw (by simp [shutWins])
  | cons v ws ih =>
    intro w hw
    by_cases h : v.fr = fr
    · exact ih _ w (by simpa [shutWins, h] using hw)
    · simp only [shutWins, beq_iff_eq, h, if_false] at hw
      split at hw
      · exact ih _ w hw
      · rcases List.mem_cons.1 hw with rfl | hw
        · exact h
        · exact ih _ w hw

/-! ### The completion of new entries -/

/-- What an entry takes with it changes none of its effects, nor when it lands, nor what it reads. -/
theorem attach_keeps (s : State) (x : Hart) (o : Origin) (el : Nat) (e : Pend) : let e' := Pend.attach s x o el e
    e'.effs = e.effs ∧ e'.strm = e.strm ∧ e'.issue = e.issue ∧ e'.land = e.land ∧ e'.srcs = e.srcs ∧ e'.met = e.met ∧ e'.newer = e.newer := by
  unfold Pend.attach; split <;> exact ⟨rfl, rfl, rfl, rfl, rfl, rfl, rfl⟩
/-- Nor does it change the entries that were there. -/
theorem attach_old (s s0 : State) (x : Hart) (o : Origin) (el : Nat) (h : (s0.cpu x).pend <+: (s.cpu x).pend) :
    (s0.cpu x).pend <+: ((s.attach s0 x o el).cpu x).pend := by
  obtain ⟨r, hr⟩ := h
  refine ⟨r.map (Pend.attach s0 x o el), ?_⟩
  simp [State.attach, ← hr]

end Sys2Proof.Machine
end

