-- ==== Sys2Proof/Tests/Slice0.lean ====
section
/-! SUPPORT. Checks of the author's own reading: ill-formed terms that WellFormed refuses, words written out from the spec's encodings, and for each statement states and operands that meet its hypotheses. -/

open Sys2Proof Sys2Proof.Machine

namespace Sys2Proof.Tests

set_option Elab.async false

/-! ### Well-formedness: an ill-formed term for each check -/

theorem test_wellformed_reserved_field : resvOk (.plog ⟨0, false, 0, 8⟩ ⟨0, 0, 0, 0, 1⟩) = false := by decide
theorem test_wellformed_index : idxOk (.wfi ⟨0, false, 0, 0⟩ ⟨0, 0, 0, 0, 1⟩) = false := by decide
theorem test_wellformed_parameter : Instr.paramsOk (.coreReset 14) = false := by decide
theorem test_wellformed_refuses : WellFormed (.coreReset 14) = false ∧ WellFormed (.plog ⟨0, false, 0, 8⟩ ⟨0, 0, 0, 0, 1⟩) = false
    ∧ WellFormed (.add ⟨0, false, 0, 0⟩ ⟨5, 1, 0, 1, 3⟩) = true := by decide

/-! ### Words written out from the spec's encodings -/

def head0 : Head := ⟨0, false, 0, 0⟩
def fnOf (f : Nat) : Head := ⟨0, false, 0, BitVec.ofNat 4 f⟩

/-- S family: and g3, g2, 7; cmp.eq p1, g3, 1; trap 1; loop g4, -12; li.z g5, 0x301 (R144, R145, R171, R174, R176). -/
theorem test_decode_scalar : decode 0x000000070800040300000007 = .and head0 ⟨7, 1, 0, 2, 3⟩
    ∧ decode 0x00000001080006010000000F = .cmp head0 ⟨1, 1, 0, 3, 1⟩
    ∧ decode 0x00000001000000000000001D = .trap head0 ⟨1, 0, 0, 0, 0⟩
    ∧ decode 0xFFFFFFF4000000040000001A = .loop head0 ⟨0xFFFFFFF4, 0, 0, 0, 4⟩
    ∧ decode 0x000003010000000500000111 = .liZ (fnOf 1) ⟨0x301, 0, 0, 0, 5⟩ := by decide +kernel
/-- System family: sysr g6, 0x133; wfi g1, 1; sysw g5, 0x123 (R335, R347). -/
theorem test_decode_system : decode 0x000001330800000600000030 = .sysr head0 ⟨0x133, 1, 0, 0, 6⟩
    ∧ decode 0x000000010000000100000033 = .wfi head0 ⟨1, 0, 0, 0, 1⟩
    ∧ decode 0x0000012308000A0000000031 = .sysw head0 ⟨0x123, 1, 0, 5, 0⟩ := by decide +kernel
/-- A ferry arrival of the copy form, level isl, behind A section 12 (R296). -/
theorem test_decode_ferry : decode 0x3FFFFC0C1800000000000424 = .ferryArr (fnOf 4) ⟨0x3FFFFC0C, 3, 0, 0, 0⟩ := by decide +kernel
/-- Vector family: an unmasked add on queues, eight cycles on (R220). -/
theorem test_decode_vector : decode 0x0000000FF804020100100080 = .vadd ⟨8, false, 0, 0⟩ ⟨0, 0, 0x1FF, 1, 1, 1⟩
    ∧ decode 0x0000000FF800160A000000A0 = .cwadd head0 ⟨0, 0, 0x1FF, 0, 11, 10⟩ := by decide +kernel
/-- A guarded word and one with a wait (R49, R145). -/
theorem test_decode_head : headOf (decode 0x0000000000100A0500020001) = ⟨1, false, 0, 0⟩
    ∧ (headOf (decode 0xFFFFFFDC0000000000001016)).grd = 1 := by decide +kernel

/-! ### A core with everything in use, on which each word stands ready -/

/-- The model's test that a word passes every check of R53 and its guard is true, as a Bool. -/
def goesB (s : State) (i : Instr) : Bool := s.verdict i (planOf i s) == .ok && s.guard (headOf i)
theorem goes_of_goesB (s : State) (i : Instr) (h : goesB s i = true) : s.goes i := by
  simp only [goesB, Bool.and_eq_true, beq_iff_eq] at h; exact h
def pr (imm x b a d : Nat) : PR := ⟨BitVec.ofNat 32 imm, BitVec.ofNat 5 x, BitVec.ofNat 9 b, BitVec.ofNat 9 a, BitVec.ofNat 9 d⟩
def pv (cnt mode c b a d : Nat) : PV := ⟨BitVec.ofNat 16 cnt, BitVec.ofNat 12 mode, BitVec.ofNat 9 c, BitVec.ofNat 9 b, BitVec.ofNat 9 a, BitVec.ofNat 9 d⟩
def pm (tk tn tm mta acc rb ra : Nat) : PM := ⟨BitVec.ofNat 12 tk, BitVec.ofNat 8 tn, BitVec.ofNat 8 tm, 0, 0, 0, BitVec.ofNat 9 mta, BitVec.ofNat 7 acc, BitVec.ofNat 4 rb, BitVec.ofNat 4 ra⟩
/-- A stream register: format, base, rows, count, row stride, w2. -/
def reg (fmt base rows cnt rstr : Nat) (w2 : Nat := 0) : Vector Dword 4 :=
  #v[BitVec.ofNat 64 (base + fmt * 2 ^ 23 + cnt * 2 ^ 32 + rows * 2 ^ 48), BitVec.ofNat 64 (1 + rstr * 2 ^ 24 + 31 * 2 ^ 53), BitVec.ofNat 64 w2, 0]
def page : Page := { present := true, base := 0x10000, frame := 0x10000000000, lg := 16, tier := 0, kind := 0, r := true, w := true }
def pinned : Page := { page with base := 0x500000, lg := 20 }
def hdl : Handle := { valid := true, v := 0x10000, pg := page, cy := {} }
def sets {α : Type} {n : Nat} (v : Vector α n) (l : List (Nat × α)) : Vector α n := l.foldl (fun v x => vset v x.1 x.2) v
/-- A copy descriptor of four bytes in one dimension. -/
def desc (a src dst ctl sync : Nat) : List (Nat × Byte) :=
  placeLE a 8 src ++ placeLE (a + 8) 8 dst ++ placeLE (a + 16) 8 ctl ++ placeLE (a + 24) 8 sync ++ placeLE (a + 32) 4 4 ++ placeLE (a + 36) 6 1 ++ placeLE (a + 42) 6 1
/-- A core with registers, regions, rings, queues, descriptors and a control word in use, domain level 2, an open barrier of level 1. -/
def bench (k : Core) : Core :=
  { k with
    part := 0x0104, share := 32, dom := 2
    cpu := { k.cpu with
      g := sets k.cpu.g [(1, 5), (2, 3), (3, 0x400), (4, 0x8000), (5, 0x100), (6, 0x10040), (7, 0x140), (8, 0x1C0), (9, 0x240), (62, 0x10), (63, 8)]
      h := sets k.cpu.h [(1, hdl), (2, hdl)] }
    st := sets k.st [(1, reg 5 0x1000 1 3 0), (2, reg 5 0x2000 1 3 0), (3, reg 5 0x3000 1 3 0), (4, reg 2 0x4000 1 3 0), (5, reg 12 0x5000 1 3 0), (6, reg 12 0x6000 1 3 0),
      (7, reg 12 0x7000 1 3 0), (8, reg 5 0x8000 3 1 4), (9, reg 5 0x9000 1 1 0), (10, reg 13 0xA000 1 3 0), (11, reg 13 0xB000 1 3 0), (12, reg 8 0xC000 1 3 0 (0xD000 + 2 ^ 23)),
      (13, reg 15 0x40000 1 4 0), (14, reg 15 0x80000 1 0 0), (15, reg 12 0xE000 16 16 64), (16, reg 15 0x50000 1 2 0), (17, reg 15 0x60000 1 2 0), (18, reg 11 0xF000 1 3 0),
      (19, reg 2 0x10000 16 16 16), (20, reg 14 0 1 1 0 (0x11000 + 2 ^ 23 + 7 * 2 ^ 28)), (21, reg 15 0x48000 1 4 0), (22, reg 15 0x70000 1 0 0)]
    rings := sets k.rings [(1, { baseb := 0x200, slotb := 64, lgn := 1, fc := 2, head := 0, tail := 2, rc := 0 }), (2, { baseb := 0x300, slotb := 64, lgn := 1, fc := 2, head := 0, tail := 2, rc := 0 }),
      (3, { baseb := 0x400, slotb := 8, lgn := 1 })]
    queues := sets k.queues [(1, { valid := true, addr := 0x100, base := 0x18000, lge := 2, lgd := 3, head := 0, tail := 2, qc := 0, pc := 2 })]
    pool := k.pool.writes (placeLE 0x200 4 0x1C000 ++ placeLE 0x206 1 2 ++ placeLE 0x207 1 3 ++ placeLE (0x40000 + 163840) 2 16384 ++ placeLE (0x40000 + 163844) 1 1
      ++ desc 0x140 0x1000 0x2000 1 0 ++ desc 0x1C0 0x1000 0x2000 1 0x800180 ++ desc 0x240 0x1000 0 (1 + 2 * 2 ^ 14 + 2 * 2 ^ 22) 0)
    ferry := sets k.ferry [(0, { open_ := true, resumed := true, arrw := true })]
    sort := { k.sort with valid := true } }
/-- The word about to issue on a fresh machine, every function ready. -/
def at_ (i : Instr) : State :=
  let s := State.reset.withFetchWord 96 (encode i).toNat
  { s.modCore 0 bench with islands := s.islands.map fun x => { x with ready := BitVec.allOnes 13 } }
/-- What the statements about a core's words ask besides: nothing in flight, no poison, memory and pool in canonical form. -/
def calm (s : State) : Bool :=
  s.cur.hart == .core 0 && s.wins.isEmpty && (s.inflightPool 0).isEmpty && (s.core 0).poison == [] && s.mem.wf && (s.core 0).pool.wf && (s.launchOf 0).isSome && (s.core 0).hook.isNone
def ready (i : Instr) : Bool := goesB (at_ i) i && calm (at_ i)
/-- A load's or store's bytes lie on the handle's page. -/
def paged (p : PR) (n : Nat) (s : State) : Bool := (List.range n).all fun k => (s.me.getH p.a.toNat).pageOf (scalarVa s p + k) == some page

/-! ### Witnesses of the statements about words: each word goes, with what its statement asks besides -/

def wsArith : List Instr := [.add head0 (pr 7 1 0 1 3), .sub head0 (pr 0 0 2 1 3), .mul head0 (pr 0 0 2 1 3), .mulh head0 (pr 0 0 2 1 3), .div (fnOf 1) (pr 7 1 0 1 3), .rem head0 (pr 0 0 2 1 3)]
def wsLogic : List Instr := [.and head0 (pr 0 0 2 1 3), .or head0 (pr 0 0 2 1 3), .xor head0 (pr 0 0 2 1 3), .shl head0 (pr 63 1 0 1 3), .shr head0 (pr 0 0 2 1 3), .sar head0 (pr 0 0 2 1 3),
  .min head0 (pr 0 0 2 1 3), .max (fnOf 1) (pr 0 0 2 1 3)]
theorem witness_Arithmetic : ((wsArith ++ wsLogic).all fun i => (arithOf i).isSome && ready i) = true := by decide +kernel
def wsConst : List Instr := [.cmp head0 (pr 0 0 1 1 3), .li head0 (pr 0x80000000 0 0 0 3), .liZ (fnOf 1) (pr 0x80000000 0 0 0 3), .lih head0 (pr 5 0 0 0 3), .popc head0 (pr 0 0 0 1 3), .clz head0 (pr 0 0 0 0 3)]
theorem witness_ComparisonsConstantsCounts : wsConst.all ready = true := by decide +kernel
theorem witness_comparison_holds : (true = true ↔ cmpHolds 0 ((at_ (.cmp head0 (pr 0 0 1 1 3))).me.getG 1) (sourceB (at_ (.cmp head0 (pr 0 0 1 1 3))) (pr 0 0 1 1 3))) :=
  ⟨fun _ => .inl ⟨rfl, by decide +kernel⟩, fun _ => rfl⟩
theorem witness_zeros_above : zerosAbove 0 64 := ⟨by decide, fun k _ _ => by simp, by decide⟩
theorem witness_PredicateLogic : [Instr.plog (fnOf 2) (pr 0 0 0 0 1), .plog (fnOf 7) (pr 0 0 0 0 1)].all ready = true ∧ 8 ≤ (fnOf 8).fn.toNat
    ∧ (pr 0 0 0 0 0).d = 0 ∧ resvOk (.plog (fnOf 8) (pr 0 0 0 0 1)) = false ∧ idxOk (.plog head0 (pr 0 0 0 0 0)) = false := by decide +kernel
theorem witness_Selection : ready (.sel head0 (pr 0 5 2 1 3)) = true ∧ (pr 0 16 2 1 3).x.getLsbD 4 = true
    ∧ 64 ≤ (pr 0 0 0 0 64).d.toNat ∧ idxOk (.sel head0 (pr 0 0 0 0 64)) = false ∧ resvOk (.sel head0 (pr 0 16 2 1 3)) = false := by decide +kernel
def wsControl : List Instr := [.nop head0 (pr 9 0 0 0 0), .endS head0 (pr 0 0 0 0 0), .br head0 (pr 0xFFFFFFF4 0 0 0 0), .jmp head0 (pr 8 0 0 3 0), .call head0 (pr 12 0 0 0 0), .callR (fnOf 1) (pr 0 0 0 1 0),
  .ret head0 (pr 0 0 0 0 0), .loop head0 (pr 0xFFFFFFF4 0 0 0 1)]
theorem witness_ControlTransfers : wsControl.all ready = true := by decide +kernel
/-- A scalar, a control, a vector and a matrix word whose guard is the inverse of p0. -/
theorem witness_ControlTransfers_guard : [Instr.add ⟨0, true, 0, 0⟩ (pr 7 1 0 1 3), .loop ⟨0, true, 0, 0⟩ (pr 0xFFFFFFF4 0 0 0 1), .vadd ⟨0, true, 0, 0⟩ (pv 0 0 511 2 1 3), .mzero ⟨0, true, 0, 0⟩ (pm 0 1 1 511 0 0 0)].all
    (fun i => i.isWord && (at_ i).verdict i (planOf i (at_ i)) == .ok && !(at_ i).guard (headOf i)) = true := by decide +kernel
/-- The stream's last word: a call there returns to 0x80000 when no section follows. -/
theorem witness_return_address : let s := at_ (.call head0 (pr 12 0 0 0 0)); let t := s.stream (.core 0) .s
    returnsTo t (s.me.lastWord t.sec) 0x80000 := by
  refine .inr ⟨by decide +kernel, .inr ⟨?_, rfl⟩⟩
  have h : ((at_ (.call head0 (pr 12 0 0 0 0))).stream (.core 0) .s).peers ((at_ (.call head0 (pr 12 0 0 0 0))).stream (.core 0) .s).sec = [0] := by decide +kernel
  have g : ((at_ (.call head0 (pr 12 0 0 0 0))).stream (.core 0) .s).sec = 0 := by decide +kernel
  rw [h, g]; simp
/-- And a call before the last word returns to the next word. -/
theorem witness_return_next : returnsTo { pc := 8, sec := 0 } 20 20 := .inl ⟨by decide, by decide⟩
def wsLines : List Instr := [.domq head0 (pr 4 0 0 0 3), .domq head0 (pr 11 0 0 0 3), .tlread head0 (pr 0 0 0 1 3), .tlread (fnOf 2) (pr 0 0 0 1 3), .tlwait head0 (pr 0 1 0 1 0)]
theorem witness_DomainAndTimelineReads : (wsLines.all fun i => ready i && (at_ i).myLaunch.isSome) = true := by decide +kernel
def wsStreams : List Instr := [.stset head0 (pr 8 1 0 0 3), .stset (fnOf 3) (pr 0 0 0 4 319), .stset (fnOf 7) (pr 2 1 0 0 0), .stget (fnOf 1) (pr 0 0 0 1 3), .stget (fnOf 10) (pr 0 0 0 0 3), .ststep head0 (pr 8 1 0 0 8)]
theorem witness_StreamRegisters : wsStreams.all ready = true := by decide +kernel
theorem witness_stream_step : let s := at_ (.ststep head0 (pr 8 1 0 0 8)); let w : Dword := s.kc.stw 8 0 + 8
    fld w 22 0 = (fld (s.kc.stw 8 0) 22 0 + ((pr 8 1 0 0 8).imm.signExtend 64).toNat) % 2 ^ 23 ∧ w.toNat / 2 ^ 23 = (s.kc.stw 8 0).toNat / 2 ^ 23 := by decide +kernel
def wsConf : List Instr := [.qconf head0 (pr 0x100 0 0 5 2), .qconfRel (fnOf 1) (pr 0 0 0 0 2), .rconf head0 (pr 0 0 0 1 5), .rconf head0 (pr 0x404210 1 0 0 5)]
theorem witness_QueueAndRingConfiguration : wsConf.all ready = true := by decide +kernel
def wsHandle : List Instr := [.hinv head0 (pr 0 0 0 0 1), .hinvAll (fnOf 1) (pr 0 0 0 0 0), .hqry (fnOf 1) (pr 0 0 0 1 3), .hqry (fnOf 2) (pr 0 0 0 1 3), .prefX head0 (pr 0 0 0 1 0), .prefM (fnOf 1) (pr 0 0 0 1 0)]
theorem witness_HandleInstructions : wsHandle.all ready = true := by decide +kernel
/-- XLAT with translation off on the harbour core at M, with a cached page, and with none. -/
def xlatWord : Instr := .xlat head0 (pr 16 0 0 1 3)
def xlatOff : State := { at_ xlatWord with cur := ⟨.harbour, .a⟩ }
def xlatHit : State := (at_ xlatWord).modCore 0 fun k => { k with cpu := { k.cpu with wcache := [⟨0, { page with base := 0 }, {}⟩] } }
theorem witness_Translation_off : goesB xlatOff xlatWord = true ∧ xlatOff.ctx xlatOff.cur.hart = none := by decide +kernel
theorem witness_Translation_cached : goesB xlatHit xlatWord = true ∧ xlatHit.ctx xlatHit.cur.hart = some 0 ∧ (cached xlatHit.me 0 (xlatHit.g 1 + 16).toNat).isSome = true
    ∧ xlatHit.carryBarred (xlatHit.part 0).s1root (xlatHit.part 0).s2root xlatHit.me 0 { page with base := 0 } = false := by decide +kernel
theorem witness_Translation_walk : ready xlatWord = true ∧ (at_ xlatWord).ctx (.core 0) = some 0 ∧ cached (at_ xlatWord).me 0 ((at_ xlatWord).g 1 + 16).toNat = none
    ∧ 0 ∈ ((at_ xlatWord).launchOf 0).elim [] Launch.members ∧ ((at_ xlatWord).core 0).stopped = false := by decide +kernel
/-- A state in which the line of the page's first byte is poisoned. -/
def fouled (i : Instr) : State := { at_ i with lines := [(0x10000000000, 0x10000000040)] }
def wsGlobal : List (Instr × PR × Nat) := [(.ld (fnOf 2) (pr 8 1 0 1 3), pr 8 1 0 1 3, 4), (.ld (fnOf 4) (pr 8 0 0 1 3), pr 8 0 0 1 3, 1), (.st (fnOf 3) (pr 8 0 0 1 4), pr 8 0 0 1 4, 8)]
theorem witness_GlobalAccesses : (wsGlobal.all fun x => ready x.1 && paged x.2.1 x.2.2 (at_ x.1)
    && (List.range x.2.2).all fun k => !(at_ x.1).linePoisoned (physOf page (scalarVa (at_ x.1) x.2.1) + k)) = true := by decide +kernel
theorem witness_GlobalAccesses_poisoned : let i := Instr.ld (fnOf 2) (pr 8 0 0 1 3)
    goesB (fouled i) i = true ∧ paged (pr 8 0 0 1 3) 4 (fouled i) = true ∧ (fouled i).wins = []
    ∧ (fouled i).linePoisoned (physOf page (scalarVa (fouled i) (pr 8 0 0 1 3)) + 3) = true := by decide +kernel
def wsAtomic (p : PR) : List Instr := [.aadd (fnOf 2) p, .aand (fnOf 2) p, .aor (fnOf 3) p, .axor (fnOf 2) p, .amin (fnOf 6) p, .amax (fnOf 2) p, .aswp (fnOf 3) p]
theorem witness_AtomicAccesses : ((wsAtomic (pr 8 0 0 1 3)).all fun i => ready i && (atomicOf i).isSome && paged (pr 8 0 0 1 3) 8 (at_ i)
    && (List.range 8).all fun k => !(at_ i).linePoisoned (physOf page (scalarVa (at_ i) (pr 8 0 0 1 3)) + k)) = true := by decide +kernel
/-- ACAS with the word equal to g[D] (both 0), with it unequal, and AQADD. -/
theorem witness_AtomicAccesses_compare : ([Instr.acas (fnOf 2) (pr 8 0 4 1 10), .acas (fnOf 2) (pr 8 0 4 1 4), .aqadd (fnOf 2) (pr 8 0 4 1 4)].all fun i => ready i && paged (pr 8 0 0 1 10) 4 (at_ i)) = true
    ∧ ((at_ (.acas (fnOf 2) (pr 8 0 4 1 10))).me.getG 10).toNat = 0 ∧ (at_ (.acas (fnOf 2) (pr 8 0 4 1 4))).mem.le (physOf page 0x10008) 4 ≠ ((at_ (.acas (fnOf 2) (pr 8 0 4 1 4))).me.getG 4).toNat := by decide +kernel
/-- The five scopes of FENCE, and an access that comes too early. -/
def wsFence : List Instr := [.fence head0 (pr 0 0 0 0 0), .fence head0 (pr (2 ^ 29) 0 0 0 0), .fence head0 (pr (2 ^ 30) 0 0 0 0), .fence head0 (pr (3 * 2 ^ 29) 0 0 0 0), .fence head0 (pr (2 ^ 31) 0 0 0 0)]
theorem witness_Fences : wsFence.all ready = true := by decide +kernel
theorem witness_Fences_held : let i := Instr.fence head0 (pr 0 0 0 0 0); let w := (at_ i).modCore 0 fun k => { k with cpu := { k.cpu with fence := 2 } }
    w.cur.hart = (at_ i).cur.hart ∧ w.t0 ≤ (at_ i).t0 + 1 ∧ (at_ i).t0 + 1 + 1 ≤ w.me.fence ∧ ({ acc := true } : Plan).acc = true := by decide +kernel
def wsLocal : List Instr := [.lld (fnOf 2) (pr 8 0 0 3 3), .lld (fnOf 5) (pr 8 0 0 3 3), .lst (fnOf 3) (pr 8 0 0 3 1)]
theorem witness_LocalScalars : (wsLocal.all fun i => ready i && (((at_ i).core 0).poisonIn 0x408 8).isNone) = true := by decide +kernel
/-- The spill forms inside the window of 65,536 bytes, and beyond it in the pinned overflow area. -/
def wsSpill : List Instr := [.lldS (fnOf 10) (pr 8 0 0 0 3), .lstS (fnOf 11) (pr 8 0 0 0 1)]
def overflow (i : Instr) : State := (at_ i).modCore 0 fun k => { k with cpu := { k.cpu with g := vset k.cpu.g 62 0x100000 }, pin := [pinned], ovfptr := 0x500000, ovflen := 0x100000 }
theorem witness_LocalScalars_window : (wsSpill.all fun i => ready i && 0x18 + 8 ≤ fld (((at_ i).core 0).part.zeroExtend 64) 15 8 * 65536
    && (((at_ i).core 0).poisonIn ((128 - 4 - 1) * 65536 + 0x18) 8).isNone) = true := by decide +kernel
theorem witness_LocalScalars_overflow : (wsSpill.all fun i => let s := overflow i; let va := 0x500000 + (0x100008 - (s.core 0).spillBytes)
    goesB s i && calm s && (s.core 0).spillBytes ≤ 0x100008 && (List.range 8).all fun k => !s.linePoisoned (physOf pinned va + k)
      && (s.core 0).pin.find? (fun q => q.base ≤ va + k && va + k < q.base + 2 ^ q.lg) == some pinned) = true := by decide +kernel
theorem witness_poolsOk : ((List.finRange 256).all fun c => ((at_ (.lst (fnOf 3) (pr 8 0 0 3 1))).core c).pool.wf) = true := by decide +kernel
theorem witness_QueueTransfers : ([Instr.qpush head0 (pr 1 0 0 3 1), .qpush head0 (pr 6 0 0 3 1), .qpop head0 (pr 2 0 0 3 1)].all ready) = true := by decide +kernel
def wsLanding : List Instr := [.larm head0 (pr 5 0 0 3 0), .larmG (fnOf 1) (pr 0 0 2 3 0), .lpoll head0 (pr 0 0 0 3 1), .lwait head0 (pr 0 0 0 3 0), .echk head0 (pr 128 0 0 3 0), .echkOff (fnOf 1) (pr 128 0 0 3 0)]
theorem witness_LandingsAndEarlyReads : (wsLanding.all fun i => ready i && (at_ i).transit.isEmpty && 0x400 + 16 ≤ 2 ^ 23) = true := by decide +kernel
theorem witness_early_read : 64 ∈ ({ echk := [64] } : Core).echk ∧ 64 < 100 + 4 ∧ 100 < 64 + 64 := by decide
/-- A plain load tile, a clipped one, one into a ring, and both stores; every byte on the page. -/
def wsTile : List Instr := [.tld head0 (pr 64 0 2 1 4), .tld (fnOf 3) (pr 64 0 0 1 1), .tld (fnOf 4) (pr (64 + 3 * 2 ^ 25) 0 0 1 1), .tst head0 (pr 64 0 0 1 1), .tst (fnOf 1) (pr 64 0 0 1 1)]
theorem witness_TileTransfers : (wsTile.all ready) = true
    ∧ ((tileRegion head0 (pr 64 0 2 1 4) (at_ (.tld head0 (pr 64 0 2 1 4)))).1.fmt = 2 ∧ isQ4 2 = false
    ∧ (List.range 3).all (fun m => hdl.pageOf (0x10003 + m) == some page) = true) := by decide +kernel
def wsIndexed : List Instr := [.gath head0 (pr 0 0 2 1 3), .scat head0 (pr 0 0 2 1 3), .ldsw head0 (pr 4 0 2 1 5), .ldswH (fnOf 1) (pr 4 0 0 1 5), .stsw head0 (pr 4 0 2 1 5)]
theorem witness_GathersScattersSplitWords : (wsIndexed.all ready) = true
    ∧ (gsOf (pr 0 0 2 1 3) (at_ (.gath head0 (pr 0 0 2 1 3)))).stop = none ∧ (gsOf (pr 0 0 2 1 3) (at_ (.scat head0 (pr 0 0 2 1 3)))).stop = none := by decide +kernel
/-- A poisoned index. -/
theorem witness_Gathers_poisoned : let i := Instr.gath head0 (pr 0 0 2 1 3); let s := (at_ i).modCore 0 fun k => { k with poison := [0x2000] }
    goesB s i = true ∧ (gsOf (pr 0 0 2 1 3) s).stop = some (0, 0x2000) := by decide +kernel
theorem witness_Scatters_poisoned : let i := Instr.scat head0 (pr 0 0 2 1 3); let s := (at_ i).modCore 0 fun k => { k with poison := [0x2000] }
    goesB s i = true ∧ (gsOf (pr 0 0 2 1 3) s).stop = some (0, 0x2000) := by decide +kernel
def wsCopy : List Instr := [.cpy head0 (pr 40 0 0 7 0), .cpyAbs (fnOf 1) (pr 0 0 1 7 0), .cpyx (fnOf 1) (pr 40 1 0 8 0), .cpyxAbs (fnOf 4) (pr 0 0 1 8 0), .cpy head0 (pr 40 0 0 9 0)]
theorem witness_CopyCommands : (wsCopy.all fun i => ready i && match copyOf (at_ i) i with
    | some (_, start, _) => 0 < start - (at_ i).t0 && (copyPlan (descOf (((at_ i).core 0).pool.bytes ((at_ i).g (pr 0 0 0 7 0).a).toNat 48)) (at_ i).t0 start (at_ i)).pub.isSome
    | none => false) = true := by decide +kernel
theorem witness_RowEngine : [Instr.roweSmax head0 (pr 0 0 511 5 6), .roweRms (fnOf 1) (pr 0 0 511 5 6)].all ready = true := by decide +kernel
def wsFerry : List Instr := [.ferryArr (fnOf 4) (pr 0x3FFFFFFF 2 0 0 0), .ferryWait (fnOf 1) (pr 0 1 0 0 0), .ferryArrw (fnOf 2) (pr 0x3FFFFFFF 1 0 0 0), .ferryArrw (fnOf 6) (pr 0x3FFFFFFF 2 0 0 0)]
theorem witness_FerryProtocol_words : (wsFerry.all ready) = true ∧ (((at_ (.ferryArrw (fnOf 2) (pr 0x3FFFFFFF 1 0 0 0))).core 0).fer 1).arrw = true
    ∧ (((at_ (.ferryArrw (fnOf 6) (pr 0x3FFFFFFF 2 0 0 0))).core 0).fer 2).arrw = false := by decide +kernel

/-! The vector engine, the sort array and the matrix engine. -/

def wsMap1 : List Instr := [.vadd head0 (pv 0 0 511 2 1 3), .vsub head0 (pv 0 0 511 2 1 3), .vmul head0 (pv 0 0 511 2 1 3), .vmin head0 (pv 0 0 511 2 1 3), .vmax head0 (pv 0 0 511 2 1 3), .vand head0 (pv 0 0 511 2 1 3)]
def wsMap2 : List Instr := [.vor head0 (pv 0 0 511 2 1 3), .vxor head0 (pv 0 0 511 2 1 3), .vshl head0 (pv 0 0 511 2 1 3), .vshr (fnOf 1) (pv 0 0 511 2 1 3), .vcmp (fnOf 2) (pv 0 0 511 2 1 4), .vnr head0 (pv 0 0 511 5 6 7)]
def wsMap3 : List Instr := [.vfma head0 (pv 0 0 7 6 5 5), .vsel head0 (pv 0 0 4 2 1 3), .vabs head0 (pv 0 0 511 0 1 3), .vneg head0 (pv 0 0 511 0 1 3), .vmov head0 (pv 0 0 511 0 1 3), .vcvt head0 (pv 0 0 511 0 5 3)]
def wsMap4 : List Instr := [.vdqn head0 (pv 0 0 511 0 12 6), .vfillK head0 (pv 0 0 511 0 0 3), .vfillIota (fnOf 1) (pv 0 0 511 0 0 3), .vrcp head0 (pv 0 0 511 0 5 6), .vrsq head0 (pv 0 0 511 0 5 6), .vexp2 head0 (pv 0 0 511 0 5 6),
  .vlog2 head0 (pv 0 0 511 0 5 6), .vtanh head0 (pv 0 0 511 0 5 6)]
def wsRows : List Instr := [.vred head0 (pv 0 0 511 0 1 9), .vdot head0 (pv 0 0 511 2 1 9), .vamax head0 (pv 0 0 511 0 5 5), .vscan head0 (pv 0 0 511 0 1 3), .vtrn head0 (pv 0 0 0 0 1 8), .vperm head0 (pv 0 0 511 2 1 3)]
def wsCauseway : List Instr := [.vqnt head0 (pv 0 0 511 0 5 12), .vqnt (fnOf 1) (pv 0 0 511 0 5 12), .cwadd (fnOf 1) (pv 0 0 511 0 10 11), .cwadd head0 (pv 0 0 511 0 5 11), .cwsub (fnOf 1) (pv 0 0 511 0 10 11), .cwsum head0 (pv 0 0 511 0 10 9)]
def vready (i : Instr) : Bool := ready i && (vrAt i (at_ i)).isSome
theorem witness_VectorWords_elementwise : ((wsMap1 ++ wsMap2).all fun i => vready i && (mapWord i).isSome) = true := by decide +kernel
theorem witness_VectorWords_elementwise_more : ((wsMap3 ++ wsMap4).all fun i => vready i && (mapWord i).isSome) = true := by decide +kernel
theorem witness_VectorWords_rows : (wsRows ++ wsCauseway).all vready = true := by decide +kernel
theorem witness_VectorWords_clear : ready (.vfillFc (fnOf 2) (pv 0 32 0 0 0 0)) = true := by decide +kernel
theorem witness_VectorWords_levels : ceilLog 3 2 := ⟨by decide, fun m h => by
  rcases m with _ | _ | m
  · simp at h
  · simp at h
  · omega⟩
/-- All operands of an unmasked add are regions, not Q4N; its lanes are on, and it has a result. -/
theorem witness_VectorElements : let i := Instr.vadd head0 (pv 0 0 511 2 1 3); let k := (at_ i).core 0
    vready i = true ∧ ([1, 2, 3].all fun r => (k.region r).qb == 31 && !isQ4 (k.region r).fmt) = true ∧ maskReg (pv 0 0 511 2 1 3) = []
    ∧ (elementOf i (pv 0 0 511 2 1 3) (k.region 3) [k.region 1, k.region 2] 0 [1, 2]).isSome = true ∧ 0 < countOf k (pv 0 0 511 2 1 3) 3 * (k.region 3).rows := by decide +kernel
/-- Words over floating-point and fixed-point regions have results too. -/
def wsFloat1 : List (Instr × Nat × List Nat) := [(.vadd head0 (pv 0 0 511 6 5 7), 7, [5, 6]), (.vsub head0 (pv 0 0 511 6 5 7), 7, [5, 6]), (.vmul head0 (pv 0 0 511 6 5 7), 7, [5, 6]), (.vfma (fnOf 1) (pv 0 0 7 6 5 5), 5, [5, 6, 7]),
  (.vmin head0 (pv 0 0 511 6 5 7), 7, [5, 6]), (.vmax head0 (pv 0 0 511 6 5 7), 7, [5, 6]), (.vabs head0 (pv 0 0 511 0 5 7), 7, [5]), (.vneg head0 (pv 0 0 511 0 5 7), 7, [5])]
def wsFloat2 : List (Instr × Nat × List Nat) := [(.vcmp (fnOf 2) (pv 0 0 511 6 5 4), 4, [5, 6]), (.vcvt head0 (pv 0 0 511 0 5 18), 18, [5]), (.vcvt head0 (pv 0 0 511 0 5 3), 3, [5]), (.vcvt head0 (pv 0 0 511 0 10 7), 7, [10]), (.vcvt head0 (pv 0 0 511 0 1 10), 10, [1]),
  (.vfillK head0 (pv 0 96 511 0 0 7), 7, []), (.vfillIota (fnOf 1) (pv 0 0 511 0 0 7), 7, []), (.vmul head0 (pv 0 0 511 11 10 11), 11, [10, 11])]
def wsFloat3 : List (Instr × Nat × List Nat) := [(.vrcp head0 (pv 0 0 511 0 5 6), 6, [5]), (.vrsq head0 (pv 0 0 511 0 5 6), 6, [5]), (.vnr (fnOf 1) (pv 0 0 511 5 6 7), 7, [6, 5]), (.vexp2 head0 (pv 0 0 511 0 5 6), 6, [5]), (.vlog2 head0 (pv 0 0 511 0 5 6), 6, [5]),
  (.vtanh head0 (pv 0 0 511 0 5 6), 6, [5])]
def gives (x : Instr × Nat × List Nat) : Bool := let k := (at_ x.1).core 0
  vready x.1 && match mapWord x.1 with | some (p, srcs, _, _) => srcs.map (·.toNat) == x.2.2 && (elementOf x.1 p (k.region x.2.1) (x.2.2.map k.region) 0 [0x3F800000, 0x40000000, 0]).isSome | none => false
theorem witness_VectorElements_floats : (wsFloat1 ++ wsFloat2).all gives = true := by decide +kernel
theorem witness_VectorElements_functions : wsFloat3.all gives = true := by decide +kernel
/-- VDQN from both formats; VQNT to both, every element 0 and the scale of each block 0. -/
def wsScaled : List Instr := [.vdqn head0 (pv 0 0 511 0 12 6), .vdqn head0 (pv 1 0 511 0 20 6), .vqnt head0 (pv 0 0 511 0 5 12), .vqnt (fnOf 1) (pv 0 0 511 0 5 12), .vqnt head0 (pv 1 0 511 0 5 20), .vqnt (fnOf 1) (pv 1 0 511 0 5 20)]
theorem witness_VectorElements_scaled : wsScaled.all vready = true := by decide +kernel
theorem witness_VectorElements_scales : let k := (at_ (.vqnt head0 (pv 0 0 511 0 5 12))).core 0; let a := k.region 5; let d := k.region 12
    (∀ e, e < 3 * d.rows → fp32.read (k.pool.le (a.addr (e / 3) (e % 3)).toNat 4) = .fin false 0 ∧ fp32.read (k.pool.le (d.scaleAddr (e / 3) (e % 3)) 4) = .fin false 0)
    ∧ d.fmt = 8 ∧ countOf k (pv 0 0 511 0 5 12) 12 = 3 ∧ fp32.read (exactTo fp32 0 false ((0 : Nat) : Int) (448 * 2 ^ 149) false) = .fin false 0 := by decide +kernel
/-- A masked add with ZERO whose mask reads zero throughout. -/
theorem witness_VectorElements_masked : let i := Instr.vadd head0 (pv 0 0x10 4 2 1 3); let k := (at_ i).core 0
    vready i = true ∧ (pv 0 0x10 4 2 1 3).zero = true ∧ maskReg (pv 0 0x10 4 2 1 3) = [4] ∧ k.pool.le (k.region 4).base 1 = 0 := by decide +kernel
/-- Formats, element numbers and lanes of the row words; the causeway's operands are regions. -/
theorem witness_VectorRows : let k := (at_ (.vred head0 (pv 0 0 511 0 1 9))).core 0
    isZ (k.region 9).fmt = true ∧ isZ (k.region 3).fmt = true ∧ 0 < (k.region 1).rows ∧ 0 < countOf k (pv 0 0 511 0 1 9) 1 ∧ (fnOf 1).fn ≠ 0 ∧ (k.region 10).qb = 31 ∧ (k.region 5).qb = 31
    ∧ fp32.read (k.pool.le (k.region 5).base 4) = .fin false 0
    ∧ (∀ e, e < 3 * 1 → (k.region 9).base + 4 ≤ ((k.region 10).addr (e / 3) (e % 3)).toNat ∨ ((k.region 10).addr (e / 3) (e % 3)).toNat + 4 ≤ (k.region 9).base) := by decide +kernel
/-- Sums, products, extremes and scans over FP32 and X32; an unmasked row of three leaves. -/
def wsRowsF : List Instr := [.vred head0 (pv 0 0 511 0 5 7), .vred (fnOf 1) (pv 0 0 511 0 5 7), .vred (fnOf 2) (pv 0 0 511 0 1 9), .vred head0 (pv 0 0 511 0 10 11), .vdot head0 (pv 0 0 511 6 5 7), .vscan head0 (pv 0 0 511 0 5 6), .vscan head0 (pv 0 0 511 0 10 11)]
theorem witness_VectorRows_floats : wsRowsF.all vready = true ∧ (let k := (at_ (.vred head0 (pv 0 0 511 0 5 7))).core 0
    isF (k.region 5).fmt = true ∧ isX (k.region 11).fmt = true ∧ maskReg (pv 0 0 511 0 5 7) = [] ∧ countOf k (pv 0 0 511 0 5 7) 5 = 3 ∧ 0 < (k.region 5).rows
    ∧ (∀ e, e < 3 → (fp32.read (k.pool.le ((k.region 5).addr (e / 3) (e % 3)).toNat 4)) = .fin false 0)) := by decide +kernel
def wsSort : List Instr := [.skey head0 (pv 0 32 0 0 0 0), .sort head0 (pv 0 64 0 0 13 0), .sortc head0 (pv 0 64 0 0 0 0), .sortcLd (fnOf 1) (pv 0 64 0 0 13 0), .sortu head0 (pv 0 0 0 0 0 14), .sortuDump (fnOf 1) (pv 0 0 0 0 0 22), .smrg head0 (pv 0 0 0 17 16 21)]
theorem witness_SortWords : (wsSort.all fun i => ready i && ((at_ i).core 0).sortBad.isEmpty) = true := by decide +kernel
theorem read_unlisted (m : Mem) (a : Nat) (h : ∀ x, x ∈ m → x.1 ≠ a) : m.read a = 0 := by
  induction m with
  | nil => rfl
  | cons x r ih =>
    obtain ⟨k, b⟩ := x
    have hk : k ≠ a := h (k, b) (by simp)
    simp only [Mem.read, beq_iff_eq, hk, if_false]
    split
    · rfl
    · exact ih fun x hx => h x (by simp [hx])
theorem zeros_ok (n : Nat) : ((List.replicate n 0).all (fun (t : Nat) => !t.testBit 14) && ((List.replicate n 0).filter fun (t : Nat) => !t.testBit 15).length == n) = true := by
  rw [List.filter_replicate, List.all_replicate]; simp
theorem dumpOk_zeros (rd : Nat → Nat → Nat) (a : Nat) (h : ∀ e, e < 16384 → rd (a + 131072 + 2 * e) 2 = 0) : dumpOk rd a 16384 = true := by
  have hm : (List.range 16384).map (fun e => rd (a + 131072 + 2 * e) 2) = List.replicate 16384 0 := by
    rw [List.eq_replicate_iff]
    refine ⟨by rw [List.length_map, List.length_range], fun b hb => ?_⟩
    obtain ⟨e, he, rfl⟩ := List.mem_map.1 hb
    exact h e (List.mem_range.1 he)
  simp only [dumpOk, hm]
  exact zeros_ok 16384
/-- A dump with every tag 0 and N = 16,384 is one that SORTC.ld accepts. -/
theorem witness_SortWords_load : let k := (at_ (.sortcLd (fnOf 1) (pv 0 64 0 0 13 0))).core 0
    dumpOk (fun a n => k.pool.le a n) 0x40000 (undump (fun a n => k.pool.le a n) 0x40000).n = true := by
  intro k
  have hn : (undump (fun a n => k.pool.le a n) 0x40000).n = 16384 := by show k.pool.le (0x40000 + 163840) 2 = 16384; decide +kernel
  have hp : ∀ x, x ∈ k.pool → x.1 < 0x60000 ∨ 0x68000 ≤ x.1 := by decide +kernel
  rw [hn]
  refine dumpOk_zeros _ _ fun e he => ?_
  have h0 := read_unlisted k.pool (0x40000 + 131072 + 2 * e + 0) fun x hx => by have := hp x hx; omega
  have h1 := read_unlisted k.pool (0x40000 + 131072 + 2 * e + 1) fun x hx => by have := hp x hx; omega
  show ofLE [k.pool.read (0x40000 + 131072 + 2 * e + 0), k.pool.read (0x40000 + 131072 + 2 * e + 1)] = 0
  rw [h0, h1]; rfl
theorem witness_SortWords_merge : let k := (at_ (.smrg head0 (pv 0 0 0 17 16 21))).core 0
    ∀ r, r ∈ [(16 : BitVec 9), 17] → ∀ e, e < elemCount k 21 → ∀ f, f < elemCount k r → elemAt k 21 e + 8 ≤ elemAt k r f ∨ elemAt k r f + 8 ≤ elemAt k 21 e := by decide +kernel
def wsMatrix : List Instr := [.mma head0 (pm 1 1 1 511 0 2 1), .mmah head0 (pm 1 1 1 511 0 2 1), .mmat head0 (pm 1 1 1 511 0 2 1), .mma16 head0 (pm 0 1 1 511 0 2 1), .mmas head0 (pm 2 1 1 19 0 2 1), .mq4 head0 (pm 8 1 1 20 0 2 1), .mma head0 (pm 1 1 1 511 0 1 1)]
theorem witness_MatrixWords_products : (wsMatrix.all fun i => ready i && (mulWord i).isSome) = true := by decide +kernel
def wsTiles : List Instr := [.mzero head0 (pm 0 1 1 511 0 0 0), .mdrn head0 (pm 0 0 0 15 0 0 0), .mlda head0 (pm 0 0 0 15 0 0 0), .mrpop head0 (pm 0 0 1 511 0 0 1)]
theorem witness_MatrixWords_tiles : wsTiles.all ready = true := by decide +kernel
/-- A product of finite elements in an unscaled format. -/
theorem witness_MatrixWords_chunks : let s := at_ (.mma head0 (pm 1 1 1 511 0 2 1)); let q := mulOf .mma head0 (pm 1 1 1 511 0 2 1) s
    head0.fn.toNat % 8 < 6 ∧ (List.range q.k).all (fun x => ((fmtF q.fa).getD fp32).read ((s.core 0).pool.le (q.a + x * fmtBytes q.fa) (fmtBytes q.fa)) == .fin false 0
      && ((fmtF q.fb).getD fp32).read ((s.core 0).pool.le (q.b + x * q.n * fmtBytes q.fb) (fmtBytes q.fb)) == .fin false 0) = true := by decide +kernel

/-! ### Witnesses of the statements about steps, streams, traps and the harbour core -/

def nopWord : Instr := .nop head0 (pr 9 0 0 0 0)
theorem witness_StepRunsDecodedWord : let s := at_ nopWord
    s.inputs = [] ∧ s.dueEvent.isNone = true ∧ s.nextIssuer = some ⟨.core 0, .s⟩ ∧ (s.stream (.core 0) .s).bad = none
    ∧ decode (wordOfBytes ((s.cpu (.core 0)).imem.bytes (s.stream (.core 0) .s).pc 12)) = nopWord ∧ WellFormed nopWord = true := by decide +kernel
def outside1 : State := { State.reset with inputs := [.bootdb 64] }
def due1 : State := { State.reset with tsalign := some (7, 0) }
theorem witness_StepRuns_events : outside1.inputs = [.bootdb 64] ∧ outside1.outsideEvent (.bootdb 64) = some (.bootdb 64) ∧ due1.inputs = [] ∧ due1.dueEvent = some .tscAlignApply
    ∧ State.reset.inputs = [] ∧ State.reset.dueEvent = none ∧ State.reset.nextIssuer = none := by decide +kernel
theorem witness_StepKeepsMemoryForm : State.reset.memOk ∧ State.reset.poolsOk ∧ step State.reset = .next State.reset.tick := by
  refine ⟨rfl, fun c => ?_, ?_⟩
  · have h : ((List.finRange 256).all fun c => (State.reset.core c).pool.wf) = true := by decide +kernel
    exact List.all_eq_true.1 h c (List.mem_finRange c)
  · have h := witness_StepRuns_events.2.2.2.2
    simp only [step, h.1, h.2.1, h.2.2]
theorem witness_LittleEndianMemory : Mem.wf [(5, 1), (7, 2)] = true ∧ (4 : Nat) < 5 := by decide
theorem witness_DecodeEncode : (Instr.add head0 (pr 7 1 0 1 3)).isWord = true ∧ WellFormed (.add head0 (pr 7 1 0 1 3)) = true := by decide
theorem witness_GridPlaces : (31 : Nat) < 32 ∧ (7 : Nat) < 8 ∧ islandOf (coreAt 31 7) = 7 ∧ atollOf (coreAt 31 7) = 31 ∧ (7 : Nat) < 8 := by decide +kernel
/-- A stream in a section of two words that repeats, with a second section of it at 100. -/
def loopStream : Stream := { ended := false, pc := 8, sec := 0, fresh := false, left := 2, secs := [0, 100] }
def loopCpu : Cpu := { imem := Mem.writes [] (placeLE 0 8 (2 * 2 ^ 10 + 2 ^ 63)) }
theorem witness_StreamMoves : let h := loopCpu.header loopStream.sec
    loopStream.fresh = false ∧ loopStream.pc ≠ loopCpu.lastWord 0 ∧ (1 : Nat) < hdrLen h ∧ 100 ∈ loopStream.peers 0
    ∧ (∀ k, k < hdrLen h → ¬ (100 + 8 = 0 + 8 + 12 * k)) ∧ (∀ k, k < hdrLen h → ¬ (9 = 0 + 8 + 12 * k)) ∧ ¬ ∃ x, x ∈ loopStream.peers 0 ∧ 9 = x + 8 := by decide +kernel
theorem witness_StreamMoves_repeats : let t := { loopStream with pc := 20 }
    t.pc = loopCpu.lastWord t.sec ∧ hdrRpt (loopCpu.header t.sec) = true ∧ 1 < t.left := by decide +kernel
def illWord : Instr := .ill head0 0 (pr 0 0 0 0 0)
/-- An LWAIT for generation 1, unmet, in a locked section. -/
def lateWord : Instr := .lwait head0 (pr 1 0 0 3 0)
def lock (s : State) : State := s.modCore 0 fun k => { k with cpu := { k.cpu with imem := k.cpu.imem.writes (placeLE 0 8 (oneWordHeader + 2 ^ 62)) } }
def lockedState : State := lock (at_ lateWord)
theorem witness_TrapsOnCores : illWord.isWord = true ∧ (at_ illWord).cur.hart = .core 0 ∧ ((at_ illWord).launchOf 0).isSome = true ∧ ((at_ illWord).core 0).hook.isNone = true
    ∧ (at_ illWord).verdict illWord (planOf illWord (at_ illWord)) = .trap ⟨1, 0, 0⟩ := by decide +kernel
theorem witness_TrapsOnCores_locked : lockedState.verdict lateWord (planOf lateWord lockedState) = .miss 10 0 ∧ lockedState.locked lockedState.cur.hart lockedState.cur.strm = true
    ∧ (lockedState.launchOf 0).isSome = true ∧ (lockedState.core 0).hook.isNone = true := by decide +kernel
def brkWord (g : Bool) : Instr := .brk ⟨0, g, 0, 0⟩ (pr 77 0 0 0 0)
def trapWord (g : Bool) : Instr := .trap ⟨0, g, 0, 0⟩ (pr 77 0 0 0 0)
theorem witness_BreakTrapAndIllegal : ([brkWord false, brkWord true, trapWord false, trapWord true].all fun i => (at_ i).verdict i {} == .ok && (at_ i).me.imemBad.isEmpty) = true
    ∧ (at_ (brkWord false)).guard ⟨0, false, 0, 0⟩ = true ∧ (at_ (brkWord true)).guard ⟨0, true, 0, 0⟩ = false := by decide +kernel
def sysrWord : Instr := .sysr head0 (pr 9 1 0 0 3)
theorem witness_PrivilegeOnCores : (at_ nopWord).cur.hart = .core 0 ∧ privileged sysrWord = true ∧ (at_ nopWord).check12 sysrWord = .ok ∧ (at_ nopWord).depsOk = true
    ∧ (lock (at_ nopWord)).check12 sysrWord = .ok ∧ (lock (at_ nopWord)).locked (.core 0) .s = true := by decide +kernel
/-- TALIGN inside a recovery hook. -/
def hookSave : HookSave := { g := Vector.replicate 64 9, gt := Vector.replicate 64 true, p := 7, h := Vector.replicate 32 hdl, ht := Vector.replicate 32 true, rings := Vector.replicate 16 {}, queues := Vector.replicate 16 {}, vflags := 3, vprog := 2, strm := Vector.replicate 4 { pc := 20 }, acq := 0, fence := 0, acc := 0, occ := Vector.replicate 4 0, claims := [], shares := [], pend := [], shapes := [], raising := .v, start := 0, seq := 7 }
def inHook : State := (at_ nopWord).modCore 0 fun k => { k with hook := some hookSave }
theorem witness_PrivilegeOnCores_hook : privileged (.talign head0 (pr 0x123 0 0 1 0)) = true ∧ inHook.check12 (.talign head0 (pr 0x123 0 0 1 0)) = .ok ∧ inHook.depsOk = true ∧ (inHook.core 0).hook.isSome = true := by decide +kernel
/-- The harbour core at S, and at M under EXL. -/
def atS : State := { State.reset with harbour := { State.reset.harbour with hstat := 0x101 } }
def underExl : State := { State.reset with harbour := { State.reset.harbour with hstat := 0x12 } }
theorem witness_HarbourTrapEntry : atS.harbour.pl = 1 ∧ atS.harbour.exl = false ∧ State.reset.harbour.pl = 2 ∧ State.reset.harbour.exl = false ∧ underExl.harbour.exl = true ∧ underExl.harbour.pl = 2 := by decide +kernel
/-- A harbour word ready at M, an event pending, an XLAT result and a launch of one core beside it. -/
def harbourAt (i : Instr) : State :=
  let s := at_ i
  { s with launches := (at_ nopWord).launches
           harbour := { s.harbour with hevent := 1, cpu := { s.harbour.cpu with wcache := [⟨0, page, {}⟩, ⟨1, page, {}⟩], g := sets s.harbour.cpu.g [(1, 0x10040), (2, 0), (5, 0x10000000000), (6, 1), (7, 0xFFFF)] } } }
def eretWord : Instr := .eret head0 (pr 0 0 0 0 0)
def eretAt : State := let s := at_ eretWord; { s with time := 5, harbour := { s.harbour with hstat := 0x1A } }
theorem witness_ReturnFromTrap : goesB eretAt eretWord = true ∧ eretAt.cur = ⟨.harbour, .s⟩ := by decide +kernel
def wsSystem : List Instr := [.sysr head0 (pr 9 1 0 0 3), .sysr head0 (pr 0x133 1 0 0 3), .sysw head0 (pr 9 1 0 1 0), .sysw head0 (pr 0x201 1 0 1 0)]
theorem witness_SystemRegisters : (wsSystem.all fun i => goesB (harbourAt i) i) = true := by decide +kernel
theorem witness_WaitForEvent : goesB (harbourAt (.wfi head0 (pr 1 0 0 0 1))) (.wfi head0 (pr 1 0 0 0 1)) = true := by decide +kernel
def wsDrop : List Instr := [.tlbi head0 (pr 0 0 0 0 0), .tlbi (fnOf 1) (pr 0 0 2 1 0), .tlbi (fnOf 3) (pr 0 0 2 1 0), .tlbi (fnOf 2) (pr 0 0 2 0 0), .tlbi (fnOf 4) (pr 0 0 2 0 0)]
def wsHinva : List Instr := [.hinva head0 (pr 0 0 2 1 3), .hinva (fnOf 1) (pr 0 0 2 1 3), .hinva (fnOf 2) (pr 0 0 2 0 3)]
theorem witness_Invalidations : ((wsDrop ++ wsHinva).all fun i => goesB (harbourAt i) i && (harbourAt i).cur.hart == .harbour && !(harbourAt i).launches.isEmpty) = true := by decide +kernel
/-- A handle that HINVA hits by page and one that it does not. -/
theorem witness_Invalidations_hits : let k := (harbourAt (.hinva head0 (pr 0 0 2 1 3))).core 0
    (k.cpu.getH 1).valid = true ∧ (k.cpu.getH 1).pg.holds 0x10040 = true ∧ (k.cpu.getH 3).valid = false ∧ ((harbourAt nopWord).launches.all fun l => l.ptn == 0 && l.members.contains 0) = true := by decide +kernel

/-! ### A part with tables, an image and a launch request in memory -/

/-- The bytes of a list that are not 0, from address a on. -/
def seg (a : Nat) : List Byte → Mem
  | [] => []
  | b :: r => if b == 0 then seg (a + 1) r else (a, b) :: seg (a + 1) r
def zeros (n : Nat) : List Byte := List.replicate n 0
/-- The kernel header of one core (R305, R306). -/
def demoHeader : List Byte := [1] ++ zeros 13 ++ [32] ++ zeros 13 ++ [1, 1, 1] ++ zeros 21 ++ [255, 3, 255, 3, 255, 3, 255, 3] ++ zeros 652 ++ List.replicate 72 255 ++ zeros 8
/-- A kernel image of one core, one section with an END, at offset a (R300 to R307). -/
def image (a : Nat) : Mem :=
  seg a (toLE 4 0x4E434C54 ++ [1, 0, 0, 0, 3, 0, 0, 0, 1, 0, 0, 0, 0x98, 3]) ++ seg (a + 32) (toLE 4 0x5244484B ++ [0, 0, 0, 0, 0x18, 3])
  ++ seg (a + 48) demoHeader ++ seg (a + 840) (toLE 4 0x44415053 ++ [0, 0, 0, 0, 8])
  ++ seg (a + 864) (toLE 4 0x43455353 ++ [0, 0, 0, 0, 36] ++ zeros 7 ++ [1]) ++ seg (a + 896) (toLE 8 oneWordHeader ++ toLE 12 (encode (.endS head0 (pr 0 0 0 0 0))).toNat)
/-- Two-stage tables: virtual addresses below 64 MiB reach the first 64 MiB of HBM (R353, R354). -/
def tables : Mem :=
  seg 0x10000200000 (toLE 6 0x10000210001) ++ seg 0x10000210000 (toLE 6 0x1000000000F)
  ++ seg 0x10000220000 (toLE 3 0x230001) ++ seg 0x10000230000 (toLE 3 0x240001) ++ seg 0x10000240000 [0xF]
def demoImage : Nat := 0x10000000000
def demoArea : Nat := 0x10000100000
/-- A save area of a launch of the demo image (R383). -/
def savedArea : Mem :=
  seg demoArea (toLE 4 0x5641534B ++ [1, 0, 1, 0, 9, 0, 1, 1, 0, 0, 0, 0] ++ toLE 6 demoImage) ++ seg (demoArea + 0x1000) demoHeader ++ [(demoArea + 0x10000 + 0x810000 + 163844, 1)]
def demoRequest : Request := { lid := 5, image := demoImage, imlen := 920, budget := 0, prio := 0, origin := none, fbn := 0, fbix := 0, job := 0, queue := 0, khdr := demoHeader }
/-- Partition 0 enabled on every island, with a request at LCARG. -/
def demoPart : Part := { cfg := 0x1FF, hbm := 0x400000, s2root := 0x10000200000, s1root := 0x220000, lcarg := 0x10000010000 }
def demo : State :=
  { State.reset with
    islands := State.reset.islands.map fun x => { x with ready := BitVec.allOnes 13 }
    mem := image demoImage ++ seg 0x10000010000 (toLE 6 demoImage) ++ seg 0x10000010008 [0x98, 3] ++ tables
    parts := State.reset.parts.set 0 demoPart }
def demoPart0 (f : Part → Part) : State := demo.modPart 0 f

/-! ### Witnesses of the statements about saves, time bases, the ferry and copies -/

def ctxsvWord (a : Nat) : Instr := .ctxsv head0 (pr 0 0 5 a 3)
def ctxldWord : Instr := .ctxld head0 (pr 0 0 2 5 3)
def svAt (a : Nat) : State := { harbourAt (ctxsvWord a) with launches := (at_ nopWord).launches.map fun l => { l with state := .preempting } }
def ldAt (m : Mem) : State :=
  let s := harbourAt ctxldWord
  { s with launches := [], mem := m, parts := demo.parts, islands := demo.islands
           harbour := { s.harbour with cpu := { s.harbour.cpu with g := vset s.harbour.cpu.g 5 (BitVec.ofNat 64 demoArea) } } }
theorem witness_SaveAndRestore : goesB (svAt 6) (ctxsvWord 6) = true ∧ ((svAt 6).g 6).toNat = 1 ∧ (svAt 6).draw.saveStatus 1 0x10000000000 = 0 ∧ ((svAt 6).draw.launch 1).isSome = true
    ∧ goesB (svAt 7) (ctxsvWord 7) = true ∧ (svAt 7).draw.saveStatus 0xFFFF 0x10000000000 = 1
    ∧ goesB (ldAt []) ctxldWord = true ∧ (ldAt []).draw.loadStatus demoArea 0 0 = 1 := by decide +kernel
def saved1 : State := ldAt savedArea
theorem read_le2 (m : Mem) (a : Nat) (h : ∀ x, x ∈ m → x.1 ≠ a ∧ x.1 ≠ a + 1) : m.le a 2 = 0 := by
  show ofLE [m.read (a + 0), m.read (a + 1)] = 0
  rw [read_unlisted m (a + 0) fun x hx => (h x hx).1, read_unlisted m (a + 1) fun x hx => (h x hx).2]; rfl
theorem saved_tags : (List.range 16384).all (fun e => !(saved1.draw.mem.le (coreBlock demoArea 0 + 0x830000 + 2 * e) 2).testBit 14) = true := by
  refine List.all_eq_true.2 fun e he => ?_
  have hb : ∀ x, x ∈ saved1.draw.mem → x.1 < coreBlock demoArea 0 + 0x830000 ∨ coreBlock demoArea 0 + 0x838000 ≤ x.1 := by decide +kernel
  have he' := List.mem_range.1 he
  rw [read_le2 _ _ fun x hx => by have := hb x hx; omega]; rfl
theorem witness_SaveAndRestore_load : goesB saved1 ctxldWord = true ∧ saved1.draw.loadStatus demoArea 0 0 = 0 := by
  refine ⟨by decide +kernel, ?_⟩
  have h : saved1.draw.saveOk demoArea = true := by
    have hn : saved1.draw.mem.le (demoArea + 6) 2 = 1 := by decide +kernel
    simp only [State.saveOk, hn, List.range_one, List.all_cons, List.all_nil, Bool.and_true, saved_tags]
    decide +kernel
  simp only [State.loadStatus, h]
  decide +kernel
/-- A save away from the remap table, and a restore with no hook saved. -/
theorem witness_SaveAndRestore_areas : fld ((svAt 6).part 0).lcremap 47 20 * 2 ^ 20 + 2 ^ 20 ≤ 0x10000000000 ∧ ((svAt 6).launches.all fun l => l.members.all fun c => ((svAt 6).core c).cpu.pend.isEmpty) = true
    ∧ (svAt 6).mem.wf = true ∧ saved1.saved = [] ∧ (saved1.draw.savedLaunch demoArea 0 0).members.Nodup ∧ (saved1.draw.savedLaunch demoArea 0 0).members[0]? = some 0 ∧ saved1.mem.wf = true := by decide +kernel
def talignWord : Instr := .talign head0 (pr 0x123 0 0 1 0)
def talignDue : State := { State.reset with talign := some (5, [7, 8, 9], 0) }
def trained : State := { State.reset with ports := State.reset.ports.set 3 { link := 2, peer := 0x200, known := true } }
theorem witness_TimeBases : goesB (at_ talignWord) talignWord = true ∧ talignDue.talign = some (5, [7, 8, 9], 0) ∧ talignDue.cyc 12 = 0 % 2 ^ 64
    ∧ (∀ k, k < 12 → (State.reset.port k).link ≠ 2) ∧ due1.tsalign.isSome = true ∧ trained.tsalign = none ∧ (∃ k, k < 12 ∧ (trained.port k).link = 2)
    ∧ due1.tsalign = some (7, 0) ∧ 0 = due1.tsc ∧ ({ State.reset with harbour := { State.reset.harbour with htcmp := 0 } } : State).harbour.htcmp.toNat ≤ State.reset.cyc 12 := by decide +kernel
/-- The launch of the bench with one change of it and one of its core. -/
def launched (f : Launch → Launch) (k : Core → Core) : State := let s := (at_ nopWord).modCore 0 k; { s with launches := s.launches.map f }
theorem launched_core (f : Launch → Launch) (k : Core → Core) : (launched f k).core 0 = k ((at_ nopWord).core 0) := core_modCore_self _ _ _
/-- A member that has just met its conditions, one released, one whose count is owed. -/
def arriving : State := launched (fun l => { l with sfc := 40 }) fun k => { k with ferry := sets k.ferry [(0, { open_ := true, count := 1, bits := 15, issued := 3 })], cpu := { k.cpu with strm := Vector.replicate 4 {} } }
def sailing : State := launched (fun l => { l with sfc := 40 }) fun k => { k with ferry := sets k.ferry [(0, { open_ := true, count := 1, bits := 15, trel := some 20 })] }
def assembled : State := launched (fun l => { l with sfc := 40 }) fun k => { k with ferry := sets k.ferry [(1, { open_ := true, count := 1, bits := 15, arrived := some 12 })] }
def fabric : State := launched (fun l => { l with sfc := 40, causes := [.ferry 0 3 (some 0)], frozen := true }) fun k => { k with ferry := sets k.ferry [(4, { open_ := true, count := 1, arrived := some 12 })] }
theorem witness_FerryProtocol : (arriving.launchOf 0).isSome = true ∧ arriving.memberReady 0 1 = true ∧ sailing.resumeAt 0 1 = some 20 ∧ 20 ≤ sailing.now (.core 0)
    ∧ (assembled.launches.all fun l => l.members == [0] && assembled.launch l.lid == some l && 12 + 18 ≤ l.sfc) = true ∧ assembled.allArrived [0] 2 = some 12
    ∧ ((fabric.core 0).fer 5).count = 1 ∧ ((fabric.core 0).fer 5).arrived.isSome = true ∧ ((fabric.core 0).fer 5).trel = none
    ∧ (fabric.launches.all fun l => l.causes.contains (.ferry 0 3 (some 0)) && fabric.launch l.lid == some l) = true ∧ 0 ≤ fabric.time ∧ assembled.memberReady 0 2 = false := by decide +kernel
/-- A copy's entry, its descriptor at an address of the bench's pool. -/
def entry (bs : List Byte) : Copy := { desc := bs, sh := hdl, dh := hdl, word := 5, pc := 8, sec := 0, repn := 0, issue := 0, t := 1, u := 1, n := 1, ticket := some (2, 1), crc := none, land := 30, rd := 3, wr := 4 }
def poolDesc (a : Nat) : List Byte := ((at_ nopWord).core 0).pool.bytes a 48
def passageDesc : List Byte := (desc 0 0x1000 0x2000 (1 + 2 ^ 14 + 2 * 2 ^ 50) 0x800180).foldl (fun l x => l.set x.1 x.2) (List.replicate 48 0)
def clippedDesc : List Byte := (desc 0 0x1000 0x2000 (1 + 2 ^ 34 + 3 * 2 ^ 38) 0).foldl (fun l x => l.set x.1 x.2) (List.replicate 48 0)
def copying (e : Copy) : State := let s := launched (fun l => { l with fbn := 3, job := 6, sfc := 20 }) fun k => { k with copies := [e] }; { s with ports := trained.ports }
theorem witness_CopyStarts : ([0x140, 0x1C0, 0x240].all fun a => let s := copying (entry (poolDesc a)); (s.core 0).copies[0]? == some (entry (poolDesc a)) && (s.launchOf 0).isSome) = true
    ∧ (entry (poolDesc 0x140)).started = false ∧ (entry (poolDesc 0x140)).crc = none ∧ { entry (poolDesc 0x140) with void := true }.void = true
    ∧ (descOf (poolDesc 0x140)).dk = 0 ∧ (descOf (poolDesc 0x140)).le = false ∧ (descOf (poolDesc 0x1C0)).le = true ∧ (descOf (poolDesc 0x240)).dk = 2 ∧ (descOf passageDesc).dk = 1
    ∧ ((copying (entry passageDesc)).launches.all fun l => destOf ((copying (entry passageDesc)).core 0) l (descOf passageDesc) == some (0, 0)
        && destOf ((copying (entry passageDesc)).core 0) l (descOf (poolDesc 0x1C0)) == some (0, 0)) = true
    ∧ (copying (entry passageDesc)).route (descOf passageDesc).dpart = some 3 ∧ ((copying (entry passageDesc)).port 3).inj.getLsbD 0 = false := by decide +kernel
/-- A checked copy, one that is over, and a port that inverts bit 5 of byte 2. -/
def checked (md : Nat) : Copy := { entry (poolDesc 0x140) with crc := some (md, 1) }
def injecting : State := { copying (entry passageDesc) with ports := State.reset.ports.set 3 { link := 2, peer := 0x200, known := true, inj := BitVec.ofNat 64 (1 + 5 * 2 ^ 8 + 2 * 2 ^ 16) } }
theorem witness_CopyStarts_checked : ([0, 1, 2, 3].all fun md => ((copying (checked md)).core 0).copies[0]? == some (checked md) && (checked md).crc == some (md, 1) && (descOf (checked md).desc).dk == 0) = true
    ∧ (injecting.port 3).inj.getLsbD 0 = true ∧ fld (injecting.port 3).inj 47 16 = 2 ∧ 2 < (movedBy injecting 0 (entry passageDesc)).sent.length ∧ injecting.route (descOf passageDesc).dpart = some 3 := by decide +kernel
/-- A FENCE of system scope in gated code with a copy to memory under way. -/
def fencing : State :=
  let s := (at_ (.fence head0 (pr (2 ^ 31) 0 0 0 0))).modCore 0 fun k => { k with copies := [{ entry (poolDesc 0x240) with started := true, due := 2000 }] }
  { s with launches := s.launches.map fun l => { l with sfc := 20 } }
theorem witness_Fences_copies : goesB fencing (.fence head0 (pr (2 ^ 31) 0 0 0 0)) = true ∧ fencing.locked (.core 0) .s = false ∧ ((fencing.core 0).copies.map fun e => (e.started, e.pub, e.dk)) = [(true, false, 2)]
    ∧ ((fencing.core 0).copies.all fun e => decide (e.t < fencing.t0)) = true := by decide +kernel
def arrival (cr : Option Credit) : Arrival := { lid := 1, rx := 0, ry := 0, isl := 0, inc := 0, bytes := [(0x2000, 7), (0x2001, 8)], poison := [], sent := [7, 8], last := true, credit := cr }
def credit1 : Credit := ⟨0x180, 2, 0, none, 0⟩
def closed (cr : Option Credit) (way : Bool) : State :=
  let s := (copying { entry (poolDesc 0x1C0) with started := true }).modAtoll 0 fun t => { t with arrivalClose := true }
  { s with transit := if way then [⟨arrival cr, 30, 0, 1, false⟩] else [] }
theorem witness_CopyDeliveries : (copying (entry (poolDesc 0x140))).refuses (arrival none) = false ∧ ((copying (entry (poolDesc 0x140))).launch 1).isSome = true
    ∧ (copying (entry (poolDesc 0x140))).refuses (arrival (some credit1)) = false ∧ (arrival (some credit1)).poison = [] ∧ (arrival (some credit1)).last = true ∧ credit1.crc = none
    ∧ (closed none true).refuses (arrival none) = true ∧ ((closed none true).transitOf (arrival none)).isSome = true ∧ (closed none false).transitOf (arrival none) = none
    ∧ (closed none false).refuses (arrival none) = true ∧ (closed (some credit1) true).refuses (arrival (some credit1)) = true ∧ ((closed (some credit1) true).island (islandOf 0)).rst = 0
    ∧ (({ iss := 3, val := 1 } : Timeline).early = []) ∧ ((copying { entry (poolDesc 0x140) with started := true, done := true }).core 0).copies.map (·.done) = [true]
    ∧ (copying (entry (poolDesc 0x140))).launch 9 = none := by decide +kernel

/-! ### Witnesses of the statements about landings, ends, freezes, records and hooks -/

/-- One pending entry on the bench's core, due. -/
def pendOf (e : List Eff) : Pend := { strm := .s, issue := 1, land := 2, effs := e }
def pending (e : List Eff) : State := launched (fun l => { l with sfc := 10 }) fun k => { k with cpu := { k.cpu with pend := [pendOf e] } }
def landings : List (List Eff) := [[.g 3 77 true], [.g 0 77 true], [.p 2 true], [.p 0 false], [.h 3 hdl true], [.st 2 1 99], [.rep .v 3], [.pool [(5, 6)] [] []], [.flags 3], [.acc [(0x7C0000, 6)] [] true]]
theorem witness_ResultsLandOrStop : (landings.all fun e => ((pending e).core 0).cpu.pend[0]? == some (pendOf e) && (pendOf e).met.isEmpty && (pendOf e).newer.isEmpty && (pendOf e).land < (pending e).now (.core 0)) = true ∧ State.reset.harbour.entered = false := by decide +kernel
def originOf (i : Instr) : Origin := { instr := i, pc := 8, sec := 0, repn := 0, g := Vector.replicate 64 0, gt := Vector.replicate 64 false, h := Vector.replicate 32 {}, ht := Vector.replicate 32 false, st := Vector.replicate 320 (Vector.replicate 4 0), queues := Vector.replicate 16 {}, rings := Vector.replicate 16 {}, scfg := 0 }
def vaddWord : Instr := .vadd head0 (pv 0 0 511 2 1 3)
def stopping : Pend := { strm := .v, issue := 1, land := 2, effs := [.detect ⟨0x0E, 5, 6⟩ 1 true], origin := some (originOf vaddWord) }
def stoppingState : State := launched (fun l => { l with sfc := 10 }) fun k => { k with cpu := { k.cpu with pend := [stopping], strm := Vector.replicate 4 {} } }
theorem witness_ResultsStop : (stoppingState.core 0).cpu.pend[0]? = some stopping ∧ (originOf vaddWord).hooked = false ∧ stoppingState.turn (.core 0) .v = true ∧ stopping.land ≤ stoppingState.now (.core 0)
    ∧ (stoppingState.launchOf 0).isSome = true ∧ (stoppingState.core 0).hook.isNone = true :=
  ⟨by rw [stoppingState, launched_core]; rfl, rfl, by decide +kernel, by decide +kernel, by decide +kernel, by decide +kernel⟩
/-- A result two of whose source bytes were read, one of them met by a write. -/
def renewing : Pend := { strm := .v, issue := 1, land := 2, effs := [.pool [(9, 1)] [] []], seen := [(5, 6), (7, 8)], met := [⟨5, 1, 0⟩], origin := some (originOf vaddWord) }
theorem witness_ResultsRenewed : ((pending []).core 0).pool.wf = true ∧ (renewing.seen.map (·.1)).Nodup ∧ (7, 8) ∈ renewing.seen := by decide +kernel
def ending (f : Stream → Stream) : State := launched (fun l => { l with sfc := 10 }) fun k => { k with cpu := { k.cpu with imem := Mem.writes [] (placeLE 0 8 (oneWordHeader + 2 ^ 63)) }.modStream .s f }
def finished : State := launched (fun l => { l with sfc := 10 }) fun k => { k with cpu := { k.cpu with strm := Vector.replicate 4 {} } }
theorem witness_SectionsAndKernelsEnd : ((ending fun t => { t with repEnd := some (5, 0) }).stream (.core 0) .s).repEnd = some (5, 0) ∧ 5 < (ending id).now (.core 0)
    ∧ ((ending fun t => { t with retiring := [(4, 5)] }).stream (.core 0) .s).retiring = [(4, 5)]
    ∧ ((ending fun t => { t with past := true }).stream (.core 0) .s).past = true ∧ ((ending fun t => { t with past := true }).stream (.core 0) .s).ended = false
    ∧ ((ending fun t => { t with past := true }).stream (.core 0) .s).base ≤ (ending id).now (.core 0) ∧ ((ending id).launchOf 0).isSome = true
    ∧ (ending fun t => { t with past := true }).canIssue 0 = true ∧ (ending fun t => { t with past := true }).turn (.core 0) .s = true := by decide +kernel
theorem witness_KernelEnds : (finished.launches.all fun l => finished.launch l.lid == some l && l.state == .run && !l.frozen && decide (l.ptn < 8) && l.members.all fun c =>
      ([Strm.s, .a, .v, .m].all fun q => let t := finished.stream (.core c) q; t.ended && t.retiring.isEmpty && t.stopped.isEmpty)
      && (finished.core c).cpu.pend.isEmpty && (finished.core c).cpu.walks.isEmpty && (finished.core c).copies.isEmpty
      && (List.range 8).all fun i => (vget (finished.core c).tl i {}).val == (vget (finished.core c).tl i {}).iss) = true
    ∧ finished.launches.length = 1 ∧ (finished.part 0).done.length < 256 := by decide +kernel
def halting : State := launched (fun l => { l with sfc := 10 }) fun k => { k with stop := some 8 }
def walkOf : Walk := { ptn := 0, root1 := demoPart.s1root, root2 := demoPart.s2root, d := 3, v := 0x12345, t := true, issue := 4, land := 28, due := 0, origin := originOf xlatWord }
def walkingCore : State :=
  launched (fun l => { l with sfc := 30, frozen := true, causes := [.walk 0] }) fun k => { k with stop := some 20, stopped := true, cpu := { k.cpu with walks := [walkOf] } }
def walking : State := { walkingCore with mem := demo.mem, parts := demo.parts }
theorem witness_FreezesAndWalks : (halting.launches.all fun l => halting.launch l.lid == some l && decide (8 ≤ l.sfc)) = true ∧ (halting.core 0).stop = some 8 ∧ (halting.core 0).stopped = false
    ∧ (halting.core 0).hook.isNone = true ∧ (halting.core 0).cpu.pend = [] ∧ (∀ q, q ∈ [Strm.s, .a, .v, .m] → (halting.stream (.core 0) q).repEnd = none)
    ∧ (walking.core 0).cpu.walks = [walkOf] ∧ walking.walkDue (.core 0) walkOf = true ∧ walking.barred walkOf.root1 walkOf.root2 (walking.core 0).cpu 0 0x12345 = false
    ∧ (match walking.translateFrom walkOf.root1 walkOf.root2 0 0x12345 with | .ok _ _ => true | .trap _ => false) = true ∧ (match walking.translateFrom 0 0 0 0x12345 with | .ok _ _ => false | .trap _ => true) = true := by
  refine ⟨by decide +kernel, by decide +kernel, by decide +kernel, by decide +kernel, by decide +kernel, by decide +kernel, ?_, by decide +kernel, by decide +kernel, by decide +kernel, by decide +kernel⟩
  show (walkingCore.core 0).cpu.walks = _
  rw [walkingCore, launched_core]
def recOf (cause : Nat) : Rec := { seq := 7, c := 0, lid := 1, ptn := 0, strm := .s, trap := ⟨cause, 0, 0⟩, after := false, hookable := true, word := 5, ima := 8, sec := 0, repn := 0, vprog := 0, sfc := 8, cyc := 3, rx := 0, ry := 0, phys := 0, isl := 0 }
def waitingRec : State := { State.reset with waitRecs := [recOf 0x15] }
def posted (cause : Nat) : State := { halting with recs := [recOf cause], fq := [7] }
theorem witness_FaultRecords : waitingRec.waitRecs = [recOf 0x15] ∧ waitingRec.fq.length < 64 ∧ (recOf 0x15).settled = false ∧ 64 ≤ (List.replicate 64 1).length ∧ (posted 0x15).fq = [7] ∧ (recOf 0x15) ∈ (posted 0x15).recs
    ∧ (recOf 0x15).popped = false ∧ State.reset.fq = [] := by decide +kernel
/-- Dispositions: at S for its own and another partition, at M allowed and not. -/
def dispS (p cause : Nat) : State := { posted cause with harbour := { State.reset.harbour with hstat := BitVec.ofNat 64 (1 + 256 * p) } }
theorem witness_Dispositions : (posted 0x15).recs = [recOf 0x15] ∧ (recOf 0x15).seq = 7 ∧ (recOf 0x15).disp = none ∧ (recOf 0x15).settled = false ∧ (∀ r, r ∈ State.reset.recs → r.seq = 7 → r.disp = none → r.settled = true)
    ∧ (dispS 1 0x15).harbour.pl = 1 ∧ (dispS 1 0x15).harbour.ptn = 1 ∧ (dispS 0 0x0A).harbour.ptn = 0 ∧ (posted 0x15).harbour.pl = 2
    ∧ 0x15 ∈ [0x08, 0x09, 0x0A, 0x0E, 0x13, 0x15, 0x16, 0x18, 0x19] ∧ 0x01 ∉ [0x08, 0x09, 0x0A, 0x0E, 0x13, 0x15, 0x16, 0x18, 0x19] ∧ (recOf 0x0E).hookable = true := by
  refine ⟨by decide +kernel, rfl, rfl, rfl, fun r hr => absurd hr (by rw [show State.reset.recs = [] from rfl]; exact List.not_mem_nil), by decide +kernel, by decide +kernel, by decide +kernel, by decide +kernel, by decide, by decide, rfl⟩
/-- A freeze of one core whose one record has been disposed. -/
def disposed (k cause : Nat) : State :=
  let s := launched (fun l => { l with sfc := 10, frozen := true, killAt := some 0 }) fun k => { k with stop := some 8, stopped := true }
  { s with recs := [{ recOf cause with disp := some k }] }
theorem witness_Thaws : ([(0, 0x15), (1, 0x15), (3, 0x18), (4, 0x15)].all fun x => let s := disposed x.1 x.2
    s.launches.all fun l => s.launch l.lid == some l && s.thawDue l && l.members == [0] && s.recsOf l.lid == [{ recOf x.2 with disp := some x.1 }] && decide (l.ptn < 8)
      && (s.core 0).lid == l.lid && ([Strm.s, .a, .v, .m].all fun q => (s.stream (.core 0) q).stopped.isEmpty) && (s.core 0).stop == some 8 && decide (8 ≤ l.sfc)) = true
    ∧ ¬ ((recOf 0x15).trap.cause = 0x16 ∧ (recOf 0x15).trap.info = 2) := by decide +kernel
/-- TRAP's service EXIT, killed; a poisoned word whose hook is to run; a record of a launch that its hook killed behind one that cannot be posted yet. -/
def exitRec : Rec := { recOf 0x16 with trap := ⟨0x16, 0, 2⟩, disp := some 4 }
theorem witness_Thaws_exit_hook : ([exitRec, { recOf 0x0E with disp := some 2 }].all fun r => let s := { disposed 0 0x15 with recs := [r] }
    s.launches.all fun l => s.launch l.lid == some l && s.thawDue l && s.recsOf l.lid == [r] && (s.core 0).cpu.pend.isEmpty) = true := by decide +kernel
def waitingBehind : State := { halting with waitRecs := [{ recOf 0x17 with lid := 1 }, { recOf 0x0E with lid := 9, disp := some 4, settled := true }] }
theorem witness_FaultRecords_behind : waitingBehind.postable { recOf 0x17 with lid := 1 } = false ∧ waitingBehind.postable { recOf 0x0E with lid := 9, disp := some 4, settled := true } = true
    ∧ waitingRec.postable (recOf 0x15) = true ∧ waitingBehind.fq.length < 64 := by decide +kernel
def hooked (cyc : Nat) : State :=
  let s := launched (fun l => { l with sfc := 10, frozen := true, state := .hookRun, causes := [.hook 0] }) fun k => { k with stop := some 8, stopped := true, hook := some hookSave, cpu := { k.cpu with strm := Vector.replicate 4 {} } }
  { s with recs := [{ recOf 0x0E with disp := some 2 }], islands := s.islands.map fun x => { x with cyc := cyc } }
theorem witness_Hooks : ((hooked 0).core 0).hook = some hookSave ∧ ((hooked 0).launches.all fun l => (hooked 0).launch l.lid == some l && (hooked 5).launch l.lid == some l && decide (l.hdr 60 4 < (hooked 5).cyc (islandOf 0) - 0)
      && ((hooked 5).core (l.coreOf 0 0)).lid == l.lid) = true ∧ ((hooked 0).core 0).hookDone = true ∧ hookSave.shapes = [] := by decide +kernel
/-- A hook that has changed dword 1 of st3. -/
def reshaped : State := (hooked 0).modCore 0 fun k => { k with hook := some { hookSave with shapes := [(3, 1, 7)] } }
theorem witness_Hooks_shapes : (reshaped.core 0).hook = some { hookSave with shapes := [(3, 1, 7)] } ∧ (reshaped.core 0).hookDone = true ∧ (reshaped.core 0).stw 3 1 ≠ 7 := by
  refine ⟨congrArg Core.hook (core_modCore_self _ _ _), by decide +kernel, by decide +kernel⟩
/-- The core window on a stopped core, by file and index. -/
def window (i f : Nat) : State :=
  let s := disposed 0 0x15
  { s with harbour := { s.harbour with cwsel := 1, cwidx := BitVec.ofNat 64 (i + 4096 * f) } }
theorem witness_CoreWindow : ([(63, 0), (1, 0), (1, 1), (15, 1), (31, 2), (1279, 3), (0, 3)].all fun x => (window x.1 x.2).windowCore == some 0 && ((window x.1 x.2).core 0).stopped
    && fld (window x.1 x.2).harbour.cwidx 11 0 == x.1 && fld (window x.1 x.2).harbour.cwidx 15 12 == x.2
    && ((window x.1 x.2).launchOf 0).isSome) = true ∧ (window 31 2).windowReady true = true := by decide +kernel
/-- One third rounds in every format, with no overflow, in both modes. -/
theorem witness_FloatRounding : ([fp8e4, fp8e5, fp16, bf16, fp32].all fun f => (f.roundQ 0 false false 1 3).2 &&& fOF == 0 && (f.roundQ 2 true false 1 3).2 &&& fOF == 0) = true
    ∧ fp32.read (fp32.roundQ 0 false false 1 1).1 = .fin false (2 ^ 149) := by decide +kernel
/-- A merge of two one-pair runs in order, and a full array of tagged cells. -/
def full : SortState := { valid := true, cells := List.replicate 16384 { pair := 3, tag := 5, sent := false }, n := 16384, p := 3, s := 4, pl := 5, cfg := 6 }
theorem witness_SortNetwork : full.cells.length = 16384 ∧ full.valid = true ∧ (∀ z, z ∈ full.cells → z.tag < 2 ^ 14) ∧ full.n < 2 ^ 16 ∧ full.p < 256 ∧ full.s < 256 ∧ full.pl < 256 ∧ full.cfg < 256 :=
  ⟨List.length_replicate, rfl, fun z hz => by rw [List.eq_of_mem_replicate hz]; decide, by decide, by decide, by decide, by decide, by decide⟩
theorem witness_SortNetwork_runs : let a : Cell := { pair := 3, sent := false }; let b : Cell := { pair := 5, sent := false }
    [a].length + [b].length ≤ 2 ∧ (∀ z, z ∈ [a] ++ [b] → z.sent = false) ∧ [a].Pairwise (fun a b => b.before 0 a = false) ∧ [b].Pairwise (fun a b => b.before 0 a = false) := by decide

/-! ### Witnesses of the statements about launches, engines, partitions, bring-up and power -/

/-- Partition 0 with the request queued; beside a launch on its origin; with a command for LID 1. -/
def queued (r : Request) : State := demoPart0 fun q => { q with queues := q.queues.set 0 [r] }
def behind : State :=
  let s := demoPart0 fun q => { q with queues := q.queues.set 0 [{ demoRequest with origin := some (0, 0) }], lcshs := 1 }
  { s with launches := (at_ nopWord).launches }
def naming (f : Launch → Launch) : State := (launched f id).modPart 0 fun q => { q with lccmd := 0x10000 }
def preloaded : State := demoPart0 fun q => { q with lccmd := 0x50000, preload := some { demoRequest with place := some (0, 0) } }
def killed : State := let s := naming fun l => { l with image := demoImage, killAt := some 5 }; { s with mem := demo.mem, recs := [{ recOf 0x0E with disp := some 4 }] }
/-- The same, killed by TRAP service EXIT, and with the partition locked. -/
def exited : State := { killed with recs := [exitRec] }
def lockedKill : State := killed.modPart 0 fun q => { q with tdisp := 1 }
theorem demo_request : demo.requestOf 0 = some { demoRequest with lid := 0 } := by decide +kernel
theorem demo_submits : demo.submitStatus 0 = 0 := by
  simp only [State.submitStatus, demo_request]
  decide +kernel
theorem witness_LaunchControl_submit : State.reset.submitStatus 0 = 1 ∧ demo.submitStatus 0 = 0 ∧ (demo.requestOf 0).isSome = true ∧ ((demo.requestOf 0).all fun r => decide (r.queue < 16)) = true ∧ demo.lidHeld 1 = false :=
  ⟨by decide +kernel, demo_submits, by rw [demo_request]; rfl, by rw [demo_request]; decide, by decide +kernel⟩
theorem witness_LaunchControl_commands : ((naming id).launches.all fun l => (naming id).launch (fld ((naming id).part 0).lccmd 31 16) == some l && l.ptn == 0 && l.state == .run && !l.frozen && l.lid == fld ((naming id).part 0).lccmd 31 16) = true
    ∧ State.reset.launch (fld (State.reset.part 0).lccmd 31 16) = none ∧ (preloaded.part 0).preload.isSome = true ∧ demoRequest.lid = fld (preloaded.part 0).lccmd 31 16
    ∧ (State.reset.part 0).preload = none ∧ (∀ k, k < 16 → vget (State.reset.part 0).queues k [] = []) := by decide +kernel
theorem witness_LaunchControl_start : State.reset.startable 0 = none ∧ (queued demoRequest).startable 0 = some (demoRequest, 0, 0, false) ∧ (queued demoRequest).pinPages 0 (ofLE ((demoRequest.khdr.drop 16).take 8)) (ofLE ((demoRequest.khdr.drop 12).take 2)) = some [] := by decide +kernel
theorem witness_LaunchControl_preload : behind.startable 0 = none ∧ behind.preloadable 0 = some ({ demoRequest with origin := some (0, 0) }, 0, 0, 1) := by decide +kernel
theorem witness_LaunchControl_rerun : (killed.launches.all fun l => killed.launch (fld (killed.part 0).lccmd 31 16) == some l && l.lid == fld (killed.part 0).lccmd 31 16 && l.ptn == 0 && l.killAt.isSome && killed.killRec l == some { recOf 0x0E with disp := some 4 } && exited.exits l
    && ((killed.endLaunch l.lid 2 0).pinPages 0 (l.hdr 16 8) (l.hdr 12 2)).isSome) = true ∧ ({ recOf 0x0E with disp := some 4 } : Rec).isExit = false
    ∧ (killed.part 0).tdisp = 0 ∧ (lockedKill.part 0).tdisp = 1 ∧ (lockedKill.launch (fld (lockedKill.part 0).lccmd 31 16)).isSome = true := by decide +kernel
def spent : State := launched (fun l => { l with budget := 9, used := 9 }) id
def slow : State := launched (fun l => { l with cur := 40, relock := true }) id
theorem witness_LaunchControl_launch : (spent.launches.all fun l => spent.launch l.lid == some l && l.budget != 0 && decide (l.budget ≤ l.used) && !l.expired && l.state != .hookRun) = true
    ∧ slow.time % 52 = 0 ∧ (slow.launches.all fun l => slow.launch l.lid == some l && slow.wantedCur l != l.cur && l.relock && decide (l.lockAt ≤ slow.time)) = true
    ∧ ((at_ nopWord).launches.all fun l => (at_ nopWord).wantedCur l == l.cur && (l.atolls.all fun a => ((at_ nopWord).atoll a).cur == l.cur) && l.budget == 0) = true := by decide +kernel
def lateFor (n : Option Nat) : State := let s := launched id id; { s with saved := [{ lid := 9, ptn := 0, area := demoArea, x0 := 0, y0 := 0, w := 1, newlid := n, cores := [{}] }] }
def late (inc : Nat) : Arrival := { arrival none with lid := 9, inc := inc }
theorem witness_LaunchControl_late : (lateFor none).launch 9 = none ∧ ((lateFor none).savedOf 9).isSome = true ∧ (lateFor none).stale (late 0) = false ∧ (lateFor none).transitOf (late 0) = none
    ∧ (late 0).last = true ∧ (late 0).credit = none ∧ (late 0).bytes[1]? = some (0x2001, 8) ∧ (lateFor (some 1)).stale (late 0) = false ∧ (lateFor (some 1)).transitOf (late 0) = none ∧ ((lateFor (some 1)).launch 1).isSome = true
    ∧ ((lateFor none).arrivalIsland (late 3)) = some 0 ∧ (late 3).inc ≠ ((lateFor none).island 0).inc ∧ (late 0).inc = ((lateFor none).island (late 0).isl).inc := by decide +kernel
/-- A response to an access from before a reset of its island is due. -/
def strayed : State := { State.reset with islands := State.reset.islands.set 3 { strays := [0], inc := 1 } }
theorem witness_LaunchControl_stray : strayed.strayDue 3 = true ∧ strayed.arrivalIsland (strayArrival 3 (strayed.island 3).inc) = none := by decide
/-- Partition 0 with 64 KiB stage-2 leaves, and the migration engine of island 12. -/
def moving (ph : Nat) (lines : List (Nat × Nat)) : State :=
  { demo with
    mem := Mem.writes [] (placeLE 0x10000200000 6 0x10000210001 ++ placeLE 0x10000210000 6 0x10000250001 ++ placeLE 0x10000250000 6 0x10000260001 ++ placeLE 0x10000260000 6 0x1000000000F ++ [(0x10000000005, 7)])
    lines := lines
    engines := demo.engines.set 4 { a := 0, b := 0x10000300000, la := 0, lb := 0x10000300000, phase := ph } }
def heldMove : State := { moving 1 [] with launches := (at_ nopWord).launches, cores := (at_ nopWord).cores }
theorem witness_EngineMoves : ((moving 0 []).engine 4).phase = 0 ∧ ((moving 1 []).engine 4).phase = 1 ∧ ((moving 2 []).engine 4).phase ≠ 0 ∧ ((moving 1 []).moveOf 4) = some ⟨0x10000260000, [0x10000000000], 0x10000, 0x1000030000F⟩
    ∧ heldMove.moveOf 4 = (moving 1 []).moveOf 4 ∧ heldMove.rangeHeld (heldMove.engine 4) = true ∧ (moving 1 []).rangeHeld ((moving 1 []).engine 4) = false
    ∧ { heldMove with engines := (moving 2 []).engines }.rangeHeld ((moving 2 []).engine 4) = true ∧ (moving 2 []).engineFault 4 = none ∧ (moving 2 [(0x10000000000, 0x10000000040)]).engineFault 4 = some 5 ∧ (moving 2 []).mem.wf = true
    ∧ 0x10000000000 + 0x10000 ≤ ((moving 2 []).engine 4).dest
    ∧ ((moving 3 []).engine 4).phase = 3 ∧ ((moving 3 []).moveOf 4).isSome = true ∧ (moving 3 []).rangeHeld ((moving 3 []).engine 4) = false ∧ (moving 3 []).mem.wf = true := by decide +kernel
/-- A promotion engine finds the same request malformed. -/
theorem witness_EngineMoves_refused : (demo.engine 0).phase = 0 ∧ (demo.engineRefusal 0).isSome = true := by decide +kernel
def tdisp (n : Nat) : State := demoPart0 fun q => { q with tdisp := n }
theorem witness_PartitionsAndLinks : ((tdisp 1).part 0).tdisp = 1 ∧ ((tdisp 2).part 0).tdisp = 2 ∧ ((tdisp 3).part 0).tdisp = 3 ∧ (demo.part 0).tdisp = 0 ∧ demo.ptDiscard 0 1 5 = true ∧ State.reset.ptDiscard 0 1 5 = false
    ∧ (demo.part 0).en = true ∧ (State.reset.part 0).en = false ∧ (demo.part 0).mask.testBit 7 = true ∧ (demo.island 7).rst = 0
    ∧ (trained.port 3).link = 2 ∧ (({ trained with ports := trained.ports.set 3 { link := 1 } } : State).port 3).link = 1
    ∧ ([0, 1, 2].all fun k => (demo.tierOf (0x10000000000 + k)).isSome && (demo.unready (0x10000000000 + k)).isNone && (State.reset.unready (0x10000000000 + k)).isSome) = true
    ∧ State.reset.stage = 1 ∧ 0x1FF000 + 4 ≤ 0x200000 ∧ ([0] : List Byte).headD 0 = 0 := by decide +kernel
/-- Frebry runs with its alias key; a boot loader that no error has met. -/
theorem witness_PartitionsAndLinks_host : ({ State.reset with stage := 3, akey := some (1, 2, 3) } : State).akey = some (1, 2, 3) ∧ State.reset.akey = none ∧ State.reset.err < 2 ^ 8 ∧ State.reset.stage < 2 ^ 8 := by decide
/-- A firmware image of one word that passes every test but those that the open functions of log 15 decide (R390). -/
def firmware : State :=
  { State.reset with stage := 2, bootLen := 588, mem := Mem.writes [] (placeLE 0 4 0x59425246 ++ placeLE 4 1 1 ++ placeLE 8 8 (2 ^ 64 - 1) ++ placeLE 20 4 0xFFFFFFFF ++ placeLE 24 1 12) }
theorem witness_BringUp_verified : Config.slotRevoked 0 = false → Config.minSvn ≤ 2 ^ 64 - 1 → rsaVerifies (Config.romKey 0) firmware.signedBytes (firmware.mem.bytes 64 512) = true → firmware.stage = 2 ∧ firmware.imageErr = 0 := by
  intro h1 h2 h3
  have f0 : firmware.mem.le 0 4 = 0x59425246 := by decide +kernel
  have f4 : firmware.mem.le 4 4 = 1 := by decide +kernel
  have f8 : firmware.mem.le 8 8 = 2 ^ 64 - 1 := by decide +kernel
  have f16 : firmware.mem.le 16 4 = 0 := by decide +kernel
  have f20 : firmware.mem.le 20 4 = 0xFFFFFFFF := by decide +kernel
  have f24 : firmware.mem.le 24 8 = 12 := by decide +kernel
  have f32 : firmware.mem.le 32 8 = 0 := by decide +kernel
  have f40 : firmware.mem.le 40 1 = 0 := by decide +kernel
  have f41 : firmware.mem.le 41 23 = 0 := by decide +kernel
  have hb : firmware.bootLen = 588 := rfl
  refine ⟨rfl, ?_⟩
  simp only [State.imageErr, f0, f4, f8, f16, f20, f24, f32, f40, f41, hb, h1, h3]
  simpa using h2
def resetting : State := { State.reset with islands := State.reset.islands.set 3 { rst := 1 } }
theorem witness_BringUp : State.reset.stage = 1 ∧ ({ State.reset with stage := 2 } : State).imageErr = 1 ∧ State.reset.mem.le 0 4 ≠ 0x59425246 ∧ State.reset.resetOk 3 1 = true ∧ resetting.resetOk 3 1 = false ∧ State.reset.resetOk 9 2 = true
    ∧ demo.readyBit 9 6 = true ∧ State.reset.readyBit 9 6 = false ∧ (resetMask 3).getLsbD 1 = true ∧ resetting.readyBit 3 1 = false ∧ ∀ k, k < 13 → (resetMask 3).getLsbD k = true → k = 1 ∨ demo.readyBit 3 k = true := by decide +kernel
def testing (b : Bool) (c : Dword) : State := { demo.modAtoll 3 fun t => { t with bist := b, retired := 1 } with bistctl := c }
theorem witness_BringUp_spares : ((testing false 1).atoll 3).retired.toNat &&& 2 ≠ ((testing false 1).atoll 3).retired.toNat ∧ ((testing false 1).atoll 3).retired.toNat &&& 3 = ((testing false 1).atoll 3).retired.toNat
    ∧ (∀ k, k < 8 → ((testing false 1).atoll 3).map.toNat / 16 ^ k % 16 < 9) ∧ (testing false 0).bistMay 3 = false ∧ (testing false 1).bistMay 3 = true ∧ ((testing true 1).atoll 3).bist = true ∧ ((testing true 1).atoll 3).bistPos < 9
    ∧ State.reset.log.length < 128 ∧ State.reset.tierOf 0x10000000000 = some 0 := by decide +kernel
def power (n : Nat) : State := demo.modAtoll 3 fun t => { t with state := n, launchHold := true, arrivalClose := true, retbase := 0x20000000000, duty := 1 }
def busyAtoll : State := let s := launched id id; s.modAtoll 0 fun t => { t with dutyUsed := 3, duty := 2 }
theorem witness_AtollPower : ((List.range 7).all fun n => ((power n).atoll 3).state == n && decide (((power n).atoll 3).due ≤ (power n).time) && !((power n).atoll 3).wake) = true ∧ ((power 0).atoll 3).launchHold = true ∧ ((power 0).atoll 3).arrivalClose = true
    ∧ (demo.atoll 3).launchHold = false ∧ (power 1).atollHeld 3 = false ∧ ((power 1).atoll 3).bist = false ∧ (power 1).pendingArrivals 3 = 0 ∧ busyAtoll.atollHeld 0 = true ∧ (power 2).retbaseOk 3 = true ∧ demo.retbaseOk 3 = false
    ∧ fld 52 6 0 = 52 ∧ fld 70 6 0 = 70 ∧ fld 0x300 1 0 = 0 ∧ ((power 0).atoll 3).en = true
    ∧ (if ((power 0).atoll 3).win = (power 0).cyc (3 / 4) / 64 then ((power 0).atoll 3).dutyUsed else 0) < ((power 0).atoll 3).duty
    ∧ (busyAtoll.atoll 0).duty ≤ (if (busyAtoll.atoll 0).win = busyAtoll.cyc (0 / 4) / 64 then (busyAtoll.atoll 0).dutyUsed else 0) ∧ (busyAtoll.launches.all fun l => l.atolls.contains 0) = true ∧ busyAtoll.launches.length = 1 := by decide +kernel
/-- The pools of a saved atoll lie within their sizes. -/
theorem witness_AtollPower_sizes : ((List.finRange 256).all fun c => ((power 3).core c).pool.isEmpty && ((power 3).core c).shadow.isEmpty && ((power 3).core c).poison.isEmpty) = true := by decide +kernel

/-! ### Further witnesses: launches of two cores, the harbour core, ends and edges -/

/-- At the last word of the last repetition and of the last section, at the first word of a repeated section, and with targets that no branch may take. -/
theorem witness_StreamMoves_leaves : let h := loopCpu.header 0; let t := { loopStream with pc := 20, left := 1 }; let e := { loopStream with pc := 20, left := 1, secs := [0] }
    t.pc = loopCpu.lastWord t.sec ∧ t.left ≤ 1 ∧ t.fresh = false ∧ 100 ∈ t.peers t.sec ∧ t.sec < 100 ∧ (∀ y, y ∈ t.peers t.sec → t.sec < y → 100 ≤ y)
    ∧ e.pc = loopCpu.lastWord e.sec ∧ (∀ x, x ∈ e.peers e.sec → x ≤ e.sec)
    ∧ ({ loopStream with fresh := true }).fresh = true ∧ hdrRpt h = true
    ∧ 109 ∉ (List.range (hdrLen h)).map (fun k => 0 + 8 + 12 * k) ∧ 109 ∉ (loopStream.peers 0).map (· + 8) ∧ 100 ∈ loopStream.secs ++ loopStream.hooks ∧ 100 + 8 ≤ 109 ∧ 109 < loopCpu.lastWord 100 + 12 := by decide +kernel
theorem witness_StreamMoves_harbour : 8 % 4 = 0 ∧ 8 ≤ 0x7FFFC ∧ 9 % 4 ≠ 0 ∧ 0x7FFFC < 0x80000 ∧ 0x7FFFC < 0x7FFFC + 12 := by decide
theorem witness_ControlTransfers_harbour : (wsControl.all fun i => let s := { harbourAt i with cur := ⟨.harbour, .s⟩ }
    goesB s i && s.cur.hart == .harbour && s.cur.strm == .s) = true := by decide +kernel
/-- A launch of two cores side by side. -/
def pair (f : Launch → Launch) (k0 k1 : Core → Core) : State :=
  let s := launched (fun l => f { l with khdr := l.khdr.set 28 2, sfc := 40 }) k0
  s.modCore 1 fun k => k1 { bench k with lid := (s.core 0).lid }
/-- Both have arrived at level 2, the second first; and neither is released. -/
def assembling : State := pair id (fun k => { k with ferry := sets k.ferry [(1, { open_ := true, count := 1, bits := 15, arrived := some 12 })] })
  fun k => { k with ferry := sets k.ferry [(1, { open_ := true, count := 1, bits := 15, arrived := some 9 })] }
theorem witness_FerryProtocol_pair : (assembling.launches.all fun l => l.members == [0, 1] && assembling.launch l.lid == some l && decide (12 + 18 ≤ l.sfc)) = true ∧ assembling.launches.length = 1
    ∧ atollOf 0 = atollOf 1 ∧ ((assembling.core 0).fer 2).trel = none ∧ ((assembling.core 1).fer 2).trel = none
    ∧ ((assembling.core 0).fer 2).arrived = some 12 ∧ ((assembling.core 1).fer 2).arrived = some 9 ∧ assembling.allArrived [0, 1] 2 = some 12 := by decide +kernel
/-- A freeze of two cores with a record of each: one is to go on, the other to skip its word; the second core stopped later. -/
def disposedPair (d0 d1 : Nat) : State :=
  let s := pair (fun l => { l with frozen := true, killAt := some 0 }) (fun k => { k with stop := some 8, stopped := true }) fun k => { k with stop := some 9, stopped := true }
  { s with recs := [{ recOf 0x15 with disp := some d0 }, { recOf 0x15 with seq := 8, c := 1, strm := .v, disp := some d1 }] }
theorem witness_Thaws_pair : ([disposedPair 0 1, disposedPair 1 1].all fun s => s.launches.all fun l => s.launch l.lid == some l && s.thawDue l && l.members == [0, 1] && (s.recsOf l.lid).length == 2
      && (s.recsOf l.lid).all (fun r => r.disp == some 0 || r.disp == some 1)
      && l.members.all (fun d => (s.core d).lid == l.lid && [Strm.s, .a, .v, .m].all fun q => (s.stream (.core d) q).stopped.isEmpty)
      && (s.core 0).stop == some 8 && (s.core 1).stop == some 9 && decide (8 ≤ l.sfc)
      && ((s.recsOf l.lid).filter (fun x => x.disp == some 1 && x.c == 1 && x.strm == .v)).length == 1) = true := by decide +kernel
/-- A record to be killed, one to be saved and one whose hook runs, each behind another. -/
theorem witness_Thaws_behind : ([(0, 4, 0x15), (0, 3, 0x15), (0, 2, 0x0E)].all fun x => let r : Rec := { recOf x.2.2 with seq := 8, c := 1, strm := .v, disp := some x.2.1 }
    let s := { disposedPair 0 0 with recs := [{ recOf 0x15 with disp := some x.1 }, r] }
    s.launches.all fun l => s.launch l.lid == some l && s.thawDue l && decide (l.ptn < 8) && s.recsOf l.lid == [{ recOf 0x15 with disp := some x.1 }, r] && (s.core 1).cpu.pend.isEmpty) = true := by decide +kernel
/-- A record named by its sequence number between others. -/
theorem witness_Dispositions_among : let a : Rec := recOf 0x0E; let r : Rec := { recOf 0x15 with seq := 8, c := 1 }; let b : Rec := { recOf 0x15 with seq := 9, disp := some 0 }
    let s := { posted 0x15 with recs := [a, r, b] }
    s.recs = [a] ++ r :: [b] ∧ r.disp = none ∧ r.settled = false ∧ (∀ x, x ∈ [a] ++ [b] → x.seq ≠ 8 ∧ (x.lid = r.lid → x.disp ≠ some 4)) ∧ s.harbour.pl = 2 :=
  ⟨rfl, rfl, rfl, by decide, by decide +kernel⟩
/-- Entries of several effects: a ring, a queue, a checksum, the sort array, nibbles, counts. -/
def landingsMore : List (List Eff) := [[.ring 3 {}, .ringTail 1 2, .ringHead 1 1], [.queue 3 {}, .qTail 1 2, .qHead 1 1], [.ck 1 9, .scfg 6, .vprog 2], [.flags 3, .clrFlags 1], [.sort { valid := true, cells := [] } 0], [.hot 3 1 2],
  [.pool [(5, 6)] [70] [64], .nib [(9, true, 3)]], [.g 3 77 true, .p 2 true]]
theorem witness_ResultsLandOrStop_more : (landingsMore.all fun e => ((pending e).core 0).cpu.pend[0]? == some (pendOf e) && (pendOf e).met.isEmpty && (pendOf e).newer.isEmpty && (pendOf e).land < (pending e).now (.core 0)
    && e.all fun f => match f with | .detect _ _ _ => false | .acc _ _ _ => false | _ => true) = true := by decide +kernel
/-- A copy to a peer part's window over port 3, that inverts bit 5 of byte 2 of what goes through it. -/
def peerHdl : Handle := { hdl with v := 0, pg := { page with base := 0, frame := 2 ^ 47 + 2 * 2 ^ 41 } }
def peerEntry : Copy := { entry (poolDesc 0x240) with dh := peerHdl }
def overPeer : State := { copying peerEntry with ports := State.reset.ports.set 3 { link := 2, peer := 0x200, known := true, inj := BitVec.ofNat 64 (1 + 5 * 2 ^ 8 + 2 * 2 ^ 16) } }
theorem witness_CopyStarts_peer : (overPeer.core 0).copies[0]? = some peerEntry ∧ peerEntry.void = false ∧ (descOf peerEntry.desc).dk = 2 ∧ peerEntry.crc = none
    ∧ (let m := movedBy overPeer 0 peerEntry; overPeer.portsOf (descOf peerEntry.desc) m = (List.range m.sent.length).map (3, ·) ∧ 2 < m.sent.length)
    ∧ (overPeer.port 3).inj.getLsbD 0 = true ∧ fld (overPeer.port 3).inj 47 16 = 2 := by decide +kernel
/-- A copy that has arrived before its published landing, to its own pool. -/
theorem witness_CopyDeliveries_done : let s := copying { entry (poolDesc 0x140) with started := true, done := true, pub := true }
    (s.launches.all fun l => destOf (s.core 0) l (descOf (poolDesc 0x140)) == some (0, 0) && s.launchOf 0 == some l) = true ∧ (descOf (poolDesc 0x140)).dk = 0 ∧ (descOf (poolDesc 0x240)).dk ≠ 0 := by decide +kernel
/-- A walk through a range that an engine has marked. -/
def barredWalk : State := { walking with engines := walking.engines.set 4 { a := 0, b := 0x10000300000, la := 1, lb := 0x10000300000, phase := 1 } }
theorem witness_FreezesAndWalks_barred : (barredWalk.core 0).cpu.walks = [walkOf] ∧ barredWalk.walkDue (.core 0) walkOf = true ∧ barredWalk.barred walkOf.root1 walkOf.root2 (barredWalk.core 0).cpu 0 0x12345 = true := by
  refine ⟨?_, by decide +kernel, by decide +kernel⟩
  show (walkingCore.core 0).cpu.walks = _
  rw [walkingCore, launched_core]
theorem witness_SystemRegisters_read_back : (∀ p, p < 8 → (State.reset.part p).en = false) ∧ fld 32 5 0 ≤ 32 ∧ 550 ≤ fld 700 9 0 ∧ fld 700 9 0 ≤ 950 ∧ State.reset.harbour.hwNow.contains 0x806 = false := by decide +kernel

/-! ### Small values worked out from the rules -/

/-- STSTEP with a register source field that R181 marks 0 (R151). -/
theorem test_ststep_reserved : resvOk (.ststep head0 (pr 8 0 1 0 8)) = false ∧ resvOk (.ststep head0 (pr 0 0 0 0 8)) = true := by decide
/-- Overflow towards zero gives the largest finite FP16 in both columns of R99: the SAT bit decides nothing. -/
theorem test_overflow_sat : fp16.overflow 2 true false = (0x7BFF, 16 + 4) ∧ fp16.overflow 0 true false = (0x7BFF, 16 + 4 + 32) ∧ fp16.overflow 0 false true = (0xFC00, 16 + 4) := by decide
/-- One lane on that holds a signalling NaN: VRED.max delivers the canonical FP32 NaN (R96, R233). -/
theorem test_reduction_nan : ((redFn .max ⟨12, 0⟩ [⟨12, 0⟩] 0).map fun f => f [some [0x7F800001]]) = some (0x7FC00000, 1) := by decide +kernel
/-- A tie between 5/64 and 11/64 at scale 1 goes to the even index, 2 (R109; the choice of log 81). -/
theorem test_q4n_tie : encQ4 0 (.fin false (8 * 2 ^ 143)) (.fin false (2 ^ 149)) = (2, 16) := by decide +kernel
/-- crc32c of the nine digits (R288). -/
theorem test_crc32c : crc32c 0 ([0x31, 0x32, 0x33, 0x34, 0x35, 0x36, 0x37, 0x38, 0x39] : List Byte) = 0xE3069283 := by decide +kernel
/-- A nibble put into a byte leaves the other (R108, R216). -/
theorem test_nibble : putNibble 0xA5 false 3 = 0xA3 ∧ putNibble 0xA5 true 3 = 0x35 := by decide
/-- A word of the vector unit over regions whose bytes are given: the bytes and flags that it will write. -/
def yields (regs : List (Nat × Vector Dword 4)) (bytes : List (Nat × Byte)) (i : Instr) : List (Nat × Byte) × BitVec 32 :=
  let s := (at_ i).modCore 0 fun k => { k with st := sets k.st regs, pool := k.pool.writes bytes }
  match exec i s with
  | .next t => ((t.core 0).cpu.pend.flatMap fun (e : Pend) => e.effs).foldl (fun x e => match e with | .pool bs _ _ => (x.1 ++ bs, x.2) | .flags f => (x.1, x.2 ||| f) | _ => x) ([], 0)
  | _ => ([], 0)
def fours : List (Nat × Byte) := placeLE 0x5000 4 0x40400000
/-- The reciprocal of 3.0 to 12 bits, and one Newton step from it (worked example of R229 and R230; NX is bit 4, R96). -/
theorem test_vrcp_vnr : yields [(5, reg 12 0x5000 1 1 0), (6, reg 12 0x6000 1 1 0)] fours (.vrcp head0 (pv 0 0 511 0 5 6)) = (placeLE 0x6000 4 0x3EAAB000, 16)
    ∧ yields [(5, reg 12 0x5000 1 1 0), (6, reg 12 0x6000 1 1 0), (7, reg 12 0x7000 1 1 0)] (fours ++ placeLE 0x6000 4 0x3EAAB000) (.vnr head0 (pv 0 0 511 6 5 7)) = (placeLE 0x7000 4 0x3EAAAAAA, 16) := by decide +kernel
def ones : List (Nat × Byte) := placeLE 0x5000 4 0x3F800000 ++ (List.range 7).flatMap fun i => placeLE (0x5004 + 4 * i) 4 0x33800000
def eights : List (Nat × Vector Dword 4) := [(5, reg 12 0x5000 1 8 0), (6, reg 12 0x6000 1 8 0), (7, reg 12 0x7000 1 1 0)]
/-- The tree and the sequence over 1 and seven times 2^-24 (worked example of R112 to R114). -/
theorem test_vred_vscan : yields eights ones (.vred head0 (pv 0 0 511 0 5 7)) = (placeLE 0x7000 4 0x3F800003, 16)
    ∧ ((yields eights ones (.vscan head0 (pv 0 0 511 0 5 6))).1.drop 28) = placeLE 0x601C 4 0x3F800000 := by decide +kernel
/-- The Q4N block of the worked example of R108 to R110, its scale 2.0. -/
def blockOf4 : List (Nat × Byte) := placeLE 0x5000 4 0x40000000 ++ placeLE 0x5004 4 0xBE800000 ++ placeLE 0x5008 4 0x3F080000 ++ placeLE 0x500C 4 0x3DA00000
theorem test_vqnt_q4n : let s := (at_ (.vqnt head0 (pv 0 1 511 0 5 20))).modCore 0 fun k => { k with st := sets k.st [(5, reg 12 0x5000 1 4 0), (20, reg 14 0x12000 1 4 0 (0x11000 + 2 ^ 23 + 2 * 2 ^ 24))], pool := k.pool.writes blockOf4 }
    ((match exec (.vqnt head0 (pv 0 1 511 0 5 20)) s with
     | .next t => ((t.core 0).cpu.pend.flatMap fun (e : Pend) => e.effs).foldl (fun (u : State) e => u.land1 (.core 0) none e) t
     | _ => s).core 0).pool.le 0x12000 2 = 0x13A7 := by decide +kernel
/-- SHA-512 of "abc" (FIPS 180-4, its published example): the first eight bytes (R390; log 104). -/
theorem test_sha512 : (sha512 [0x61, 0x62, 0x63]).take 8 = [0xDD, 0xAF, 0x35, 0xA1, 0x93, 0x61, 0x7A, 0xBA] ∧ (sha512 [0x61, 0x62, 0x63]).length = 64 := by decide +kernel

end Sys2Proof.Tests
end

section
/-! PROOFS. The grid of exposed cores (R17): a core number is its place written in base 32, and an island number is the island's place in a grid of 4 columns by 2 rows written in base 4. -/

namespace Sys2Proof.Machine

/-! ### A core number and its place -/

theorem coreX_lt (c : CoreId) : coreX c < 32 := Nat.mod_lt _ (by decide)

theorem coreY_lt (c : CoreId) : coreY c < 8 := Nat.div_lt_of_lt_mul c.isLt

theorem val_coreAt {x y : Nat} (hx : x < 32) (hy : y < 8) : (coreAt x y).val = x + 32 * y := by
  have hlt : x + 32 * y < 256 := by omega
  simp only [coreAt, Nat.mod_eq_of_lt hx, Nat.mod_eq_of_lt hlt]

theorem coreX_coreAt {x y : Nat} (hx : x < 32) (hy : y < 8) : coreX (coreAt x y) = x := by
  rw [coreX, val_coreAt hx hy, Nat.add_mul_mod_self_left, Nat.mod_eq_of_lt hx]

theorem coreY_coreAt {x y : Nat} (hx : x < 32) (hy : y < 8) : coreY (coreAt x y) = y := by
  rw [coreY, val_coreAt hx hy, Nat.add_mul_div_left _ _ (by decide), Nat.div_eq_of_lt hx, Nat.zero_add]

@[simp] theorem coreAt_coreX_coreY (c : CoreId) : coreAt (coreX c) (coreY c) = c := by
  apply Fin.ext
  rw [val_coreAt (coreX_lt c) (coreY_lt c), coreX, coreY, Nat.mod_add_div]

/-! ### The island and the atoll of a place -/

theorem islandOf_coreAt {x y : Nat} (hx : x < 32) (hy : y < 8) : islandOf (coreAt x y) = islandAt x y := by
  rw [islandOf, coreX_coreAt hx hy, coreY_coreAt hx hy]

theorem atollOf_coreAt {x y : Nat} (hx : x < 32) (hy : y < 8) : atollOf (coreAt x y) = atollAt x y := by
  rw [atollOf, coreX_coreAt hx hy, coreY_coreAt hx hy]

theorem islandAt_mod_four {x : Nat} (y : Nat) (hx : x < 32) : islandAt x y % 4 = x / 8 := by
  have hcol : x / 8 < 4 := Nat.div_lt_of_lt_mul hx
  rw [islandAt, Nat.add_mul_mod_self_left, Nat.mod_eq_of_lt hcol]

theorem islandAt_div_four {x : Nat} (y : Nat) (hx : x < 32) : islandAt x y / 4 = y / 4 := by
  have hcol : x / 8 < 4 := Nat.div_lt_of_lt_mul hx
  rw [islandAt, Nat.add_mul_div_left _ _ (by decide), Nat.div_eq_of_lt hcol, Nat.zero_add]

theorem islandAt_lt {x y : Nat} (hx : x < 32) (hy : y < 8) : islandAt x y < 8 := by
  unfold islandAt
  omega

theorem atollAt_lt {x y : Nat} (hx : x < 32) (hy : y < 8) : atollAt x y < 32 := by
  have hisland := islandAt_lt hx hy
  unfold atollAt
  omega

/-- Island n is the one whose column of islands is n mod 4 and whose row of islands is n div 4. -/
theorem islandAt_eq_iff {x : Nat} (y n : Nat) (hx : x < 32) :
    islandAt x y = n ↔ x / 8 = n % 4 ∧ y / 4 = n / 4 := by
  constructor
  · rintro rfl
    exact ⟨(islandAt_mod_four y hx).symm, (islandAt_div_four y hx).symm⟩
  · rintro ⟨hcol, hrow⟩
    rw [islandAt, hcol, hrow, Nat.mod_add_div]

/-- The columns and rows that an island covers. -/
theorem islandAt_eq_iff_covers {x : Nat} (y n : Nat) (hx : x < 32) :
    islandAt x y = n ↔
      8 * (n % 4) ≤ x ∧ x ≤ 8 * (n % 4) + 7 ∧ 4 * (n / 4) ≤ y ∧ y ≤ 4 * (n / 4) + 3 := by
  have hcols : x / 8 = n % 4 ↔ 8 * (n % 4) ≤ x ∧ x ≤ 8 * (n % 4) + 7 := by omega
  have hrows : y / 4 = n / 4 ↔ 4 * (n / 4) ≤ y ∧ y ≤ 4 * (n / 4) + 3 := by omega
  rw [islandAt_eq_iff y n hx, hcols, hrows, and_assoc]

end Sys2Proof.Machine

namespace Sys2Proof.Proofs

open Sys2Proof Sys2Proof.Machine

/-- Settles O6: place and number determine each other, and an island is a block of the grid that its number names in base 4. -/
theorem gridPlaces : Obligations.GridPlaces := by
  refine ⟨fun x y hx hy => ?places, fun c => ?cores, fun n c _ => ?blocks⟩
  case places =>
    rw [coreX_coreAt hx hy, coreY_coreAt hx hy, islandOf_coreAt hx hy, atollOf_coreAt hx hy]
    exact ⟨rfl, rfl, rfl, rfl, atollAt_lt hx hy⟩
  case cores => exact ⟨coreX_lt c, coreY_lt c, coreAt_coreX_coreY c⟩
  case blocks => exact islandAt_eq_iff_covers (coreY c) n (coreX_lt c)

end Sys2Proof.Proofs
end

section
/-! PROOFS. PLOG and SEL (R169, R170): which words pass the checks made on the word alone, the truth table of PLOG, and the completion of both words by their plans. -/

namespace Sys2Proof

/-! ### The low byte of a word -/

/-- OP lies in bits [7:0] (R144). -/
theorem extractLsb'_encHead_op (op : Byte) (h : Head) : (encHead op h).extractLsb' 0 8 = op :=
  BitVec.extractLsb'_append_eq_right

theorem extractLsb'_encR_op (op : Byte) (h : Head) (p : PR) : (encR op h p).extractLsb' 0 8 = op := by
  have hlow : (encR op h p).extractLsb' 0 8 = (encHead op h).extractLsb' 0 8 :=
    BitVec.extractLsb'_append_eq_of_add_le (by decide)
  rw [hlow, extractLsb'_encHead_op]

/-! ### Register indices within their files -/

theorem gI_iff (x : BitVec 9) : Fields.gI x = true ↔ x.toNat < 64 := by
  simp [Fields.gI, BitVec.lt_def]

theorem gW_iff (x : BitVec 9) : Fields.gW x = true ↔ 0 < x.toNat ∧ x.toNat < 64 := by
  simp [Fields.gW, BitVec.lt_def]

theorem pI_iff (x : BitVec 9) : Fields.pI x = true ↔ x.toNat < 16 := by
  simp [Fields.pI, BitVec.lt_def]

theorem pW_iff (x : BitVec 9) : Fields.pW x = true ↔ 0 < x.toNat ∧ x.toNat < 16 := by
  simp [Fields.pW, BitVec.lt_def]

/-! ### The words of PLOG and SEL that pass -/

theorem resvOk_plog_iff (h : Head) (p : PR) :
    resvOk (.plog h p) = true ↔ h.fn.toNat ≤ 7 ∧ p.x = 0 ∧ p.imm = 0 := by
  simp [resvOk, Fields.zX, Fields.zI, BitVec.le_def, and_assoc]

theorem idxOk_plog_iff (h : Head) (p : PR) :
    idxOk (.plog h p) = true ↔ (0 < p.d.toNat ∧ p.d.toNat < 16) ∧ p.a.toNat < 16 ∧ p.b.toNat < 16 := by
  simp only [idxOk, Bool.and_eq_true, pW_iff, pI_iff, and_assoc]

theorem resvOk_sel_iff (h : Head) (p : PR) :
    resvOk (.sel h p) = true ↔ h.fn = 0 ∧ p.x.toNat < 16 ∧ p.imm = 0 := by
  simp [resvOk, Fields.zI, BitVec.lt_def, and_assoc]

theorem idxOk_sel_iff (h : Head) (p : PR) :
    idxOk (.sel h p) = true ↔ (0 < p.d.toNat ∧ p.d.toNat < 64) ∧ p.a.toNat < 64 ∧ p.b.toNat < 64 := by
  simp only [idxOk, Bool.and_eq_true, gW_iff, gI_iff, and_assoc]

/-- X[4] is the bit of value 16. -/
theorem sixteen_le_of_getLsbD_four {x : BitVec 5} (hx : x.getLsbD 4 = true) : 16 ≤ x.toNat :=
  Nat.ge_two_pow_of_testBit hx

namespace Machine

/-! ### What PLOG and SEL do -/

/-- p0 reads 1. -/
theorem getP_zero (u : Cpu) : u.getP 0 = true := rfl

/-- PLOG's operation is the entry of its table at the two bits a, b read as a number of base 2. -/
theorem plogOp_eq_plogTable (fn : BitVec 4) (a b : Bool) :
    plogOp fn.toNat a b = (plogTable fn).getD (2 * a.toNat + b.toNat) false := by
  unfold plogOp plogTable
  generalize fn.toNat = n
  match n with
  | 0 | 1 | 2 | 3 | 4 | 5 | 6 | _ + 7 => cases a <;> cases b <;> rfl

/-- A PLOG that goes leaves its table's entry pending for p[D]. -/
theorem plog_completes (h : Head) (p : PR) (s : State) (hgo : s.goes (.plog h p)) :
    s.completes (.plog h p) 1 .next (s.draw.post 1
      [.p p.d.toNat ((plogTable h.fn).getD (2 * (s.me.getP p.a.toNat).toNat + (s.me.getP p.b.toNat).toNat) false)]) := by
  rw [← plogOp_eq_plogTable]
  exact completes_of_goes (.plog h p) s rfl hgo

/-- A SEL that goes leaves the chosen source pending for g[D], with the taint of both. -/
theorem sel_completes (h : Head) (p : PR) (s : State) (hgo : s.goes (.sel h p)) :
    s.completes (.sel h p) 1 .next (s.draw.post 1
      [.g p.d.toNat (if s.me.getP (p.x.toNat % 16) then s.me.getG p.a.toNat else s.me.getG p.b.toNat)
        (s.me.getT p.a.toNat || s.me.getT p.b.toNat)]) :=
  completes_of_goes (.sel h p) s rfl hgo

end Machine

end Sys2Proof

namespace Sys2Proof.Proofs

open Sys2Proof Sys2Proof.Machine

/-- Settles O11: the plan posts plogOp, which is the table's entry, and the two checks of the word alone are bounds on its fields. -/
theorem predicateLogic : Obligations.PredicateLogic := by
  intro h p s
  refine ⟨plog_completes h p s, fun hbad => ?reserved, getP_zero s.me, fun hbad => ?index, extractLsb'_encR_op 0x13 h p⟩
  case reserved =>
    rw [← Bool.not_eq_true, resvOk_plog_iff]
    rintro ⟨hfn, hx, himm⟩
    obtain hfn' | hx' | himm' := hbad
    · exact absurd hfn (Nat.not_le.mpr hfn')
    · exact hx' hx
    · exact himm' himm
  case index =>
    rw [← Bool.not_eq_true, idxOk_plog_iff]
    rintro ⟨⟨hd0, hd⟩, ha, hb⟩
    obtain hzero | hlarge := hbad
    · simp [hzero] at hd0
    · omega

/-- Settles O12: the plan posts the chosen source with both taints, and the two checks of the word alone are bounds on its fields. -/
theorem selection : Obligations.Selection := by
  intro h p s
  refine ⟨sel_completes h p s, fun hbad => ?reserved, fun hbad => ?index, extractLsb'_encR_op 0x10 h p, rfl⟩
  case reserved =>
    rw [← Bool.not_eq_true, resvOk_sel_iff]
    rintro ⟨hfn, hx, himm⟩
    obtain hx4 | hfn' | himm' := hbad
    · exact absurd hx (Nat.not_lt.mpr (sixteen_le_of_getLsbD_four hx4))
    · exact hfn' hfn
    · exact himm' himm
  case index =>
    rw [← Bool.not_eq_true, idxOk_sel_iff]
    rintro ⟨⟨-, hd⟩, ha, hb⟩
    omega

end Sys2Proof.Proofs
end
